-- ==== Sys2Proof/Word.lean ====
section
/-!
DEFINITION. The word types of the HZ224 and the two names every layer needs: a port and a global slot.
-/

namespace Sys2Proof

/-- A byte of the exchange RAM or of flash (R173, R109). -/
abbrev Byte := BitVec 8

/-- A 16-bit value: a header field, a context channel, the data lines of a port (R177, R184). -/
abbrev Word := BitVec 16

/-- A byte address of the exchange RAM as the 13 address lines carry it (R177). -/
abbrev Addr := BitVec 13

/-- The two ports: FP (fuel) and BP (brake). -/
inductive Port where
  | fp
  | bp
  deriving DecidableEq, Repr

/-- The port that is not `p`. -/
def Port.other : Port → Port
  | .fp => .bp
  | .bp => .fp

/-- A global slot number, 0..191 (R174). -/
abbrev Slot := Fin 192

/-- Bytes that did not take what was written: the offset and the byte read there instead. -/
abbrev Marred := List (Nat × Byte)

end Sys2Proof
end

