-- ==== Sys2Proof/Syntax.lean ====
section
/-!
DEFINITION. The commands of the HZ224: one constructor per row of spec/opcode_table.json, in the table's order.
The table gives its rows no operands and no bits; the operands are read from the rules (assumption log 6).
-/

namespace Sys2Proof

/-- What pulled the part into reset (R182): RESETN low for so many nanoseconds, or SUPGOOD low. -/
inductive ResetCause where
  | resetn (lowNs : Nat)
  | supgood
  deriving DecidableEq, Repr

/-- What a reset leaves in flash of the program or erase it cuts (R111, R182; assumption log 9).
For a program: how many of its lines had finished, in the order they are programmed, and what the line then being
programmed reads (offsets 0..7, an unlisted byte still blank). For an erase: the bytes of the sector that no longer
read as before (an unlisted byte reads as before). -/
structure FlashCut where
  lines  : Nat
  line   : Marred
  erased : Marred
  deriving DecidableEq, Repr

/-- The levels of the strap pins at reset release (R174, R177, R181). -/
structure Straps where
  fw16 : Bool
  bw16 : Bool
  fbe  : Bool
  bbe  : Bool
  part : BitVec 2
  svc  : Bool
  deriving DecidableEq, Repr

/-- Which events of a request a request command makes (R137, R138; assumption log 39): both its take and, where the
request then waits for nothing, its completion, or one of the two alone. -/
inductive RequestPart where
  | whole | take | completion
  deriving DecidableEq, Repr

/-- A port's request, and which of its events the command makes. -/
structure RequestStep where
  port : Port
  part : RequestPart
  deriving DecidableEq, Repr

/-- The commands, one per row of the table. Port accesses carry the 13 address lines and, for a write, the 16 data
lines (R177); an operand `Marred` is what the flash array reads where it did not take what was written. RELEASE
carries the port's write, if one is made, and how many of the port's releases that wait the publisher then takes
(R168, R176; assumption log 22). -/
inductive Instr where
  | resetEntry (cause : ResetCause) (cut : FlashCut)
  | resetRelease (straps : Straps)
  | restoreFinish
  | ignChange (level : Bool)
  | ignDebounceExpiry
  | rideEndAccounting
  | endingCompletion
  | rideTimeSecond
  | proveOutExpiry
  | holdLimitExpiry
  | releaseOnCompletion
  | silenceTimerExpiry (p : Port)
  | passTimerExpiry (p : Port)
  | slotVisit (p : Port)
  | checkByteWrite (p : Port) (a : Addr) (d : Word)
  | post (p : Port) (a : Addr) (d : Word)
  | withdrawal (p : Port) (a : Addr) (d : Word)
  | handBack (p : Port) (a : Addr) (d : Word)
  | release (p : Port) (write : Option (Addr × Word)) (taken : Nat)
  | contextLowByteStage (p : Port) (a : Addr) (d : Word)
  | contextCommit (p : Port) (a : Addr) (d : Word)
  | strayWrite (p : Port) (a : Addr) (d : Word)
  | portWrite (p : Port) (a : Addr) (d : Word)
  | readPairCapture (p : Port) (a : Addr)
  | capturedHighRead (p : Port) (a : Addr)
  | adopt (r : RequestStep)
  | clearSlot (r : RequestStep)
  | clearPort (r : RequestStep)
  | fetchFrame (r : RequestStep)
  | fetchQualifier (r : RequestStep)
  | readRetained (r : RequestStep)
  | retainedRead
  | eraseRetained (r : RequestStep)
  | acknowledge (r : RequestStep)
  | badRequest (r : RequestStep)
  | publishPassStart
  | publishPassEnd
  | publishSpacingExpiry
  | blinkPhaseBoundary
  | writeInhibitExpiry
  | imageBegin
  | imageCompletion (marred : Marred)
  | compactionStart
  | erasePhaseStart (retireLine : Marred)
  | spoiledEraseStart
  | eraseEnd (residue : Marred) (retireLine : Marred)
  | eraseSuspended
  | eraseResume
  | retainedEntryBegin
  | retainedEntryCompletion (marred : Marred)
  | retainedEraseStart
  | retainedEraseEnd (residue : Marred)
  | otherReadEmptiesCapture (p : Port) (a : Addr)
  deriving DecidableEq, Repr

end Sys2Proof
end

