-- ==== Sys2Proof/Decode.lean ====
section
/-!
DEFINITION. The words of the commands: none. The HZ224 has no register window and no command bus (chapter 10), and no
row of spec/opcode_table.json gives its command any bits.
-/

namespace Sys2Proof

/-- The command a word spells by the table's bits: the table gives no row any, so no word spells a command. -/
def decodeTableWord (_nbits _w : Nat) : Option Instr := none

end Sys2Proof
end

