-- ==== Sys2Proof/Config.lean ====
section
/-!
DEFINITION. What the HZ224 fixes once and for all: the address map (R173), the partition (R174), the periods of the
timers and the sizes of the flash array. Times are in microseconds of the part's time base.
Nothing here is a free value: what the spec leaves open about flash cells comes in as an operand of a command
(assumption log 8).
-/

namespace Sys2Proof.Config

/-- The exchange RAM occupies byte addresses 0x0000..0x1FFF (R173). -/
def ramSize : Nat := 0x2000

/-- Slot status array, one byte per global slot (R163). -/
def statusBase : Nat := 0x0040
/-- Record mirror, 48 entries of 16 bytes (R164). -/
def mirrorBase : Nat := 0x0100
/-- Trail ring, 64 entries of 8 bytes (9.4). -/
def trailBase : Nat := 0x0400
/-- Tally boards, slot s at 0x0600 + 8s (1.1). -/
def tallyBase : Nat := 0x0600
/-- Profile areas, entry s at 0x0C00 + 4s (R173). -/
def profileBase : Nat := 0x0C00

/-- Request cell of a port (8.1). -/
def cellBase : Port → Nat
  | .fp => 0x0F00
  | .bp => 0x0F40

/-- Context page of a port (4.1). -/
def contextBase : Port → Nat
  | .fp => 0x0F80
  | .bp => 0x0FA0

/-- Setup block of a port (R173). -/
def setupBase : Port → Nat
  | .fp => 0x0FC0
  | .bp => 0x0FE0

/-- Channel lists of a port (R173). -/
def listsBase : Port → Nat
  | .fp => 0x1000
  | .bp => 0x1020

/-- Release byte of a port (R168). -/
def releaseAddr : Port → Nat
  | .fp => 0x1040
  | .bp => 0x1041

/-- The number of FP slots under a partition code (R174). -/
def nF (part : BitVec 2) : Nat :=
  match part.toNat with
  | 0 => 96
  | 1 => 128
  | 2 => 64
  | _ => 160

/-- The IGN debounce time, 50 ms (R82). -/
def debounceTime : Nat := 50000
/-- Prove-out, 2 s (R88). -/
def proveOutTime : Nat := 2000000
/-- The hold limit, 3 s (R97). -/
def holdTime : Nat := 3000000
/-- One second of ride time (R87). -/
def secondTime : Nat := 1000000
/-- The publish spacing, 10 ms (R158). -/
def spacingTime : Nat := 10000
/-- The write inhibit, 5 ms (R112). -/
def inhibitTime : Nat := 5000
/-- One step of a silence or stale limit code, 50 ms (R63, R98). -/
def limitStep : Nat := 50000
/-- The blink cycle, 1000 ms (R102). -/
def blinkCycle : Nat := 1000000
/-- Every boundary of R101 lies on a multiple of 125 ms. -/
def blinkStep : Nat := 125000
/-- The shortest low level of RESETN that is recognised, 1 µs in ns (R182). -/
def resetPulseNs : Nat := 1000

/-- The pass period of a pass period code 0..3 (R5). -/
def passPeriod (code : Nat) : Nat :=
  match code with
  | 0 => 5000
  | 1 => 10000
  | 2 => 20000
  | _ => 40000

/-- The bytes of one flash sector (R109). -/
def sectorBytes : Nat := 2048
/-- The bytes of one flash line (R109). -/
def lineBytes : Nat := 8
/-- The retire line, which no image reaches (R109). -/
def retireLine : Nat := 255
/-- The retained sector's number in the flash address space; the log sectors are 0..15. -/
def retainedSector : Nat := 16
/-- The largest sequence number an image can carry (R114). -/
def maxSequence : Nat := 0xFFFFFFFF

end Sys2Proof.Config
end

