-- ==== Sys2Proof/Machine/State.lean ====
section
/-!
DEFINITION. Everything the HZ224 holds, as plain data, block by block as 00_scope.md's block overview names them,
and the machine right after reset. Timers are the moment on the time base at which they expire, or none.
-/

namespace Sys2Proof.Machine

/-- No command of the HZ224 ends in a fault: what the spec calls a fault is state the part goes on from (a barred
slot, a silent port, a FAILED store). The type has no constructor, so none can be raised. Safe. -/
inductive Fault where
  deriving DecidableEq, Repr

/-- A command the machine gives no meaning. -/
inductive Refusal where
  /-- Raised by an arm of `exec` whose command has no meaning yet; no arm does. Safe: the machine stops. -/
  | notModelled (mnemonic : String)
  deriving DecidableEq, Repr

/-- The five states of a qualifier (2.1). -/
inductive QState where
  | idle | pending | confirmed | fading | historic
  deriving DecidableEq, Repr

/-- The four ride states (5.1). -/
inductive RideState where
  | waiting | noRide | riding | ending
  deriving DecidableEq, Repr

/-- The four lamp patterns (R101). -/
inductive Pattern where
  | off | steady | slow | fast
  deriving DecidableEq, Repr

/-- The store states (R111). -/
inductive StoreState where
  | starting | ready | failed
  deriving DecidableEq, Repr

/-- The states of a request cell (R135). -/
inductive CellState where
  | idle | posted | taken | answered
  deriving DecidableEq, Repr

/-- The answer statuses of R141. -/
inductive Status where
  | ok | badRequest | badTarget | notAdopted | rideLocked | locked | absent | storeFault
  deriving DecidableEq, Repr

/-- The two kinds of frame (R66). -/
inductive FrameKind where
  | first | latest
  deriving DecidableEq, Repr

/-- The states of a log sector (R110); `unknown` stands from reset release until restore reads it (R111). -/
inductive SectorState where
  | unknown | erased | opened | full | erasing | spoiled | retired
  deriving DecidableEq, Repr

/-- The five header fields under read pairing (R179). -/
inductive PairField where
  | generation | rideNumber | rideTime | writeCount | readMark
  deriving DecidableEq, Repr

/-- What a port's latest read drove on its data lines (R177). -/
inductive ReadOut where
  | nothing
  | byte (b : Byte)
  | word (d : Word)
  deriving DecidableEq, Repr

/-- The qualification engine's state for one slot (R3, R10, R11, R14). -/
structure SlotEngine where
  touched  : Bool
  held     : Nat
  barred   : Bool
  seenPass : Byte
  seenFail : Byte
  deriving DecidableEq, Repr

/-- One qualifier (2.1). -/
structure Qualifier where
  state         : QState
  m             : Int
  fade          : Nat
  forget        : Nat
  unrecorded    : Bool
  tested        : Bool
  failed        : Bool
  passedMature  : Bool
  deriving DecidableEq, Repr

/-- A slot's profile entry as the adopted copy holds it (11.3, R143). -/
structure Profile where
  stepUp      : Nat
  jump        : Bool
  stepDown    : Nat
  enable      : Bool
  fadeRides   : Nat
  cls         : Fin 4
  list        : Fin 4
  forgetRides : Nat
  deriving DecidableEq, Repr

/-- The setup fields and channel lists of a port's adopted copy (R2, R143). The profile entries of the copy stand
in `State.profiles` under their global slot. -/
structure AdoptedCopy where
  passCode    : Nat
  inverted    : Bool
  staleCode   : Nat
  silenceCode : Nat
  reader      : Port
  threshold   : Nat
  lists       : Vector Byte 32
  deriving DecidableEq, Repr

/-- What the part keeps for each port: the port interface (R178, R179, R175), the values of its releases that the
publisher has not taken, oldest first (R168, R176), the qualification engine's port
state (R2, R5, R6), the declined count (R48), the silence watch (R98), the cell state (R134), the last-write times
of its context channels (R62; a channel's never-written flag is set exactly while it has none), its lamp (R103,
R105) and its attention line (R171). -/
structure PortState where
  wide       : Bool
  swapped    : Bool
  staging    : Option (Fin 16 × Byte)
  capture    : Option (PairField × Byte)
  readout    : ReadOut
  stray      : Bool
  releases   : List Byte
  adopted    : Bool
  copy       : Option AdoptedCopy
  passDue    : Option Nat
  passPos    : Option Nat
  owed       : Bool
  declined   : Nat
  silenceDue : Option Nat
  silent     : Bool
  cell       : CellState
  channels   : Vector (Option Nat) 16
  steady     : Nat
  slow       : Nat
  fast       : Nat
  shown      : Pattern
  lamp       : Bool
  attn       : Bool
  deriving DecidableEq, Repr

/-- One record in use (R42). `urgent` is the store's urgent attribute of the record's dirty mark (R53). -/
structure Record where
  slot       : Slot
  state      : QState
  cls        : Fin 4
  occurrence : Nat
  onset      : Nat
  firstConf  : Nat
  latestConf : Nat
  activity   : Nat
  fade       : Nat
  forget     : Nat
  first      : Option (Fin 64)
  latest     : Option (Fin 64)
  persisted  : Bool
  dirty      : Bool
  urgent     : Bool
  deriving DecidableEq, Repr

/-- The 19 bytes of a frame (11.6). -/
abbrev Frame := Vector Byte 19

/-- The ride controller (5, R100). -/
structure RideCtl where
  state       : RideState
  number      : Nat
  time        : Nat
  secondDue   : Option Nat
  debounced   : Bool
  debounceDue : Option Nat
  proveOutDue : Option Nat
  holdDue     : Option Nat
  pwrhold     : Bool
  deriving DecidableEq, Repr

/-- A log sector as the store knows it (R110): its state, the mark for retirement, its first sequence, and the
number of lines its images occupy. -/
structure Sector where
  state    : SectorState
  marked   : Bool
  firstSeq : Option Nat
  used     : Nat
  deriving DecidableEq, Repr

/-- A CLEAR or RELEASE item of the store's queue, oldest mark first (R117, R118). -/
inductive LogItem where
  | clear (first last : Slot)
  | release (slot : Slot)
  deriving DecidableEq, Repr

/-- A retained entry waiting to be written, with the position reserved for it (R127). -/
structure RetainedItem where
  slot       : Slot
  ride       : Nat
  occurrence : Nat
  frame      : Option Frame
  pos        : Fin 16
  deriving DecidableEq, Repr

/-- A position of the retained sector as the store knows it (R127). -/
inductive RetainedPos where
  | free
  | valid (slot : Slot)
  | void
  deriving DecidableEq, Repr

/-- The mark that comes back when an image fails its read-back (R115). -/
inductive Redo where
  | nothing
  | ride
  | qualifier
  | item (i : LogItem)
  | record (entry : Fin 48) (dirty urgent : Bool)
  deriving DecidableEq, Repr

/-- An image being programmed: where it stands, its bytes, the mark a failure brings back, whether its class may
open a sector while one is ERASED (urgent or compaction, R124), and whether its completion is reported to the
request handler (R116). -/
structure ImageProgram where
  sector   : Fin 16
  line     : Nat
  bytes    : List Byte
  redo     : Redo
  pressing : Bool
  reports  : Bool
  deriving DecidableEq, Repr

/-- The program in flight (R109: the array performs one at a time). -/
inductive Program where
  | image (p : ImageProgram)
  | retained (item : RetainedItem)
  deriving DecidableEq, Repr

/-- The log erase in flight (R122, R123). -/
structure EraseOp where
  sector       : Fin 16
  suspendAsked : Bool
  suspended    : Bool
  deriving DecidableEq, Repr

/-- The retained erase (R129). -/
inductive RetainedErase where
  | nothing | waiting | running
  deriving DecidableEq, Repr

/-- The record store, all but the flash array itself and the record marks (7). -/
structure Store where
  state      : StoreState
  sectors    : Vector Sector 16
  lastOpen   : Option (Fin 16)
  nextSeq    : Nat
  rideMark   : Bool
  qualMark   : Bool
  logQueue   : List LogItem
  retQueue   : List RetainedItem
  rideEnding : Bool
  inhibitDue : Option Nat
  program    : Option Program
  erase      : Option EraseOp
  compaction : Option (Fin 16)
  retPos     : Vector RetainedPos 16
  retErase   : RetainedErase
  deriving DecidableEq, Repr

/-- The request the executor holds TAKEN and what it waits for (R141, step 4). -/
inductive Taken where
  /-- ADOPT waiting for the reports on `left` CLEAR images. -/
  | adopt (p : Port) (left : Nat) (answer : List Byte)
  /-- CLEAR SLOT or CLEAR PORT waiting for the report on its CLEAR image. -/
  | clear (p : Port) (answer : List Byte)
  /-- READ RETAINED waiting for a flash read. -/
  | readRetained (p : Port) (pos : Fin 16)
  /-- ERASE RETAINED waiting for the retained erase. -/
  | eraseRetained (p : Port)
  /-- A request that waits for nothing: its outcome stands, and its completion has not come (R137, R138). -/
  | reply (p : Port) (st : Status) (answer : List Byte)
  /-- ADOPT that waits for nothing: it queued no CLEAR image, or (`fault`) all are reported as not written (R145). -/
  | adopted (p : Port) (fault : Bool) (answer : List Byte)
  deriving DecidableEq, Repr

/-- The executor (8.2): the TAKEN request, the arbitration preference, and the cell the arbiter has picked at a take
opportunity and not yet taken (assumption log 11). -/
structure Executor where
  taken : Option Taken
  pref  : Port
  claim : Option Port
  deriving DecidableEq, Repr

/-- The publisher (9, R172): generation, publish-dirty mark, spacing timer (none is expired), the copy of the pass in
flight, whether the first pass since reset is still to end, and the trail (R165, R170). -/
structure Publisher where
  generation : Word
  dirty      : Bool
  spacingDue : Option Nat
  pass       : Option (List Byte)
  firstPass  : Bool
  writeCount : Word
  readMark   : Word
  unread     : Nat
  overrun    : Bool
  reader     : Port
  threshold  : Nat
  deriving DecidableEq, Repr

/-- A sparse memory: addresses strictly rising, no entry equal to what an unlisted address reads. -/
abbrev Memory := List Host.Cell

/-- The whole part, and the queue of commands that wait, first in first out. -/
structure State where
  pending  : List Instr
  resetn   : Bool
  supgood  : Bool
  ign      : Bool
  part     : BitVec 2
  svc      : Bool
  now      : Nat
  ram      : Memory
  fp       : PortState
  bp       : PortState
  slots    : Vector SlotEngine 192
  quals    : Vector Qualifier 192
  profiles : Vector Profile 192
  records  : Vector (Option Record) 48
  frames   : Vector Frame 64
  ride     : RideCtl
  store    : Store
  flash    : Memory
  exec     : Executor
  pub      : Publisher
  deriving DecidableEq, Repr

/-- R20: touched, held, barred, seen tallies after reset. -/
def SlotEngine.reset : SlotEngine :=
  { touched := false, held := 0, barred := false, seenPass := 0, seenFail := 0 }

/-- R21: a qualifier after reset. -/
def Qualifier.reset : Qualifier :=
  { state := .idle, m := 0, fade := 0, forget := 0, unrecorded := false,
    tested := false, failed := false, passedMature := false }

/-- No profile entry is in use before an ADOPT (R2); the place holds zeros. -/
def Profile.blank : Profile :=
  { stepUp := 0, jump := false, stepDown := 0, enable := false, fadeRides := 0, cls := 0, list := 0, forgetRides := 0 }

/-- A port at reset release (R20, R60, R62, R100, R108, R142, R172, R183), with the straps latched then (R177). -/
def PortState.reset (wide swapped : Bool) : PortState :=
  { wide := wide, swapped := swapped, staging := none, capture := none, readout := .nothing, stray := false,
    releases := [], adopted := false, copy := none, passDue := none, passPos := none, owed := false, declined := 0,
    silenceDue := none, silent := false, cell := .idle, channels := Vector.replicate 16 none,
    steady := 0, slow := 0, fast := 0, shown := .off, lamp := false, attn := false }

/-- The ride controller at reset release (R100): the debounce timer runs when IGN stands high (R82). -/
def RideCtl.reset (ign : Bool) : RideCtl :=
  { state := .waiting, number := 0, time := 0, secondDue := none, debounced := false,
    debounceDue := if ign then some Config.debounceTime else none, proveOutDue := none, holdDue := none, pwrhold := true }

/-- A sector before restore has read it (R111). -/
def Sector.unread : Sector := { state := .unknown, marked := false, firstSeq := none, used := 0 }

/-- The store at reset release (R111): STARTING, no marks, write inhibit running for 5 ms. DESIGN CHOICE: until
restore reads the retained sector, every position is held free (assumption log 45), and the sequence counter
stands at 1 (log 34); no sector counts as last OPEN (log 48). -/
def Store.reset : Store :=
  { state := .starting, sectors := Vector.replicate 16 Sector.unread, lastOpen := none, nextSeq := 1,
    rideMark := false, qualMark := false, logQueue := [], retQueue := [], rideEnding := false,
    inhibitDue := some Config.inhibitTime, program := none, erase := none, compaction := none,
    retPos := Vector.replicate 16 .free, retErase := .nothing }

/-- The executor at reset release: free, preference FP (R139, R140). -/
def Executor.reset : Executor := { taken := none, pref := .fp, claim := none }

/-- The publisher at reset release (R172). -/
def Publisher.reset : Publisher :=
  { generation := 0, dirty := true, spacingDue := none, pass := none, firstPass := true,
    writeCount := 0, readMark := 0, unread := 0, overrun := false, reader := .fp, threshold := 16 }

/-- The part at reset release with these straps, this level on IGN, this flash and this queue (R182): every block at
the reset values of its own chapter. -/
def State.released (straps : Straps) (ign : Bool) (flash : Memory) (pending : List Instr) : State :=
  { pending := pending, resetn := true, supgood := true, ign := ign, part := straps.part, svc := straps.svc,
    now := 0, ram := [],
    fp := PortState.reset straps.fw16 straps.fbe, bp := PortState.reset straps.bw16 straps.bbe,
    slots := Vector.replicate 192 SlotEngine.reset, quals := Vector.replicate 192 Qualifier.reset,
    profiles := Vector.replicate 192 Profile.blank, records := Vector.replicate 48 none,
    frames := Vector.replicate 64 (Vector.replicate 19 0),
    ride := RideCtl.reset ign, store := Store.reset, flash := flash,
    exec := Executor.reset, pub := Publisher.reset }

/-- All strap pins low: both ports 8 bits wide, partition code 0, no service mode. DESIGN CHOICE (log 4). -/
def strapsLow : Straps := { fw16 := false, bw16 := false, fbe := false, bbe := false, part := 0, svc := false }

/-- The machine right after reset: reset release with every strap low, IGN low (DESIGN CHOICE, log 4) and a flash
array that reads 0xFF in every byte (DESIGN CHOICE, log 5). -/
def State.reset : State := State.released strapsLow false [] []

end Sys2Proof.Machine
end

