-- ==== Sys2Proof/Machine/Memory.lean ====
section
/-!
DEFINITION. Sparse memories and bytes: reading and writing one byte of a memory whose unlisted bytes read a fixed
value, the canonical form, and the byte order of multi-byte fields (R184).
-/

namespace Sys2Proof.Machine

/-- What address `a` reads when an unlisted address reads `dflt`. -/
def Memory.read (dflt : Byte) (m : Memory) (a : Nat) : Byte :=
  match m with
  | [] => dflt
  | c :: rest => if c.1 = a then c.2 else Memory.read dflt rest a

/-- Write `b` at `a`, keeping the addresses rising and dropping an entry that reads as an unlisted byte does. -/
def Memory.write (dflt : Byte) (m : Memory) (a : Nat) (b : Byte) : Memory :=
  match m with
  | [] => if b = dflt then [] else [(a, b)]
  | c :: rest =>
    if a < c.1 then (if b = dflt then c :: rest else (a, b) :: c :: rest)
    else if a = c.1 then (if b = dflt then rest else (a, b) :: rest)
    else c :: Memory.write dflt rest a b

/-- Write consecutive bytes from `a` up. -/
def Memory.writeBytes (dflt : Byte) (m : Memory) (a : Nat) (bs : List Byte) : Memory :=
  match bs with
  | [] => m
  | b :: rest => Memory.writeBytes dflt (Memory.write dflt m a b) (a + 1) rest

/-- Every byte from `lo` up to, not including, `hi` reads as an unlisted byte afterwards. -/
def Memory.clear (m : Memory) (lo hi : Nat) : Memory :=
  m.filter (fun c => decide (c.1 < lo ∨ hi ≤ c.1))

/-- `n` consecutive bytes from `a` up. -/
def Memory.readBytes (dflt : Byte) (m : Memory) (a n : Nat) : List Byte :=
  (List.range n).map (fun i => Memory.read dflt m (a + i))

/-- Every address of `m` lies above `lo`, they rise strictly, and no entry equals `dflt`. -/
def Memory.wfAbove (dflt : Byte) (lo : Nat) (m : Memory) : Bool :=
  match m with
  | [] => true
  | c :: rest => decide (lo ≤ c.1) && decide (c.2 ≠ dflt) && Memory.wfAbove dflt (c.1 + 1) rest

/-- The canonical form: addresses strictly rising, no entry equal to what an unlisted address reads. -/
def Memory.wf (dflt : Byte) (m : Memory) : Bool := Memory.wfAbove dflt 0 m

/-- A byte of the exchange RAM that nothing has written reads 0x00 (R183). -/
def ramDefault : Byte := 0x00

/-- An erased byte of flash reads 0xFF (R109). -/
def flashDefault : Byte := 0xFF

/-- The low-order byte of a 16-bit value (R184). -/
def lowByte (w : Word) : Byte := w.setWidth 8

/-- The high-order byte of a 16-bit value (R184). -/
def highByte (w : Word) : Byte := (w >>> 8).setWidth 8

/-- The 16-bit value whose low-order byte is `lo` (R184). -/
def wordOf (lo hi : Byte) : Word := hi ++ lo

/-- A number as the byte that holds it modulo 256. -/
def byteOf (n : Nat) : Byte := BitVec.ofNat 8 n

/-- A signed value as a two's complement byte: −128 is 0x80, +127 is 0x7F (R184). -/
def byteOfInt (n : Int) : Byte := BitVec.ofInt 8 n

/-- A flag as bit `k` of a byte. -/
def flagBit (f : Bool) (k : Nat) : Nat := if f then 2 ^ k else 0

/-- A 16-bit field, lower-order byte first (R184). -/
def bytes16 (n : Nat) : List Byte := [byteOf n, byteOf (n / 256)]

/-- A 32-bit field, lower-order byte first (R184). -/
def bytes32 (n : Nat) : List Byte := [byteOf n, byteOf (n / 256), byteOf (n / 65536), byteOf (n / 16777216)]

/-- The number two bytes hold, lower-order byte first. -/
def natOf16 (lo hi : Byte) : Nat := lo.toNat + 256 * hi.toNat

/-- The number four bytes hold, lower-order byte first. -/
def natOf32 (b0 b1 b2 b3 : Byte) : Nat := natOf16 b0 b1 + 65536 * natOf16 b2 b3

/-- Byte `i` of a list, zero past its end. -/
def byteAt (bs : List Byte) (i : Nat) : Byte := bs.getD i 0

/-- What a list of bytes reads back as, where `marred` says which offsets did not take (assumption log 8). -/
def readBack (bs : List Byte) (marred : Marred) : List Byte :=
  bs.mapIdx (fun i b => (marred.lookup i).getD b)

end Sys2Proof.Machine
end

