-- ==== Sys2Proof/Machine/Formats.lean ====
section
/-!
DEFINITION. The codes of R186 and the byte layouts of chapter 11, but for the flash images (Machine/Images.lean).
-/

namespace Sys2Proof.Machine

/-- Qualifier state codes (R186). -/
def qstateCode : QState → Nat
  | .idle => 0
  | .pending => 1
  | .confirmed => 2
  | .fading => 3
  | .historic => 4

/-- The qualifier state a code names. Codes above 4 do not arise (R185); they read IDLE (assumption log 31). -/
def qstateOf (n : Nat) : QState :=
  match n with
  | 1 => .pending
  | 2 => .confirmed
  | 3 => .fading
  | 4 => .historic
  | _ => .idle

/-- Ride state codes (R186). -/
def rideCode : RideState → Nat
  | .waiting => 0
  | .noRide => 1
  | .riding => 2
  | .ending => 3

/-- Lamp pattern codes (R186); they carry the order OFF < STEADY < SLOW < FAST of R101. -/
def patternCode : Pattern → Nat
  | .off => 0
  | .steady => 1
  | .slow => 2
  | .fast => 3

/-- Store state codes (R186). -/
def storeCode : StoreState → Nat
  | .starting => 0
  | .ready => 1
  | .failed => 2

/-- Port numbers (R186). -/
def portCode : Port → Nat
  | .fp => 0
  | .bp => 1

/-- Frame kind codes (R186). -/
def frameKindCode : FrameKind → Nat
  | .first => 1
  | .latest => 2

/-- Cell state codes (R186). -/
def cellCode : CellState → Nat
  | .idle => 0
  | .posted => 1
  | .taken => 2
  | .answered => 3

/-- The trail event kinds, numbered from 1 (R186). -/
inductive TrailKind where
  | rideBegin | rideEnd | pending | confirmed | recurred | fading | faded | forgotten | pendingDropped | cleared
  | evicted | declined | barred | barLifted | portSilent | portHeard | storeDegraded | storeFailed
  deriving DecidableEq, Repr

/-- Trail event kind codes (R186). -/
def trailCode : TrailKind → Nat
  | .rideBegin => 1
  | .rideEnd => 2
  | .pending => 3
  | .confirmed => 4
  | .recurred => 5
  | .fading => 6
  | .faded => 7
  | .forgotten => 8
  | .pendingDropped => 9
  | .cleared => 10
  | .evicted => 11
  | .declined => 12
  | .barred => 13
  | .barLifted => 14
  | .portSilent => 15
  | .portHeard => 16
  | .storeDegraded => 17
  | .storeFailed => 18

/-- Status codes (R186). -/
def statusCode : Status → Nat
  | .ok => 0
  | .badRequest => 1
  | .badTarget => 2
  | .notAdopted => 3
  | .rideLocked => 4
  | .locked => 5
  | .absent => 6
  | .storeFault => 7

/-- A trail entry's eight bytes (11.5). -/
def trailBytes (ride time : Nat) (slot : Byte) (kind : TrailKind) (detail newState : Byte) : List Byte :=
  bytes16 ride ++ bytes16 time ++ [slot, byteOf (trailCode kind), detail, newState]

/-- The four bytes of a profile entry (11.3). -/
def profileBytes (p : Profile) : List Byte :=
  [ byteOf (p.stepUp + flagBit p.jump 7), byteOf (p.stepDown + flagBit p.enable 7),
    byteOf (p.fadeRides + 16 * p.cls.val + 64 * p.list.val), byteOf p.forgetRides ]

/-- The profile entry four bytes hold, as the controller wrote it, before ADOPT clamps it (11.3). -/
def profileOf (b0 b1 b2 b3 : Byte) : Profile :=
  { stepUp := b0.toNat % 128, jump := b0.getLsbD 7, stepDown := b1.toNat % 128, enable := b1.getLsbD 7,
    fadeRides := b2.toNat % 16, cls := Fin.ofNat 4 (b2.toNat / 16), list := Fin.ofNat 4 (b2.toNat / 64),
    forgetRides := b3.toNat }

/-- The 16 bytes of a record, as the mirror entry lays them out (11.5), with the current M and the in-use byte the
mirror adds. -/
def recordBytes (r : Record) (dirty persisted : Bool) (m inUse : Byte) : List Byte :=
  [ byteOf r.slot.val, byteOf (qstateCode r.state),
    byteOf (r.cls.val + flagBit r.first.isSome 2 + flagBit r.latest.isSome 3 + flagBit persisted 4 + flagBit dirty 5),
    byteOf r.occurrence ]
  ++ bytes16 r.onset ++ bytes16 r.firstConf ++ bytes16 r.latestConf ++ bytes16 r.activity
  ++ [byteOf r.fade, byteOf r.forget, m, inUse]

/-- Record mirror entry of a record entry; a free entry is all 0 (R164, 11.5). -/
def mirrorBytes (r : Option Record) (m : Int) : List Byte :=
  match r with
  | none => List.replicate 16 0
  | some r => recordBytes r r.dirty r.persisted (byteOfInt m) 1

/-- Slot status byte (R163, 11.5). -/
def statusByte (q : Qualifier) (barred enabled : Bool) : Byte :=
  byteOf (qstateCode q.state + flagBit barred 3 + flagBit q.unrecorded 4 + flagBit q.failed 5 + flagBit q.tested 6
    + flagBit enabled 7)

/-- What a capture writes (R66). -/
structure FrameFields where
  slot    : Slot
  kind    : FrameKind
  ride    : Nat
  time    : Nat
  m       : Int
  band    : Nat
  detail  : Byte
  context : Word
  codes   : Vector Byte 8

/-- The 19 bytes of a frame (11.6). -/
def frameBytes (f : FrameFields) : Frame :=
  #v[ byteOf f.slot.val, byteOf (frameKindCode f.kind), byteOf f.ride, byteOf (f.ride / 256), byteOf f.time,
      byteOf (f.time / 256), byteOfInt f.m, byteOf f.band, f.detail, lowByte f.context, highByte f.context,
      f.codes[0], f.codes[1], f.codes[2], f.codes[3], f.codes[4], f.codes[5], f.codes[6], f.codes[7] ]

/-- The header address of the low-order byte of a paired field (R179, 11.5). -/
def pairAddr : PairField → Nat
  | .generation => 0
  | .rideNumber => 6
  | .rideTime => 8
  | .writeCount => 32
  | .readMark => 34

/-- The paired field whose low-order byte stands at an address. -/
def pairLowAt (a : Nat) : Option PairField :=
  if a = 0 then some .generation
  else if a = 6 then some .rideNumber
  else if a = 8 then some .rideTime
  else if a = 32 then some .writeCount
  else if a = 34 then some .readMark
  else none

end Sys2Proof.Machine
end

