-- ==== Sys2Proof/Machine/Operands.lean ====
section
/-!
DEFINITION. The named parts of State (a port, a slot, a qualifier, a record), the exchange RAM's bytes, who owns a
slot (R174), and how the port interface judges an access: width and lanes (R177), ownership (R175, R176), pairing
(R178), the watched writes (R180).
-/

namespace Sys2Proof.Machine

/-- The part is in reset while RESETN is low or SUPGOOD is low, or both (R182). -/
def State.inReset (s : State) : Bool := !(s.resetn && s.supgood)

/-- What the part keeps for port `p`. -/
def State.port (s : State) (p : Port) : PortState :=
  match p with
  | .fp => s.fp
  | .bp => s.bp

/-- Put `ps` in place of port `p`'s state. -/
def State.setPort (p : Port) (ps : PortState) (s : State) : State :=
  match p with
  | .fp => { s with fp := ps }
  | .bp => { s with bp := ps }

/-- The port a global slot belongs to (R174). -/
def State.owner (s : State) (i : Slot) : Port := if i.val < Config.nF s.part then .fp else .bp

/-- The global slots of a port, ascending (R174). -/
def State.portSlots (s : State) (p : Port) : List Slot :=
  (List.finRange 192).filter (fun i => decide (s.owner i = p))

/-- The number of slots of a port: nF or nB (R174). -/
def State.slotCount (s : State) (p : Port) : Nat :=
  match p with
  | .fp => Config.nF s.part
  | .bp => 192 - Config.nF s.part

/-- The first global slot of a port (R174). -/
def State.slotBase (s : State) (p : Port) : Nat :=
  match p with
  | .fp => 0
  | .bp => Config.nF s.part

/-- Put `e` in place of slot `i`'s engine state. -/
def State.setSlot (i : Slot) (e : SlotEngine) (s : State) : State := { s with slots := s.slots.set i e }

/-- Put `q` in place of qualifier `i`. -/
def State.setQual (i : Slot) (q : Qualifier) (s : State) : State := { s with quals := s.quals.set i q }

/-- Put `r` in place of record entry `i`. -/
def State.setRecord (i : Fin 48) (r : Option Record) (s : State) : State := { s with records := s.records.set i r }

/-- One byte of the exchange RAM. -/
def State.rd (s : State) (a : Nat) : Byte := Memory.read ramDefault s.ram a

/-- Write one byte of the exchange RAM. -/
def State.wr (a : Nat) (b : Byte) (s : State) : State := { s with ram := Memory.write ramDefault s.ram a b }

/-- Write consecutive bytes of the exchange RAM. -/
def State.wrBytes (a : Nat) (bs : List Byte) (s : State) : State :=
  { s with ram := Memory.writeBytes ramDefault s.ram a bs }

/-- The entries in use with their index, ascending (R42). -/
def State.recordList (s : State) : List (Fin 48 × Record) :=
  (List.finRange 48).filterMap (fun i => s.records[i].map (fun r => (i, r)))

/-- The entry that holds slot `sl`'s record, if any (R43: at most one). -/
def State.recordOf (s : State) (sl : Slot) : Option (Fin 48 × Record) :=
  s.recordList.find? (fun e => decide (e.2.slot = sl))

/-- The adopted copy a port counts as having: none until its first ADOPT has completed (R2, R143). -/
def State.adoptedCopy (s : State) (p : Port) : Option AdoptedCopy :=
  if (s.port p).adopted then (s.port p).copy else none

/-- The adopted profile of a slot: none while its port counts as having no adopted copy (R2, R143). -/
def State.adoptedProfile (s : State) (i : Slot) : Option Profile :=
  if (s.port (s.owner i)).adopted then some s.profiles[i] else none

/-- Whether a slot is enabled (R2). -/
def State.enabled (s : State) (i : Slot) : Bool :=
  match s.adoptedProfile i with
  | some pr => pr.enable
  | none => false

/-! ### Port accesses -/

/-- What a write by a port amounts to, after the port interface has judged it (R175 to R180). -/
inductive WriteKind where
  /-- The check byte of an own slot, or the word that holds spare and check (R3). -/
  | check (i : Slot)
  /-- Own state byte: 1 written in IDLE (R135). -/
  | post
  /-- Own state byte: 0 written in POSTED (R135). -/
  | withdraw
  /-- Own state byte: 0 written in ANSWERED (R135). -/
  | handBack
  /-- Own state byte, any other value for the state (R135). -/
  | stateIgnored
  /-- Own code or parameter bytes (R136). -/
  | param
  /-- Own release byte, carrying n (R168, R176). -/
  | release (n : Byte)
  /-- 8-bit port: low byte of an own channel (R178). -/
  | stage (c : Fin 16)
  /-- A commit of an own channel with these two bytes (R61, R178). -/
  | commit (c : Fin 16) (lo hi : Byte)
  /-- 8-bit port: high byte of an own channel that completes no pair (R178). -/
  | unpaired
  /-- Any other owned byte: tally, profile, setup, channel lists (R180). -/
  | plain
  /-- Outside the port's owned areas (R175). -/
  | stray
  deriving DecidableEq, Repr

/-- The two bytes of a 16-bit transfer, even address first, from the data lines (R177). -/
def lanesIn (swapped : Bool) (d : Word) : Byte × Byte :=
  if swapped then (highByte d, lowByte d) else (lowByte d, highByte d)

/-- The data lines that carry these two bytes, even address first (R177). -/
def lanesOut (swapped : Bool) (b0 b1 : Byte) : Word :=
  if swapped then wordOf b1 b0 else wordOf b0 b1

/-- The global slot whose tally slot or profile entry of `size` bytes holds address `a` of an area at `base`. -/
def slotAt (base size a : Nat) : Option Slot :=
  if base ≤ a then
    if h : (a - base) / size < 192 then some ⟨(a - base) / size, h⟩ else none
  else none

/-- How a write of `v` to the state byte of a cell in state `c` counts (R135). -/
def judgeState (c : CellState) (v : Byte) : WriteKind :=
  match c with
  | .idle => if v = 1 then .post else .stateIgnored
  | .posted => if v = 0 then .withdraw else .stateIgnored
  | .taken => .stateIgnored
  | .answered => if v = 0 then .handBack else .stateIgnored

/-- How a port's write to its own cell at offset `o` counts; `v` is the byte for offset 0. On a 16-bit port `o` is
even and the word's other byte is at `o + 1` (R136). -/
def judgeCell (wide : Bool) (c : CellState) (o : Nat) (v : Byte) : WriteKind :=
  if o = 0 then judgeState c v
  else if o = 1 ∧ wide = false then .param
  else if 4 ≤ o ∧ o ≤ 15 then .param
  else .stray

/-- How a port's write to its own context page at offset `o` counts (R61, R178). -/
def judgeContext (ps : PortState) (o : Nat) (b0 b1 : Byte) : WriteKind :=
  if ps.wide then .commit (Fin.ofNat 16 (o / 2)) b0 b1
  else if o % 2 = 0 then .stage (Fin.ofNat 16 (o / 2))
  else
    match ps.staging with
    | some (c, lo) => if c.val = o / 2 then .commit c lo b0 else .unpaired
    | none => .unpaired

/-- The first byte address a port's access names: A0 is not read on a 16-bit port (R177). -/
def accessAddr (wide : Bool) (a : Addr) : Nat := if wide then a.toNat / 2 * 2 else a.toNat

/-- The bytes a port's write carries, the one for the named address first; an 8-bit port carries one (R177). -/
def accessBytes (ps : PortState) (d : Word) : Byte × Byte :=
  if ps.wide then lanesIn ps.swapped d else (lowByte d, 0)

/-- The port interface's judgement of a write (R175, R176, R178, R180). -/
def State.judgeWrite (s : State) (p : Port) (a : Addr) (d : Word) : WriteKind :=
  let ps := s.port p
  let x := accessAddr ps.wide a
  let b := accessBytes ps d
  if Config.tallyBase ≤ x ∧ x < Config.profileBase then
    match slotAt Config.tallyBase 8 x with
    | some i =>
      if s.owner i = p then
        if x % 8 = (if ps.wide then 6 else 7) then .check i else .plain
      else .stray
    | none => .stray
  else if Config.profileBase ≤ x ∧ x < Config.cellBase .fp then
    match slotAt Config.profileBase 4 x with
    | some i => if s.owner i = p then .plain else .stray
    | none => .stray
  else if Config.cellBase p ≤ x ∧ x < Config.cellBase p + 64 then
    judgeCell ps.wide ps.cell (x - Config.cellBase p) b.1
  else if Config.contextBase p ≤ x ∧ x < Config.contextBase p + 32 then
    judgeContext ps (x - Config.contextBase p) b.1 b.2
  else if Config.setupBase p ≤ x ∧ x < Config.setupBase p + 32 then .plain
  else if Config.listsBase p ≤ x ∧ x < Config.listsBase p + 32 then .plain
  else if ps.wide ∧ x = Config.releaseAddr .fp then
    .release (match p with | .fp => b.1 | .bp => b.2)
  else if ps.wide = false ∧ x = Config.releaseAddr p then .release b.1
  else .stray

end Sys2Proof.Machine
end

