-- ==== Sys2Proof/Machine/PortReads.lean ====
section
/-!
DEFINITION. The commands that are reads of a port (R173, R177, R179): what the data lines carry, and the capture of an
8-bit port. As with writes, the access itself is judged, not the row it stands under (assumption log 7).
-/

namespace Sys2Proof.Machine

/-- The paired field whose high-order byte stands at an address (R179). -/
def pairHighAt (x : Nat) : Option PairField := if x = 0 then none else pairLowAt (x - 1)

/-- A read of an 8-bit port at address `x` (R179): the byte driven and the capture afterwards. -/
def State.read8 (s : State) (p : Port) (x : Nat) : Byte × Option (PairField × Byte) :=
  match pairLowAt x with
  | some f => (s.rd x, some (f, s.rd (x + 1)))
  | none =>
    match (s.port p).capture with
    | some (f, b) => if pairHighAt x = some f then (b, none) else (s.rd x, none)
    | none => (s.rd x, none)

/-- A read by port `p` (R177, R179). In reset it returns 0x00 on the lanes the port uses (R182). -/
def State.portRead (p : Port) (a : Addr) (s : State) : State :=
  let ps := s.port p
  let x := accessAddr ps.wide a
  if s.inReset then s.setPort p { ps with readout := if ps.wide then .word 0 else .byte 0 }
  else if ps.wide then s.setPort p { ps with readout := .word (lanesOut ps.swapped (s.rd x) (s.rd (x + 1))) }
  else s.setPort p { ps with readout := .byte (s.read8 p x).1, capture := (s.read8 p x).2 }

/-- READ_PAIR_CAPTURE (R179). -/
def execReadPairCapture (p : Port) (a : Addr) (s : State) : Host.Outcome State Fault Refusal := .next (s.portRead p a)

/-- CAPTURED_HIGH_READ (R179). -/
def execCapturedHighRead (p : Port) (a : Addr) (s : State) : Host.Outcome State Fault Refusal := .next (s.portRead p a)

/-- OTHER_READ_EMPTIES_CAPTURE (R179), and every read the two rows above do not name (assumption log 25). -/
def execOtherReadEmptiesCapture (p : Port) (a : Addr) (s : State) : Host.Outcome State Fault Refusal :=
  .next (s.portRead p a)

end Sys2Proof.Machine
end

