-- ==== Sys2Proof/Machine/Flags.lean ====
section
/-!
DEFINITION. The flags and output lines computed from the rest of the state: the publish-dirty mark (R157), the lamp
demands, patterns and outputs (R37, R101 to R106), the attention lines (R171), and the sector counts (R111).
-/

namespace Sys2Proof.Machine

/-- Set the publish-dirty mark (R157). -/
def State.markView (s : State) : State := { s with pub := { s.pub with dirty := true } }

/-- Set the publish-dirty mark if a viewed value has changed (R157). -/
def State.markViewIf (c : Bool) (s : State) : State := if c then s.markView else s

/-! ### Lamps -/

/-- The lamp demand of a class in a state (R37). -/
def lampDemand (cls : Fin 4) (st : QState) : Pattern :=
  match st with
  | .confirmed | .fading =>
    match cls.val with
    | 0 => .off
    | 1 => .steady
    | 2 => .slow
    | _ => .fast
  | .idle | .pending | .historic => .off

/-- The demand qualifier `i` makes in state `st`: none while its port has not adopted (R37). -/
def State.demandIn (s : State) (i : Slot) (st : QState) : Pattern :=
  match s.adoptedProfile i with
  | some pr => lampDemand pr.cls st
  | none => .off

/-- The greater of two patterns in the order of R101. -/
def maxPattern (x y : Pattern) : Pattern := if patternCode x < patternCode y then y else x

/-- The highest pattern whose count is above 0 (R103). -/
def classDemand (ps : PortState) : Pattern :=
  if 0 < ps.fast then .fast else if 0 < ps.slow then .slow else if 0 < ps.steady then .steady else .off

/-- The pattern a lamp shows for the inputs as they stand (R104, R105). -/
def State.patternNow (s : State) (p : Port) : Pattern :=
  if s.ride.state ≠ .riding then .off
  else if s.ride.proveOutDue.isSome then .steady
  else
    maxPattern (classDemand (s.port p))
      (maxPattern (if (s.port p).adopted then .off else .steady) (if (s.port p).silent then .fast else .off))

/-- Whether a pattern is lit at a moment of the time base, whose remainder modulo the blink cycle is the blink
phase (R101, R102). -/
def litAt (x : Pattern) (now : Nat) : Bool :=
  let phase := now % Config.blinkCycle
  match x with
  | .off => false
  | .steady => true
  | .slow => decide (phase < 500000)
  | .fast => decide (phase % 250000 < 125000)

/-- Drive port `p`'s lamp output at the level its shown pattern gives for the blink phase (R101). -/
def State.drivePin (p : Port) (s : State) : State :=
  s.setPort p { s.port p with lamp := litAt (s.port p).shown s.now }

/-- Drive both lamp outputs (R101). -/
def State.drivePins (s : State) : State := (s.drivePin .fp).drivePin .bp

/-- Recompute port `p`'s shown pattern; a change sets the publish-dirty mark and takes effect at once (R105, R106). -/
def State.refreshLamp (p : Port) (s : State) : State :=
  ((s.setPort p { s.port p with shown := s.patternNow p }).drivePin p).markViewIf
    (decide ((s.port p).shown ≠ s.patternNow p))

/-- Recompute both lamps (R105). -/
def State.refreshLamps (s : State) : State := (s.refreshLamp .fp).refreshLamp .bp

/-- The three counts of a lamp with one more (`up`) or one fewer demand of a pattern; a demand of none has no count
(R103). -/
def countDemand (up : Bool) (x : Pattern) (ps : PortState) : PortState :=
  let step (n : Nat) : Nat := if up then n + 1 else n - 1
  match x with
  | .off => ps
  | .steady => { ps with steady := step ps.steady }
  | .slow => { ps with slow := step ps.slow }
  | .fast => { ps with fast := step ps.fast }

/-- Hand over a qualifier's change of demand from `old` to `new` to the lamp of port `p` (R103). -/
def State.handDemand (p : Port) (old new : Pattern) (s : State) : State :=
  if old = new then s
  else (s.setPort p (countDemand true new (countDemand false old (s.port p)))).refreshLamp p

/-- The number of port `p`'s qualifiers that demand `x` (R103). -/
def State.demandCount (s : State) (p : Port) (x : Pattern) : Nat :=
  (s.portSlots p).countP (fun i => decide (s.demandIn i s.quals[i].state = x))

/-- Recount port `p`'s lamp from every qualifier of the port (R103, R145). -/
def State.recountLamp (p : Port) (s : State) : State :=
  (s.setPort p { s.port p with
    steady := s.demandCount p .steady, slow := s.demandCount p .slow, fast := s.demandCount p .fast }).refreshLamp p

/-! ### Attention -/

/-- The level of port `p`'s attention line (R171). -/
def State.attnNow (s : State) (p : Port) : Bool :=
  decide ((s.port p).cell = .answered) || (decide (s.pub.reader = p) && decide (s.pub.threshold ≤ s.pub.unread))

/-- Recompute one attention line (R171). -/
def State.refreshAttnOf (p : Port) (s : State) : State := s.setPort p { s.port p with attn := s.attnNow p }

/-- Recompute both attention lines (R171). -/
def State.refreshAttn (s : State) : State := (s.refreshAttnOf .fp).refreshAttnOf .bp

/-! ### Counts the view shows -/

/-- The number of log sectors in a state (R111). -/
def State.sectorCount (s : State) (st : SectorState) : Nat :=
  s.store.sectors.toList.countP (fun c => decide (c.state = st))

/-- Frame `f` is referenced by a record (R70). -/
def State.frameUsed (s : State) (f : Fin 64) : Bool :=
  s.recordList.any (fun e => decide (e.2.first = some f) || decide (e.2.latest = some f))

/-- The free frames, ascending (R70). -/
def State.freeFrames (s : State) : List (Fin 64) := (List.finRange 64).filter (fun f => !s.frameUsed f)

/-- The number of valid retained entries (R127). -/
def State.retainedCount (s : State) : Nat :=
  s.store.retPos.toList.countP (fun x => match x with | .valid _ => true | .free | .void => false)

/-- A port's slots with the barred flag set (R19). -/
def State.barredCount (s : State) (p : Port) : Nat := (s.portSlots p).countP (fun i => s.slots[i].barred)

/-- The publish spacing timer has expired (R158). -/
def State.spacingExpired (s : State) : Bool := s.pub.spacingDue.isNone

end Sys2Proof.Machine
end

