-- ==== Sys2Proof/Machine/Ops.lean ====
section
/-!
DEFINITION. The shared operations every block uses: the time base, the trail (R165 to R167), the silence watch (R98),
and the store's marks (R53, R117, R123).
-/

namespace Sys2Proof.Machine

/-- The outcome of a command whose event arises where `c` holds and leads to `t`: in reset, and where `c` fails, the
event does not arise and the state stays as it is (R182; assumption log 1). -/
def arises (c : Bool) (s t : State) : Host.Outcome State Fault Refusal := .next (if !s.inReset && c then t else s)

/-! ### The time base -/

/-- Move the time base to `t` if it has not reached it; the lamp outputs follow the blink phase (R101, R102). -/
def State.advanceTo (t : Nat) (s : State) : State :=
  if s.now < t then ({ s with now := t } : State).drivePins else s

/-! ### The trail -/

/-- Step 1 of R166: a full ring drops its oldest unread entry and the overrun flag sets. -/
def State.makeRoom (s : State) : State :=
  if s.pub.unread = 64 then
    ((({ s with pub := { s.pub with readMark := s.pub.readMark + 1, unread := 63, overrun := true } } : State).wrBytes
      34 (bytes16 (s.pub.readMark + 1).toNat)).wr 37 1).wr 36 63
  else s

/-- Steps 2 and 3 of R166: the entry is written at position (write count modulo 64), then the counts rise together. -/
def State.addEntry (entry : List Byte) (s : State) : State :=
  let s1 := s.wrBytes (Config.trailBase + 8 * (s.pub.writeCount.toNat % 64)) entry
  let s2 : State := { s1 with pub := { s1.pub with writeCount := s1.pub.writeCount + 1, unread := s1.pub.unread + 1 } }
  ((s2.wrBytes 32 (bytes16 s2.pub.writeCount.toNat)).wr 36 (byteOf s2.pub.unread)).refreshAttn

/-- Append one trail entry (R166, R167): it carries the ride number and ride time of the moment. -/
def State.append (kind : TrailKind) (slot detail newState : Byte) (s : State) : State :=
  s.makeRoom.addEntry (trailBytes s.ride.number s.ride.time slot kind detail newState)

/-- Append an entry about a slot, with the qualifier state shown as its new state. -/
def State.appendSlot (kind : TrailKind) (i : Slot) (detail : Byte) (st : QState) (s : State) : State :=
  s.append kind (byteOf i.val) detail (byteOf (qstateCode st))

/-- Append an entry about the ride, a port or the store: slot number 0xFF, new state 0. -/
def State.appendPart (kind : TrailKind) (detail : Byte) (s : State) : State := s.append kind 0xFF detail 0

/-- The publisher takes a release of `n` by port `p` (R168): only the trail reader's moves the read mark. -/
def State.takeRelease (p : Port) (n : Nat) (s : State) : State :=
  if s.pub.reader = p then
    let k := min n s.pub.unread
    let left := s.pub.unread - k
    let s1 : State := { s with pub := { s.pub with
      readMark := s.pub.readMark + BitVec.ofNat 16 k, unread := left, overrun := s.pub.overrun && decide (left ≠ 0) } }
    (((s1.wrBytes 34 (bytes16 s1.pub.readMark.toNat)).wr 36 (byteOf left)).wr 37
      (byteOf (flagBit s1.pub.overrun 0))).refreshAttn
  else s.refreshAttn

/-- The reader and threshold of FP's new adopted copy take effect (R170). -/
def State.setReader (reader : Port) (threshold : Nat) (s : State) : State :=
  ((({ s with pub := { s.pub with reader := reader, threshold := threshold } } : State).wr 38
    (byteOf (portCode reader))).wr 39 (byteOf threshold)).refreshAttn

/-! ### Silence -/

/-- A port's silence limit in microseconds: its adopted silence limit code times 50 ms (R98). -/
def State.silenceLimit (s : State) (p : Port) : Nat :=
  match s.adoptedCopy p with
  | some c => Config.limitStep * c.silenceCode
  | none => 0

/-- Start port `p`'s silence timer from 0, unless the port is not watched: not adopted, or code 0 (R98, R99). -/
def State.startSilence (p : Port) (s : State) : State :=
  if s.silenceLimit p = 0 then s else s.setPort p { s.port p with silenceDue := some (s.now + s.silenceLimit p) }

/-- The silence event of a write by port `p` (R98, R180): a silent port is heard again, a running timer restarts. -/
def State.heard (p : Port) (s : State) : State :=
  if (s.port p).silent then
    ((((s.setPort p { s.port p with silent := false }).startSilence p).appendPart .portHeard
      (byteOf (portCode p))).markView).refreshLamp p
  else if (s.port p).silenceDue.isSome then s.startSilence p
  else s

/-! ### Marks of the record store -/

/-- An urgent item has been marked: a running log erase is asked to suspend (R123). -/
def State.urgentMarked (s : State) : State :=
  match s.store.erase with
  | some e => if e.suspended then s else { s with store := { s.store with erase := some { e with suspendAsked := true } } }
  | none => s

/-- Queue a CLEAR or RELEASE item; both are always urgent (R117). -/
def State.queueLog (it : LogItem) (s : State) : State :=
  ({ s with store := { s.store with logQueue := s.store.logQueue ++ [it] } } : State).urgentMarked

/-- Mark the RIDE item, always urgent (R117). -/
def State.markRide (s : State) : State := ({ s with store := { s.store with rideMark := true } } : State).urgentMarked

/-- Mark the QUALIFIER item, always urgent (R117). -/
def State.markQualifier (s : State) : State :=
  ({ s with store := { s.store with qualMark := true } } : State).urgentMarked

/-- Mark a record dirty, urgent if `urgent` or in ride-ending mode; an urgent mark is not lowered (R53, R117). -/
def State.markRecord (i : Fin 48) (urgent : Bool) (s : State) : State :=
  match s.records[i] with
  | none => s
  | some r =>
    let u := urgent || s.store.rideEnding
    let s1 := (s.setRecord i (some { r with dirty := true, urgent := r.urgent || u })).markViewIf (!r.dirty)
    if u then s1.urgentMarked else s1

/-- Some item of work is marked dirty or urgent (R94, R117). -/
def State.anyMarked (s : State) : Bool :=
  s.store.rideMark || s.store.qualMark || !s.store.logQueue.isEmpty || !s.store.retQueue.isEmpty
    || s.recordList.any (fun e => e.2.dirty)

end Sys2Proof.Machine
end

