-- ==== Sys2Proof/Machine/Table.lean ====
section
/-!
DEFINITION. The record table (chapter 3): rank (R44), allocation (R45, R49), the victim (R46), eviction (R47), decline
(R48), state notices (R50), freeing (R52), class updates (R55).
-/

namespace Sys2Proof.Machine

/-- State rank (R44). -/
def stateRank : QState → Nat
  | .historic => 0
  | .pending => 1
  | .fading => 2
  | .confirmed => 3
  | .idle => 0

/-- The rank pair (state rank, class) as one number: the order of the numbers is the lexicographic order of R44,
since a class is below 4. -/
def rankVal (st : QState) (cls : Fin 4) : Nat := 4 * stateRank st + cls.val

/-- The rank of a record (R44). -/
def Record.rank (r : Record) : Nat := rankVal r.state r.cls

/-- `a` is chosen before `b`: lower rank, then lower activity ride, then higher slot number (R46, R71). -/
def chosenBefore (a b : Record) : Bool :=
  decide (a.rank < b.rank)
    || (decide (a.rank = b.rank)
      && (decide (a.activity < b.activity) || (decide (a.activity = b.activity) && decide (b.slot.val < a.slot.val))))

/-- The entry chosen first among those listed (R46, R71). -/
def chooseVictim (l : List (Fin 48 × Record)) : Option (Fin 48 × Record) :=
  l.foldl (fun best e =>
    match best with
    | none => some e
    | some b => if chosenBefore e.2 b.2 then some e else some b) none

/-- The free entry of lowest index (R45). -/
def State.freeEntry (s : State) : Option (Fin 48) := (List.finRange 48).find? (fun i => s.records[i].isNone)

/-- The class in the slot's adopted profile; requests are made only for slots of adopted ports (R17). -/
def State.classOf (s : State) (i : Slot) : Fin 4 :=
  match s.adoptedProfile i with
  | some pr => pr.cls
  | none => 0

/-- A mark a failed image would bring back is withdrawn when its record leaves the table (R117, R119). -/
def State.withdrawRedo (i : Fin 48) (s : State) : State :=
  match s.store.program with
  | some (.image p) =>
    match p.redo with
    | .record j _ _ =>
      if j = i then { s with store := { s.store with program := some (.image { p with redo := .nothing }) } } else s
    | .nothing | .ride | .qualifier | .item _ => s
  | some (.retained _) => s
  | none => s

/-- The contents of a new record (R49): `st` is the state its qualifier is entering. -/
def newRecord (i : Slot) (st : QState) (cls : Fin 4) (ride : Nat) : Record :=
  { slot := i, state := st, cls := cls, occurrence := if st = .confirmed then 1 else 0, onset := ride,
    firstConf := if st = .confirmed then ride else 0, latestConf := if st = .confirmed then ride else 0,
    activity := ride, fade := 0, forget := 0, first := none, latest := none, persisted := false, dirty := false,
    urgent := false }

/-- Give entry `e` to slot `i`, whose qualifier is entering `st` (R45, R49). -/
def State.allocate (e : Fin 48) (i : Slot) (st : QState) (s : State) : State :=
  let cls := s.classOf i
  let s1 := s.setRecord e (some (newRecord i st cls s.ride.number))
  let s2 := (s1.setQual i { s1.quals[i] with unrecorded := false }).markView
  if st = .confirmed then s2.markRecord e (decide (cls.val = 3)) else s2

/-- Empty entry `e`: its frames are free again (they are referenced no more), its mark is withdrawn (R47, R52). -/
def State.emptyEntry (e : Fin 48) (s : State) : State := ((s.withdrawRedo e).setRecord e none).markView

/-- Evict the record of entry `e` (R47). -/
def State.evict (e : Fin 48) (v : Record) (s : State) : State :=
  let s1 := if v.persisted then s.queueLog (.release v.slot) else s
  let s2 := s1.setQual v.slot { s1.quals[v.slot] with unrecorded := true }
  let s3 := s2.appendSlot .evicted v.slot (byteOf v.occurrence) s2.quals[v.slot].state
  s3.emptyEntry e

/-- Turn a requester away (R48). -/
def State.decline (i : Slot) (st : QState) (s : State) : State :=
  let p := s.owner i
  let s1 := s.setQual i { s.quals[i] with unrecorded := true }
  let s2 := s1.setPort p { s1.port p with declined := min 255 ((s1.port p).declined + 1) }
  (s2.appendSlot .declined i (byteOfInt s2.quals[i].m) st).markView

/-- A record request by slot `i`, whose qualifier is entering `st` (R45 to R48). -/
def State.requestRecord (i : Slot) (st : QState) (s : State) : State :=
  match s.freeEntry with
  | some e => s.allocate e i st
  | none =>
    match chooseVictim s.recordList with
    | some (e, v) =>
      if v.rank < rankVal st (s.classOf i) then (s.evict e v).allocate e i st else s.decline i st
    | none => s.decline i st

/-- Free entry `e` because its qualifier returns to IDLE; `release` asks for a RELEASE image if the record was
persisted (R52). -/
def State.freeRecord (e : Fin 48) (r : Record) (release : Bool) (s : State) : State :=
  let s1 := s.emptyEntry e
  if release && r.persisted then s1.queueLog (.release r.slot) else s1

/-- The store mark a notice makes (R50, last column). -/
inductive NoticeMark where
  | none | ordinary | byClass
  deriving DecidableEq, Repr

/-- Put `r'` in place of entry `e`'s record as a state notice does, and mark it (R50). -/
def State.notice (e : Fin 48) (r' : Record) (mark : NoticeMark) (s : State) : State :=
  let s1 := (s.setRecord e (some r')).markView
  match mark with
  | .none => s1
  | .ordinary => s1.markRecord e false
  | .byClass => s1.markRecord e (decide (r'.cls.val = 3))

/-- The confirmation notice (R50, first row). -/
def confirmNotice (ride : Nat) (r : Record) : Record :=
  { r with state := .confirmed, occurrence := 1, firstConf := ride, latestConf := ride, fade := 0, forget := 0,
           activity := ride }

/-- The recurrence notice (R50, third and fourth row). -/
def recurNotice (ride : Nat) (r : Record) : Record :=
  { r with state := .confirmed, occurrence := min 255 (r.occurrence + 1), latestConf := ride, fade := 0, forget := 0,
           activity := ride }

/-- The CONFIRMED → FADING notice (R50, second row). -/
def fadingNotice (ride : Nat) (r : Record) : Record :=
  { r with state := .fading, fade := 0, forget := 0, activity := ride }

/-- The FADING → HISTORIC notice (R50, fifth row). -/
def historicNotice (ride fade forget : Nat) (r : Record) : Record :=
  { r with state := .historic, fade := fade, forget := forget, activity := ride }

/-- The count notice at ride end (R50, last row). -/
def countNotice (fade forget : Nat) (r : Record) : Record := { r with fade := fade, forget := forget }

/-- ADOPT gives slot `i`'s record the adopted class (R55). -/
def State.updateClass (i : Slot) (cls : Fin 4) (s : State) : State :=
  match s.recordOf i with
  | none => s
  | some (e, r) =>
    if r.cls = cls then s
    else
      let s1 := (s.setRecord e (some { r with cls := cls })).markView
      if r.state = .pending then s1 else s1.markRecord e false

end Sys2Proof.Machine
end

