-- ==== Sys2Proof/Machine/ValueCode.lean ====
section
/-!
DEFINITION. The compact value code (R75 to R77) and the code a channel list entry yields at a capture (R63 to R65).
-/

namespace Sys2Proof.Machine

/-- The significand of `v` under a scale of `d`, rounded to the nearest integer, a tie to the even one (R76, step 3). -/
def roundEven (v d : Nat) : Nat :=
  let q := v / d
  let r := v % d
  if 2 * r < d then q else if d < 2 * r then q + 1 else if q % 2 = 0 then q else q + 1

/-- The code of exponent `e` and significand `m` after the carry of step 4 and the saturation of step 5 (R76, R77). -/
def packCode (e m : Nat) : Nat :=
  let e' := if m = 32 then e + 1 else e
  let m' := if m = 32 then 16 else m
  if 12 < e' then 0xCF else 16 * e' + (m' - 16)

/-- The compact code of a channel value 0..65535 (R76). -/
def compactCode (v : Nat) : Nat :=
  if v < 16 then v
  else packCode (Nat.log2 v - 3) (roundEven v (2 ^ (Nat.log2 v - 4)))

/-- The value a code 0x00..0xCF decodes to (R75). -/
def decodeCode (c : Nat) : Nat :=
  if c < 16 then c else (16 + c % 16) * 2 ^ (c / 16 - 1)

/-- The stale limit of a port in microseconds; 0 means its channels are not judged stale (R63). -/
def State.staleLimit (s : State) (p : Port) : Nat :=
  match s.adoptedCopy p with
  | some c => Config.limitStep * c.staleCode
  | none => 0

/-- The committed value of a channel (R61). -/
def State.channelValue (s : State) (p : Port) (c : Fin 16) : Nat :=
  natOf16 (s.rd (Config.contextBase p + 2 * c.val)) (s.rd (Config.contextBase p + 2 * c.val + 1))

/-- The code of one channel at this moment: never written, stale, or its value's compact code (R65, steps 2 to 4). -/
def State.channelCode (s : State) (p : Port) (c : Fin 16) : Byte :=
  match (s.port p).channels[c] with
  | none => 0xFF
  | some t =>
    if s.staleLimit p ≠ 0 ∧ s.staleLimit p < s.now - t then 0xFE else byteOf (compactCode (s.channelValue p c))

/-- The code one list entry yields for a slot of port `p` (R64, R65). -/
def State.entryCode (s : State) (p : Port) (entry : Byte) : Byte :=
  if entry.toNat < 16 then s.channelCode p (Fin.ofNat 16 entry.toNat)
  else if entry.toNat < 32 then s.channelCode p.other (Fin.ofNat 16 (entry.toNat - 16))
  else 0xFF

/-- The eight codes a capture for slot `i` takes, in list order (R64, R65). -/
def State.captureCodes (s : State) (i : Slot) : Vector Byte 8 :=
  let p := s.owner i
  match s.adoptedCopy p, s.adoptedProfile i with
  | some c, some pr =>
    Vector.ofFn (fun j : Fin 8 => s.entryCode p (c.lists.getD (8 * pr.list.val + j.val) 0xFF))
  | _, _ => Vector.replicate 8 0xFF

end Sys2Proof.Machine
end

