-- ==== Sys2Proof/Machine/Snapshot.lean ====
section
/-!
DEFINITION. Frame capture (chapter 4): the pool (R70), borrowing (R71, R72), the skipped capture (R73).
-/

namespace Sys2Proof.Machine

/-- What the qualification engine hands on of an accepted sample (R17). -/
structure Report where
  slot    : Slot
  f       : Nat
  p       : Nat
  band    : Nat
  detail  : Byte
  context : Word
  deriving DecidableEq, Repr

/-- The 19 bytes a capture of this kind writes for a report, at this moment (R66, R67). -/
def State.frameNow (s : State) (r : Report) (k : FrameKind) : Frame :=
  frameBytes { slot := r.slot, kind := k, ride := s.ride.number, time := s.ride.time, m := s.quals[r.slot].m,
               band := r.band, detail := r.detail, context := r.context, codes := s.captureCodes r.slot }

/-- A record's reference of a kind (R57). -/
def Record.frameRef (r : Record) (k : FrameKind) : Option (Fin 64) :=
  match k with
  | .first => r.first
  | .latest => r.latest

/-- A record with frame `f` under kind `k`. -/
def Record.withFrame (r : Record) (k : FrameKind) (f : Fin 64) : Record :=
  match k with
  | .first => { r with first := some f }
  | .latest => { r with latest := some f }

/-- The records a capture for entry `e`, of rank `rank`, may borrow from (R71). -/
def State.lenders (s : State) (e : Fin 48) (rank : Nat) : List (Fin 48 × Record) :=
  s.recordList.filter (fun x => decide (x.1 ≠ e) && x.2.latest.isSome && decide (x.2.rank < rank))

/-- Frame `f` becomes entry `e`'s frame of kind `k` and takes these bytes (R67, R70). -/
def State.bindFrame (e : Fin 48) (r : Record) (k : FrameKind) (f : Fin 64) (bytes : Frame) (s : State) : State :=
  (({ s with frames := s.frames.set f bytes } : State).setRecord e (some (r.withFrame k f))).markView

/-- The lender loses its LATEST frame and is marked dirty, not urgent (R72, steps 1 and 2). -/
def State.lend (j : Fin 48) (lender : Record) (s : State) : State :=
  (s.setRecord j (some { lender with latest := none })).markRecord j false

/-- A capture of kind `k` for the record of entry `e` (R67 to R73). A present LATEST is overwritten in place; else the
lowest free frame, else a borrowed one, else nothing. -/
def State.captureFor (e : Fin 48) (rec : Record) (r : Report) (k : FrameKind) (s : State) : State :=
  let bytes := s.frameNow r k
  match rec.frameRef k with
  | some f => { s with frames := s.frames.set f bytes }
  | none =>
    match s.freeFrames with
    | f :: _ => s.bindFrame e rec k f bytes
    | [] =>
      match chooseVictim (s.lenders e rec.rank) with
      | some (j, lender) =>
        match lender.latest with
        | some f => (s.lend j lender).bindFrame e rec k f bytes
        | none => s
      | none => s

/-- The snapshot unit is asked for a frame of kind `k` for the record the qualifier holds, if it holds one (R29,
step 3). -/
def State.capture (r : Report) (k : FrameKind) (s : State) : State :=
  match s.recordOf r.slot with
  | some (e, rec) => s.captureFor e rec r k
  | none => s

end Sys2Proof.Machine
end

