-- ==== Sys2Proof/Machine/Qualify.lean ====
section
/-!
DEFINITION. Qualification: the check and the accepted sample (R9 to R17), the maturity arithmetic (R23 to R27), the
transitions at acceptance (R28 to R35), the retained request (R127), rebase (R18) and clear (R41).
-/

namespace Sys2Proof.Machine

/-! ### Maturity arithmetic -/

/-- The effective step-up U′ (R23). -/
def effStepUp (band u : Nat) : Nat :=
  match band with
  | 0 => u
  | 1 => max 1 (u / 2)
  | _ => 0

/-- The effective fail weight F = f × U′ (R23). -/
def failWeight (pr : Profile) (r : Report) : Nat := r.f * effStepUp r.band pr.stepUp

/-- The effective pass weight Q = p × D (R23). -/
def passWeight (pr : Profile) (r : Report) : Nat := r.p * pr.stepDown

/-- The net change Δ = F − Q, exact (R24). -/
def netChange (pr : Profile) (r : Report) : Int := (failWeight pr r : Int) - (passWeight pr r : Int)

/-- The jump: an opposite-signed M becomes 0 first (R25). -/
def jumped (jump : Bool) (m d : Int) : Int := if jump ∧ ((0 < d ∧ m < 0) ∨ (d < 0 ∧ 0 < m)) then 0 else m

/-- Clamp to −128..+127 (R26). -/
def clampM (x : Int) : Int := if 127 < x then 127 else if x < -128 then -128 else x

/-- The new M of a report (R25, R26). -/
def newM (pr : Profile) (r : Report) (m : Int) : Int := clampM (jumped pr.jump m (netChange pr r) + netChange pr r)

/-- The qualifier after the fourth step and the ride flags (R26, R27). -/
def matured (pr : Profile) (r : Report) (q : Qualifier) : Qualifier :=
  { q with
    m := newM pr r q.m,
    tested := q.tested || decide (0 < failWeight pr r) || decide (0 < passWeight pr r),
    failed := q.failed || decide (0 < failWeight pr r),
    passedMature := q.passedMature || (decide (0 < passWeight pr r) && decide (newM pr r q.m = -128)) }

/-! ### The retained request -/

/-- The slots the retained list holds: valid entries and entries queued or being written (R127). -/
def State.retainedListed (s : State) (i : Slot) : Bool :=
  s.store.retPos.toList.any (fun x => match x with | .valid j => decide (j = i) | .free | .void => false)
    || s.store.retQueue.any (fun x => decide (x.slot = i))
    || (match s.store.program with
        | some (.retained x) => decide (x.slot = i)
        | some (.image _) | none => false)

/-- Position `k` is reserved by an entry queued or being written (R127). -/
def State.retainedReserved (s : State) (k : Fin 16) : Bool :=
  s.store.retQueue.any (fun x => decide (x.pos = k))
    || (match s.store.program with
        | some (.retained x) => decide (x.pos = k)
        | some (.image _) | none => false)

/-- The lowest free position not yet reserved (R127). -/
def State.retainedFree (s : State) : Option (Fin 16) :=
  (List.finRange 16).find? (fun k => decide (s.store.retPos[k] = .free) && !s.retainedReserved k)

/-- A request for a retained entry: accepted if the list does not hold the slot and a free position remains beyond
those reserved; else dropped without a trace (R127). -/
def State.requestRetained (i : Slot) (occurrence : Nat) (frame : Option Frame) (s : State) : State :=
  match s.retainedListed i, s.retainedFree with
  | false, some k =>
    ({ s with store := { s.store with retQueue := s.store.retQueue ++
        [{ slot := i, ride := s.ride.number, occurrence := occurrence, frame := frame, pos := k }] } } : State).urgentMarked
  | _, _ => s

/-! ### Transitions at acceptance -/

/-- The occurrence of the record a slot holds, 0 if it holds none (R38). -/
def State.occurrenceOf (s : State) (i : Slot) : Nat :=
  match s.recordOf i with
  | some (_, r) => r.occurrence
  | none => 0

/-- A copy of the FIRST frame of the record a slot holds, if there is one (R31, R79). -/
def State.firstFrameOf (s : State) (i : Slot) : Option Frame :=
  match s.recordOf i with
  | some (_, r) => r.first.map (fun f => s.frames[f])
  | none => none

/-- Step 1 of R29: the new state and counts. -/
def State.enter (i : Slot) (st : QState) (s : State) : State :=
  (s.setQual i { s.quals[i] with state := st, fade := 0, forget := 0 }).markView

/-- Steps 5 and 6 of R29: the trail entry, the lamp demand and the publish-dirty mark. -/
def State.announce (i : Slot) (kind : TrailKind) (detail : Byte) (old new : QState) (s : State) : State :=
  ((s.appendSlot kind i detail new).handDemand (s.owner i) (s.demandIn i old) (s.demandIn i new)).markView

/-- IDLE → PENDING (R30). -/
def State.toPending (r : Report) (s : State) : State :=
  let s1 := (s.enter r.slot .pending).requestRecord r.slot .pending
  (s1.capture r .first).announce r.slot .pending (byteOfInt s.quals[r.slot].m) .idle .pending

/-- Steps 2 and 3 of an entry to CONFIRMED: the record gets the notice and a LATEST frame, or one is requested with
FIRST and LATEST frames at once (R31, R34). -/
def State.confirmRecord (r : Report) (change : Record → Record) (s : State) : State :=
  match s.recordOf r.slot with
  | some (e, rec) => (s.notice e (change rec) .byClass).capture r .latest
  | none => ((s.requestRecord r.slot .confirmed).capture r .first).capture r .latest

/-- PENDING → CONFIRMED, the first confirmation (R31). -/
def State.toConfirmed (r : Report) (s : State) : State :=
  let s1 := (s.enter r.slot .confirmed).confirmRecord r (confirmNotice s.ride.number)
  let s2 := if (s.classOf r.slot).val = 3 then s1.requestRetained r.slot 1 (s1.firstFrameOf r.slot) else s1
  s2.announce r.slot .confirmed (byteOf (s2.occurrenceOf r.slot)) .pending .confirmed

/-- PENDING → IDLE at acceptance (R32). -/
def State.dropPending (r : Report) (s : State) : State :=
  let s1 := s.enter r.slot .idle
  let s2 := s1.setQual r.slot { s1.quals[r.slot] with unrecorded := false }
  let s3 := match s2.recordOf r.slot with
    | some (e, rec) => s2.freeRecord e rec false
    | none => s2
  s3.announce r.slot .pendingDropped (byteOfInt (-128)) .pending .idle

/-- CONFIRMED → FADING (R33). -/
def State.toFading (r : Report) (s : State) : State :=
  let s1 := s.enter r.slot .fading
  let s2 := match s1.recordOf r.slot with
    | some (e, rec) => s1.notice e (fadingNotice s.ride.number rec) .ordinary
    | none => s1
  s2.announce r.slot .fading (byteOfInt (-128)) .confirmed .fading

/-- FADING → CONFIRMED and HISTORIC → CONFIRMED, the recurrences (R34, R35). -/
def State.recur (r : Report) (old : QState) (s : State) : State :=
  let s1 := (s.enter r.slot .confirmed).confirmRecord r (recurNotice s.ride.number)
  s1.announce r.slot .recurred (byteOf (s1.occurrenceOf r.slot)) old .confirmed

/-- One reading of the table of R28: the transition the state and the new M give, if any. -/
def State.judge (r : Report) (s : State) : State :=
  let q := s.quals[r.slot]
  match q.state with
  | .idle => if 0 < q.m then s.toPending r else s
  | .pending => if q.m = 127 then s.toConfirmed r else if q.m = -128 then s.dropPending r else s
  | .confirmed => if q.m = -128 then s.toFading r else s
  | .fading => if q.m = 127 then s.recur r .fading else s
  | .historic => if q.m = 127 then s.recur r .historic else s

/-- The application of one report (R22): arithmetic, ride flags, then the transitions, at most two (R28). -/
def State.applyReport (r : Report) (s : State) : State :=
  match s.adoptedProfile r.slot with
  | none => s
  | some pr =>
    let q := s.quals[r.slot]
    let q' := matured pr r q
    let seen := decide (q'.tested ≠ q.tested) || decide (q'.failed ≠ q.failed)
      || (decide (q'.m ≠ q.m) && (s.recordOf r.slot).isSome)
    (((s.setQual r.slot q').markViewIf seen).judge r).judge r

/-! ### The visit's sample -/

/-- One indivisible read of a tally slot (R7, 11.3). -/
structure Sample where
  pass    : Byte
  fail    : Byte
  band    : Byte
  detail  : Byte
  ctxLo   : Byte
  ctxHi   : Byte
  spare   : Byte
  check   : Byte
  deriving DecidableEq, Repr

/-- The sample of slot `i` as the board stands (R7). -/
def State.sample (s : State) (i : Slot) : Sample :=
  let a := Config.tallyBase + 8 * i.val
  { pass := s.rd a, fail := s.rd (a + 1), band := s.rd (a + 2), detail := s.rd (a + 3), ctxLo := s.rd (a + 4),
    ctxHi := s.rd (a + 5), spare := s.rd (a + 6), check := s.rd (a + 7) }

/-- The expected check of a sample (R9). -/
def expectedCheck (inverted : Bool) (x : Sample) : Byte :=
  let c := x.pass ^^^ x.fail ^^^ x.band ^^^ x.detail ^^^ x.ctxLo ^^^ x.ctxHi ^^^ x.spare
  if inverted then c ^^^ 0xFF else c

/-- Whether a port's adopted check sense is inverted (R2, R9). -/
def State.checkInverted (s : State) (p : Port) : Bool :=
  match s.adoptedCopy p with
  | some c => c.inverted
  | none => false

/-- A held sample (R10, R11): the held count rises, and the slot is barred when it reaches 3. -/
def State.holdSample (i : Slot) (s : State) : State :=
  let e := s.slots[i]
  if e.barred then s
  else if e.held + 1 < 3 then s.setSlot i { e with held := e.held + 1 }
  else
    ((s.setSlot i { e with held := 3, barred := true }).appendSlot .barred i (byteOfInt s.quals[i].m)
      s.quals[i].state).markView

/-- The bar is lifted (R13). -/
def State.liftBar (i : Slot) (s : State) : State :=
  if s.slots[i].barred then
    ((s.setSlot i { s.slots[i] with barred := false }).appendSlot .barLifted i (byteOfInt s.quals[i].m)
      s.quals[i].state).markView
  else s

/-- A tally delta modulo 256 (R14). -/
def tallyDelta (now seen : Byte) : Nat := (now - seen).toNat

/-- An accepted sample (R12 to R17). -/
def State.acceptSample (i : Slot) (x : Sample) (s : State) : State :=
  let e := s.slots[i]
  let s1 := (s.setSlot i { e with seenFail := x.fail, seenPass := x.pass, held := 0, touched := false }).liftBar i
  let band := x.band.toNat % 4
  if band = 3 then s1
  else
    s1.applyReport { slot := i, f := tallyDelta x.fail e.seenFail, p := tallyDelta x.pass e.seenPass, band := band,
                     detail := x.detail, context := wordOf x.ctxLo x.ctxHi }

/-- One visit of slot `i` (R7, R9, R15). -/
def State.visit (i : Slot) (s : State) : State :=
  if s.enabled i then
    let x := s.sample i
    if expectedCheck (s.checkInverted (s.owner i)) x = x.check then s.acceptSample i x else s.holdSample i
  else s.setSlot i { s.slots[i] with touched := false }

/-! ### The pass -/

/-- The lowest touched slot of port `p` at or above a position (R6). -/
def State.nextTouched (s : State) (p : Port) (pos : Nat) : Option Slot :=
  (s.portSlots p).find? (fun i => decide (pos ≤ i.val) && s.slots[i].touched)

/-- A pass of port `p` stands at `pos`: it goes on while a touched slot lies ahead, else it has stepped past the
highest slot and ends, and an owed pass begins (R6). -/
def State.passFrom (p : Port) (pos : Nat) (s : State) : State :=
  let ps := s.port p
  match s.nextTouched p pos with
  | some _ => s.setPort p { ps with passPos := some pos }
  | none =>
    if ps.owed then
      s.setPort p { ps with owed := false, passPos := (s.nextTouched p 0).map (fun _ => 0) }
    else s.setPort p { ps with passPos := none }

/-- A pass in progress of port `p` steps over slots whose marks a rebase has cleared (R18). -/
def State.settlePass (p : Port) (s : State) : State :=
  match (s.port p).passPos with
  | some pos => s.passFrom p pos
  | none => s

/-! ### Rebase and clear -/

/-- A rebase of slot `i` (R18). -/
def State.rebase (i : Slot) (s : State) : State :=
  let a := Config.tallyBase + 8 * i.val
  (s.setSlot i { touched := false, held := 0, barred := false, seenPass := s.rd a, seenFail := s.rd (a + 1) }).markViewIf
    s.slots[i].barred

/-- A clear of qualifier `i` (R41); `demand` is the lamp demand the qualifier is counted with. -/
def State.clearQual (i : Slot) (demand : Pattern) (s : State) : State :=
  let s1 := s.setQual i Qualifier.reset
  let s2 := match s1.recordOf i with
    | some (e, r) => s1.freeRecord e r false
    | none => s1
  (s2.handDemand (s2.owner i) demand .off).markView

end Sys2Proof.Machine
end

