-- ==== Sys2Proof/Machine/Images.lean ====
section
/-!
DEFINITION. Flash images (R113, 11.7): their bytes, how a sector is walked (R130), and the newest image of a key (R121).
-/

namespace Sys2Proof.Machine

/-- The image kinds (R113). -/
inductive ImageKind where
  | ride | qualifier | record | clear | release
  deriving DecidableEq, Repr

/-- Image kind codes (R186). -/
def imageKindCode : ImageKind → Nat
  | .ride => 1
  | .qualifier => 2
  | .record => 3
  | .clear => 4
  | .release => 5

/-- The image kind a code names; any other code is no image. -/
def imageKindOf (n : Nat) : Option ImageKind :=
  match n with
  | 1 => some .ride
  | 2 => some .qualifier
  | 3 => some .record
  | 4 => some .clear
  | 5 => some .release
  | _ => none

/-- The length of a kind in lines, header included (R113). -/
def imageLines : ImageKind → Nat
  | .ride => 2
  | .qualifier => 98
  | .record => 9
  | .clear => 3
  | .release => 3

/-- The 16-bit sum of bytes, modulo 65536 (R113). -/
def sum16 (bs : List Byte) : Nat := (bs.foldl (fun n b => n + b.toNat) 0) % 65536

/-- Header line 0: kind, length in lines, sequence, ride number (R113). -/
def headerLine (k : ImageKind) (seq ride : Nat) : List Byte :=
  [byteOf (imageKindCode k), byteOf (imageLines k)] ++ bytes32 seq ++ bytes16 ride

/-- A whole image: header line 0, then line 1 with the check and the complete mark, then the body (R113, 11.7). -/
def imageBytes (k : ImageKind) (seq ride : Nat) (body : List Byte) : List Byte :=
  headerLine k seq ride ++ bytes16 (sum16 (headerLine k seq ride ++ body)) ++ List.replicate 6 0 ++ body

/-- QUALIFIER body: for each slot M; state in bits 2..0, fade count in bits 7..4 and bit 3 as 0 (assumption log 42);
forget count; a zero byte (R113, 11.7). -/
def qualifierBody (qs : Vector Qualifier 192) : List Byte :=
  qs.toList.flatMap (fun q => [byteOfInt q.m, byteOf (qstateCode q.state + 16 * q.fade), byteOf q.forget, 0])

/-- A frame copy in an image or a retained entry: 0xFF in all 19 bytes when absent (R113, R127). -/
def frameCopy (f : Option Frame) : List Byte :=
  match f with
  | some x => x.toList
  | none => List.replicate 19 0xFF

/-- RECORD body: the 16-byte record, the FIRST and the LATEST frame, padding (R113, 11.7). -/
def recordBody (r : Record) (frames : Vector Frame 64) : List Byte :=
  recordBytes r false false 0 0 ++ frameCopy (r.first.map (fun f => frames[f])) ++ frameCopy (r.latest.map (fun f => frames[f]))
    ++ [0, 0]

/-- CLEAR and RELEASE bodies (11.7). -/
def logBody : LogItem → List Byte
  | .clear a b => [byteOf a.val, byteOf b.val] ++ List.replicate 6 0
  | .release i => [byteOf i.val] ++ List.replicate 7 0

/-- The kind of image a CLEAR or RELEASE item is written as. -/
def logKind : LogItem → ImageKind
  | .clear _ _ => .clear
  | .release _ => .release

/-! ### Reading the log -/

/-- A parsed image: where it stands, its header fields, whether it is valid, and its body (R130). -/
structure Image where
  sector : Fin 16
  line   : Nat
  kind   : ImageKind
  seq    : Nat
  ride   : Nat
  valid  : Bool
  body   : List Byte
  deriving DecidableEq, Repr

/-- Where the walk of a sector ended: on blank lines, or stopped at something that is no image (R130). -/
inductive WalkEnd where
  | blank (line : Nat)
  | stopped (line : Nat)
  deriving DecidableEq, Repr

/-- Flash address of byte `o` of log sector `k`. -/
def sectorAddr (k : Fin 16) (o : Nat) : Nat := Config.sectorBytes * k.val + o

/-- The 2048 bytes of a log sector (R109). -/
def sectorBytes (flash : Memory) (k : Fin 16) : List Byte :=
  Memory.readBytes flashDefault flash (sectorAddr k 0) Config.sectorBytes

/-- Every byte reads 0xFF. -/
def allBlank (bs : List Byte) : Bool := bs.all (fun b => decide (b = 0xFF))

/-- The image whose header stands at the start of `bs`, the bytes of sector `k` from line `line` on. An image lies
before the retire line, so one whose length would pass it is none (assumption log 19). -/
def parseImage (k : Fin 16) (line : Nat) (bs : List Byte) : Option Image :=
  match imageKindOf (byteAt bs 0).toNat with
  | none => none
  | some kind =>
    if (byteAt bs 1).toNat = imageLines kind ∧ line + imageLines kind ≤ Config.retireLine then
      let body := (bs.take (8 * imageLines kind)).drop 16
      some { sector := k, line := line, kind := kind,
             seq := natOf32 (byteAt bs 2) (byteAt bs 3) (byteAt bs 4) (byteAt bs 5),
             ride := natOf16 (byteAt bs 6) (byteAt bs 7),
             valid := decide (byteAt bs 10 = 0x00)
               && decide (natOf16 (byteAt bs 8) (byteAt bs 9) = sum16 (bs.take 8 ++ body)),
             body := body }
    else none

/-- The walk of a sector from line `line`, whose remaining bytes are `bs`; every image takes at least two lines, so
128 rounds reach its end (R130). -/
def walk (k : Fin 16) (fuel line : Nat) (bs : List Byte) : List Image × WalkEnd :=
  match fuel with
  | 0 => ([], .stopped line)
  | fuel + 1 =>
    if Config.retireLine ≤ line then ([], .blank line)
    else if allBlank bs then ([], .blank line)
    else
      match parseImage k line bs with
      | none => ([], .stopped line)
      | some im =>
        let n := imageLines im.kind
        let rest := walk k fuel (line + n) (bs.drop (8 * n))
        (im :: rest.1, rest.2)

/-- The walk of a whole log sector (R130). -/
def walkSector (flash : Memory) (k : Fin 16) : List Image × WalkEnd := walk k 129 0 (sectorBytes flash k)

/-- The images of the sectors that hold any: OPEN and FULL ones (R121, R130). -/
def State.logImages (s : State) : List Image :=
  (List.finRange 16).flatMap (fun k =>
    match s.store.sectors[k].state with
    | .opened | .full => (walkSector s.flash k).1
    | .unknown | .erased | .erasing | .spoiled | .retired => [])

/-- The image of highest sequence among those listed, the first of equals. -/
def newestOf (l : List Image) : Option Image :=
  l.foldl (fun best x =>
    match best with
    | none => some x
    | some b => if b.seq < x.seq then some x else some b) none

/-- Whether an image belongs to the record key of slot `n` (R121). -/
def ofRecordKey (n : Nat) (im : Image) : Bool :=
  match im.kind with
  | .record | .release => decide ((byteAt im.body 0).toNat = n)
  | .clear => decide ((byteAt im.body 0).toNat ≤ n) && decide (n ≤ (byteAt im.body 1).toNat)
  | .ride | .qualifier => false

/-- The newest complete image of the ride key (R121). DESIGN CHOICE: an image is complete when its mark and check read so,
a failed one too (assumption log 43). -/
def newestRide (l : List Image) : Option Image := newestOf (l.filter (fun im => im.valid && decide (im.kind = .ride)))

/-- The newest complete image of the qualifier key (R121, R131); complete as of assumption log 43. -/
def newestQualifier (l : List Image) : Option Image :=
  newestOf (l.filter (fun im => im.valid && decide (im.kind = .qualifier)))

/-- The newest complete image of the record key of slot `n` (R121); complete as of assumption log 43. -/
def newestRecordKey (l : List Image) (n : Nat) : Option Image :=
  newestOf (l.filter (fun im => im.valid && ofRecordKey n im))

/-- `im` is newer than the newest QUALIFIER image, or there is none: so R131 for restore. DESIGN CHOICE: the copy phase
of R121 reads its fourth row so too where the log holds no QUALIFIER image (assumption log 49). -/
def newerThanQualifier (q : Option Image) (im : Image) : Bool :=
  match q with
  | some x => decide (x.seq < im.seq)
  | none => true

/-! ### The retained sector -/

/-- Flash address of byte `o` of retained position `k` (R127). -/
def retainedAddr (k : Fin 16) (o : Nat) : Nat := Config.sectorBytes * Config.retainedSector + 64 * k.val + o

/-- The 64 bytes of a retained position (R127). -/
def retainedBytes (flash : Memory) (k : Fin 16) : List Byte :=
  Memory.readBytes flashDefault flash (retainedAddr k 0) 64

/-- A retained entry's 64 bytes (R127, 11.7). -/
def retainedEntryBytes (it : RetainedItem) : List Byte :=
  let head := [byteOf it.slot.val] ++ bytes16 it.ride ++ [byteOf it.occurrence, byteOf (flagBit it.frame.isSome 0)]
    ++ frameCopy it.frame ++ List.replicate 32 0
  head ++ bytes16 (sum16 head) ++ List.replicate 6 0

/-- The slot a byte names, if it is one. -/
def slotOfByte (b : Byte) : Option Slot := if h : b.toNat < 192 then some ⟨b.toNat, h⟩ else none

/-- What a retained position reads as: free, valid or void (R127). A check that matches under a slot number above 191
does not arise; it counts as void (assumption log 31). -/
def retainedPosOf (bs : List Byte) : RetainedPos :=
  if allBlank bs then .free
  else if byteAt bs 58 = 0x00 ∧ natOf16 (byteAt bs 56) (byteAt bs 57) = sum16 (bs.take 56) then
    match slotOfByte (byteAt bs 0) with
    | some i => .valid i
    | none => .void
  else .void

/-- The 16 positions as the retained sector reads (R127, R129, R133). -/
def readPositions (flash : Memory) : Vector RetainedPos 16 :=
  Vector.ofFn (fun k => retainedPosOf (retainedBytes flash k))

end Sys2Proof.Machine
end

