-- ==== Sys2Proof/Machine/Cells.lean ====
section
/-!
DEFINITION. The request cells and the executor (R134 to R141): the arbiter's pick, the take, the completion, and the
completion of ADOPT (R145).
-/

namespace Sys2Proof.Machine

/-- A cell takes a new state, and its state byte reads it (R134). -/
def State.setCell (p : Port) (c : CellState) (s : State) : State :=
  (s.setPort p { s.port p with cell := c }).wr (Config.cellBase p) (byteOf (cellCode c))

/-- Requests are taken in NO_RIDE and RIDING (R139). -/
def State.requestsTaken (s : State) : Bool := decide (s.ride.state = .noRide) || decide (s.ride.state = .riding)

/-- The cell the arbiter picks among those POSTED (R140). -/
def State.arbitrate (s : State) : Option Port :=
  if (s.port s.exec.pref).cell = .posted then some s.exec.pref
  else if (s.port s.exec.pref.other).cell = .posted then some s.exec.pref.other
  else none

/-- A take opportunity (R139): a free executor picks a POSTED cell, if requests are taken (assumption log 11). -/
def State.offer (s : State) : State :=
  match s.exec.taken, s.exec.claim with
  | none, none => if s.requestsTaken then { s with exec := { s.exec with claim := s.arbitrate } } else s
  | _, _ => s

/-- The cell picked is no longer to be taken: it was withdrawn, or the ride state forbids it (R138, R139). -/
def State.unclaim (s : State) : State := { s with exec := { s.exec with claim := none } }

/-- The request code of a port's cell (8.1). -/
def State.requestCode (s : State) (p : Port) : Nat := (s.rd (Config.cellBase p + 1)).toNat

/-- Parameter byte `k` of a port's cell (8.1). -/
def State.param (s : State) (p : Port) (k : Nat) : Nat := (s.rd (Config.cellBase p + 4 + k)).toNat

/-- A request with code `code` in port `p`'s cell is taken now: the part is out of reset, the executor is free, the
arbiter has picked that cell, it is POSTED and requests are taken (R139, R140). -/
def State.canTake (s : State) (p : Port) : Bool :=
  !s.inReset && s.exec.taken.isNone && decide (s.exec.claim = some p) && decide ((s.port p).cell = .posted)
    && s.requestsTaken

/-- The take (R137, R140): the cell becomes TAKEN and the preference names the other port. -/
def State.take (p : Port) (s : State) : State :=
  ({ s with exec := { s.exec with claim := none, pref := p.other } } : State).setCell p .taken

/-- The answer bytes of a status: all but OK and STORE_FAULT answer with length 0 (R141). -/
def answerFor (st : Status) (answer : List Byte) : List Byte :=
  match st with
  | .ok | .storeFault => answer
  | .badRequest | .badTarget | .notAdopted | .rideLocked | .locked | .absent => []

/-- The 48 answer bytes: the answer, then zeros (R137). -/
def paddedAnswer (answer : List Byte) : List Byte := (answer ++ List.replicate 48 0).take 48

/-- The completion of a request (R137): status, answer length, answer, then the state ANSWERED; the executor becomes
free, the attention lines are recomputed (R171), and the executor has a take opportunity (R139). -/
def State.complete (p : Port) (st : Status) (answer : List Byte) (s : State) : State :=
  let a := answerFor st answer
  let b := Config.cellBase p
  let s1 := ((s.wr (b + 2) (byteOf (statusCode st))).wr (b + 3) (byteOf a.length)).wrBytes (b + 16) (paddedAnswer a)
  let s2 := s1.setCell p .answered
  (({ s2 with exec := { s2.exec with taken := none } } : State).refreshAttn).offer

/-- The pass period of a port in microseconds (R5). -/
def State.passPeriodOf (s : State) (p : Port) : Nat :=
  match s.adoptedCopy p with
  | some c => Config.passPeriod c.passCode
  | none => 0

/-- Start an adopted port's pass timer: it expires one period from now (R5). -/
def State.startPassTimer (p : Port) (s : State) : State :=
  if (s.port p).adopted then s.setPort p { s.port p with passDue := some (s.now + s.passPeriodOf p) } else s

/-- FP's new reader and threshold take effect (R145, R170); BP's ADOPT does not touch them. -/
def State.applyTrailSetup (p : Port) (s : State) : State :=
  match p, s.fp.copy with
  | .fp, some c => s.setReader c.reader c.threshold
  | .fp, none => s
  | .bp, _ => s

/-- A port's first ADOPT since reset starts its timers at its completion, if that falls in RIDING (R145). -/
def State.startTimers (p : Port) (first : Bool) (s : State) : State :=
  if first ∧ s.ride.state = .riding then (s.startPassTimer p).startSilence p else s

/-- What the completion of ADOPT does beside its answer (R145): the publish-dirty mark sets at every one. -/
def State.adoptTakesEffect (p : Port) (s : State) : State :=
  ((((s.setPort p { s.port p with adopted := true }).markView).recountLamp p).applyTrailSetup p).startTimers p
    (!(s.port p).adopted)

/-- The completion of ADOPT (R145). -/
def State.completeAdopt (p : Port) (fault : Bool) (answer : List Byte) (s : State) : State :=
  (s.adoptTakesEffect p).complete p (if fault then .storeFault else .ok) answer

/-- The store reports a CLEAR item to the request handler, written or not written (R126, R147). -/
def State.reportClear (written : Bool) (s : State) : State :=
  match s.exec.taken with
  | some (.adopt p left answer) =>
    if written then
      if left ≤ 1 then s.completeAdopt p false answer
      else { s with exec := { s.exec with taken := some (.adopt p (left - 1) answer) } }
    else s.completeAdopt p true answer
  | some (.clear p answer) => s.complete p (if written then .ok else .storeFault) answer
  | some (.readRetained _ _) | some (.eraseRetained _) | some (.reply _ _ _) | some (.adopted _ _ _) | none => s

/-- The completion of port `p`'s request, where it waits for nothing (R137, R138, R145). -/
def State.finish (p : Port) (s : State) : State :=
  match s.exec.taken with
  | some (.reply q st answer) => if q = p then s.complete p st answer else s
  | some (.adopted q fault answer) => if q = p then s.completeAdopt p fault answer else s
  | some (.adopt _ _ _) | some (.clear _ _) | some (.readRetained _ _) | some (.eraseRetained _) | none => s

end Sys2Proof.Machine
end

