-- ==== Sys2Proof/Machine/PortWrites.lean ====
section
/-!
DEFINITION. The commands that are writes of a port (R173 to R178, R180): what each judged write does, and one meaning
per row of the table. The port interface judges the access itself, so every one of these rows acts as the write its
address, data and the cell's state make it (assumption log 7).
-/

namespace Sys2Proof.Machine

/-- Store the byte, or on a 16-bit port the word, of a write (R177). -/
def State.storeAccess (p : Port) (a : Addr) (d : Word) (s : State) : State :=
  let ps := s.port p
  let x := accessAddr ps.wide a
  let b := accessBytes ps d
  if ps.wide then s.wrBytes x [b.1, b.2] else s.wr x b.1

/-- On a 16-bit port the word of the state byte carries the code byte, stored if the cell is IDLE (R136). -/
def State.storeRequestCode (p : Port) (d : Word) (s : State) : State :=
  if (s.port p).wide ∧ (s.port p).cell = .idle then s.wr (Config.cellBase p + 1) (accessBytes (s.port p) d).2 else s

/-- The touched mark of slot `i` sets (R3). -/
def State.touch (i : Slot) (s : State) : State := s.setSlot i { s.slots[i] with touched := true }

/-- A commit of channel `c` (R61, R62). -/
def State.commitChannel (p : Port) (c : Fin 16) (lo hi : Byte) (s : State) : State :=
  (s.wrBytes (Config.contextBase p + 2 * c.val) [lo, hi]).setPort p
    { s.port p with channels := (s.port p).channels.set c (some s.now) }

/-- The stray flag sets; a change of it sets the publish-dirty mark (R175). -/
def State.flagStray (p : Port) (s : State) : State :=
  (s.setPort p { s.port p with stray := true }).markViewIf (!(s.port p).stray)

/-- A withdrawal (R135, R138): a cell picked and not yet taken is picked no more, and the other cell may be. -/
def State.withdraw (p : Port) (s : State) : State :=
  let s1 := s.setCell p .idle
  (if s1.exec.claim = some p then s1.unclaim else s1).offer

/-- Port `p` writes `n` to its release byte: the byte holds n, and the release waits for the publisher (R168, R176). -/
def State.raiseRelease (p : Port) (n : Byte) (s : State) : State :=
  (s.setPort p { s.port p with releases := (s.port p).releases ++ [n] }).wr (Config.releaseAddr p) n

/-- The publisher takes port `p`'s oldest waiting release and writes the byte back to 0, whatever a later write has left
in it (R168, R176). -/
def State.takeOldest (p : Port) (s : State) : State :=
  match (s.port p).releases with
  | [] => s
  | n :: rest =>
    ((s.setPort p { s.port p with releases := rest }).takeRelease p n.toNat).wr (Config.releaseAddr p) 0

/-- The publisher takes the oldest `n` releases of port `p` that wait, or all, in the order written (R168). -/
def State.takeReleases (p : Port) (n : Nat) (s : State) : State :=
  ((s.port p).releases.take n).foldl (fun t _ => t.takeOldest p) s

/-- What the write does to staging (R178): a low byte is staged, anything else leaves the staging byte empty. -/
def State.stageFor (p : Port) (k : WriteKind) (d : Word) (s : State) : State :=
  s.setPort p { s.port p with
    staging := match k with
      | .stage c => some (c, (accessBytes (s.port p) d).1)
      | .check _ | .post | .withdraw | .handBack | .stateIgnored | .param | .release _ | .commit _ _ _ | .unpaired
      | .plain | .stray => none }

/-- What a judged write does to the memory and to the block that owns the area (R175, R180). -/
def State.writeEffect (p : Port) (a : Addr) (d : Word) (k : WriteKind) (s : State) : State :=
  match k with
  | .check i => (s.storeAccess p a d).touch i
  | .post => ((s.storeRequestCode p d).setCell p .posted).offer
  | .withdraw => s.withdraw p
  | .handBack => (s.setCell p .idle).refreshAttn
  | .stateIgnored => s.storeRequestCode p d
  | .param => if (s.port p).cell = .idle then s.storeAccess p a d else s
  | .release n => s.raiseRelease p n
  | .stage _ => s
  | .commit c lo hi => s.commitChannel p c lo hi
  | .unpaired => s
  | .plain => s.storeAccess p a d
  | .stray => s.flagStray p

/-- A write by port `p` (R175, R178, R180): judged, then its area's event, then the silence event; the publisher takes
`taken` of the port's releases between the two (assumption logs 22 and 23). In reset a port does not respond (R182). -/
def State.portWrite (p : Port) (a : Addr) (d : Word) (taken : Nat) (s : State) : State :=
  let k := s.judgeWrite p a d
  (((s.stageFor p k d).writeEffect p a d k).takeReleases p taken).heard p

/-- A write whose release, if it is one, is taken within the same command, after those that wait (R168). -/
def State.wholeWrite (p : Port) (a : Addr) (d : Word) (s : State) : State :=
  s.portWrite p a d (match s.judgeWrite p a d with
    | .release _ => (s.port p).releases.length + 1
    | .check _ | .post | .withdraw | .handBack | .stateIgnored | .param | .stage _ | .commit _ _ _ | .unpaired | .plain
    | .stray => 0)

/-- CHECK_BYTE_WRITE (R3). -/
def execCheckByteWrite (p : Port) (a : Addr) (d : Word) (s : State) : Host.Outcome State Fault Refusal :=
  arises true s (s.wholeWrite p a d)

/-- POST (R135). -/
def execPost (p : Port) (a : Addr) (d : Word) (s : State) : Host.Outcome State Fault Refusal :=
  arises true s (s.wholeWrite p a d)

/-- WITHDRAWAL (R135). -/
def execWithdrawal (p : Port) (a : Addr) (d : Word) (s : State) : Host.Outcome State Fault Refusal :=
  arises true s (s.wholeWrite p a d)

/-- HAND_BACK (R135). -/
def execHandBack (p : Port) (a : Addr) (d : Word) (s : State) : Host.Outcome State Fault Refusal :=
  arises true s (s.wholeWrite p a d)

/-- RELEASE (R168, R176): the port's write, if one is made, and the publisher's take of `taken` releases that wait. -/
def execRelease (p : Port) (write : Option (Addr × Word)) (taken : Nat) (s : State) : Host.Outcome State Fault Refusal :=
  arises true s (match write with
    | some (a, d) => s.portWrite p a d taken
    | none => s.takeReleases p taken)

/-- CONTEXT_LOW_BYTE_STAGE (R178). -/
def execContextLowByteStage (p : Port) (a : Addr) (d : Word) (s : State) : Host.Outcome State Fault Refusal :=
  arises true s (s.wholeWrite p a d)

/-- CONTEXT_COMMIT (R61, R178). -/
def execContextCommit (p : Port) (a : Addr) (d : Word) (s : State) : Host.Outcome State Fault Refusal :=
  arises true s (s.wholeWrite p a d)

/-- STRAY_WRITE (R175). -/
def execStrayWrite (p : Port) (a : Addr) (d : Word) (s : State) : Host.Outcome State Fault Refusal :=
  arises true s (s.wholeWrite p a d)

/-- PORT_WRITE (R175). -/
def execPortWrite (p : Port) (a : Addr) (d : Word) (s : State) : Host.Outcome State Fault Refusal :=
  arises true s (s.wholeWrite p a d)

end Sys2Proof.Machine
end

