-- ==== Sys2Proof/Machine/Publication.lean ====
section
/-!
DEFINITION. The commands of the publisher and the lamp driver's clock: the publish pass (R158 to R164, R172), its
spacing, and the boundaries of the blink phase (R101).
-/

namespace Sys2Proof.Machine

/-- A port's flags byte in the view header (11.5). -/
def portFlags (ps : PortState) : Byte := byteOf (flagBit ps.adopted 0 + flagBit ps.silent 1 + flagBit ps.stray 2)

/-- Header offsets 2..31 as the copy of a pass holds them (R162, 11.5). -/
def State.headerCopy (s : State) : List Byte :=
  [1, byteOf s.part.toNat, byteOf (flagBit s.svc 0), byteOf (rideCode s.ride.state)]
  ++ bytes16 s.ride.number ++ bytes16 s.ride.time
  ++ [ byteOf (patternCode s.fp.shown), byteOf (patternCode s.bp.shown),
       portFlags s.fp, byteOf (s.barredCount .fp), byteOf s.fp.declined,
       portFlags s.bp, byteOf (s.barredCount .bp), byteOf s.bp.declined,
       byteOf s.recordList.length, byteOf s.freeFrames.length, byteOf (storeCode s.store.state),
       byteOf (s.sectorCount .erased), byteOf (s.sectorCount .retired),
       byteOf (flagBit (decide (0 < s.sectorCount .retired)) 0), byteOf s.retainedCount ]
  ++ List.replicate 7 0

/-- The slot status array as the copy of a pass holds it (R163). -/
def State.statusCopy (s : State) : List Byte :=
  (List.finRange 192).map (fun i => statusByte s.quals[i] s.slots[i].barred (s.enabled i))

/-- The record mirror as the copy of a pass holds it (R164). -/
def State.mirrorCopy (s : State) : List Byte :=
  (List.finRange 48).flatMap (fun e =>
    match s.records[e] with
    | some r => mirrorBytes (some r) s.quals[r.slot].m
    | none => mirrorBytes none 0)

/-- Every value the view shows, in one indivisible copy (R159, step 1): header 2..31, then status and mirror. -/
def State.viewCopy (s : State) : List Byte := s.headerCopy ++ s.statusCopy ++ s.mirrorCopy

/-- The generation rises by one and is written as one 16-bit store (R159). -/
def State.stepGeneration (s : State) : State :=
  ({ s with pub := { s.pub with generation := s.pub.generation + 1 } } : State).wrBytes 0
    (bytes16 (s.pub.generation + 1).toNat)

/-- A pass may start (R158). -/
def State.passMayStart (s : State) : Bool := s.pub.dirty && s.spacingExpired && s.pub.pass.isNone

/-- Steps 1 and 2 of R159. -/
def State.startPublish (s : State) : State :=
  ({ s with pub := { s.pub with dirty := false, pass := some s.viewCopy } } : State).stepGeneration

/-- PUBLISH_PASS_START (R158, R159). -/
def execPublishPassStart (s : State) : Host.Outcome State Fault Refusal := arises s.passMayStart s s.startPublish

/-- The trail fields of the header and offsets 40..63, which the first pass after reset also writes (R172). -/
def State.trailHeader (s : State) : List Byte :=
  bytes16 s.pub.writeCount.toNat ++ bytes16 s.pub.readMark.toNat
  ++ [byteOf s.pub.unread, byteOf (flagBit s.pub.overrun 0), byteOf (portCode s.pub.reader), byteOf s.pub.threshold]
  ++ List.replicate 24 0

/-- Step 3 of R159: the contents, from the copy. -/
def State.writeView (copy : List Byte) (s : State) : State :=
  let s1 := (s.wrBytes 2 (copy.take 30)).wrBytes Config.statusBase (copy.drop 30)
  if s.pub.firstPass then s1.wrBytes 32 s1.trailHeader else s1

/-- Steps 3 to 5 of R159. DESIGN CHOICE: every byte is written at this moment, so a read while the pass is in flight
returns the old value, never the new one that R160 allows too (assumption log 47). -/
def State.endPublish (copy : List Byte) (s : State) : State :=
  let s1 := (s.writeView copy).stepGeneration
  { s1 with pub := { s1.pub with pass := none, firstPass := false, spacingDue := some (s1.now + Config.spacingTime) } }

/-- PUBLISH_PASS_END (R159). -/
def execPublishPassEnd (s : State) : Host.Outcome State Fault Refusal :=
  match s.pub.pass with
  | some copy => arises true s (s.endPublish copy)
  | none => .next s

/-- The spacing timer has expired; a pass starts in the same step if the mark is set (R158; assumption log 12). -/
def State.spacingFired (s : State) : State :=
  let s1 : State := { s with pub := { s.pub with spacingDue := none } }
  if s1.passMayStart then s1.startPublish else s1

/-- PUBLISH_SPACING_EXPIRY (R158). -/
def execPublishSpacingExpiry (s : State) : Host.Outcome State Fault Refusal :=
  match s.pub.spacingDue with
  | some d => arises true s ((s.advanceTo d).spacingFired)
  | none => .next s

/-- BLINK_PHASE_BOUNDARY (R101, R102): the time base reaches the next boundary, and the outputs follow the phase. -/
def execBlinkPhaseBoundary (s : State) : Host.Outcome State Fault Refusal :=
  arises true s (s.advanceTo ((s.now / Config.blinkStep + 1) * Config.blinkStep))

end Sys2Proof.Machine
end

