-- ==== Sys2Proof/Machine/Qualification.lean ====
section
/-!
DEFINITION. The commands of the qualification engine: the pass timer (R5, R6) and one visit of a pass (R7).
-/

namespace Sys2Proof.Machine

/-- The pass timer of port `p` has expired at `d` (R5, R6): the next expiry falls one period later; a pass begins, or
one is owed if the previous has not ended. -/
def State.passTimerFired (p : Port) (d : Nat) (s : State) : State :=
  let s1 := s.setPort p { s.port p with passDue := some (d + s.passPeriodOf p) }
  match (s1.port p).passPos with
  | some _ => s1.setPort p { s1.port p with owed := true }
  | none => s1.passFrom p 0

/-- PASS_TIMER_EXPIRY (R5, R6). -/
def execPassTimerExpiry (p : Port) (s : State) : Host.Outcome State Fault Refusal :=
  match (s.port p).passDue with
  | some d => arises true s ((s.advanceTo d).passTimerFired p d)
  | none => .next s

/-- SLOT_VISIT (R6, R7): the pass in progress visits the next touched slot and goes on behind it. -/
def execSlotVisit (p : Port) (s : State) : Host.Outcome State Fault Refusal :=
  match (s.port p).passPos with
  | some pos =>
    match s.nextTouched p pos with
    | some i => arises true s ((s.visit i).passFrom p (i.val + 1))
    | none => .next s
  | none => .next s

end Sys2Proof.Machine
end

