-- ==== Sys2Proof/Machine/StoreOps.lean ====
section
/-!
DEFINITION. The record store's shared operations: entry to FAILED (R125, R126), retirement (R125), the order of the
writer's work (R118), the copy phase (R121), opening a sector (R124), beginning and ending an image (R114 to R116).
-/

namespace Sys2Proof.Machine

/-! ### Failures -/

/-- The store reports a retained erase to the request handler (R129, R153): the answer is the retained count. -/
def State.reportRetainedErase (st : Status) (s : State) : State :=
  match s.exec.taken with
  | some (.eraseRetained p) => s.complete p st [byteOf s.retainedCount]
  | some (.adopt _ _ _) | some (.clear _ _) | some (.readRetained _ _) | some (.reply _ _ _) | some (.adopted _ _ _)
  | none => s

/-- Entry to FAILED (R125, R126): STORE_FAILED is appended, waiting CLEAR items are reported as not written, a
retained erase waiting to start as not done. -/
def State.failStore (s : State) : State :=
  let s1 := ((({ s with store := { s.store with state := .failed } } : State).appendPart .storeFailed
    (byteOf (s.sectorCount .retired))).markView).reportClear false
  match s1.store.retErase with
  | .waiting =>
    ({ s1 with store := { s1.store with retErase := .nothing } } : State).reportRetainedErase .storeFault
  | .nothing | .running => s1

/-- Put `c` in place of log sector `k`. -/
def State.setSector (k : Fin 16) (c : Sector) (s : State) : State :=
  { s with store := { s.store with sectors := s.store.sectors.set k c } }

/-- Program bytes of flash from an address up. -/
def State.program (a : Nat) (bs : List Byte) (s : State) : State :=
  { s with flash := Memory.writeBytes flashDefault s.flash a bs }

/-- Single bytes of flash, by offset below `limit` from `base`, read something of their own. -/
def writeCells (flash : Memory) (base limit : Nat) (cells : Marred) : Memory :=
  cells.foldl (fun m c => if c.1 < limit then Memory.write flashDefault m (base + c.1) c.2 else m) flash

/-- Retire log sector `k` (R125): its retire line is programmed, whatever it then reads. -/
def State.retire (k : Fin 16) (retireLine : Marred) (s : State) : State :=
  let s1 := (s.program (sectorAddr k (8 * Config.retireLine)) (readBack (List.replicate 8 0x00) retireLine)).setSector k
    { state := .retired, marked := false, firstSeq := none, used := 0 }
  let s2 := (s1.markView).appendPart .storeDegraded (byteOf (s1.sectorCount .retired))
  if 16 - s2.sectorCount .retired < 4 then s2.failStore else s2

/-! ### The writer's order -/

/-- What an image is written for. -/
inductive Job where
  | ride
  | qualifier
  | record (e : Fin 48) (r : Record)
  | log (it : LogItem)
  deriving DecidableEq, Repr

/-- The three classes of work of R118. -/
inductive JobClass where
  | urgent | compaction | ordinary
  deriving DecidableEq, Repr

/-- The first urgent work of R118: an image, or a retained entry. -/
inductive UrgentWork where
  | image (j : Job)
  | retained
  deriving DecidableEq, Repr

/-- Step 1 of R118: RIDE, then CLEAR and RELEASE oldest first, then retained entries, then urgent records in index
order, then the QUALIFIER. -/
def State.urgentWork (s : State) : Option UrgentWork :=
  if s.store.rideMark then some (.image .ride)
  else
    match s.store.logQueue, s.store.retQueue with
    | it :: _, _ => some (.image (.log it))
    | [], _ :: _ => some .retained
    | [], [] =>
      match s.recordList.find? (fun e => e.2.dirty && e.2.urgent) with
      | some (e, r) => some (.image (.record e r))
      | none => if s.store.qualMark then some (.image .qualifier) else none

/-- A moment at which the writer takes work (R118): out of reset, READY, inhibit ended, nothing being programmed, no
erase running unsuspended. -/
def State.writerReady (s : State) : Bool :=
  !s.inReset && decide (s.store.state = .ready) && s.store.inhibitDue.isNone && s.store.program.isNone
    && (match s.store.erase with | some e => e.suspended | none => true) && decide (s.store.retErase ≠ .running)

/-- A SPOILED sector awaits its erase (R122). -/
def State.spoiledWaiting (s : State) : Option (Fin 16) :=
  (List.finRange 16).find? (fun k => decide (s.store.sectors[k].state = .spoiled))

/-- No log erase is in flight and no retained erase waits or runs. -/
def State.noErase (s : State) : Bool := s.store.erase.isNone && decide (s.store.retErase = .nothing)

/-- The conditions of R120, at a writer's moment with no urgent work. -/
def State.compactionDue (s : State) : Bool :=
  s.writerReady && s.urgentWork.isNone && decide (s.sectorCount .erased < 2) && s.noErase && s.spoiledWaiting.isNone
    && s.store.compaction.isNone && decide (0 < s.sectorCount .full)

/-- A sector's age for R120: its first sequence; one without any is taken last. -/
def sectorAge (c : Sector) : Nat := c.firstSeq.getD (Config.maxSequence + 1)

/-- The FULL sector with the lowest first sequence (R120). -/
def State.compactionVictim (s : State) : Option (Fin 16) :=
  (List.finRange 16).foldl (fun best k =>
    if s.store.sectors[k].state = .full then
      match best with
      | none => some k
      | some b => if sectorAge s.store.sectors[k] < sectorAge s.store.sectors[b] then some k else some b
    else best) none

/-- The fresh image the record key of slot `i` needs when its newest image `im` is in the victim (R121). -/
def State.freshForSlot (s : State) (l : List Image) (i : Slot) (im : Image) : Option Job :=
  match s.recordOf i with
  | some (e, r) =>
    if r.state = .confirmed ∨ r.state = .fading ∨ r.state = .historic then some (.record e r)
    else freshWithout l i im
  | none => freshWithout l i im
where
  /-- The rows of R121 for a slot with no current record. A CLEAR is newer than a QUALIFIER image that does not exist
  (assumption log 49). A RECORD image remains when it is valid: a void one is not counted (assumption log 40). -/
  freshWithout (l : List Image) (i : Slot) (im : Image) : Option Job :=
    if im.kind = .clear ∧ newerThanQualifier (newestQualifier l) im = true then some (.log (.clear i i))
    else if l.any (fun x => x.valid && decide (x.kind = .record) && decide ((byteAt x.body 0).toNat = i.val)) then
      some (.log (.release i))
    else none

/-- The next fresh image of a compaction of `v`: the first key, in the order ride, qualifier, slots ascending, whose
newest image lies in the victim and which needs one (R121). -/
def State.nextFresh (s : State) (v : Fin 16) : Option Job :=
  let l := s.logImages
  if (newestRide l).any (fun im => decide (im.sector = v)) then some .ride
  else if (newestQualifier l).any (fun im => decide (im.sector = v)) then some .qualifier
  else
    (List.finRange 192).findSome? (fun i =>
      match newestRecordKey l i.val with
      | some im => if im.sector = v then s.freshForSlot l i im else none
      | none => none)

/-- Steps 2 and 3 of R118. They wait through every erase, for a retained erase asked for, for the erase of a SPOILED
sector, and for a compaction that is due (R120, R122, R129; assumption log 16). -/
def State.laterJob (s : State) : Option (Job × JobClass) :=
  if s.noErase = false then none
  else
    match s.store.compaction with
    | some v => (s.nextFresh v).map (fun j => (j, .compaction))
    | none =>
      if s.spoiledWaiting.isSome ∨ s.compactionDue = true then none
      else (s.recordList.find? (fun e => e.2.dirty)).map (fun e => (.record e.1 e.2, .ordinary))

/-- The image the writer begins at this moment, if the first work of R118 is one. -/
def State.nextImage (s : State) : Option (Job × JobClass) :=
  if s.writerReady then
    match s.urgentWork with
    | some (.image j) => some (j, .urgent)
    | some .retained => none
    | none => s.laterJob
  else none

/-! ### Sectors -/

/-- The OPEN sector (R110). -/
def State.openSector (s : State) : Option (Fin 16) :=
  (List.finRange 16).find? (fun k => decide (s.store.sectors[k].state = .opened))

/-- The sectors in circular order after the one that was last OPEN, sector 0 onward when none was (R124). -/
def sectorsAfter (last : Option (Fin 16)) : List (Fin 16) :=
  match last with
  | some k => (List.range 16).map (fun j => Fin.ofNat 16 (k.val + 1 + j))
  | none => List.finRange 16

/-- The sector R124 opens next. -/
def State.nextErased (s : State) : Option (Fin 16) :=
  (sectorsAfter s.store.lastOpen).find? (fun k => decide (s.store.sectors[k].state = .erased))

/-- An item may open a sector: an urgent one or a fresh image while one is ERASED, an ordinary one while two are
(R124). -/
def State.mayOpen (s : State) (pressing : Bool) : Bool :=
  decide (2 ≤ s.sectorCount .erased) || (pressing && decide (1 ≤ s.sectorCount .erased))

/-- Open sector `k` (R124). -/
def State.openAt (k : Fin 16) (s : State) : State :=
  let s1 := s.setSector k { state := .opened, marked := false, firstSeq := none, used := 0 }
  ({ s1 with store := { s1.store with lastOpen := some k } } : State).markView

/-- Open the next ERASED sector for an image, if its class may; the store becomes FAILED when none is ERASED and the
image is urgent or a fresh one, or an ordinary one with no FULL sector left to compact (R124). -/
def State.openNew (pressing : Bool) (s : State) : State × Option (Fin 16) :=
  if s.mayOpen pressing then
    match s.nextErased with
    | some k => (s.openAt k, some k)
    | none => (s, none)
  else if s.sectorCount .erased = 0 ∧ (pressing ∨ s.sectorCount .full = 0) then (s.failStore, none)
  else (s, none)

/-- Find room for an image of `lines` lines (R113, R124): the OPEN sector, or, when it does not fit there, a new one. -/
def State.findRoom (lines : Nat) (pressing : Bool) (s : State) : State × Option (Fin 16) :=
  match s.openSector with
  | some k =>
    let c := s.store.sectors[k]
    if c.used + lines ≤ Config.retireLine then (s, some k)
    else (s.setSector k { c with state := .full }).openNew pressing
  | none => s.openNew pressing

/-! ### Images -/

/-- The kind of image a job is written as (R113). -/
def jobKind : Job → ImageKind
  | .ride => .ride
  | .qualifier => .qualifier
  | .record _ _ => .record
  | .log it => logKind it

/-- The body of a job's image, copied when it is begun (R116). -/
def State.jobBody (s : State) : Job → List Byte
  | .ride => []
  | .qualifier => qualifierBody s.quals
  | .record _ r => recordBody r s.frames
  | .log it => logBody it

/-- The mark that a failure of a job's image brings back, with the urgency it had (R115). A fresh image of a
compaction had no mark but, at most, its record's; DESIGN CHOICE: it is written again only if the failed one does not
read valid (assumption log 43). -/
def jobRedo (j : Job) (c : JobClass) : Redo :=
  match j, c with
  | .record e r, _ => .record e r.dirty r.urgent
  | _, .compaction => .nothing
  | .ride, _ => .ride
  | .qualifier, _ => .qualifier
  | .log it, _ => .item it

/-- Only a CLEAR the request handler marked is reported to it (R116). -/
def jobReports (j : Job) (c : JobClass) : Bool :=
  match j, c with
  | .log (.clear _ _), .urgent => true
  | _, _ => false

/-- The marks cleared when a job's image is begun (R116). -/
def State.clearMarks (j : Job) (c : JobClass) (s : State) : State :=
  match j with
  | .ride => { s with store := { s.store with rideMark := false } }
  | .qualifier => { s with store := { s.store with qualMark := false } }
  | .record e r =>
    (s.setRecord e (some { r with dirty := false, urgent := false, persisted := true })).markViewIf (r.dirty || !r.persisted)
  | .log _ => if c = .urgent then { s with store := { s.store with logQueue := s.store.logQueue.tail } } else s

/-- Begin an image (R114, step 1): the contents are copied, the sequence number is taken, the marks are cleared. DESIGN
CHOICE: an exhausted counter fails the store before room is looked for (assumption log 46). -/
def State.beginImage (j : Job) (c : JobClass) (s : State) : State :=
  if Config.maxSequence < s.store.nextSeq then s.failStore
  else
    match s.findRoom (imageLines (jobKind j)) (decide (c ≠ .ordinary)) with
    | (s1, none) => s1
    | (s1, some k) =>
      let sec := s1.store.sectors[k]
      let img : ImageProgram :=
        { sector := k, line := sec.used, bytes := imageBytes (jobKind j) s1.store.nextSeq s1.ride.number (s1.jobBody j),
          redo := jobRedo j c, pressing := decide (c ≠ .ordinary), reports := jobReports j c }
      let s2 := s1.setSector k { sec with firstSeq := some (sec.firstSeq.getD s1.store.nextSeq) }
      ({ s2 with store := { s2.store with nextSeq := s2.store.nextSeq + 1, program := some (.image img) } } : State).clearMarks
        j c

/-- The mark of a failed image comes back (R115). -/
def State.remark (r : Redo) (s : State) : State :=
  match r with
  | .nothing => s
  | .ride => s.markRide
  | .qualifier => s.markQualifier
  | .item it => s.queueLog it
  | .record e dirty urgent => if dirty then s.markRecord e urgent else s

/-- A failed image (R115): its sector is FULL and marked for retirement, its item is marked again, and a sector is
opened if the item's class may open one now (R124; assumption log 18). -/
def State.failImage (p : ImageProgram) (s : State) : State :=
  let s1 := (s.setSector p.sector { s.store.sectors[p.sector] with state := .full, marked := true }).remark p.redo
  if s1.mayOpen p.pressing then
    match s1.nextErased with
    | some k => s1.openAt k
    | none => s1
  else s1

/-- Line 0 and the body of an image read back as programmed (R114, step 3). -/
def bodyReadsBack (bytes got : List Byte) : Bool :=
  decide (got.take 8 = bytes.take 8) && decide (got.drop 16 = bytes.drop 16)

/-- Header line 1 reads back as programmed (R114, step 4). -/
def lineReadsBack (bytes got : List Byte) : Bool := decide ((got.take 16).drop 8 = (bytes.take 16).drop 8)

/-- The end of an image's programming (R114, steps 2 to 5; R115): line 0 and the body, then line 1 if they read back. -/
def State.endImage (p : ImageProgram) (marred : Marred) (s : State) : State :=
  let got := readBack p.bytes marred
  let a := sectorAddr p.sector (8 * p.line)
  let bodyOk := bodyReadsBack p.bytes got
  let s1 := (s.program a (got.take 8)).program (a + 16) (got.drop 16)
  let s2 := if bodyOk then s1.program (a + 8) ((got.take 16).drop 8) else s1
  let s3 := s2.setSector p.sector { s2.store.sectors[p.sector] with used := p.line + p.bytes.length / 8 }
  let s4 : State := { s3 with store := { s3.store with program := none } }
  if bodyOk && lineReadsBack p.bytes got then (if p.reports then s4.reportClear true else s4)
  else s4.failImage p

/-! ### Erases -/

/-- A log erase begins (R122): the sector is ERASING. -/
def State.startErase (k : Fin 16) (s : State) : State :=
  let s1 := s.setSector k { s.store.sectors[k] with state := .erasing }
  { s1 with store := { s1.store with erase := some { sector := k, suspendAsked := false, suspended := false } } }

/-- A log erase ends and the sector is read back (R122): ERASED if blank, otherwise retired; a compaction ends. -/
def State.endErase (k : Fin 16) (residue retireLine : Marred) (s : State) : State :=
  let flash := writeCells (Memory.clear s.flash (sectorAddr k 0) (sectorAddr k 0 + Config.sectorBytes)) (sectorAddr k 0)
    Config.sectorBytes residue
  let s1 : State := { s with flash := flash, store := { s.store with erase := none, compaction := none } }
  if allBlank (sectorBytes flash k) then
    (s1.setSector k { state := .erased, marked := false, firstSeq := none, used := 0 }).markView
  else s1.retire k retireLine

/-! ### The retained sector -/

/-- Put `x` in place of retained position `k`. -/
def State.setRetained (k : Fin 16) (x : RetainedPos) (s : State) : State :=
  { s with store := { s.store with retPos := s.store.retPos.set k x } }

/-- Queued entries take the lowest free positions afresh, in order; those with none left are dropped (R129). -/
def reserveAfresh (free : List (Fin 16)) (q : List RetainedItem) : List RetainedItem :=
  match q, free with
  | [], _ => []
  | _ :: _, [] => []
  | it :: rest, k :: ks => { it with pos := k } :: reserveAfresh ks rest

end Sys2Proof.Machine
end

