-- ==== Sys2Proof/Machine/Adopt.lean ====
section
/-!
DEFINITION. ADOPT's work at the take (R143, R144): the clamped copy, and the pass over the port's slots.
-/

namespace Sys2Proof.Machine

/-- A value below `lo` is clamped to `lo`. -/
def clampLow (lo n : Nat) : Nat := if n < lo then lo else n

/-- One clamped field counts 1 (R143). -/
def changed (a b : Nat) : Nat := if a = b then 0 else 1

/-- A profile entry as ADOPT copies it (R143). -/
def clampProfile (x : Profile) : Profile :=
  { x with stepUp := clampLow 1 x.stepUp, stepDown := clampLow 1 x.stepDown, fadeRides := clampLow 1 x.fadeRides,
           forgetRides := clampLow 1 x.forgetRides }

/-- The fields of a profile entry that clamping changes (R143). -/
def profileClamps (x : Profile) : Nat :=
  changed x.stepUp (clampProfile x).stepUp + changed x.stepDown (clampProfile x).stepDown
    + changed x.fadeRides (clampProfile x).fadeRides + changed x.forgetRides (clampProfile x).forgetRides

/-- The profile entry of slot `i` as it stands in its profile area (11.3). -/
def State.liveProfile (s : State) (i : Slot) : Profile :=
  let a := Config.profileBase + 4 * i.val
  profileOf (s.rd a) (s.rd (a + 1)) (s.rd (a + 2)) (s.rd (a + 3))

/-- Byte `k` of port `p`'s setup block as a number (11.3). -/
def State.setupByte (s : State) (p : Port) (k : Nat) : Nat := (s.rd (Config.setupBase p + k)).toNat

/-- The trail reader FP's setup block names (R170). -/
def State.liveReader (s : State) : Port := if s.setupByte .fp 4 % 2 = 0 then .fp else .bp

/-- The trail threshold of FP's setup block, clamped to 1..64 (R143). -/
def State.liveThreshold (s : State) : Nat := min 64 (clampLow 1 (s.setupByte .fp 5))

/-- The setup fields and channel lists of port `p`, clamped (R143, 11.3). BP's copy holds no reader and threshold of
its own; FP and 16 stand in their place and are not read. -/
def State.liveCopy (s : State) (p : Port) : AdoptedCopy :=
  { passCode := min 3 (s.setupByte p 0), inverted := decide (s.setupByte p 1 % 2 = 1), staleCode := s.setupByte p 2 % 16,
    silenceCode := s.setupByte p 3 % 16,
    reader := match p with | .fp => s.liveReader | .bp => .fp,
    threshold := match p with | .fp => s.liveThreshold | .bp => 16,
    lists := Vector.ofFn (fun j : Fin 32 => s.rd (Config.listsBase p + j.val)) }

/-- The setup fields that clamping changes (R143). -/
def State.setupClamps (s : State) (p : Port) : Nat :=
  changed (s.setupByte p 0) (min 3 (s.setupByte p 0))
    + match p with | .fp => changed (s.setupByte .fp 5) s.liveThreshold | .bp => 0

/-- Fields clamped, saturating at 255 (R143). -/
def State.clampedCount (s : State) (p : Port) : Nat :=
  min 255 (s.setupClamps p + ((s.portSlots p).map (fun i => profileClamps (s.liveProfile i))).sum)

/-- The number of the port's slots enabled in the new copy (R144). -/
def State.enabledCount (s : State) (p : Port) : Nat := (s.portSlots p).countP (fun i => (s.liveProfile i).enable)

/-- The port's new copy replaces the old one as a whole (R143); a change of an adopted port's enable bits is a change
of the view (R19). -/
def State.replaceCopy (p : Port) (s : State) : State :=
  let fresh : Vector Profile 192 :=
    Vector.ofFn (fun i => if s.owner i = p then clampProfile (s.liveProfile i) else s.profiles[i])
  (({ s with profiles := fresh } : State).setPort p { s.port p with copy := some (s.liveCopy p) }).markViewIf
    ((s.port p).adopted && (s.portSlots p).any (fun i => decide (fresh[i].enable ≠ s.profiles[i].enable)))

/-- ADOPT's clear of slot `i` (R144, step 2): as CLEAR SLOT clears it, with a CLEAR image of s..s. -/
def State.adoptClear (i : Slot) (demand : Pattern) (s : State) : State :=
  let m := s.quals[i].m
  ((s.clearQual i demand).appendSlot .cleared i (byteOfInt m) .idle).queueLog (.clear i i)

/-- ADOPT's work on one slot (R144): `old` is the port's state before the take, under which the lamp counts stand
(assumption log 30); the number is the slots cleared so far. -/
def State.adoptSlot (old : State) (i : Slot) (acc : State × Nat) : State × Nat :=
  let s1 := acc.1.rebase i
  let pr := s1.profiles[i]
  if pr.enable = false ∧ s1.quals[i].state ≠ .idle then
    ((s1.adoptClear i (old.demandIn i s1.quals[i].state)).updateClass i pr.cls, acc.2 + 1)
  else (s1.updateClass i pr.cls, acc.2)

/-- ADOPT's pass over the port's slots (R144), with the number of slots cleared. -/
def State.adoptSlots (p : Port) (s : State) : State × Nat :=
  let r := (s.portSlots p).foldl (fun acc i => s.adoptSlot i acc) (s.replaceCopy p, 0)
  (r.1.settlePass p, r.2)

end Sys2Proof.Machine
end

