-- ==== Sys2Proof/Machine/Requests.lean ====
section
/-!
DEFINITION. The commands that are requests, their takes and their completions (R137 to R141), and the read that ends
READ RETAINED's wait (R152). Which of a request's two events a command makes stands in the command (assumption log 39).
-/

namespace Sys2Proof.Machine

/-- The request waits for the store (R141, step 4). -/
def State.await (t : Taken) (s : State) : State := { s with exec := { s.exec with taken := some t } }

/-- The request waits for nothing: what its completion will answer stands (R137, R141). -/
def State.reply (p : Port) (st : Status) (answer : List Byte) (s : State) : State := s.await (.reply p st answer)

/-- A request command (R137, R138): `mine` says that the code in the cell is the command's, `effect` is what the request
does at its take. A take arises where the arbiter's pick allows it, a completion where the request is taken and waits
for nothing; the whole command is the one after the other. -/
def State.request (r : RequestStep) (mine : Bool) (effect : State → State) (s : State) :
    Host.Outcome State Fault Refusal :=
  match r.part with
  | .whole => arises (s.canTake r.port && mine) s ((effect (s.take r.port)).finish r.port)
  | .take => arises (s.canTake r.port && mine) s (effect (s.take r.port))
  | .completion => arises mine s (s.finish r.port)

/-- The code in port `p`'s cell is `code`. -/
def State.asks (s : State) (p : Port) (code : Nat) : Bool := decide (s.requestCode p = code)

/-- A request of this code is taken from port `p`'s cell now (R139, R141). -/
def State.takes (s : State) (p : Port) (code : Nat) : Bool := s.canTake p && s.asks p code

/-! ### ADOPT -/

/-- ADOPT waits for the reports on its `n` CLEAR images, or for nothing: with none queued, or with a FAILED store, which
reports them at once as not written (R126, R145). -/
def State.adoptOutcome (p : Port) (n : Nat) (answer : List Byte) (s : State) : State :=
  if n = 0 then s.await (.adopted p false answer)
  else if s.store.state = .failed then s.await (.adopted p true answer)
  else s.await (.adopt p n answer)

/-- ADOPT at its take (R143 to R145). -/
def State.adopt (p : Port) (s : State) : State :=
  if s.ride.state = .riding ∧ (s.port p).adopted = true then s.reply p .rideLocked []
  else
    let r := s.adoptSlots p
    r.1.adoptOutcome p r.2 (bytes16 (s.enabledCount p) ++ [byteOf (s.clampedCount p), byteOf r.2])

/-- ADOPT (R143). RIDE_LOCKED's ENDING does not arise: no request is taken there (R139). -/
def execAdopt (r : RequestStep) (s : State) : Host.Outcome State Fault Refusal :=
  s.request r (s.asks r.port 1) (fun t => t.adopt r.port)

/-! ### Clears -/

/-- A clear waits for the report on its CLEAR image; a FAILED store reports it at once as not written (R126, R147). -/
def State.clearOutcome (p : Port) (answer : List Byte) (s : State) : State :=
  if s.store.state = .failed then s.reply p .storeFault answer else s.await (.clear p answer)

/-- Steps 1 to 3 of R146 for slot `i`. -/
def State.clearOne (i : Slot) (s : State) : State :=
  ((s.clearQual i (s.demandIn i s.quals[i].state)).rebase i).settlePass (s.owner i)

/-- Steps 4 and 5 of R146. -/
def State.tellClear (i : Slot) (m : Int) (s : State) : State :=
  (s.appendSlot .cleared i (byteOfInt m) .idle).queueLog (.clear i i)

/-- CLEAR SLOT of global slot `i` (R146, R147). -/
def State.clearSlot (p : Port) (i : Slot) (s : State) : State :=
  let q := s.quals[i]
  ((s.clearOne i).tellClear i q.m).clearOutcome p [byteOf i.val, byteOf (qstateCode q.state)]

/-- CLEAR SLOT at its take (R146): the index, then adoption. -/
def State.clearIndex (p : Port) (s : State) : State :=
  let k := s.param p 0
  if h : k < s.slotCount p ∧ s.slotBase p + k < 192 then
    if (s.port p).adopted then s.clearSlot p ⟨s.slotBase p + k, h.2⟩ else s.reply p .notAdopted []
  else s.reply p .badTarget []

/-- CLEAR_SLOT (R146). -/
def execClearSlot (r : RequestStep) (s : State) : Host.Outcome State Fault Refusal :=
  s.request r (s.asks r.port 2) (fun t => t.clearIndex r.port)

/-- The lowest and highest global slot of port `p` (R174). -/
def State.slotRange (s : State) (p : Port) : LogItem :=
  .clear (Fin.ofNat 192 (s.slotBase p)) (Fin.ofNat 192 (s.slotBase p + s.slotCount p - 1))

/-- The end of CLEAR PORT's work (R148): the declined count, the trail, the CLEAR item. -/
def State.tellClearPort (p : Port) (s : State) : State :=
  (((s.setPort p { s.port p with declined := 0 }).markView).appendPart .cleared (byteOf (portCode p))).queueLog
    (s.slotRange p)

/-- The answer of CLEAR PORT (R148): slots outside IDLE, records of the port. -/
def State.clearPortAnswer (p : Port) (s : State) : List Byte :=
  [ byteOf ((s.portSlots p).countP (fun i => decide (s.quals[i].state ≠ .idle))),
    byteOf (s.recordList.countP (fun e => decide (s.owner e.2.slot = p))) ]

/-- CLEAR PORT at its take (R148). -/
def State.clearPort (p : Port) (s : State) : State :=
  if (s.port p).adopted then
    ((((s.portSlots p).foldl (fun t i => t.clearOne i) s).tellClearPort p).clearOutcome p (s.clearPortAnswer p))
  else s.reply p .notAdopted []

/-- CLEAR_PORT (R148). -/
def execClearPort (r : RequestStep) (s : State) : Host.Outcome State Fault Refusal :=
  s.request r (s.asks r.port 3) (fun t => t.clearPort r.port)

/-! ### Reading requests -/

/-- The global slot a parameter names: 0..191 (R150, R151). -/
def State.paramSlot (s : State) (p : Port) : Option Slot :=
  if h : s.param p 0 < 192 then some ⟨s.param p 0, h⟩ else none

/-- The frame kind a parameter names (R150). -/
def frameKindOf (n : Nat) : Option FrameKind :=
  match n with
  | 1 => some .first
  | 2 => some .latest
  | _ => none

/-- FETCH FRAME's answer for a slot and kind, if there is such a frame (R150). -/
def State.frameOf (s : State) (i : Slot) (k : FrameKind) : Option Frame :=
  match s.recordOf i with
  | some (_, r) => (r.frameRef k).map (fun f => s.frames[f])
  | none => none

/-- FETCH FRAME at its take (R150): slot, kind, record, frame. -/
def State.fetchFrame (p : Port) (s : State) : State :=
  match s.paramSlot p, frameKindOf (s.param p 1) with
  | some i, some k =>
    match s.frameOf i k with
    | some f => s.reply p .ok f.toList
    | none => s.reply p .absent []
  | _, _ => s.reply p .badTarget []

/-- FETCH_FRAME (R150). -/
def execFetchFrame (r : RequestStep) (s : State) : Host.Outcome State Fault Refusal :=
  s.request r (s.asks r.port 4) (fun t => t.fetchFrame r.port)

/-- FETCH QUALIFIER's answer (R151, 11.4). -/
def State.qualifierAnswer (s : State) (i : Slot) : List Byte :=
  let q := s.quals[i]
  let e := s.slots[i]
  [ byteOf (qstateCode q.state), byteOfInt q.m,
    byteOf (flagBit q.tested 0 + flagBit q.failed 1 + flagBit q.passedMature 2), byteOf q.fade, byteOf q.forget,
    e.seenPass, e.seenFail, byteOf e.held, byteOf (flagBit e.barred 0 + flagBit q.unrecorded 1) ]
  ++ (match s.adoptedProfile i with
      | some pr => profileBytes pr
      | none => [0, 0, 0, 0])

/-- FETCH QUALIFIER at its take (R151). -/
def State.fetchQualifier (p : Port) (s : State) : State :=
  match s.paramSlot p with
  | some i => s.reply p .ok (s.qualifierAnswer i)
  | none => s.reply p .badTarget []

/-- FETCH_QUALIFIER (R151). -/
def execFetchQualifier (r : RequestStep) (s : State) : Host.Outcome State Fault Refusal :=
  s.request r (s.asks r.port 5) (fun t => t.fetchQualifier r.port)

/-- READ RETAINED at its take (R152): it waits for its read. -/
def State.readRetained (p : Port) (s : State) : State :=
  if h : s.param p 0 < 16 then s.await (.readRetained p ⟨s.param p 0, h⟩) else s.reply p .badTarget []

/-- READ_RETAINED (R152). -/
def execReadRetained (r : RequestStep) (s : State) : Host.Outcome State Fault Refusal :=
  s.request r (s.asks r.port 6) (fun t => t.readRetained r.port)

/-- Flash can be read: no program, no erase running unsuspended (R109, R152). -/
def State.flashReadable (s : State) : Bool :=
  s.store.program.isNone && (match s.store.erase with | some e => e.suspended | none => true)
    && decide (s.store.retErase ≠ .running)

/-- What READ RETAINED answers of position `k` (R152; assumption log 29). -/
def State.answerRetained (p : Port) (k : Fin 16) (s : State) : State :=
  match s.store.retPos[k] with
  | .valid _ => s.complete p .ok ((retainedBytes s.flash k).take 24)
  | .free | .void => s.complete p .absent []

/-- RETAINED_READ (R152). -/
def execRetainedRead (s : State) : Host.Outcome State Fault Refusal :=
  match s.exec.taken with
  | some (.readRetained p k) => arises s.flashReadable s (s.answerRetained p k)
  | some (.adopt _ _ _) | some (.clear _ _) | some (.eraseRetained _) | some (.reply _ _ _) | some (.adopted _ _ _)
  | none => .next s

/-! ### Service and acknowledgement -/

/-- ERASE RETAINED at its take (R153): the store is asked for the retained erase; a FAILED one does not start it. -/
def State.eraseRetained (p : Port) (s : State) : State :=
  if s.svc = false then s.reply p .locked []
  else if s.store.state = .failed then s.reply p .storeFault [byteOf s.retainedCount]
  else ({ s with store := { s.store with retErase := .waiting } } : State).await (.eraseRetained p)

/-- ERASE_RETAINED (R153). -/
def execEraseRetained (r : RequestStep) (s : State) : Host.Outcome State Fault Refusal :=
  s.request r (s.asks r.port 7) (fun t => t.eraseRetained r.port)

/-- ACKNOWLEDGE at its take (R154). -/
def State.acknowledge (p : Port) (s : State) : State :=
  let ps := s.port p
  (((s.setPort p { ps with stray := false, declined := 0 }).markViewIf (ps.stray || decide (ps.declined ≠ 0))).reply p
    .ok [byteOf (flagBit ps.stray 0), byteOf ps.declined])

/-- ACKNOWLEDGE (R154). -/
def execAcknowledge (r : RequestStep) (s : State) : Host.Outcome State Fault Refusal :=
  s.request r (s.asks r.port 8) (fun t => t.acknowledge r.port)

/-- BAD_REQUEST (R155): a code outside 0x01..0x08. -/
def execBadRequest (r : RequestStep) (s : State) : Host.Outcome State Fault Refusal :=
  s.request r (s.asks r.port 0 || decide (8 < s.requestCode r.port)) (fun t => t.reply r.port .badRequest [])

end Sys2Proof.Machine
end

