-- ==== Sys2Proof/Machine/RideOps.lean ====
section
/-!
DEFINITION. Ride begin (R85), entry to ENDING (R89) and the ride-end accounting (R91 to R93).
-/

namespace Sys2Proof.Machine

/-- The three ride flags of every qualifier clear (R40). -/
def State.clearRideFlags (s : State) : State :=
  { s with quals := s.quals.map (fun q => { q with tested := false, failed := false, passedMature := false }) }

/-- Ride begin (R85), in the order of its steps. The lamps take the new pattern (R105). -/
def State.rideBegin (s : State) : State :=
  let s1 : State := { s with ride := { s.ride with
    state := .riding, number := min 65535 (s.ride.number + 1), time := 0, secondDue := some (s.now + Config.secondTime),
    proveOutDue := some (s.now + Config.proveOutTime), holdDue := none, pwrhold := true } }
  let s2 := s1.clearRideFlags.markRide
  let s3 := (((s2.startPassTimer .fp).startPassTimer .bp).startSilence .fp).startSilence .bp
  ((s3.appendPart .rideBegin 0).markView).refreshLamps

/-- A port's pass timer, pass, owed pass and silence timer stop, and its silent flag clears (R8, R89, R98). -/
def State.stopPort (p : Port) (s : State) : State :=
  s.setPort p { s.port p with passDue := none, passPos := none, owed := false, silenceDue := none, silent := false }

/-- Entry to ENDING (R89). Requests not yet taken stay POSTED (R139). -/
def State.enterEnding (s : State) : State :=
  let s1 : State := { s with ride := { s.ride with
    state := .ending, secondDue := none, proveOutDue := none, holdDue := some (s.now + Config.holdTime) } }
  ((((s1.stopPort .fp).stopPort .bp).unclaim).markView).refreshLamps

/-- The qualifier's counts become these; a change reaches its record as a notice that marks nothing (R50, R90). -/
def State.setCounts (i : Slot) (fade forget : Nat) (s : State) : State :=
  let q := s.quals[i]
  if q.fade = fade ∧ q.forget = forget then s
  else
    let s1 := s.setQual i { q with fade := fade, forget := forget }
    match s1.recordOf i with
    | some (e, r) => s1.notice e (countNotice fade forget r) .none
    | none => s1

/-- FADING → HISTORIC (R91). -/
def State.toHistoric (i : Slot) (fade : Nat) (s : State) : State :=
  let s1 := (s.setQual i { s.quals[i] with state := .historic, fade := fade, forget := 0 }).markView
  let s2 := match s1.recordOf i with
    | some (e, r) => s1.notice e (historicNotice s.ride.number fade 0 r) .ordinary
    | none => s1
  s2.announce i .faded (byteOf (s2.occurrenceOf i)) .fading .historic

/-- HISTORIC or PENDING → IDLE at ride end (R92): only a HISTORIC record that is persisted is released. -/
def State.forget (i : Slot) (s : State) : State :=
  let q := s.quals[i]
  let historic := decide (q.state = .historic)
  let occ := s.occurrenceOf i
  let s1 := (s.setQual i { q with state := .idle, m := 0, fade := 0, forget := 0, unrecorded := false }).markView
  let s2 := match s1.recordOf i with
    | some (e, r) => s1.freeRecord e r historic
    | none => s1
  if historic then s2.announce i .forgotten (byteOf occ) .historic .idle
  else s2.announce i .pendingDropped 0 .pending .idle

/-- The forget count at ride end of a HISTORIC or PENDING qualifier (R92). -/
def forgetAfter (failed : Bool) (n : Nat) : Nat := if failed then 0 else min 255 (n + 1)

/-- A forget count reaches the slot's forget rides; 255 means never (R92). -/
def forgotten (failed : Bool) (n rides : Nat) : Bool :=
  !failed && decide (rides ≤ forgetAfter failed n) && decide (rides ≠ 255)

/-- One visit of the accounting (R91, R92). A barred slot's ride flags are read as clear (R90). -/
def State.accountSlot (i : Slot) (s : State) : State :=
  match s.adoptedProfile i with
  | none => s
  | some pr =>
    let q := s.quals[i]
    let failed := q.failed && !s.slots[i].barred
    let mature := q.passedMature && !s.slots[i].barred
    match q.state with
    | .idle => s
    | .confirmed => s.setCounts i 0 q.forget
    | .fading =>
      if failed then s.setCounts i 0 q.forget
      else if mature then
        if pr.fadeRides ≤ min 15 (q.fade + 1) then s.toHistoric i (min 15 (q.fade + 1))
        else s.setCounts i (min 15 (q.fade + 1)) q.forget
      else s
    | .historic | .pending =>
      if forgotten failed q.forget pr.forgetRides then s.forget i
      else s.setCounts i q.fade (forgetAfter failed q.forget)

/-- Every dirty record becomes urgent (R93, R117). -/
def State.urgeRecords (s : State) : State :=
  { s with records := s.records.map (fun x => x.map (fun r => { r with urgent := r.urgent || r.dirty })) }

/-- The accounting of slots 0..191 in ascending order (R90 to R92). -/
def State.accountAll (s : State) : State := (List.finRange 192).foldl (fun t i => t.accountSlot i) s

/-- After slot 191 (R93): RIDE_END, the QUALIFIER mark, and the store's ride-ending mode (R117). -/
def State.closeRide (s : State) : State :=
  let s1 := (s.appendPart .rideEnd 0).markQualifier
  ({ s1 with store := { s1.store with rideEnding := true } } : State).urgeRecords

/-- ENDING completes (R94): NO_RIDE or a new ride by the debounced level; POSTED requests have a take opportunity. -/
def State.completeEnding (s : State) : State :=
  let s1 : State := { s with store := { s.store with rideEnding := false } }
  if s1.ride.debounced then s1.rideBegin.offer
  else (({ s1 with ride := { s1.ride with state := .noRide } } : State).markView.refreshLamps).offer

end Sys2Proof.Machine
end

