-- ==== Sys2Proof/Machine/Restore.lean ====
section
/-!
DEFINITION. Restore (R130 to R133): the sectors classified, the qualifiers and records rebuilt, the records kept and
placed, the frames handed out, the retained sector read.
-/

namespace Sys2Proof.Machine

/-! ### The sectors (R130) -/

/-- What restore finds in a log sector: its class, and its walk. -/
def classifySector (flash : Memory) (k : Fin 16) : Sector × List Image × WalkEnd :=
  let bs := sectorBytes flash k
  if allBlank (bs.drop (8 * Config.retireLine)) = false then
    ({ state := .retired, marked := false, firstSeq := none, used := 0 }, [], .stopped 0)
  else if allBlank bs then ({ state := .erased, marked := false, firstSeq := none, used := 0 }, [], .blank 0)
  else
    match walk k 129 0 bs with
    | ([], e) => ({ state := .spoiled, marked := false, firstSeq := none, used := 0 }, [], e)
    | (im :: rest, e) =>
      let n := match e with | .blank n => n | .stopped n => n
      ({ state := .full, marked := false, firstSeq := some im.seq, used := n }, im :: rest, e)

/-- What restore finds in all log sectors, by number. -/
def classifyAll (flash : Memory) : List (Fin 16 × Sector × List Image × WalkEnd) :=
  (List.finRange 16).map (fun k => (k, classifySector flash k))

/-- Every parsed image of the walked sectors (R130). -/
def parsedImages (flash : Memory) : List Image := (classifyAll flash).flatMap (fun x => x.2.2.1)

/-- The sector restore leaves OPEN: the one with the image of highest sequence, if its walk ended on blank lines and
it has room before line 255 (R130): one blank line is room (assumption log 41). -/
def openAfterRestore (flash : Memory) : Option (Fin 16) :=
  match newestOf (parsedImages flash) with
  | none => none
  | some im =>
    match (classifySector flash im.sector).2.2 with
    | .blank n => if n < Config.retireLine then some im.sector else none
    | .stopped _ => none

/-- The sequence counter: the highest sequence parsed plus 1, or 1 (R130). -/
def restoredSeq (l : List Image) : Nat :=
  match newestOf l with
  | some im => im.seq + 1
  | none => 1

/-- The ride number: the highest ride field among valid images, or 0 (R83, R130). -/
def restoredRide (l : List Image) : Nat := (l.filter (fun im => im.valid)).foldl (fun n im => max n im.ride) 0

/-- The sectors as restore leaves them (R130). -/
def restoredSectors (flash : Memory) : Vector Sector 16 :=
  Vector.ofFn (fun k =>
    let c := (classifySector flash k).1
    if openAfterRestore flash = some k then { c with state := .opened } else c)

/-! ### Qualifiers and records (R131) -/

/-- A qualifier as the newest QUALIFIER image holds it, or IDLE (R131); bit 3 of its second byte is ignored (assumption
log 42). -/
def qualifierFrom (q : Option Image) (n : Nat) : Qualifier :=
  match q with
  | none => Qualifier.reset
  | some im =>
    { Qualifier.reset with
      m := (byteAt im.body (4 * n)).toInt,
      state := qstateOf ((byteAt im.body (4 * n + 1)).toNat % 8),
      fade := (byteAt im.body (4 * n + 1)).toNat / 16,
      forget := (byteAt im.body (4 * n + 2)).toNat }

/-- A rebuilt record with the frame copies its image carries (R131, R132). -/
structure Rebuilt where
  record : Record
  first  : Option Frame
  latest : Option Frame
  deriving DecidableEq, Repr

/-- Nineteen bytes of a body as a frame. -/
def frameAt (body : List Byte) (o : Nat) : Frame := Vector.ofFn (fun i : Fin 19 => byteAt body (o + i.val))

/-- The record and frame copies of a RECORD image's body, for slot `i` (R131, R132, 11.7): persisted, not dirty. -/
def rebuiltFrom (i : Slot) (b : List Byte) : Rebuilt :=
  let flags := byteAt b 2
  let r : Record :=
    { slot := i, state := qstateOf (byteAt b 1).toNat, cls := Fin.ofNat 4 flags.toNat,
      occurrence := (byteAt b 3).toNat, onset := natOf16 (byteAt b 4) (byteAt b 5),
      firstConf := natOf16 (byteAt b 6) (byteAt b 7), latestConf := natOf16 (byteAt b 8) (byteAt b 9),
      activity := natOf16 (byteAt b 10) (byteAt b 11), fade := (byteAt b 12).toNat % 16, forget := (byteAt b 13).toNat,
      first := none, latest := none, persisted := true, dirty := false, urgent := false }
  { record := r,
    first := if flags.getLsbD 2 then some (frameAt b 16) else none,
    latest := if flags.getLsbD 3 then some (frameAt b 35) else none }

/-- M of a qualifier restored from a RECORD image (R131). -/
def restoredM (st : QState) : Int :=
  match st with
  | .confirmed => 127
  | .fading => -128
  | .historic | .pending | .idle => 0

/-- A record is rebuilt in CONFIRMED, FADING or HISTORIC; no RECORD image holds another state, and one that did would
leave its slot without a record (R42, R131; assumption log 31). -/
def recordable (b : Rebuilt) : Option Rebuilt :=
  match b.record.state with
  | .confirmed | .fading | .historic => some b
  | .idle | .pending => none

/-- The qualifier and record of one slot, by the table of R131. -/
def rebuildSlot (l : List Image) (i : Slot) : Qualifier × Option Rebuilt :=
  let qimg := newestQualifier l
  let base := qualifierFrom qimg i.val
  match newestRecordKey l i.val with
  | none => (base, none)
  | some im =>
    match im.kind with
    | .clear => if newerThanQualifier qimg im then (Qualifier.reset, none) else (base, none)
    | .record =>
      let b := rebuiltFrom i im.body
      if newerThanQualifier qimg im then
        ({ Qualifier.reset with state := b.record.state, m := restoredM b.record.state, fade := b.record.fade,
                                forget := b.record.forget }, recordable b)
      else
        match base.state with
        | .confirmed | .fading | .historic =>
          (base, some { b with record := { b.record with state := base.state, fade := base.fade, forget := base.forget } })
        | .idle | .pending => (base, none)
    | .release | .ride | .qualifier => (base, none)

/-! ### Selection (R132) -/

/-- Restore keeps `a` before `b`: higher rank, then higher activity ride, then lower slot number (R132). -/
def keptBefore (a b : Record) : Bool :=
  decide (b.rank < a.rank)
    || (decide (a.rank = b.rank)
      && (decide (b.activity < a.activity) || (decide (a.activity = b.activity) && decide (a.slot.val < b.slot.val))))

/-- Insert in the order of `keptBefore`. -/
def insertKept (x : Rebuilt) : List Rebuilt → List Rebuilt
  | [] => [x]
  | y :: rest => if keptBefore x.record y.record then x :: y :: rest else y :: insertKept x rest

/-- The rebuilt records that restore keeps, in order, at most 48 (R132). -/
def keptRecords (l : List Image) : List Rebuilt :=
  (((List.finRange 192).filterMap (fun i => (rebuildSlot l i).2)).foldl (fun acc x => insertKept x acc) []).take 48

/-- Hand out the copies of one record: FIRST, then LATEST, into the lowest free frames; `given` holds the frames
handed out so far (R132). -/
def handFrames (x : Rebuilt) (given : List Frame) : Record × List Frame :=
  let one (copy : Option Frame) (g : List Frame) : Option (Fin 64) × List Frame :=
    match copy with
    | some f => if h : g.length < 64 then (some ⟨g.length, h⟩, g ++ [f]) else (none, g)
    | none => (none, g)
  let a := one x.first given
  let b := one x.latest a.2
  ({ x.record with first := a.1, latest := b.1 }, b.2)

/-- The records in entry order and the frames in number order (R132). -/
def placeRecords (l : List Rebuilt) : List Record × List Frame :=
  l.foldl (fun acc x => let r := handFrames x acc.2; (acc.1 ++ [r.1], r.2)) ([], [])

/-- The qualifiers after restore: outside IDLE with no record means unrecorded (R131, R132). -/
def restoredQuals (l : List Image) (kept : List Rebuilt) : Vector Qualifier 192 :=
  Vector.ofFn (fun i =>
    let q := (rebuildSlot l i).1
    { q with unrecorded := decide (q.state ≠ .idle) && !(kept.any (fun x => decide (x.record.slot = i))) })

/-! ### The whole (R130 to R133) -/

/-- Restore rebuilds the RAM state from flash, all but the store state and the ride state. DESIGN CHOICE: where it leaves
no sector OPEN, none counts as last OPEN for R124, so the next is sought from sector 0 onward (assumption log 48). -/
def State.rebuild (s : State) : State :=
  let l := parsedImages s.flash
  let kept := keptRecords l
  let placed := placeRecords kept
  { s with
    quals := restoredQuals l kept,
    records := Vector.ofFn (fun e => placed.1[e.val]?),
    frames := Vector.ofFn (fun f => placed.2.getD f.val s.frames[f]),
    ride := { s.ride with number := restoredRide l },
    store := { s.store with
      sectors := restoredSectors s.flash, lastOpen := openAfterRestore s.flash, nextSeq := restoredSeq l,
      retPos := readPositions s.flash } }

/-- The store becomes READY, or FAILED when fewer than 4 log sectors are not RETIRED (R133). -/
def State.settleStore (s : State) : State :=
  if 16 - s.sectorCount .retired < 4 then s.failStore
  else { s with store := { s.store with state := .ready } }

/-- The ride controller is told that restore has finished (R81): NO_RIDE with the hold-limit timer started, or a ride
begins; POSTED requests have a take opportunity (R139). -/
def State.leaveWaiting (s : State) : State :=
  if s.ride.debounced then s.rideBegin.offer
  else
    (({ s with ride := { s.ride with state := .noRide, holdDue := some (s.now + Config.holdTime) } } : State).markView.refreshLamps).offer

end Sys2Proof.Machine
end

