-- ==== Sys2Proof/Machine/Reset.lean ====
section
/-!
DEFINITION. The commands of the reset lines and of IGN: entry to reset, what it leaves in flash (R111), and its release
(R182), the raw level of IGN and its debounce (R81, R82).
-/

namespace Sys2Proof.Machine

/-! ### What a reset leaves in flash -/

/-- The lines of an image in the order they are programmed: line 0, the body, then line 1 (R114). -/
def imageLineOrder (n : Nat) : List Nat := 0 :: ((List.range n).drop 2 ++ [1])

/-- The flash after a cut program: the finished lines, and what the line then being programmed reads (R111). -/
def cutProgram (flash : Memory) (base : Nat) (bytes : List Byte) (order : List Nat) (cut : FlashCut) : Memory :=
  let m := (order.take cut.lines).foldl
    (fun m ln => Memory.writeBytes flashDefault m (base + 8 * ln) ((bytes.drop (8 * ln)).take 8)) flash
  match order.drop cut.lines with
  | ln :: _ => writeCells m (base + 8 * ln) 8 cut.line
  | [] => m

/-- The flash after a cut program of an image at `base`: it has no valid complete mark, so a mark that would read
programmed is left blank (R111). -/
def cutImage (flash : Memory) (base : Nat) (bytes : List Byte) (cut : FlashCut) : Memory :=
  let m := cutProgram flash base bytes (imageLineOrder (bytes.length / 8)) cut
  if Memory.read flashDefault m (base + 10) = 0x00 then Memory.write flashDefault m (base + 10) flashDefault else m

/-- What restore makes of a sector whose erase was cut: SPOILED, or fewer images parsed than before (R111). -/
def erasedInPart (before after : Memory) (k : Fin 16) : Bool :=
  let c := classifySector after k
  decide (c.1.state = .spoiled)
    || (decide (c.1.state = .full) && decide (c.2.1.length < (classifySector before k).2.1.length))

/-- The flash after a cut erase of log sector `k`, line 255 as it was (R109). Bytes that would leave the sector blank,
or with all its images, are no outcome of R111: the sector is then SPOILED, its first byte naming no image kind
(assumption log 9). -/
def cutErase (flash : Memory) (k : Fin 16) (erased : Marred) : Memory :=
  let m := writeCells flash (sectorAddr k 0) (8 * Config.retireLine) erased
  if erasedInPart flash m k then m else Memory.write flashDefault m (sectorAddr k 0) 0x00

/-- The flash after reset entry abandons the program in flight, if one is (R111). -/
def State.cutProgramFlash (s : State) (cut : FlashCut) : Memory :=
  match s.store.program with
  | some (.image p) => cutImage s.flash (sectorAddr p.sector (8 * p.line)) p.bytes cut
  | some (.retained it) => cutProgram s.flash (retainedAddr it.pos 0) (retainedEntryBytes it) (List.range 8) cut
  | none => s.flash

/-- The flash `m` after reset entry abandons the log erase in flight, if one is (R111). -/
def State.cutEraseFlash (s : State) (erased : Marred) (m : Memory) : Memory :=
  match s.store.erase with
  | some e => cutErase m e.sector erased
  | none => m

/-- The flash after reset entry abandons what was in flight (R111, R182; assumption log 9). -/
def State.cutFlash (s : State) (cut : FlashCut) : Memory :=
  let m := s.cutEraseFlash cut.erased (s.cutProgramFlash cut)
  match s.store.retErase with
  | .running => writeCells m (Config.sectorBytes * Config.retainedSector) Config.sectorBytes cut.erased
  | .nothing | .waiting => m

/-! ### The commands -/

/-- The straps as latched at the last release (R174, R177, R181). -/
def State.latched (s : State) : Straps :=
  { fw16 := s.fp.wide, bw16 := s.bp.wide, fbe := s.fp.swapped, bbe := s.bp.swapped, part := s.part, svc := s.svc }

/-- Whether a low level is recognised (R182): RESETN must stay low for 1 µs, SUPGOOD need not. -/
def recognised (cause : ResetCause) : Bool :=
  match cause with
  | .resetn lowNs => decide (Config.resetPulseNs ≤ lowNs)
  | .supgood => true

/-- The line of the cause falls. -/
def State.dropLine (cause : ResetCause) (s : State) : State :=
  match cause with
  | .resetn _ => { s with resetn := false }
  | .supgood => { s with supgood := false }

/-- The part held in reset (R182): all RAM state is lost, which the model shows as its reset values (assumption log
38), PWRHOLD asserted, lamp and attention outputs deasserted, no timer running; flash keeps what reached it. -/
def State.held (cut : FlashCut) (s : State) : State :=
  let s1 := State.released s.latched s.ign (s.cutFlash cut) s.pending
  { s1 with resetn := s.resetn, supgood := s.supgood, ride := { s1.ride with debounceDue := none } }

/-- RESET_ENTRY (R182). In reset already, only the line's level changes. -/
def execResetEntry (cause : ResetCause) (cut : FlashCut) (s : State) : Host.Outcome State Fault Refusal :=
  .next (if recognised cause then (if s.inReset then s.dropLine cause else (s.held cut).dropLine cause) else s)

/-- RESET_RELEASE (R182): both lines stand high, the straps are latched, every block takes its reset values. -/
def execResetRelease (straps : Straps) (s : State) : Host.Outcome State Fault Refusal :=
  .next (if s.inReset then State.released straps s.ign s.flash s.pending else s)

/-- The debounce timer after a change of the raw level (R82): started afresh when it differs from the debounced level,
else cancelled. -/
def State.debounceAfter (s : State) (level : Bool) : Option Nat :=
  if level = s.ride.debounced then none else some (s.now + Config.debounceTime)

/-- IGN_CHANGE (R82). In reset the level has no effect but to stand there (R181); a level that stood is no change. -/
def execIgnChange (level : Bool) (s : State) : Host.Outcome State Fault Refusal :=
  .next (if level = s.ign then s
    else if s.inReset then { s with ign := level }
    else { s with ign := level, ride := { s.ride with debounceDue := s.debounceAfter level } })

/-- The debounced level takes the raw level (R82). -/
def State.takeIgn (s : State) : State := { s with ride := { s.ride with debounced := s.ign, debounceDue := none } }

/-- The ride controller acts on a change of the debounced level (R81). -/
def State.ignActed (s : State) : State :=
  match s.ride.state, s.ride.debounced with
  | .noRide, true => s.rideBegin
  | .riding, false => s.enterEnding
  | .noRide, false => s
  | .riding, true => s
  | .waiting, _ => s
  | .ending, _ => s

/-- IGN_DEBOUNCE_EXPIRY (R82, R81). -/
def execIgnDebounceExpiry (s : State) : Host.Outcome State Fault Refusal :=
  match s.ride.debounceDue with
  | some d => arises true s ((s.advanceTo d).takeIgn.ignActed)
  | none => .next s

end Sys2Proof.Machine
end

