-- ==== Sys2Proof/Machine/Rides.lean ====
section
/-!
DEFINITION. The commands of the ride controller (chapter 5): the end of restore, the ride-end accounting, the
completion of ENDING, and its timers.
-/

namespace Sys2Proof.Machine

/-- RESTORE_FINISH (R130 to R133, R81): restore's whole outcome, then WAITING is left (assumption log 13). -/
def execRestoreFinish (s : State) : Host.Outcome State Fault Refusal :=
  arises (decide (s.ride.state = .waiting)) s (s.rebuild.settleStore.markView.leaveWaiting)

/-- The accounting may run (R90): ENDING, no request TAKEN, and not done yet in this ENDING. -/
def State.accountingDue (s : State) : Bool :=
  decide (s.ride.state = .ending) && !s.store.rideEnding && s.exec.taken.isNone

/-- RIDE_END_ACCOUNTING (R90 to R93). -/
def execRideEndAccounting (s : State) : Host.Outcome State Fault Refusal :=
  arises s.accountingDue s (s.accountAll.closeRide)

/-- No log erase and no retained erase is in flight; a suspended one is (R94, R126). -/
def State.noEraseInFlight (s : State) : Bool := s.store.erase.isNone && decide (s.store.retErase ≠ .running)

/-- ENDING is complete (R94). -/
def State.endingDone (s : State) : Bool :=
  decide (s.ride.state = .ending) && s.store.rideEnding
    && (decide (s.store.state = .failed) || (!s.anyMarked && s.noEraseInFlight))

/-- ENDING_COMPLETION (R94). -/
def execEndingCompletion (s : State) : Host.Outcome State Fault Refusal := arises s.endingDone s s.completeEnding

/-- The ride time rises by one second, saturating, and the next second is awaited (R87). -/
def State.countSecond (d : Nat) (s : State) : State :=
  ({ s with ride := { s.ride with time := min 65535 (s.ride.time + 1), secondDue := some (d + Config.secondTime) } } : State).markViewIf
    (decide (s.ride.time < 65535))

/-- RIDE_TIME_SECOND (R87). -/
def execRideTimeSecond (s : State) : Host.Outcome State Fault Refusal :=
  match s.ride.secondDue with
  | some d => arises true s ((s.advanceTo d).countSecond d)
  | none => .next s

/-- Prove-out ends: each lamp takes its highest demand (R88, R105). -/
def State.endProveOut (s : State) : State :=
  (({ s with ride := { s.ride with proveOutDue := none } } : State).markView).refreshLamps

/-- PROVE_OUT_EXPIRY (R88). -/
def execProveOutExpiry (s : State) : Host.Outcome State Fault Refusal :=
  match s.ride.proveOutDue with
  | some d => arises true s ((s.advanceTo d).endProveOut)
  | none => .next s

/-- PWRHOLD is released and the hold-limit timer stops (R96, R97). -/
def State.releaseHold (s : State) : State := { s with ride := { s.ride with pwrhold := false, holdDue := none } }

/-- HOLD_LIMIT_EXPIRY (R97). -/
def execHoldLimitExpiry (s : State) : Host.Outcome State Fault Refusal :=
  match s.ride.holdDue with
  | some d => arises true s ((s.advanceTo d).releaseHold)
  | none => .next s

/-- The conditions of the release on completion (R96), while PWRHOLD is asserted. DESIGN CHOICE: a FAILED store that meets
them releases it here too, although R97 names the hold limit for a FAILED store (assumption log 44). -/
def State.holdDone (s : State) : Bool :=
  s.ride.pwrhold && decide (s.ride.state = .noRide) && !s.ride.debounced && decide (s.store.state ≠ .starting)
    && !s.anyMarked && s.store.program.isNone && s.noEraseInFlight && s.spoiledWaiting.isNone && s.store.compaction.isNone

/-- RELEASE_ON_COMPLETION (R96). -/
def execReleaseOnCompletion (s : State) : Host.Outcome State Fault Refusal := arises s.holdDone s s.releaseHold

/-- Port `p` has fallen silent (R98). -/
def State.fallSilent (p : Port) (s : State) : State :=
  (((s.setPort p { s.port p with silent := true, silenceDue := none }).appendPart .portSilent
    (byteOf (portCode p))).markView).refreshLamp p

/-- SILENCE_TIMER_EXPIRY (R98). -/
def execSilenceTimerExpiry (p : Port) (s : State) : Host.Outcome State Fault Refusal :=
  match (s.port p).silenceDue with
  | some d => arises true s ((s.advanceTo d).fallSilent p)
  | none => .next s

end Sys2Proof.Machine
end

