-- ==== Sys2Proof/Machine/StoreCommands.lean ====
section
/-!
DEFINITION. The commands of the record store: write inhibit (R112), images (R114), compaction and erases (R120 to
R123), retained entries and the retained erase (R128, R129).
-/

namespace Sys2Proof.Machine

/-- WRITE_INHIBIT_EXPIRY (R112). -/
def execWriteInhibitExpiry (s : State) : Host.Outcome State Fault Refusal :=
  match s.store.inhibitDue with
  | some d =>
    let t := s.advanceTo d
    arises true s { t with store := { t.store with inhibitDue := none } }
  | none => .next s

/-- IMAGE_BEGIN (R114, R118). -/
def execImageBegin (s : State) : Host.Outcome State Fault Refusal :=
  match s.nextImage with
  | some (j, c) => .next (s.beginImage j c)
  | none => .next s

/-- IMAGE_COMPLETION (R114, R115); `marred` says which bytes of the image do not read back as programmed. -/
def execImageCompletion (marred : Marred) (s : State) : Host.Outcome State Fault Refusal :=
  match s.store.program with
  | some (.image p) => arises true s (s.endImage p marred)
  | some (.retained _) | none => .next s

/-- COMPACTION_START (R120). -/
def execCompactionStart (s : State) : Host.Outcome State Fault Refusal :=
  arises s.compactionDue s { s with store := { s.store with compaction := s.compactionVictim } }

/-- The erase phase of a compaction of `v` begins (R122): no urgent work, no erase, and no key left to copy. It waits
for a retained erase asked for (assumption log 37). -/
def State.erasePhaseDue (s : State) (v : Fin 16) : Bool :=
  s.writerReady && s.urgentWork.isNone && s.noErase && (s.nextFresh v).isNone

/-- The erase phase (R122): a marked victim is retired, which ends the compaction (assumption log 36), any other
erased. -/
def State.erasePhase (v : Fin 16) (retireLine : Marred) (s : State) : State :=
  if s.store.sectors[v].marked then
    ({ s with store := { s.store with compaction := none } } : State).retire v retireLine
  else s.startErase v

/-- ERASE_PHASE_START (R122); `retireLine` says how the retire line reads back, where it is programmed. -/
def execErasePhaseStart (retireLine : Marred) (s : State) : Host.Outcome State Fault Refusal :=
  match s.store.compaction with
  | some v => arises (s.erasePhaseDue v) s (s.erasePhase v retireLine)
  | none => .next s

/-- SPOILED_ERASE_START (R122): one at a time, lowest number first. -/
def execSpoiledEraseStart (s : State) : Host.Outcome State Fault Refusal :=
  match s.spoiledWaiting with
  | some k => arises (s.writerReady && s.urgentWork.isNone && s.noErase) s (s.startErase k)
  | none => .next s

/-- ERASE_END (R122, R123): `residue` says which bytes do not read 0xFF. An erase asked to suspend is suspended before
it ends. -/
def execEraseEnd (residue retireLine : Marred) (s : State) : Host.Outcome State Fault Refusal :=
  match s.store.erase with
  | some e => arises (!e.suspendAsked && !e.suspended) s (s.endErase e.sector residue retireLine)
  | none => .next s

/-- Put `e` in place of the log erase in flight. -/
def State.setErase (e : EraseOp) (s : State) : State := { s with store := { s.store with erase := some e } }

/-- ERASE_SUSPENDED (R123). -/
def execEraseSuspended (s : State) : Host.Outcome State Fault Refusal :=
  match s.store.erase with
  | some e => arises (e.suspendAsked && !e.suspended) s (s.setErase { e with suspended := true })
  | none => .next s

/-- ERASE_RESUME (R123): no urgent item remains and no program runs; a FAILED store resumes none (R126). -/
def execEraseResume (s : State) : Host.Outcome State Fault Refusal :=
  match s.store.erase with
  | some e =>
    arises (e.suspended && decide (s.store.state = .ready) && s.urgentWork.isNone && s.store.program.isNone) s
      (s.setErase { e with suspendAsked := false, suspended := false })
  | none => .next s

/-- The writer takes a retained entry at this moment (R118, R128). -/
def State.nextRetained (s : State) : Option RetainedItem :=
  if s.writerReady ∧ s.urgentWork = some .retained then s.store.retQueue.head? else none

/-- RETAINED_ENTRY_BEGIN (R128). -/
def execRetainedEntryBegin (s : State) : Host.Outcome State Fault Refusal :=
  match s.nextRetained with
  | some it => .next { s with store := { s.store with retQueue := s.store.retQueue.tail, program := some (.retained it) } }
  | none => .next s

/-- A retained entry whose position is void is reserved again at the lowest free position and stays queued, oldest
first; with none left it is dropped (R128). -/
def State.requeueRetained (it : RetainedItem) (s : State) : State :=
  match s.retainedFree with
  | some k => { s with store := { s.store with retQueue := { it with pos := k } :: s.store.retQueue } }
  | none => s

/-- The end of a retained entry's programming (R128): lines 0..6, then line 7 if they read back. Only a success changes
the retained count, and with it the view (R128, R157). -/
def State.endRetained (it : RetainedItem) (marred : Marred) (s : State) : State :=
  let bytes := retainedEntryBytes it
  let got := readBack bytes marred
  let a := retainedAddr it.pos 0
  let bodyOk := decide (got.take 56 = bytes.take 56)
  let s1 := s.program a (got.take 56)
  let s2 := if bodyOk then s1.program (a + 56) (got.drop 56) else s1
  let s3 : State := { s2 with store := { s2.store with program := none } }
  if bodyOk && decide (got.drop 56 = bytes.drop 56) then (s3.setRetained it.pos (.valid it.slot)).markView
  else (s3.setRetained it.pos .void).requeueRetained it

/-- RETAINED_ENTRY_COMPLETION (R128); `marred` says which bytes do not read back as programmed. -/
def execRetainedEntryCompletion (marred : Marred) (s : State) : Host.Outcome State Fault Refusal :=
  match s.store.program with
  | some (.retained it) => arises true s (s.endRetained it marred)
  | some (.image _) | none => .next s

/-- The retained erase may start (R129, R112). -/
def State.retainedEraseDue (s : State) : Bool :=
  decide (s.store.retErase = .waiting) && decide (s.store.state = .ready) && s.store.inhibitDue.isNone
    && s.store.erase.isNone && s.store.program.isNone && s.urgentWork.isNone

/-- RETAINED_ERASE_START (R129). -/
def execRetainedEraseStart (s : State) : Host.Outcome State Fault Refusal :=
  arises s.retainedEraseDue s { s with store := { s.store with retErase := .running } }

/-- The retained sector after its erase, with these bytes not blank (R129). -/
def erasedRetained (flash : Memory) (residue : Marred) : Memory :=
  let base := Config.sectorBytes * Config.retainedSector
  writeCells (Memory.clear flash base (base + Config.sectorBytes)) base Config.sectorBytes residue

/-- The free positions, ascending. -/
def freePositions (v : Vector RetainedPos 16) : List (Fin 16) :=
  (List.finRange 16).filter (fun k => decide (v[k] = .free))

/-- The end of the retained erase (R129): the sector is read back, the queued entries are reserved afresh, and the
erase is reported done if every position reads free (R153; assumption log 26). -/
def State.endRetainedErase (residue : Marred) (s : State) : State :=
  let flash := erasedRetained s.flash residue
  let pos := readPositions flash
  let s1 : State := { s with flash := flash, store := { s.store with
    retPos := pos, retErase := .nothing, retQueue := reserveAfresh (freePositions pos) s.store.retQueue } }
  s1.markView.reportRetainedErase (if (freePositions pos).length = 16 then .ok else .storeFault)

/-- RETAINED_ERASE_END (R129). -/
def execRetainedEraseEnd (residue : Marred) (s : State) : Host.Outcome State Fault Refusal :=
  arises (decide (s.store.retErase = .running)) s (s.endRetainedErase residue)

end Sys2Proof.Machine
end

