-- ==== Sys2Proof/Machine/Dispatch.lean ====
section
/-! DEFINITION. The meaning of every command: one arm per row of the table. -/

namespace Sys2Proof.Machine

def exec (i : Instr) (s : State) : Host.Outcome State Fault Refusal :=
  match i with
  | .resetEntry cause cut => Sys2Proof.Machine.execResetEntry cause cut s
  | .resetRelease straps => Sys2Proof.Machine.execResetRelease straps s
  | .restoreFinish => Sys2Proof.Machine.execRestoreFinish s
  | .ignChange level => Sys2Proof.Machine.execIgnChange level s
  | .ignDebounceExpiry => Sys2Proof.Machine.execIgnDebounceExpiry s
  | .rideEndAccounting => Sys2Proof.Machine.execRideEndAccounting s
  | .endingCompletion => Sys2Proof.Machine.execEndingCompletion s
  | .rideTimeSecond => Sys2Proof.Machine.execRideTimeSecond s
  | .proveOutExpiry => Sys2Proof.Machine.execProveOutExpiry s
  | .holdLimitExpiry => Sys2Proof.Machine.execHoldLimitExpiry s
  | .releaseOnCompletion => Sys2Proof.Machine.execReleaseOnCompletion s
  | .silenceTimerExpiry p => Sys2Proof.Machine.execSilenceTimerExpiry p s
  | .passTimerExpiry p => Sys2Proof.Machine.execPassTimerExpiry p s
  | .slotVisit p => Sys2Proof.Machine.execSlotVisit p s
  | .checkByteWrite p a d => Sys2Proof.Machine.execCheckByteWrite p a d s
  | .post p a d => Sys2Proof.Machine.execPost p a d s
  | .withdrawal p a d => Sys2Proof.Machine.execWithdrawal p a d s
  | .handBack p a d => Sys2Proof.Machine.execHandBack p a d s
  | .release p write taken => Sys2Proof.Machine.execRelease p write taken s
  | .contextLowByteStage p a d => Sys2Proof.Machine.execContextLowByteStage p a d s
  | .contextCommit p a d => Sys2Proof.Machine.execContextCommit p a d s
  | .strayWrite p a d => Sys2Proof.Machine.execStrayWrite p a d s
  | .portWrite p a d => Sys2Proof.Machine.execPortWrite p a d s
  | .readPairCapture p a => Sys2Proof.Machine.execReadPairCapture p a s
  | .capturedHighRead p a => Sys2Proof.Machine.execCapturedHighRead p a s
  | .adopt r => Sys2Proof.Machine.execAdopt r s
  | .clearSlot r => Sys2Proof.Machine.execClearSlot r s
  | .clearPort r => Sys2Proof.Machine.execClearPort r s
  | .fetchFrame r => Sys2Proof.Machine.execFetchFrame r s
  | .fetchQualifier r => Sys2Proof.Machine.execFetchQualifier r s
  | .readRetained r => Sys2Proof.Machine.execReadRetained r s
  | .retainedRead => Sys2Proof.Machine.execRetainedRead s
  | .eraseRetained r => Sys2Proof.Machine.execEraseRetained r s
  | .acknowledge r => Sys2Proof.Machine.execAcknowledge r s
  | .badRequest r => Sys2Proof.Machine.execBadRequest r s
  | .publishPassStart => Sys2Proof.Machine.execPublishPassStart s
  | .publishPassEnd => Sys2Proof.Machine.execPublishPassEnd s
  | .publishSpacingExpiry => Sys2Proof.Machine.execPublishSpacingExpiry s
  | .blinkPhaseBoundary => Sys2Proof.Machine.execBlinkPhaseBoundary s
  | .writeInhibitExpiry => Sys2Proof.Machine.execWriteInhibitExpiry s
  | .imageBegin => Sys2Proof.Machine.execImageBegin s
  | .imageCompletion marred => Sys2Proof.Machine.execImageCompletion marred s
  | .compactionStart => Sys2Proof.Machine.execCompactionStart s
  | .erasePhaseStart retireLine => Sys2Proof.Machine.execErasePhaseStart retireLine s
  | .spoiledEraseStart => Sys2Proof.Machine.execSpoiledEraseStart s
  | .eraseEnd residue retireLine => Sys2Proof.Machine.execEraseEnd residue retireLine s
  | .eraseSuspended => Sys2Proof.Machine.execEraseSuspended s
  | .eraseResume => Sys2Proof.Machine.execEraseResume s
  | .retainedEntryBegin => Sys2Proof.Machine.execRetainedEntryBegin s
  | .retainedEntryCompletion marred => Sys2Proof.Machine.execRetainedEntryCompletion marred s
  | .retainedEraseStart => Sys2Proof.Machine.execRetainedEraseStart s
  | .retainedEraseEnd residue => Sys2Proof.Machine.execRetainedEraseEnd residue s
  | .otherReadEmptiesCapture p a => Sys2Proof.Machine.execOtherReadEmptiesCapture p a s

end Sys2Proof.Machine
end

