-- ==== Sys2Proof/Machine/Step.lean ====
section
/-!
DEFINITION. The step: the command at the front of the queue is executed with the queue's rest; on an empty queue one
microsecond passes (assumption log 2).
-/

namespace Sys2Proof.Machine

/-- One microsecond of the time base, which runs from reset release and stands while the part is in reset (R182). -/
def State.tick (s : State) : State := if s.inReset then s else s.advanceTo (s.now + 1)

/-- Put a command at the front of the queue. -/
def State.pushFront (c : Instr) (s : State) : State := { s with pending := c :: s.pending }

/-- The queue without its front. -/
def State.popFront (s : State) : State := { s with pending := s.pending.tail }

/-- One step. -/
def step (s : State) : Host.Outcome State Fault Refusal :=
  match s.pending with
  | [] => .next s.tick
  | c :: _ => exec c s.popFront

/-- `s` with the command a word spells at the front of its queue; the table's rows have no words, so `s` stays. -/
def State.withFetchWord (s : State) (nbits w : Nat) : State :=
  match decodeTableWord nbits w with
  | some c => s.pushFront c
  | none => s

end Sys2Proof.Machine
end

