-- ==== Sys2Proof/Safety.lean ====
section
/-!
DEFINITION. What counts as a safe run: the laws the manual states of the part's own state at every moment between steps,
each as a predicate on State, and the terms the statements use to speak of an answered request and of a trail entry.
-/

namespace Sys2Proof.Machine

/-- Both memories have the canonical form. -/
def State.MemoriesCanonical (s : State) : Prop :=
  Memory.wf ramDefault s.ram = true ∧ Memory.wf flashDefault s.flash = true

/-- R165: unread lies within 0..64 and equals write count minus read mark, modulo 65536. -/
def State.TrailLaw (s : State) : Prop :=
  s.pub.unread ≤ 64 ∧ (s.pub.writeCount - s.pub.readMark).toNat = s.pub.unread

/-- R159: the generation is even exactly while no publish pass is in flight. -/
def State.GenerationLaw (s : State) : Prop := s.pub.generation.toNat % 2 = 0 ↔ s.pub.pass = none

/-- R81: the debounced IGN level is high throughout RIDING and low throughout NO_RIDE. -/
def State.IgnLaw (s : State) : Prop :=
  (s.ride.state = .riding → s.ride.debounced = true) ∧ (s.ride.state = .noRide → s.ride.debounced = false)

/-- R105, R106: each lamp shows the pattern its inputs give, and its output has the level that pattern gives. -/
def State.LampsCurrent (s : State) : Prop :=
  ∀ p, (s.port p).shown = s.patternNow p ∧ (s.port p).lamp = litAt (s.port p).shown s.now

/-- R171: each attention line stands as its two conditions give. -/
def State.AttentionCurrent (s : State) : Prop := ∀ p, (s.port p).attn = s.attnNow p

/-- The port whose request the executor holds. -/
def Taken.port : Taken → Port
  | .adopt p _ _ => p
  | .clear p _ => p
  | .readRetained p _ => p
  | .eraseRetained p => p
  | .reply p _ _ => p
  | .adopted p _ _ => p

/-- R135, R139: a cell is TAKEN exactly while the executor holds that port's request, so at most one is. -/
def State.TakenLaw (s : State) : Prop := ∀ p, (s.port p).cell = .taken ↔ s.exec.taken.map Taken.port = some p

/-- R26 and 2.1: maturity lies within −128..+127, the fade count within 0..15, the forget count within 0..255. -/
def State.QualifierRanges (s : State) : Prop :=
  ∀ i : Slot, -128 ≤ s.quals[i].m ∧ s.quals[i].m ≤ 127 ∧ s.quals[i].fade ≤ 15 ∧ s.quals[i].forget ≤ 255

/-- R10, R11: a held count lies within 0..3, and a slot is barred exactly at 3. -/
def State.BarLaw (s : State) : Prop :=
  ∀ i : Slot, s.slots[i].held ≤ 3 ∧ (s.slots[i].barred = true ↔ s.slots[i].held = 3)

/-- Entry `e` holds the record `r`. -/
def State.Holds (s : State) (e : Fin 48) (r : Record) : Prop := s.records[e] = some r

/-- R42, R43: a record's state is its qualifier's and never IDLE, at most one record exists for each slot, and a
qualifier is unrecorded exactly when it is outside IDLE without a record. -/
structure State.RecordLaw (s : State) : Prop where
  inStep     : ∀ e r, s.Holds e r → r.state = s.quals[r.slot].state ∧ r.state ≠ .idle
  oneEach    : ∀ e e' r r', s.Holds e r → s.Holds e' r' → r.slot = r'.slot → e = e'
  unrecorded : ∀ i : Slot, s.quals[i].unrecorded = true ↔
    s.quals[i].state ≠ .idle ∧ ∀ e r, s.Holds e r → r.slot ≠ i

/-- The two laws of R51, of one record while `ride` is the current ride number. -/
structure Record.CountsRight (r : Record) (ride : Nat) : Prop where
  pending : r.state = .pending → r.occurrence = 0
  others  : r.state ≠ .pending → 1 ≤ r.occurrence ∧ r.occurrence ≤ 255
  rides   : r.firstConf ≤ r.latestConf ∧ r.latestConf ≤ ride

/-- R51 and R86: the ride number lies within 0..65535, and every record obeys the laws of occurrence and ride fields. -/
structure State.CountLaw (s : State) : Prop where
  ride    : s.ride.number ≤ 65535
  records : ∀ e r, s.Holds e r → r.CountsRight s.ride.number

/-- R70: no frame is referenced twice. -/
def State.FrameLaw (s : State) : Prop :=
  ∀ e e' r r' k k' f, s.Holds e r → s.Holds e' r' → r.frameRef k = some f → r'.frameRef k' = some f → e = e' ∧ k = k'

/-- The exchange RAM shows the part's own state: the generation and the trail counts (R159, R165), the state bytes of
the cells (R134), in a release byte 0 or the port's last release if that waits (R168, R176), 0x00 in the unassigned
space (R173); and a pass in flight carries a copy of the whole view. -/
structure State.RamShows (s : State) : Prop where
  generation : natOf16 (s.rd 0) (s.rd 1) = s.pub.generation.toNat
  writeCount : natOf16 (s.rd 32) (s.rd 33) = s.pub.writeCount.toNat
  readMark   : natOf16 (s.rd 34) (s.rd 35) = s.pub.readMark.toNat
  unread     : s.rd 36 = byteOf s.pub.unread
  overrun    : s.rd 37 = byteOf (flagBit s.pub.overrun 0)
  cells      : ∀ p, s.rd (Config.cellBase p) = byteOf (cellCode (s.port p).cell)
  releases   : ∀ p, s.rd (Config.releaseAddr p) = 0 ∨
                 (s.port p).releases.getLast? = some (s.rd (Config.releaseAddr p))
  unassigned : ∀ a, 0x1042 ≤ a → s.rd a = 0
  passCopy   : ∀ copy, s.pub.pass = some copy → copy.length = 990

/-! ### Terms the statements use -/

/-- Port `p`'s cell is ANSWERED with this status and answer (R137): status, answer length, the 48 answer bytes with
zeros behind the answer, the state byte; and FATTN or BATTN is asserted (R171). -/
structure State.Answered (t : State) (p : Port) (st : Status) (answer : List Byte) : Prop where
  cell   : (t.port p).cell = .answered
  state  : t.rd (Config.cellBase p) = 3
  status : t.rd (Config.cellBase p + 2) = byteOf (statusCode st)
  length : t.rd (Config.cellBase p + 3) = byteOf answer.length
  bytes  : ∀ k, k < 48 → t.rd (Config.cellBase p + 16 + k) = byteAt answer k
  free   : t.exec.taken = none
  attn   : (t.port p).attn = true

/-- Entry number `n` of the trail stands in the ring with these eight bytes (9.4). -/
def State.TrailEntry (t : State) (n : Word) (bytes : List Byte) : Prop :=
  ∀ k, k < 8 → t.rd (Config.trailBase + 8 * (n.toNat % 64) + k) = byteAt bytes k

/-- The state a report leaves a qualifier in that stood in `st`, by its new M: the table of R28 read until no row
applies (R28 to R35). -/
def stateAfter (st : QState) (m : Int) : QState :=
  match st with
  | .idle => if m = 127 then .confirmed else if 0 < m then .pending else .idle
  | .pending => if m = 127 then .confirmed else if m = -128 then .idle else .pending
  | .confirmed => if m = -128 then .fading else .confirmed
  | .fading => if m = 127 then .confirmed else .fading
  | .historic => if m = 127 then .confirmed else .historic

/-- The qualifiers, records and frames of two states are the same. -/
structure SameFaults (s t : State) : Prop where
  quals   : t.quals = s.quals
  records : t.records = s.records
  frames  : t.frames = s.frames

/-- The store and the flash of two states are the same. -/
structure SameStore (s t : State) : Prop where
  store : t.store = s.store
  flash : t.flash = s.flash

/-- The lines, straps, queue, time base and adopted profiles of two states are the same. -/
structure SameWorld (s t : State) : Prop where
  pending  : t.pending = s.pending
  lines    : t.resetn = s.resetn ∧ t.supgood = s.supgood ∧ t.ign = s.ign
  straps   : t.part = s.part ∧ t.svc = s.svc
  now      : t.now = s.now
  profiles : t.profiles = s.profiles

/-- Where port `p`'s pass stands after its visit of slot `i` (R6): behind the slot while a touched one lies ahead; else the
pass has ended, and an owed one begins, which ends at once where no slot is touched (assumption log 10). `s` is the state
before the visit; a mark that the visit leaves set is met by an owed pass. -/
structure PassGoesOn (s t : State) (p : Port) (i : Slot) : Prop where
  ahead : (∃ j : Slot, i < j ∧ s.owner j = p ∧ s.slots[j].touched = true) →
            (t.port p).passPos = some (i.val + 1) ∧ (t.port p).owed = (s.port p).owed
  ends  : (∀ j : Slot, i < j → s.owner j = p → s.slots[j].touched = false) → (s.port p).owed = false →
            (t.port p).passPos = none ∧ (t.port p).owed = false
  again : (∀ j : Slot, i < j → s.owner j = p → s.slots[j].touched = false) → (s.port p).owed = true →
            (t.port p).owed = false ∧
            ((∃ j : Slot, s.owner j = p ∧ t.slots[j].touched = true) → (t.port p).passPos = some 0) ∧
            ((∀ j : Slot, s.owner j = p → t.slots[j].touched = false) → (t.port p).passPos = none)
  other : (t.port p.other).passPos = (s.port p.other).passPos ∧ (t.port p.other).owed = (s.port p.other).owed

/-- The executor has had a take opportunity, free and with no cell picked (R139, R140): the cell POSTED alone is picked,
of two the preference's, and none where none is; the pick waits in exec.claim (assumption log 11). -/
structure Offered (s t : State) : Prop where
  alone : ∀ p, (s.port p).cell = .posted → (s.port p.other).cell ≠ .posted → t.exec.claim = some p
  both  : (∀ p, (s.port p).cell = .posted) → t.exec.claim = some s.exec.pref
  idle  : (∀ p, (s.port p).cell ≠ .posted) → t.exec.claim = none
  kept  : t.exec.taken = s.exec.taken ∧ t.exec.pref = s.exec.pref

/-- Nothing but the exchange RAM, the publisher, the executor and the two ports' state may differ. -/
structure SameInside (s t : State) : Prop extends SameFaults s t, SameStore s t, SameWorld s t where
  slots : t.slots = s.slots
  ride  : t.ride = s.ride

/-- Port `p`'s request is answered with this status and answer and has no other effect: of the exchange RAM only the
state byte, the status, the answer length and the answer change; of the ports only the cell and the attention lines.
The executor, free again, picks the other port's cell if that is POSTED and requests are taken (R139, R140; assumption
log 11). -/
structure AnswersOnly (s t : State) (p : Port) (st : Status) (answer : List Byte) : Prop
    extends State.Answered t p st answer, SameInside s t where
  pub   : t.pub = s.pub
  ram   : ∀ y, y ≠ Config.cellBase p → y ≠ Config.cellBase p + 2 → y ≠ Config.cellBase p + 3 →
            (y < Config.cellBase p + 16 ∨ Config.cellBase p + 64 ≤ y) → t.rd y = s.rd y
  ports : ∀ q, { t.port q with cell := (s.port q).cell, attn := (s.port q).attn } = s.port q
  other : (t.port p.other).cell = (s.port p.other).cell
  next  : s.exec.taken = none ∨ s.exec.claim = none → t.exec.claim =
            if (s.port p.other).cell = .posted ∧ (s.ride.state = .noRide ∨ s.ride.state = .riding) then some p.other
            else none

/-- Port `p`'s request has been taken and waits as `w` (R137, R140, R141). -/
structure State.Waits (t : State) (p : Port) (w : Taken) : Prop where
  exec  : t.exec = { taken := some w, pref := p.other, claim := none }
  cell  : (t.port p).cell = .taken
  state : t.rd (Config.cellBase p) = 2

/-- Port `p`'s request has been taken and waits as `w`, and nothing else has happened: of the exchange RAM only the state
byte changes, of the ports only the cell; status, answer length and answer are not touched (R137). -/
structure TakenOnly (s t : State) (p : Port) (w : Taken) : Prop extends State.Waits t p w, SameInside s t where
  pub   : t.pub = s.pub
  ram   : ∀ y, y ≠ Config.cellBase p → t.rd y = s.rd y
  ports : ∀ q, { t.port q with cell := (s.port q).cell } = s.port q
  other : (t.port p.other).cell = (s.port p.other).cell

/-- The request command `c` of port `p` only answers, with this status and answer: the whole command takes the request and
answers it; the take alone leaves it TAKEN with that answer to come (R137, R138, R141; assumption log 39). -/
def Replies (c : RequestStep → Instr) (s : State) (p : Port) (st : Status) (answer : List Byte) : Prop :=
  (∃ t, exec (c { port := p, part := .whole }) s = .next t ∧ AnswersOnly s t p st answer ∧ t.exec.pref = p.other) ∧
  ∃ t, exec (c { port := p, part := .take }) s = .next t ∧ TakenOnly s t p (.reply p st answer)

/-- What the completion of port `p`'s ADOPT does beside its answer (R145): `s` is the state before the command. -/
structure AdoptDone (s t : State) (p : Port) : Prop where
  adopted : (t.port p).adopted = true
  dirty   : t.pub.dirty = true
  counts  : (t.port p).steady = t.demandCount p .steady ∧ (t.port p).slow = t.demandCount p .slow ∧
              (t.port p).fast = t.demandCount p .fast
  shown   : (t.port p).shown = t.patternNow p
  reader  : p = .fp → ∀ c, t.fp.copy = some c → t.pub.reader = c.reader ∧ t.pub.threshold = c.threshold ∧
              t.rd 38 = byteOf (portCode c.reader) ∧ t.rd 39 = byteOf c.threshold
  others  : p = .bp → t.pub.reader = s.pub.reader ∧ t.pub.threshold = s.pub.threshold
  started : (s.port p).adopted = false → s.ride.state = .riding → ∀ c, (t.port p).copy = some c →
              (t.port p).passDue = some (t.now + Config.passPeriod c.passCode) ∧
              (c.silenceCode ≠ 0 → (t.port p).silenceDue = some (t.now + 50000 * c.silenceCode))
  kept    : ((s.port p).adopted = true ∨ s.ride.state ≠ .riding) →
              (t.port p).passDue = (s.port p).passDue ∧ (t.port p).silenceDue = (s.port p).silenceDue

/-- The counts of port `p`'s lamp fall by the demands that end, `ended x` of pattern `x`; the other lamp's stay (R103). -/
structure DemandsEnd (s t : State) (p : Port) (ended : Pattern → Nat) : Prop where
  steady : (t.port p).steady = (s.port p).steady - ended .steady
  slow   : (t.port p).slow = (s.port p).slow - ended .slow
  fast   : (t.port p).fast = (s.port p).fast - ended .fast
  other  : (t.port p.other).steady = (s.port p.other).steady ∧ (t.port p.other).slow = (s.port p.other).slow ∧
             (t.port p.other).fast = (s.port p.other).fast

/-- What entry to FAILED does, beside the command's own effects (R125, R126, R129, R147): STORE_FAILED is trail entry number
`n`, the marks stay, a clear or an ADOPT that waits is answered STORE_FAULT, a retained erase that waits is dropped and
reported, and no other request is answered; `s` is the state before the command. -/
structure StoreFails (s t : State) (n : Word) : Prop where
  state   : t.store.state = .failed
  entry   : t.TrailEntry n
              (trailBytes s.ride.number s.ride.time 0xFF .storeFailed (byteOf (t.sectorCount .retired)) 0)
  dirty   : t.pub.dirty = true
  marks   : t.store.rideMark = s.store.rideMark ∧ t.store.qualMark = s.store.qualMark ∧
              t.store.logQueue = s.store.logQueue ∧ t.store.retQueue = s.store.retQueue
  clears  : ∀ p answer, s.exec.taken = some (.clear p answer) → t.Answered p .storeFault answer
  adopts  : ∀ p left answer, s.exec.taken = some (.adopt p left answer) →
              t.Answered p .storeFault answer ∧ AdoptDone s t p
  dropped : t.store.retErase = (match s.store.retErase with
              | .waiting => .nothing
              | .nothing => .nothing
              | .running => .running)
  erases  : ∀ p, s.store.retErase = .waiting → s.exec.taken = some (.eraseRetained p) →
              t.Answered p .storeFault [byteOf s.retainedCount]
  others  : (∀ p answer, s.exec.taken ≠ some (.clear p answer)) →
              (∀ p left answer, s.exec.taken ≠ some (.adopt p left answer)) →
              (s.store.retErase = .waiting → ∀ p, s.exec.taken ≠ some (.eraseRetained p)) → t.exec = s.exec

/-- The retained list holds slot `i`: a valid entry, or one queued or being written (R127). -/
def State.RetainedHolds (s : State) (i : Slot) : Prop :=
  (∃ k : Fin 16, s.store.retPos[k] = .valid i) ∨ (∃ x ∈ s.store.retQueue, x.slot = i) ∨
    ∃ x, s.store.program = some (.retained x) ∧ x.slot = i

/-- Position `k` is the lowest free retained position that no entry queued or being written has reserved (R127). -/
def State.RetainedSpare (s : State) (k : Fin 16) : Prop :=
  let spare (j : Fin 16) : Prop := s.store.retPos[j] = .free ∧ (∀ x ∈ s.store.retQueue, x.pos ≠ j) ∧
    ∀ x, s.store.program = some (.retained x) → x.pos ≠ j
  spare k ∧ ∀ j < k, ¬spare j

/-- One byte of the flash array. -/
def State.flashByte (s : State) (a : Nat) : Byte := Memory.read flashDefault s.flash a

/-- The qualifier of a slot after a clear (R41). -/
def clearedQualifier : Qualifier :=
  { state := .idle, m := 0, fade := 0, forget := 0, unrecorded := false, tested := false, failed := false,
    passedMature := false }

/-- The engine state of slot `i` after a rebase on the board as it stands (R18). -/
def State.rebased (s : State) (i : Slot) : SlotEngine :=
  { touched := false, held := 0, barred := false, seenPass := s.rd (0x0600 + 8 * i.val),
    seenFail := s.rd (0x0600 + 8 * i.val + 1) }

end Sys2Proof.Machine
end

