-- ==== Sys2Proof/WellFormed.lean ====
section
/-!
DEFINITION. Which command terms mean something: the operands that list bytes of flash list each offset once, in rising
order, inside the unit the command programs or erases (R109); a RELEASE makes a write or takes a release. Ports,
addresses, data and straps are bounded by their types. A meaning is total: what a listed offset outside its unit would say
is ignored.
-/

namespace Sys2Proof

/-- The offsets of `m` rise strictly from `lo` and stay below `limit`. -/
def Marred.within (limit : Nat) (lo : Nat) (m : Marred) : Bool :=
  match m with
  | [] => true
  | c :: rest => decide (lo ≤ c.1) && decide (c.1 < limit) && Marred.within limit (c.1 + 1) rest

/-- The bytes of the longest image, a QUALIFIER image of 98 lines (R113). -/
def maxImageBytes : Nat := 784

/-- The bytes of a retained entry (R127). -/
def retainedEntrySize : Nat := 64

/-- What a reset leaves of a cut program or erase: one line's bytes; an erase leaves line 255 as it was (R109). -/
def FlashCut.wf (c : FlashCut) : Bool :=
  Marred.within Config.lineBytes 0 c.line && Marred.within Config.sectorBytes 0 c.erased

/-- The well-formed commands. -/
def Instr.wf (i : Instr) : Bool :=
  match i with
  | .resetEntry _ cut => cut.wf
  | .imageCompletion marred => Marred.within maxImageBytes 0 marred
  | .erasePhaseStart line => Marred.within Config.lineBytes 0 line
  | .eraseEnd residue line => Marred.within Config.sectorBytes 0 residue && Marred.within Config.lineBytes 0 line
  | .retainedEntryCompletion marred => Marred.within retainedEntrySize 0 marred
  | .retainedEraseEnd residue => Marred.within Config.sectorBytes 0 residue
  | .release _ write taken => write.isSome || decide (taken ≠ 0)
  | .resetRelease _ | .restoreFinish | .ignChange _ | .ignDebounceExpiry | .rideEndAccounting | .endingCompletion
  | .rideTimeSecond | .proveOutExpiry | .holdLimitExpiry | .releaseOnCompletion | .silenceTimerExpiry _
  | .passTimerExpiry _ | .slotVisit _ | .checkByteWrite _ _ _ | .post _ _ _ | .withdrawal _ _ _ | .handBack _ _ _
  | .contextLowByteStage _ _ _ | .contextCommit _ _ _ | .strayWrite _ _ _ | .portWrite _ _ _
  | .readPairCapture _ _ | .capturedHighRead _ _ | .adopt _ | .clearSlot _ | .clearPort _ | .fetchFrame _
  | .fetchQualifier _ | .readRetained _ | .retainedRead | .eraseRetained _ | .acknowledge _ | .badRequest _
  | .publishPassStart | .publishPassEnd | .publishSpacingExpiry | .blinkPhaseBoundary | .writeInhibitExpiry
  | .imageBegin | .compactionStart | .spoiledEraseStart | .eraseSuspended | .eraseResume | .retainedEntryBegin
  | .retainedEraseStart | .otherReadEmptiesCapture _ _ => true

/-- The bytes of flash a command lists, with their offsets in the unit the command programs or erases. -/
def Instr.flashBytes (i : Instr) : Marred :=
  match i with
  | .resetEntry _ cut => cut.line ++ cut.erased
  | .imageCompletion marred => marred
  | .erasePhaseStart line => line
  | .eraseEnd residue line => residue ++ line
  | .retainedEntryCompletion marred => marred
  | .retainedEraseEnd residue => residue
  | .resetRelease _ | .restoreFinish | .ignChange _ | .ignDebounceExpiry | .rideEndAccounting | .endingCompletion
  | .rideTimeSecond | .proveOutExpiry | .holdLimitExpiry | .releaseOnCompletion | .silenceTimerExpiry _
  | .passTimerExpiry _ | .slotVisit _ | .checkByteWrite _ _ _ | .post _ _ _ | .withdrawal _ _ _ | .handBack _ _ _
  | .release _ _ _ | .contextLowByteStage _ _ _ | .contextCommit _ _ _ | .strayWrite _ _ _ | .portWrite _ _ _
  | .readPairCapture _ _ | .capturedHighRead _ _ | .adopt _ | .clearSlot _ | .clearPort _ | .fetchFrame _
  | .fetchQualifier _ | .readRetained _ | .retainedRead | .eraseRetained _ | .acknowledge _ | .badRequest _
  | .publishPassStart | .publishPassEnd | .publishSpacingExpiry | .blinkPhaseBoundary | .writeInhibitExpiry
  | .imageBegin | .compactionStart | .spoiledEraseStart | .eraseSuspended | .eraseResume | .retainedEntryBegin
  | .retainedEraseStart | .otherReadEmptiesCapture _ _ => []

end Sys2Proof
end

