-- ==== Sys2Proof/Certificates/Slice0/Obligations.lean ====
section
/-!
DEFINITION. The statements for the provers. Each says what a command or a shared operation does, for every state that
meets its hypotheses; a conclusion `exec c s = .next t` says that the command completes. Two conditions recur: the part is
out of reset, and its memories have the canonical form, which StepKeepsTheMemoriesCanonical says every step keeps.
-/

open Sys2Proof Sys2Proof.Machine

/-! ### The step and the whole machine -/

/-- The step is `exec` of the command at the front of the queue, on the state with the queue's rest; on an empty queue
one microsecond passes and the lamp outputs follow the blink phase, and in reset nothing changes. The queue, its order
and the tick are the model's (assumption logs 2 and 33). -/
def Obligations.StepRunsTheFrontCommand : Prop :=
  (∀ (c : Instr) (rest : List Instr) (s : State), s.pending = c :: rest → step s = exec c { s with pending := rest }) ∧
  ∀ s : State, s.pending = [] →
    (s.inReset = true → step s = .next s) ∧
    (s.inReset = false → step s = .next { s with
      now := s.now + 1,
      fp := { s.fp with lamp := litAt s.fp.shown (s.now + 1) },
      bp := { s.bp with lamp := litAt s.bp.shown (s.now + 1) } })

/-- No command ends in a fault or a refusal, and none touches the queue. That a command arriving when its event does not arise
leaves the state as it is, and is no fault, is the model's choice (assumption log 1). -/
def Obligations.EveryCommandAnswersANextState : Prop :=
  ∀ (c : Instr) (s : State), ∃ t, exec c s = .next t ∧ t.pending = s.pending

/-- What only certain commands change: flash changes only where a program or an erase ends, where a retire line is
programmed, and where a reset cuts one short (R109, R114, R122, R125, R128, R129, R182); width, byte order, partition and
service mode hold from reset release to the next (R174, R177, R181); the ride number changes only at a reset, where
restore sets it, and at a ride begin, which IGN_DEBOUNCE_EXPIRY, ENDING_COMPLETION or RESTORE_FINISH makes (R86), and
between resets it does not fall (R51). -/
def Obligations.OnlyCertainCommandsChangeFlashStrapsAndRideNumber : Prop :=
  ∀ (c : Instr) (s t : State), exec c s = .next t →
    (match c with
      | .resetEntry _ _ | .imageCompletion _ | .erasePhaseStart _ | .eraseEnd _ _ | .retainedEntryCompletion _
      | .retainedEraseEnd _ => True
      | _ => t.flash = s.flash) ∧
    ((∀ straps, c ≠ .resetRelease straps) → t.part = s.part ∧ t.svc = s.svc ∧
      ∀ p, (t.port p).wide = (s.port p).wide ∧ (t.port p).swapped = (s.port p).swapped) ∧
    (match c with
      | .resetEntry _ _ | .resetRelease _ | .restoreFinish | .ignDebounceExpiry | .endingCompletion => True
      | _ => t.ride.number = s.ride.number) ∧
    (s.ride.number ≤ 65535 → (∀ cause cut, c ≠ .resetEntry cause cut) → (∀ straps, c ≠ .resetRelease straps) →
      c ≠ .restoreFinish → s.ride.number ≤ t.ride.number)

/-! ### Reset and the ignition -/

/-- RESET_ENTRY, recognised outside reset: the part is in reset, every operation in flight is abandoned, PWRHOLD is
asserted, lamps and attention deasserted; a low level of RESETN shorter than 1 µs does not reset the part (R182). Flash
changes only in the image, the retained position or the sector being worked on; a cut image has no valid complete mark,
and a cut erase leaves the sector SPOILED or with fewer images, a suspended one too while an urgent image is being
programmed in another sector (R109, R111, R123). That in reset the exchange RAM reads 0, no
pass timer stands and the queue stays is the model's choice (assumption log 38), and the bytes a cut leaves are operands
(assumption log 9). -/
def Obligations.ResetEntryAbandonsEverything : Prop :=
  (∀ (n : Nat) (cut : FlashCut) (s : State), n < 1000 → exec (.resetEntry (.resetn n) cut) s = .next s) ∧
  ∀ (cause : ResetCause) (cut : FlashCut) (s : State), s.inReset = false →
    (cause = .supgood ∨ ∃ n, cause = .resetn n ∧ 1000 ≤ n) →
    ∃ t, exec (.resetEntry cause cut) s = .next t ∧ t.inReset = true ∧ t.ride.pwrhold = true ∧
      (∀ p, (t.port p).lamp = false ∧ (t.port p).attn = false ∧ (t.port p).passPos = none ∧ (t.port p).passDue = none) ∧
      t.store.program = none ∧ t.store.erase = none ∧ t.store.retErase = .nothing ∧ t.pub.pass = none ∧
      t.exec.taken = none ∧ (∀ a, t.rd a = 0) ∧ t.ign = s.ign ∧ t.pending = s.pending ∧
      (s.store.program = none → s.store.erase = none → s.store.retErase ≠ .running → t.flash = s.flash) ∧
      (s.MemoriesCanonical →
        (∀ a,
          (∀ g, s.store.program = some (.image g) → 16 ≤ g.bytes.length ∧
            (a < sectorAddr g.sector (8 * g.line) ∨ sectorAddr g.sector (8 * g.line) + g.bytes.length ≤ a)) →
          (∀ x, s.store.program = some (.retained x) → a < retainedAddr x.pos 0 ∨ retainedAddr x.pos 0 + 64 ≤ a) →
          (∀ e, s.store.erase = some e → a < sectorAddr e.sector 0 ∨ sectorAddr e.sector 2040 ≤ a) →
          (s.store.retErase = .running → a < 32768 ∨ 34816 ≤ a) → t.flashByte a = s.flashByte a) ∧
        (∀ g, s.store.program = some (.image g) → 16 ≤ g.bytes.length → g.line + g.bytes.length / 8 ≤ 255 →
          (∀ e, s.store.erase = some e → e.sector ≠ g.sector) →
          t.flashByte (sectorAddr g.sector (8 * g.line) + 10) ≠ 0x00) ∧
        ∀ e, s.store.erase = some e →
          (∀ g, s.store.program = some (.image g) →
            g.sector ≠ e.sector ∧ 16 ≤ g.bytes.length ∧ g.line + g.bytes.length / 8 ≤ 255) →
          (∀ o, 2040 ≤ o → o < 2048 → s.flashByte (sectorAddr e.sector o) = 0xFF) →
          let found := classifySector t.flash e.sector
          found.1.state = .spoiled ∨ (found.1.state = .full ∧
            found.2.1.length < (classifySector s.flash e.sector).2.1.length))

/-- RESET_RELEASE: the straps are latched, the exchange RAM reads 0x00, and every block has the reset values of its
chapter (R20, R21, R60, R80, R100, R108, R111, R134, R139, R140, R142, R172, R182, R183); flash and the queue stay. -/
def Obligations.ResetReleaseSetsEveryBlock : Prop :=
  ∀ (straps : Straps) (s : State), s.inReset = true →
    ∃ t, exec (.resetRelease straps) s = .next t ∧ t.inReset = false ∧ t.part = straps.part ∧ t.svc = straps.svc ∧
      t.fp.wide = straps.fw16 ∧ t.bp.wide = straps.bw16 ∧ t.fp.swapped = straps.fbe ∧ t.bp.swapped = straps.bbe ∧
      t.now = 0 ∧ (∀ a, t.rd a = 0) ∧ t.flash = s.flash ∧ t.pending = s.pending ∧ t.ign = s.ign ∧
      (∀ i : Slot, t.slots[i] = { touched := false, held := 0, barred := false, seenPass := 0, seenFail := 0 }) ∧
      (∀ i : Slot, t.quals[i] = {
        state := .idle, m := 0, fade := 0, forget := 0, unrecorded := false, tested := false, failed := false,
        passedMature := false }) ∧
      (∀ e : Fin 48, t.records[e] = none) ∧
      (∀ p, (t.port p).staging = none ∧ (t.port p).capture = none ∧ (t.port p).stray = false ∧
        (t.port p).adopted = false ∧ (t.port p).passDue = none ∧ (t.port p).passPos = none ∧ (t.port p).owed = false ∧
        (t.port p).declined = 0 ∧ (t.port p).silenceDue = none ∧ (t.port p).silent = false ∧ (t.port p).cell = .idle ∧
        (∀ c : Fin 16, (t.port p).channels[c] = none) ∧ (t.port p).steady = 0 ∧ (t.port p).slow = 0 ∧
        (t.port p).fast = 0 ∧ (t.port p).shown = .off ∧ (t.port p).lamp = false ∧ (t.port p).attn = false) ∧
      t.ride = {
        state := .waiting, number := 0, time := 0, secondDue := none, debounced := false,
        debounceDue := if s.ign then some 50000 else none, proveOutDue := none, holdDue := none, pwrhold := true } ∧
      t.store.state = .starting ∧ t.store.inhibitDue = some 5000 ∧ t.anyMarked = false ∧ t.store.program = none ∧
      t.store.erase = none ∧ t.store.rideEnding = false ∧ t.retainedCount = 0 ∧
      t.exec = { taken := none, pref := .fp, claim := none } ∧
      t.pub = {
        generation := 0, dirty := true, spacingDue := none, pass := none, firstPass := true, writeCount := 0,
        readMark := 0, unread := 0, overrun := false, reader := .fp, threshold := 16 }

/-- IGN_CHANGE: a level that differs from the debounced one starts the 50 ms timer afresh, the debounced level cancels
it; in reset the level only stands there; a level that stood is no change. IGN_DEBOUNCE_EXPIRY in WAITING and in ENDING
records the level and does nothing else (R81, R82, R181). -/
def Obligations.IgnIsDebounced : Prop :=
  (∀ (level : Bool) (s : State),
    (level = s.ign → exec (.ignChange level) s = .next s) ∧
    (level ≠ s.ign → s.inReset = true → exec (.ignChange level) s = .next { s with ign := level }) ∧
    (level ≠ s.ign → s.inReset = false →
      exec (.ignChange level) s = .next { s with
        ign := level,
        ride := { s.ride with debounceDue := if level = s.ride.debounced then none else some (s.now + 50000) } })) ∧
  ∀ (d : Nat) (s : State), s.inReset = false → s.ride.debounceDue = some d →
    (s.ride.state = .waiting ∨ s.ride.state = .ending) →
    exec .ignDebounceExpiry s = .next { s.advanceTo d with
      ride := { s.ride with debounced := s.ign, debounceDue := none } }

/-- IGN_DEBOUNCE_EXPIRY in NO_RIDE with IGN high: ride begin, with the ten steps of R85. -/
def Obligations.DebouncedRiseBeginsARide : Prop :=
  ∀ (d : Nat) (s : State), s.inReset = false → s.MemoriesCanonical → s.ride.debounceDue = some d →
    s.ride.state = .noRide → s.ign = true →
    ∃ t, exec .ignDebounceExpiry s = .next t ∧ t.now = max s.now d ∧
      t.ride = {
        state := .riding, number := min 65535 (s.ride.number + 1), time := 0,
        secondDue := some (t.now + 1000000), debounced := true, debounceDue := none,
        proveOutDue := some (t.now + 2000000), holdDue := none, pwrhold := true } ∧
      (∀ i : Slot, t.quals[i] = { s.quals[i] with tested := false, failed := false, passedMature := false }) ∧
      t.store.rideMark = true ∧
      (∀ p c, s.adoptedCopy p = some c →
        (t.port p).passDue = some (t.now + Config.passPeriod c.passCode) ∧
        (c.silenceCode ≠ 0 → (t.port p).silenceDue = some (t.now + 50000 * c.silenceCode))) ∧
      (∀ p, (t.port p).shown = .steady ∧ (t.port p).lamp = true) ∧
      t.TrailEntry s.pub.writeCount (trailBytes (min 65535 (s.ride.number + 1)) 0 0xFF .rideBegin 0 0) ∧
      t.pub.writeCount = s.pub.writeCount + 1 ∧ t.pub.dirty = true ∧
      t.records = s.records ∧ t.frames = s.frames ∧ t.slots = s.slots ∧ t.profiles = s.profiles ∧ t.flash = s.flash

/-- IGN_DEBOUNCE_EXPIRY in RIDING with IGN low: entry to ENDING. Passes, ride time, prove-out and silence timers stop,
the silent flags clear without a trail entry, the hold limit runs 3 s, the lamps go dark, PWRHOLD stays (R89, R105).
No cell changes, and a POSTED one is no longer to be taken (R139); that a pick which stands is given up is the model's
choice (assumption log 11). -/
def Obligations.DebouncedFallEntersEnding : Prop :=
  ∀ (d : Nat) (s : State), s.inReset = false → s.ride.debounceDue = some d → s.ride.state = .riding → s.ign = false →
    ∃ t, exec .ignDebounceExpiry s = .next t ∧ t.now = max s.now d ∧
      t.ride = { s.ride with
        state := .ending, secondDue := none, debounced := false, debounceDue := none,
        proveOutDue := none, holdDue := some (t.now + 3000000) } ∧
      (∀ p, (t.port p).passDue = none ∧ (t.port p).passPos = none ∧ (t.port p).owed = false ∧
        (t.port p).silenceDue = none ∧ (t.port p).silent = false ∧ (t.port p).shown = .off ∧ (t.port p).lamp = false) ∧
      (∀ p, (t.port p).cell = (s.port p).cell) ∧ t.exec = { s.exec with claim := none } ∧
      t.ram = s.ram ∧ t.pub.writeCount = s.pub.writeCount ∧ t.pub.dirty = true ∧
      SameFaults s t ∧ SameStore s t ∧ t.slots = s.slots ∧ t.profiles = s.profiles

/-! ### Rides -/

/-- RESTORE_FINISH: the sectors, counters, qualifiers, records, frames and retained list are those flash gives; the
store is READY, or FAILED with fewer than 4 log sectors not RETIRED; WAITING is left by the debounced level (R81, R130
to R133). The classes of R130: RETIRED by line 255, ERASED, SPOILED when no first image parses, else FULL, or OPEN
when it holds the image of highest sequence and its walk ended on blank lines before line 255; the sequence counter is
one past the highest parsed, the ride number the highest of the valid images. That one blank line counts as room is
the model's choice (assumption log 41). A store that becomes FAILED appends STORE_FAILED, under the ride number
restored (R125, R133). A free executor has a take opportunity (R139; the pick is assumption log 11). Outside WAITING
restore does not finish (R81), and the command does nothing (log 1). -/
def Obligations.RestoreFinishRebuildsAndLeavesWaiting : Prop :=
  (∀ (flash : Memory) (k : Fin 16),
    let bs := sectorBytes flash k
    let w := walkSector flash k
    let c := (restoredSectors flash)[k]
    (allBlank (bs.drop 2040) = false → c.state = .retired) ∧
    (allBlank bs = true → c.state = .erased) ∧
    (allBlank (bs.drop 2040) = true → allBlank bs = false → w.1 = [] → c.state = .spoiled) ∧
    ∀ im rest, allBlank (bs.drop 2040) = true → allBlank bs = false → w.1 = im :: rest →
      c.firstSeq = some im.seq ∧
      (∀ n, w.2 = .blank n → n < 255 → (∃ x ∈ w.1, ∀ y ∈ parsedImages flash, y.sector ≠ k → y.seq < x.seq) →
        c.state = .opened ∧ c.used = n) ∧
      (((∀ n, w.2 = .blank n → 255 ≤ n) ∨ ∃ y ∈ parsedImages flash, y.sector ≠ k ∧ ∀ x ∈ w.1, x.seq < y.seq) →
        c.state = .full)) ∧
  (∀ l : List Image,
    (l = [] → restoredSeq l = 1) ∧ (∀ x ∈ l, x.seq < restoredSeq l) ∧
    (l ≠ [] → ∃ x ∈ l, restoredSeq l = x.seq + 1) ∧ (∀ x ∈ l, x.valid = true → x.ride ≤ restoredRide l) ∧
    (restoredRide l = 0 ∨ ∃ x ∈ l, x.valid = true ∧ restoredRide l = x.ride)) ∧
  (∀ s : State, s.ride.state ≠ .waiting → exec .restoreFinish s = .next s) ∧
  ∀ s : State, s.inReset = false → s.ride.state = .waiting →
    ∃ t, exec .restoreFinish s = .next t ∧ (s.exec.taken = none → s.exec.claim = none → Offered s t) ∧
      t.store.sectors = restoredSectors s.flash ∧ t.store.nextSeq = restoredSeq (parsedImages s.flash) ∧
      t.store.retPos = readPositions s.flash ∧
      (∀ i : Slot, t.quals[i] = (restoredQuals (parsedImages s.flash) (keptRecords (parsedImages s.flash)))[i]) ∧
      (∀ e : Fin 48, t.records[e] = (placeRecords (keptRecords (parsedImages s.flash))).1[e.val]?) ∧
      (∀ (f : Fin 64) (x : Frame), (placeRecords (keptRecords (parsedImages s.flash))).2[f.val]? = some x →
        t.frames[f] = x) ∧
      t.store.state = (if 16 - t.sectorCount .retired < 4 then .failed else .ready) ∧
      (s.MemoriesCanonical → t.store.state = .failed → t.TrailEntry s.pub.writeCount
        (trailBytes (restoredRide (parsedImages s.flash)) s.ride.time 0xFF .storeFailed
          (byteOf (t.sectorCount .retired)) 0)) ∧
      t.pub.writeCount = s.pub.writeCount + (if t.store.state = .failed then 1 else 0) +
        (if s.ride.debounced = true then 1 else 0) ∧
      (s.ride.debounced = false → t.ride.state = .noRide ∧ t.ride.number = restoredRide (parsedImages s.flash) ∧
        t.ride.holdDue = some (s.now + 3000000)) ∧
      (s.ride.debounced = true → t.ride.state = .riding ∧ t.store.rideMark = true ∧
        t.ride.number = min 65535 (restoredRide (parsedImages s.flash) + 1)) ∧
      t.flash = s.flash ∧ t.slots = s.slots ∧ t.profiles = s.profiles ∧ t.now = s.now ∧ t.pub.dirty = true

/-- What restore gives one slot, row by row of the table of R131, from the newest valid image of its record key (R121)
and the newest valid QUALIFIER image. A record must be in a state a record is stored in (assumption log 31), and the rows
are told apart by sequences that differ (assumption log 20); ImageBodiesReadBack says what a body's record holds. Of
the rebuilt records the 48 first in order of rank, activity ride and slot are kept, in that order, and the frame copies
are handed out in the same order, FIRST before LATEST, until 64 are given (R132). -/
def Obligations.RestoreFollowsTheNewestImages : Prop :=
  (∀ (l : List Image) (n : Nat),
    let ofKey (x : Image) : Prop := x.valid = true ∧
      (((x.kind = .record ∨ x.kind = .release) ∧ (byteAt x.body 0).toNat = n) ∨
        (x.kind = .clear ∧ (byteAt x.body 0).toNat ≤ n ∧ n ≤ (byteAt x.body 1).toNat))
    let qualifier (x : Image) : Prop := x.valid = true ∧ x.kind = .qualifier
    (newestRecordKey l n = none → ∀ x ∈ l, ¬ofKey x) ∧
    (∀ im, newestRecordKey l n = some im → im ∈ l ∧ ofKey im ∧ ∀ x ∈ l, ofKey x → x.seq ≤ im.seq) ∧
    (newestQualifier l = none → ∀ x ∈ l, ¬qualifier x) ∧
    ∀ im, newestQualifier l = some im → im ∈ l ∧ qualifier im ∧ ∀ x ∈ l, qualifier x → x.seq ≤ im.seq) ∧
  (∀ (l : List Image) (i : Slot),
    let fromQ := qualifierFrom (newestQualifier l) i.val
    let newer (im : Image) : Prop := ∀ q, newestQualifier l = some q → q.seq < im.seq
    (newestRecordKey l i.val = none → rebuildSlot l i = (fromQ, none)) ∧
    ∀ im, newestRecordKey l i.val = some im →
      let b := rebuiltFrom i im.body
      let stored (st : QState) : Prop := st = .confirmed ∨ st = .fading ∨ st = .historic
      (im.kind = .release → rebuildSlot l i = (fromQ, none)) ∧
      (im.kind = .clear → newer im → rebuildSlot l i = (Qualifier.reset, none)) ∧
      (im.kind = .record → newer im →
        (rebuildSlot l i).1 = {
          state := b.record.state, m := (match b.record.state with
            | .confirmed => 127
            | .fading => -128
            | .historic | .pending | .idle => 0),
          fade := b.record.fade, forget := b.record.forget, unrecorded := false, tested := false, failed := false,
          passedMature := false } ∧
        (stored b.record.state → (rebuildSlot l i).2 = some b)) ∧
      ∀ q, newestQualifier l = some q → im.seq < q.seq →
        (im.kind = .clear → rebuildSlot l i = (fromQ, none)) ∧
        (im.kind = .record → stored fromQ.state → rebuildSlot l i = (fromQ, some { b with record := { b.record with
          state := fromQ.state, fade := fromQ.fade, forget := fromQ.forget } })) ∧
        (im.kind = .record → ¬stored fromQ.state → rebuildSlot l i = (fromQ, none))) ∧
  (∀ l : List Image,
    let rebuilt := (List.finRange 192).filterMap (fun i => (rebuildSlot l i).2)
    let before (x y : Rebuilt) : Prop := y.record.rank < x.record.rank ∨ (x.record.rank = y.record.rank ∧
      (y.record.activity < x.record.activity ∨
        (x.record.activity = y.record.activity ∧ x.record.slot < y.record.slot)))
    (keptRecords l).length = min 48 rebuilt.length ∧ (∀ x ∈ keptRecords l, x ∈ rebuilt) ∧
    (keptRecords l).Pairwise before ∧
    ∀ x ∈ rebuilt, x ∉ keptRecords l → ∀ y ∈ keptRecords l, before y x) ∧
  ∀ (kept : List Rebuilt) (e : Nat) (x : Rebuilt), kept[e]? = some x →
    let one (f : Option Frame) : Nat := if f.isSome then 1 else 0
    let n := ((kept.take e).map (fun y => one y.first + one y.latest)).sum
    let given (copy : Option Frame) (n : Nat) (ref : Option (Fin 64)) : Prop :=
      (∀ f, copy = some f → n < 64 → ∃ g, ref = some g ∧ g.val = n ∧ (placeRecords kept).2[n]? = some f) ∧
      (copy = none ∨ 64 ≤ n → ref = none)
    (placeRecords kept).1.length = kept.length ∧
    ∃ r, (placeRecords kept).1[e]? = some r ∧
      { r with first := none, latest := none } = { x.record with first := none, latest := none } ∧
      given x.first n r.first ∧ given x.latest (n + one x.first) r.latest

/-- RIDE_END_ACCOUNTING, once no request is TAKEN: every slot's qualifier is accounted as AccountingOfOneQualifier
says, RIDE_END is the last entry appended, the QUALIFIER image is marked, every dirty record is urgent and the store
is in ride-ending mode (R90 to R93, R117). It waits while a request is TAKEN, arises in ENDING only, and once (R90);
at another moment the command does nothing (assumption log 1). -/
def Obligations.RideEndAccountingClosesTheRide : Prop :=
  (∀ s : State, (s.ride.state ≠ .ending ∨ s.exec.taken ≠ none ∨ s.store.rideEnding = true) →
    exec .rideEndAccounting s = .next s) ∧
  ∀ s : State, s.inReset = false → s.MemoriesCanonical → s.ride.state = .ending → s.store.rideEnding = false →
    s.exec.taken = none →
    ∃ t, exec .rideEndAccounting s = .next t ∧ (∀ i : Slot, t.quals[i] = (s.accountSlot i).quals[i]) ∧
      t.TrailEntry (t.pub.writeCount - 1) (trailBytes s.ride.number s.ride.time 0xFF .rideEnd 0 0) ∧
      t.store.qualMark = true ∧ t.store.rideEnding = true ∧ (∀ e r, t.Holds e r → r.dirty = true → r.urgent = true) ∧
      t.ride = s.ride ∧ t.frames = s.frames ∧ t.slots = s.slots ∧ t.profiles = s.profiles ∧ t.flash = s.flash ∧
      t.store.state = s.store.state ∧ t.exec = s.exec ∧ (∀ a, 0x0600 ≤ a → t.rd a = s.rd a)

/-- The accounting of one qualifier: CONFIRMED and FADING by the rows of R91, HISTORIC and PENDING by those of R92, with
forgetting and the freeing of R52; an IDLE qualifier and one of a port that has not adopted are passed over (R90, R99).
A change of counts reaches the record and marks nothing (R50); a change of state appends FADED, FORGOTTEN or
PENDING_DROPPED, and nothing else appends. The demand of a FADING qualifier ends at HISTORIC, and no lamp count moves
otherwise (R37, R91, R103). -/
def Obligations.AccountingOfOneQualifier : Prop :=
  ∀ (s : State) (i : Slot),
    (s.adoptedProfile i = none → s.accountSlot i = s) ∧
    (s.quals[i].state = .idle → s.accountSlot i = s) ∧
    ∀ pr, s.adoptedProfile i = some pr →
      let q := s.quals[i]
      let u := s.accountSlot i
      let failed := q.failed = true ∧ s.slots[i].barred = false
      let mature := q.passedMature = true ∧ s.slots[i].barred = false
      let fade := min 15 (q.fade + 1)
      let n := min 255 (q.forget + 1)
      (q.state = .confirmed → u.quals[i] = { q with fade := 0 }) ∧
      (q.state = .fading → failed → u.quals[i] = { q with fade := 0 }) ∧
      (q.state = .fading → ¬failed → mature → fade < pr.fadeRides → u.quals[i] = { q with fade := fade }) ∧
      (q.state = .fading → ¬failed → mature → pr.fadeRides ≤ fade →
        u.quals[i] = { q with state := .historic, fade := fade, forget := 0 } ∧
        ∀ e r, s.recordOf i = some (e, r) → ∃ r', u.Holds e r' ∧ r'.state = .historic ∧ r'.fade = fade ∧ r'.forget = 0 ∧
          r'.activity = s.ride.number ∧ r'.dirty = true ∧ r'.occurrence = r.occurrence) ∧
      (q.state = .fading → ¬failed → ¬mature → u = s) ∧
      (q.state = .historic ∨ q.state = .pending →
        (failed → u.quals[i] = { q with forget := 0 }) ∧
        (¬failed → (n < pr.forgetRides ∨ pr.forgetRides = 255) → u.quals[i] = { q with forget := n }) ∧
        (¬failed → pr.forgetRides ≤ n → pr.forgetRides ≠ 255 →
          u.quals[i] = { q with state := .idle, m := 0, fade := 0, forget := 0, unrecorded := false } ∧
          ∀ e r, s.recordOf i = some (e, r) → u.records[e] = none ∧
            (q.state = .historic → r.persisted = true → LogItem.release i ∈ u.store.logQueue))) ∧
      (u.quals[i].state = q.state → u.pub.writeCount = s.pub.writeCount ∧
        ((u.quals[i].fade ≠ q.fade ∨ u.quals[i].forget ≠ q.forget) → ∀ e r, s.recordOf i = some (e, r) →
          u.records = s.records.set e (some { r with fade := u.quals[i].fade, forget := u.quals[i].forget }))) ∧
      (u.quals[i].state ≠ q.state → u.pub.writeCount = s.pub.writeCount + 1 ∧
        (s.MemoriesCanonical → u.TrailEntry s.pub.writeCount (trailBytes s.ride.number s.ride.time (byteOf i.val)
          (match q.state with
            | .fading => .faded
            | .historic => .forgotten
            | .idle | .pending | .confirmed => .pendingDropped)
          (if q.state = .pending then 0 else byteOf (match s.recordOf i with
            | some (_, r) => r.occurrence
            | none => 0))
          (byteOf (qstateCode u.quals[i].state))))) ∧
      DemandsEnd s u (s.owner i)
        (fun x => if q.state = .fading ∧ u.quals[i].state = .historic ∧ lampDemand pr.cls .fading = x then 1 else 0) ∧
      (∀ j : Slot, j ≠ i → u.quals[j] = s.quals[j])

/-- ENDING_COMPLETION: with the store clean and no erase in flight, or FAILED, ENDING ends in NO_RIDE or in a new
ride, by the debounced level alone (R94), and a free executor has a take opportunity (R139; the pick is assumption log
11). Under no other condition it completes, and the command does nothing (assumption log 1). The store holds an item
while the RIDE or the QUALIFIER is marked, a queue holds one, or a record is dirty (R117). -/
def Obligations.EndingCompletesByTheDebouncedLevel : Prop :=
  (∀ s : State, s.anyMarked = true ↔ s.store.rideMark = true ∨ s.store.qualMark = true ∨ s.store.logQueue ≠ [] ∨
    s.store.retQueue ≠ [] ∨ ∃ e r, s.Holds e r ∧ r.dirty = true) ∧
  ∀ s : State,
    let done := s.store.state = .failed ∨ (s.anyMarked = false ∧ s.store.erase = none ∧ s.store.retErase ≠ .running)
    (s.ride.state ≠ .ending ∨ s.store.rideEnding = false ∨ ¬done → exec .endingCompletion s = .next s) ∧
    (s.inReset = false → s.ride.state = .ending → s.store.rideEnding = true → done →
      ∃ t, exec .endingCompletion s = .next t ∧ t.store.rideEnding = false ∧ t.pub.dirty = true ∧ t.now = s.now ∧
        (s.ride.debounced = false → t.ride = { s.ride with state := .noRide } ∧ SameFaults s t ∧ t.ram = s.ram) ∧
        (s.ride.debounced = true → t.ride.state = .riding ∧ t.ride.number = min 65535 (s.ride.number + 1) ∧
          t.ride.time = 0 ∧ t.ride.proveOutDue = some (s.now + 2000000) ∧ t.ride.holdDue = none ∧ t.ride.pwrhold = true ∧
          t.store.rideMark = true ∧ t.records = s.records ∧ t.frames = s.frames) ∧
        (s.exec.taken = none → s.exec.claim = none → Offered s t) ∧
        t.flash = s.flash ∧ t.slots = s.slots ∧ t.profiles = s.profiles)

/-- RIDE_TIME_SECOND: the ride time rises by 1, saturating at 65535 (R87). HOLD_LIMIT_EXPIRY releases PWRHOLD and
changes no other state (R97). RELEASE_ON_COMPLETION releases it when all conditions of R96 hold, and only then, doing
nothing else (assumption log 1); that a FAILED store that meets them is no exception is the model's choice (assumption
log 44). -/
def Obligations.RideTimeAndPowerHold : Prop :=
  (∀ (d : Nat) (s : State), s.inReset = false → s.ride.secondDue = some d →
    ∃ t, exec .rideTimeSecond s = .next t ∧ t.now = max s.now d ∧
      t.ride = { s.ride with time := min 65535 (s.ride.time + 1), secondDue := some (d + 1000000) } ∧
      (s.ride.time < 65535 → t.pub.dirty = true) ∧ t.ram = s.ram ∧ SameFaults s t ∧ SameStore s t ∧
      t.slots = s.slots ∧ t.profiles = s.profiles ∧ t.exec = s.exec) ∧
  (∀ (d : Nat) (s : State), s.inReset = false → s.ride.holdDue = some d →
    exec .holdLimitExpiry s = .next { s.advanceTo d with ride := { s.ride with pwrhold := false, holdDue := none } }) ∧
  ∀ s : State, s.inReset = false → s.ride.pwrhold = true →
    let all := s.ride.state = .noRide ∧ s.ride.debounced = false ∧ s.store.state ≠ .starting ∧ s.anyMarked = false ∧
      s.store.program = none ∧ s.store.erase = none ∧ s.store.retErase ≠ .running ∧ s.store.compaction = none ∧
      ∀ k : Fin 16, s.store.sectors[k].state ≠ .spoiled
    (all → exec .releaseOnCompletion s =
      .next { s with ride := { s.ride with pwrhold := false, holdDue := none } }) ∧
    (¬all → exec .releaseOnCompletion s = .next s)

/-- PROVE_OUT_EXPIRY in RIDING: each lamp takes the highest pattern demanded of it (R88, R105); a class demands its
pattern in CONFIRMED and FADING, and nothing in another state (R37). BLINK_PHASE_BOUNDARY: the outputs follow the phase. At
every moment OFF is dark and STEADY lit, SLOW is lit for 500 ms of every 1000, FAST for 125 ms of every 250 (R101,
R102). -/
def Obligations.LampsFollowDemandAndPhase : Prop :=
  (∀ (d : Nat) (s : State), s.inReset = false → s.ride.state = .riding → s.ride.proveOutDue = some d →
    ∃ t, exec .proveOutExpiry s = .next t ∧ t.now = max s.now d ∧ t.ride = { s.ride with proveOutDue := none } ∧
      (∀ p, (t.port p).shown =
        (if (s.port p).silent = true ∨ 0 < (s.port p).fast then .fast
          else if 0 < (s.port p).slow then .slow
          else if 0 < (s.port p).steady ∨ (s.port p).adopted = false then .steady
          else .off)) ∧
      t.pub.dirty = true ∧ t.ram = s.ram ∧ SameFaults s t ∧ SameStore s t ∧ t.slots = s.slots ∧ t.exec = s.exec) ∧
  (∀ (cls : Fin 4) (st : QState),
    (st ≠ .confirmed → st ≠ .fading → lampDemand cls st = .off) ∧
    ((st = .confirmed ∨ st = .fading) → (cls = 0 → lampDemand cls st = .off) ∧ (cls = 1 → lampDemand cls st = .steady) ∧
      (cls = 2 → lampDemand cls st = .slow) ∧ (cls = 3 → lampDemand cls st = .fast))) ∧
  (∀ n : Nat, litAt .off n = false ∧ litAt .steady n = true ∧ (litAt .slow n = true ↔ n % 1000000 < 500000) ∧
    (litAt .fast n = true ↔ n % 250000 < 125000)) ∧
  ∀ s : State, s.inReset = false →
    let n := (s.now / 125000 + 1) * 125000
    exec .blinkPhaseBoundary s = .next { s with
      now := n, fp := { s.fp with lamp := litAt s.fp.shown n }, bp := { s.bp with lamp := litAt s.bp.shown n } } ∧
    litAt .off n = false ∧ litAt .steady n = true ∧ (litAt .slow n = true ↔ n % 1000000 < 500000) ∧
    (litAt .fast n = true ↔ n % 250000 < 125000)

/-- SILENCE_TIMER_EXPIRY: the silent flag sets, the timer stops, PORT_SILENT is appended (R98). -/
def Obligations.SilenceExpiryFlagsThePort : Prop :=
  ∀ (p : Port) (d : Nat) (s : State), s.inReset = false → s.MemoriesCanonical → (s.port p).silenceDue = some d →
    ∃ t, exec (.silenceTimerExpiry p) s = .next t ∧ t.now = max s.now d ∧ (t.port p).silent = true ∧
      (t.port p).silenceDue = none ∧
      t.TrailEntry s.pub.writeCount
        (trailBytes s.ride.number s.ride.time 0xFF .portSilent (byteOf (portCode p)) 0) ∧
      t.pub.writeCount = s.pub.writeCount + 1 ∧ t.pub.dirty = true ∧ (∀ a, 0x0600 ≤ a → t.rd a = s.rd a) ∧
      t.ride = s.ride ∧ t.slots = s.slots ∧ SameFaults s t ∧ SameStore s t ∧ t.exec = s.exec

/-! ### Qualification -/

/-- PASS_TIMER_EXPIRY of an adopted port: the next expiry falls one period later; a pass in progress makes one owed,
else a pass begins if any slot of the port is touched (R5, R6; where a pass stands is assumption log 10). -/
def Obligations.PassTimerBeginsOrOwesAPass : Prop :=
  ∀ (p : Port) (d : Nat) (c : AdoptedCopy) (s : State), s.inReset = false → (s.port p).passDue = some d →
    s.adoptedCopy p = some c →
    ∃ t, exec (.passTimerExpiry p) s = .next t ∧ t.now = max s.now d ∧
      (t.port p).passDue = some (d + Config.passPeriod c.passCode) ∧
      (∀ pos, (s.port p).passPos = some pos → (t.port p).passPos = some pos ∧ (t.port p).owed = true) ∧
      ((s.port p).passPos = none → (∃ i : Slot, s.owner i = p ∧ s.slots[i].touched = true) →
        (t.port p).passPos = some 0 ∧ (t.port p).owed = (s.port p).owed) ∧
      ((s.port p).passPos = none → (∀ i : Slot, s.owner i = p → s.slots[i].touched = false) →
        (t.port p).passPos = none ∧ (t.port p).owed = false) ∧
      t.ram = s.ram ∧ t.pub = s.pub ∧ t.ride = s.ride ∧ t.slots = s.slots ∧ SameFaults s t ∧ SameStore s t ∧
      t.exec = s.exec

/-- What a visit meets: the lowest touched slot of the port at or above the pass's position (R6), enabled by its
adopted profile (R2, R15), its eight bytes, and the check they give under the adopted sense (R9). With no pass in
progress none arises, and the command does nothing (assumption log 1). SLOT_VISIT that accepts nothing: a disabled
slot's touched mark clears and nothing else changes (R15); an enabled slot whose check mismatches has its sample held,
the third one bars the slot, a barred slot stays as it is, and seen tallies, touched mark and qualifier stay (R9, R10,
R11). The pass then goes on behind the slot, or ends, and an owed one begins (R6; where a pass stands is assumption
log 10). -/
def Obligations.VisitThatAcceptsNothing : Prop :=
  (∀ (p : Port) (pos : Nat) (i : Slot) (s : State),
    let byte (k : Nat) : Byte := s.rd (0x0600 + 8 * i.val + k)
    (s.nextTouched p pos = some i ↔ s.owner i = p ∧ pos ≤ i.val ∧ s.slots[i].touched = true ∧
      ∀ j : Slot, j < i → s.owner j = p → pos ≤ j.val → s.slots[j].touched = false) ∧
    (s.enabled i = true ↔ (s.port (s.owner i)).adopted = true ∧ s.profiles[i].enable = true) ∧
    (∀ c, s.adoptedCopy p = some c → s.checkInverted p = c.inverted) ∧
    s.sample i = { pass := byte 0, fail := byte 1, band := byte 2, detail := byte 3, ctxLo := byte 4, ctxHi := byte 5,
                   spare := byte 6, check := byte 7 } ∧
    (∀ inverted : Bool, expectedCheck inverted (s.sample i) =
      byte 0 ^^^ byte 1 ^^^ byte 2 ^^^ byte 3 ^^^ byte 4 ^^^ byte 5 ^^^ byte 6 ^^^ (if inverted then 0xFF else 0x00)) ∧
    ((s.port p).passPos = none → exec (.slotVisit p) s = .next s)) ∧
  ∀ (p : Port) (pos : Nat) (i : Slot) (s : State), s.inReset = false → (s.port p).passPos = some pos →
    s.nextTouched p pos = some i →
    (s.enabled i = false →
      ∃ t, exec (.slotVisit p) s = .next t ∧ t.slots = s.slots.set i { s.slots[i] with touched := false } ∧
        PassGoesOn s t p i ∧
        (∀ q, { t.port q with passPos := (s.port q).passPos, owed := (s.port q).owed } = s.port q) ∧
        t.ram = s.ram ∧ t.pub = s.pub ∧ t.exec = s.exec ∧ t.ride = s.ride ∧ SameFaults s t ∧ SameStore s t ∧
        SameWorld s t) ∧
    (s.enabled i = true → s.MemoriesCanonical →
      expectedCheck (s.checkInverted p) (s.sample i) ≠ (s.sample i).check →
      ∃ t, exec (.slotVisit p) s = .next t ∧ PassGoesOn s t p i ∧
        (s.slots[i].barred = false → s.slots[i].held < 2 →
          t.slots = s.slots.set i { s.slots[i] with held := s.slots[i].held + 1 } ∧ t.pub = s.pub ∧ t.ram = s.ram) ∧
        (s.slots[i].barred = false → s.slots[i].held = 2 →
          t.slots = s.slots.set i { s.slots[i] with held := 3, barred := true } ∧ t.pub.dirty = true ∧
          t.pub.writeCount = s.pub.writeCount + 1 ∧ (∀ q, (t.port q).attn = t.attnNow q) ∧ t.TrailEntry s.pub.writeCount (trailBytes s.ride.number s.ride.time (byteOf i.val) .barred
            (byteOfInt s.quals[i].m) (byteOf (qstateCode s.quals[i].state)))) ∧
        (s.slots[i].barred = true → t.slots = s.slots ∧ t.pub = s.pub ∧ t.ram = s.ram) ∧
        (s.slots[i].barred = true ∨ s.slots[i].held < 2 → ∀ q, (t.port q).attn = (s.port q).attn) ∧
        (∀ q, { t.port q with passPos := (s.port q).passPos, owed := (s.port q).owed, attn := (s.port q).attn } =
          s.port q) ∧
        (∀ a, 0x0600 ≤ a → t.rd a = s.rd a) ∧ t.exec = s.exec ∧ t.ride = s.ride ∧ SameFaults s t ∧ SameStore s t ∧ SameWorld s t)

/-- SLOT_VISIT of an enabled slot whose check matches: seen tallies come forward, the held count, the bar and the
touched mark clear, in every band; under band 3 nothing else moves, and a lifted bar is told in the trail (R12, R13,
R16). The pass then goes on behind the slot, or ends, and an owed one begins (R6; where a pass stands is assumption
log 10). -/
def Obligations.MatchingSampleIsAccepted : Prop :=
  ∀ (p : Port) (pos : Nat) (i : Slot) (s : State), s.inReset = false → s.MemoriesCanonical →
    (s.port p).passPos = some pos → s.nextTouched p pos = some i → s.enabled i = true →
    expectedCheck (s.checkInverted p) (s.sample i) = (s.sample i).check →
    ∃ t, exec (.slotVisit p) s = .next t ∧
      t.slots = s.slots.set i { touched := false, held := 0, barred := false,
                                seenPass := (s.sample i).pass, seenFail := (s.sample i).fail } ∧
      (s.slots[i].barred = true → t.TrailEntry s.pub.writeCount (trailBytes s.ride.number s.ride.time (byteOf i.val)
        .barLifted (byteOfInt s.quals[i].m) (byteOf (qstateCode s.quals[i].state)))) ∧
      ((s.sample i).band.toNat % 4 = 3 → SameFaults s t ∧ SameStore s t ∧
        (s.slots[i].barred = false → t.pub = s.pub ∧ t.ram = s.ram ∧ ∀ q, (t.port q).attn = (s.port q).attn) ∧
        ∀ q, { t.port q with passPos := (s.port q).passPos, owed := (s.port q).owed, attn := (s.port q).attn } =
          s.port q) ∧
      PassGoesOn s t p i ∧
      (∀ q, { t.port q with
        passPos := (s.port q).passPos, owed := (s.port q).owed, attn := (s.port q).attn,
        declined := (s.port q).declined, steady := (s.port q).steady, slow := (s.port q).slow, fast := (s.port q).fast,
        shown := (s.port q).shown, lamp := (s.port q).lamp } = s.port q) ∧ t.exec = s.exec ∧
      (∀ a, 0x0600 ≤ a → t.rd a = s.rd a) ∧ t.ride = s.ride ∧ t.flash = s.flash ∧ SameWorld s t

/-- SLOT_VISIT of an accepted sample under bands 0 to 2: the new M by the four steps of R23 to R26 on the deltas of R14,
the ride flags of R27, the state of R28; the fade and forget counts are 0 after a transition; other qualifiers keep all
but their unrecorded flag (an eviction's). -/
def Obligations.ReportMovesMaturityAndState : Prop :=
  ∀ (p : Port) (pos : Nat) (i : Slot) (pr : Profile) (s : State), s.inReset = false → (s.port p).passPos = some pos →
    s.nextTouched p pos = some i → s.adoptedProfile i = some pr → pr.enable = true →
    expectedCheck (s.checkInverted p) (s.sample i) = (s.sample i).check → (s.sample i).band.toNat % 4 ≠ 3 →
    let q := s.quals[i]
    let band := (s.sample i).band.toNat % 4
    let f := ((s.sample i).fail - s.slots[i].seenFail).toNat
    let n := ((s.sample i).pass - s.slots[i].seenPass).toNat
    let up := if band = 0 then pr.stepUp else if band = 1 then max 1 (pr.stepUp / 2) else 0
    let delta : Int := (f * up : Nat) - (n * pr.stepDown : Nat)
    let start : Int := if pr.jump = true ∧ ((0 < delta ∧ q.m < 0) ∨ (delta < 0 ∧ 0 < q.m)) then 0 else q.m
    let m : Int := max (-128) (min 127 (start + delta))
    ∃ t, exec (.slotVisit p) s = .next t ∧ t.quals[i].m = m ∧ t.quals[i].state = stateAfter q.state m ∧
      t.quals[i].tested = (q.tested || decide (0 < f * up) || decide (0 < n * pr.stepDown)) ∧
      t.quals[i].failed = (q.failed || decide (0 < f * up)) ∧
      t.quals[i].passedMature = (q.passedMature || (decide (0 < n * pr.stepDown) && decide (m = -128))) ∧
      (stateAfter q.state m ≠ q.state → t.quals[i].fade = 0 ∧ t.quals[i].forget = 0) ∧
      (stateAfter q.state m = q.state → t.quals[i].fade = q.fade ∧ t.quals[i].forget = q.forget) ∧
      (∀ j : Slot, j ≠ i → { t.quals[j] with unrecorded := s.quals[j].unrecorded } = s.quals[j]) ∧
      t.ride = s.ride ∧ t.flash = s.flash ∧ SameWorld s t

/-- The rest of a transition's work at SLOT_VISIT, whenever the state changes (R28 to R38). Its trail entry is the last
appended, with the detail of R38. The lamp's counts take the change of demand (R37, R103). A record held before takes the
notice of R50, a first confirmation, a recurrence or a fading, and is freed by a drop to IDLE; with none held and an entry
free, the lowest is allocated as R49 fills it. Confirmations and recurrences capture LATEST, new records FIRST before it,
into the present frame or the lowest free ones (R68, R69). A first confirmation of class 3 asks for a retained entry with
a copy of the FIRST frame, accepted or dropped by R127; that an entry being programmed still holds its slot and its
position is the model's reading (assumption log 32). Evictions, declines and borrowing are stated for the shared
operations, by RecordRequestIsPlacedOrDeclined and CaptureFindsItsFrame. -/
def Obligations.TransitionsDoTheirWork : Prop :=
  ∀ (p : Port) (pos : Nat) (i : Slot) (pr : Profile) (s : State), s.inReset = false → s.MemoriesCanonical →
    (s.port p).passPos = some pos → s.nextTouched p pos = some i → s.adoptedProfile i = some pr → pr.enable = true →
    expectedCheck (s.checkInverted p) (s.sample i) = (s.sample i).check → (s.sample i).band.toNat % 4 ≠ 3 →
    let x := s.sample i
    let q := s.quals[i]
    let r : Report := {
      slot := i, f := (x.fail - s.slots[i].seenFail).toNat, p := (x.pass - s.slots[i].seenPass).toNat,
      band := x.band.toNat % 4, detail := x.detail, context := wordOf x.ctxLo x.ctxHi }
    let m := (matured pr r q).m
    let st := stateAfter q.state m
    let bytes (k : FrameKind) : Frame := frameBytes {
      slot := i, kind := k, ride := s.ride.number, time := s.ride.time, m := m, band := r.band, detail := r.detail,
      context := r.context, codes := s.captureCodes i }
    let urgent := decide (pr.cls = 3) || s.store.rideEnding
    st ≠ q.state →
    ∃ t, exec (.slotVisit p) s = .next t ∧ t.pub.dirty = true ∧
      -- the trail entry
      (let occurrence := (t.recordOf i).elim 0 (·.2.occurrence);
        t.TrailEntry (t.pub.writeCount - 1) (trailBytes s.ride.number s.ride.time (byteOf i.val)
          (match st with
            | .pending => .pending
            | .idle => .pendingDropped
            | .fading => .fading
            | .confirmed => if q.state = .idle ∨ q.state = .pending then .confirmed else .recurred
            | .historic => .faded)
          (if st = .confirmed then byteOf occurrence else byteOfInt m) (byteOf (qstateCode st)))) ∧
      -- the lamp
      (let old := lampDemand pr.cls q.state
        let new := lampDemand pr.cls st
        let ps := if old = new then s.port p else countDemand true new (countDemand false old (s.port p))
        (t.port p).steady = ps.steady ∧ (t.port p).slow = ps.slow ∧ (t.port p).fast = ps.fast) ∧
      -- a record held before
      (∀ e y, q.state ≠ .idle → s.recordOf i = some (e, y) →
        (st = .idle → t.records = s.records.set e none ∧ t.frames = s.frames ∧ t.store.logQueue = s.store.logQueue) ∧
        (st = .fading → t.frames = s.frames ∧ t.records = s.records.set e (some { y with
          state := .fading, fade := 0, forget := 0, activity := s.ride.number, dirty := true,
          urgent := y.urgent || s.store.rideEnding })) ∧
        (st = .confirmed →
          let noticed : Record := { y with
            state := .confirmed, occurrence := if q.state = .pending then 1 else min 255 (y.occurrence + 1),
            firstConf := if q.state = .pending then s.ride.number else y.firstConf, latestConf := s.ride.number,
            fade := 0, forget := 0, activity := s.ride.number, dirty := true,
            urgent := y.urgent || decide (y.cls = 3) || s.store.rideEnding }
          (∃ f, t.Holds e { noticed with latest := f }) ∧
          (∀ f, y.latest = some f → t.Holds e noticed ∧ t.frames = s.frames.set f (bytes .latest)) ∧
          ∀ f, y.latest = none → s.frameUsed f = false → (∀ g < f, s.frameUsed g = true) →
            t.Holds e { noticed with latest := some f } ∧ t.frames = s.frames.set f (bytes .latest))) ∧
      -- no record held before
      (s.recordOf i = none →
        (st = .idle ∨ st = .fading → t.records = s.records ∧ t.frames = s.frames) ∧
        ∀ e f g, s.records[e] = none → (∀ e' : Fin 48, e' < e → s.records[e'] ≠ none) →
          s.frameUsed f = false → (∀ h < f, s.frameUsed h = true) →
          f < g → s.frameUsed g = false → (∀ h, f < h → h < g → s.frameUsed h = true) →
          (st = .pending → t.frames = s.frames.set f (bytes .first) ∧ t.records = s.records.set e (some {
            slot := i, state := .pending, cls := pr.cls, occurrence := 0, onset := s.ride.number, firstConf := 0,
            latestConf := 0, activity := s.ride.number, fade := 0, forget := 0, first := some f, latest := none,
            persisted := false, dirty := false, urgent := false })) ∧
          (st = .confirmed → t.frames = (s.frames.set f (bytes .first)).set g (bytes .latest) ∧
            t.records = s.records.set e (some {
              slot := i, state := .confirmed, cls := pr.cls, occurrence := 1, onset := s.ride.number,
              firstConf := s.ride.number, latestConf := s.ride.number, activity := s.ride.number, fade := 0, forget := 0,
              first := some f, latest := some g, persisted := false, dirty := true, urgent := urgent }))) ∧
      -- the retained entry
      (let asks := st = .confirmed ∧ (q.state = .idle ∨ q.state = .pending) ∧ pr.cls = 3;
        (¬asks ∨ s.RetainedHolds i ∨ (∀ k, ¬s.RetainedSpare k) → t.store.retQueue = s.store.retQueue) ∧
        ∀ k, asks → ¬s.RetainedHolds i → s.RetainedSpare k → t.store.retQueue = s.store.retQueue ++ [{
          slot := i, ride := s.ride.number, occurrence := 1, pos := k,
          frame := match t.recordOf i with
            | some (_, y) => y.first.map (fun f => t.frames[f])
            | none => none }]) ∧
      t.ride = s.ride ∧ t.flash = s.flash ∧ SameWorld s t

/-- R25: the jump, by the sign of the net change alone. Beside it the weights of R23 and the net change of R24, exact and
within ±32385: a report of no verdicts leaves the qualifier as it is, F = Q > 0 leaves M and sets the ride flags. -/
def Obligations.NetChangeAndJump : Prop :=
  (∀ (pr : Profile) (r : Report) (q : Qualifier),
    failWeight pr r = r.f * (if r.band = 0 then pr.stepUp else if r.band = 1 then max 1 (pr.stepUp / 2) else 0) ∧
    passWeight pr r = r.p * pr.stepDown ∧
    netChange pr r = (failWeight pr r : Int) - (passWeight pr r : Int) ∧
    (r.f ≤ 255 → r.p ≤ 255 → 1 ≤ pr.stepUp → pr.stepUp ≤ 127 → pr.stepDown ≤ 127 →
      -32385 ≤ netChange pr r ∧ netChange pr r ≤ 32385) ∧
    (-128 ≤ q.m → q.m ≤ 127 → r.f = 0 → r.p = 0 → matured pr r q = q) ∧
    (-128 ≤ q.m → q.m ≤ 127 → 0 < failWeight pr r → failWeight pr r = passWeight pr r →
      netChange pr r = 0 ∧ (matured pr r q).m = q.m ∧ (matured pr r q).tested = true ∧ (matured pr r q).failed = true) ∧
    (matured pr r q).m = max (-128) (min 127 (jumped pr.jump q.m (netChange pr r) + netChange pr r))) ∧
  ∀ (jump : Bool) (m d : Int),
    (jump = true → 0 < d → m < 0 → jumped jump m d = 0) ∧
    (jump = true → d < 0 → 0 < m → jumped jump m d = 0) ∧
    (jump = true → (d = 0 ∨ m = 0 ∨ (0 < d ∧ 0 < m) ∨ (d < 0 ∧ m < 0)) → jumped jump m d = m) ∧
    (jump = false → jumped jump m d = m)

/-! ### Records, frames and the compact code -/

/-- R44: a record's rank is its state rank and its class, a requester's that of the state entered and of the adopted
class; the order is lexicographic, HISTORIC below PENDING below FADING below CONFIRMED. -/
def Obligations.RankIsLexicographic : Prop :=
  (stateRank .historic = 0 ∧ stateRank .pending = 1 ∧ stateRank .fading = 2 ∧ stateRank .confirmed = 3) ∧
  (∀ r : Record, r.rank = rankVal r.state r.cls) ∧
  (∀ (s : State) (i : Slot) (pr : Profile), s.adoptedProfile i = some pr → s.classOf i = pr.cls) ∧
  ∀ (a b : QState) (x y : Fin 4),
    (rankVal a x < rankVal b y ↔ stateRank a < stateRank b ∨ (stateRank a = stateRank b ∧ x < y)) ∧
    (rankVal a x = rankVal b y ↔ stateRank a = stateRank b ∧ x = y)

/-- A record request: one that finds a free entry takes the one of lowest index, without a trail entry, and the record is
filled by the state being entered (R45, R49); one that finds none evicts the victim, of lowest rank, then lowest activity
ride, then highest slot, if it outranks it, else it is declined (R46, R47, R48). EVICTED carries the victim's slot, its
occurrence and its qualifier's state, DECLINED the requester's slot, its M and the state being entered. -/
def Obligations.RecordRequestIsPlacedOrDeclined : Prop :=
  (∀ (s : State) (i : Slot) (st : QState) (e : Fin 48), s.records[e] = none →
    (∀ e' : Fin 48, e' < e → s.records[e'] ≠ none) → (st = .pending ∨ st = .confirmed) →
    let u := s.requestRecord i st
    let conf := decide (st = .confirmed)
    (∀ e' : Fin 48, e' ≠ e → u.records[e'] = s.records[e']) ∧
    u.Holds e {
      slot := i, state := st, cls := s.classOf i, occurrence := if conf then 1 else 0, onset := s.ride.number,
      firstConf := if conf then s.ride.number else 0, latestConf := if conf then s.ride.number else 0,
      activity := s.ride.number, fade := 0, forget := 0, first := none, latest := none, persisted := false,
      dirty := conf, urgent := conf && (decide (s.classOf i = 3) || s.store.rideEnding) } ∧
    u.quals = s.quals.set i { s.quals[i] with unrecorded := false } ∧ u.ram = s.ram ∧ u.frames = s.frames ∧
    u.pub.dirty = true) ∧
  ∀ (s : State) (i : Slot) (st : QState) (e : Fin 48) (v : Record), (∀ e' : Fin 48, s.records[e'] ≠ none) →
    s.Holds e v → (∀ e' v', s.Holds e' v' → e' ≠ e → v.rank < v'.rank ∨ (v.rank = v'.rank ∧
      (v.activity < v'.activity ∨ (v.activity = v'.activity ∧ v'.slot < v.slot)))) → v.slot ≠ i →
    let u := s.requestRecord i st
    (v.rank < rankVal st (s.classOf i) →
      (∃ r, u.Holds e r ∧ r.slot = i ∧ r.state = st ∧ r.first = none ∧ r.latest = none ∧ r.persisted = false) ∧
      ((st = .pending ∨ st = .confirmed) →
        let conf := decide (st = .confirmed)
        u.Holds e {
          slot := i, state := st, cls := s.classOf i, occurrence := if conf then 1 else 0, onset := s.ride.number,
          firstConf := if conf then s.ride.number else 0, latestConf := if conf then s.ride.number else 0,
          activity := s.ride.number, fade := 0, forget := 0, first := none, latest := none, persisted := false,
          dirty := conf, urgent := conf && (decide (s.classOf i = 3) || s.store.rideEnding) }) ∧
      (s.MemoriesCanonical → u.TrailEntry s.pub.writeCount (trailBytes s.ride.number s.ride.time (byteOf v.slot.val)
        .evicted (byteOf v.occurrence) (byteOf (qstateCode s.quals[v.slot].state)))) ∧
      u.pub.dirty = true ∧ u.frames = s.frames ∧
      (∀ e' : Fin 48, e' ≠ e → u.records[e'] = s.records[e']) ∧
      u.quals[v.slot] = { s.quals[v.slot] with unrecorded := true } ∧ u.quals[i].unrecorded = false ∧
      u.store.logQueue = (if v.persisted then s.store.logQueue ++ [.release v.slot] else s.store.logQueue) ∧
      u.pub.writeCount = s.pub.writeCount + 1) ∧
    (¬v.rank < rankVal st (s.classOf i) →
      u.records = s.records ∧ u.quals = s.quals.set i { s.quals[i] with unrecorded := true } ∧
      (u.port (s.owner i)).declined = min 255 ((s.port (s.owner i)).declined + 1) ∧ SameStore s u ∧
      (s.MemoriesCanonical → u.TrailEntry s.pub.writeCount (trailBytes s.ride.number s.ride.time (byteOf i.val)
        .declined (byteOfInt s.quals[i].m) (byteOf (qstateCode st)))) ∧
      u.pub.dirty = true ∧ u.frames = s.frames ∧
      u.pub.writeCount = s.pub.writeCount + 1)

/-- Where a capture puts its frame: over a present one in place, else the lowest free frame, else one borrowed from the
record of lower rank with a LATEST frame that is of lowest rank, then lowest activity ride, then highest slot, else
nowhere (R69, R70, R71, R72, R73). -/
def Obligations.CaptureFindsItsFrame : Prop :=
  ∀ (s : State) (e : Fin 48) (rec : Record) (r : Report) (k : FrameKind), s.Holds e rec →
    let bytes := s.frameNow r k
    let u := s.captureFor e rec r k
    let lends (j : Fin 48) (x : Record) : Prop := s.Holds j x ∧ j ≠ e ∧ x.latest ≠ none ∧ x.rank < rec.rank
    (∀ f, rec.frameRef k = some f → u.frames = s.frames.set f bytes ∧ u.records = s.records) ∧
    (∀ f, rec.frameRef k = none → s.frameUsed f = false → (∀ g < f, s.frameUsed g = true) →
      u.frames = s.frames.set f bytes ∧ u.records = s.records.set e (some (rec.withFrame k f))) ∧
    (rec.frameRef k = none → (∀ f, s.frameUsed f = true) → (∀ j x, ¬lends j x) → u = s) ∧
    (∀ j lender f, rec.frameRef k = none → (∀ g, s.frameUsed g = true) →
      lends j lender → (∀ j' x, lends j' x → j' ≠ j → lender.rank < x.rank ∨ (lender.rank = x.rank ∧
        (lender.activity < x.activity ∨ (lender.activity = x.activity ∧ x.slot < lender.slot)))) →
      lender.latest = some f →
      u.frames = s.frames.set f bytes ∧ u.Holds e (rec.withFrame k f) ∧
      u.Holds j { lender with latest := none, dirty := true, urgent := lender.urgent || s.store.rideEnding } ∧
      ∀ x : Fin 48, x ≠ e → x ≠ j → u.records[x] = s.records[x])

/-- The compact code (R75, R76, R77): never above 0xCF, exact up to 31, 0xCF from 64512 upward, and otherwise within half
a step of the value, a value half-way between two going to the even significand. A capture's code of one list entry
(R63, R64, R65): no source or a channel never written gives 0xFF, a stale channel 0xFE, any other its compact code; a port
that has not adopted is judged under code 0. A capture's code j is that of entry 8 * list + j of the owner's adopted
lists, the list the slot's profile names (R64), and a frame holds its fields at the offsets of 11.6. -/
def Obligations.CompactCodeOfAChannel : Prop :=
  (∀ v : Nat, v ≤ 65535 →
    compactCode v ≤ 0xCF ∧
    (v ≤ 31 → decodeCode (compactCode v) = v) ∧
    (64512 ≤ v → compactCode v = 0xCF) ∧
    (32 ≤ v → v < 64512 →
      let step := 2 ^ (Nat.log2 v - 4)
      2 * v ≤ 2 * decodeCode (compactCode v) + step ∧ 2 * decodeCode (compactCode v) ≤ 2 * v + step ∧
      (2 * (v % step) = step → decodeCode (compactCode v) / step % 2 = 0))) ∧
  (∀ (s : State) (i : Slot) (c : AdoptedCopy) (pr : Profile), s.adoptedCopy (s.owner i) = some c →
    s.adoptedProfile i = some pr → ∀ (j : Fin 8) (n : Fin 32), n.val = 8 * pr.list.val + j.val →
    (s.captureCodes i)[j] = s.entryCode (s.owner i) c.lists[n]) ∧
  (∀ f : FrameFields,
    let b := frameBytes f
    b[0].toNat = f.slot.val ∧ b[1] = (match f.kind with
      | .first => 1
      | .latest => 2) ∧
    (f.ride < 65536 → natOf16 b[2] b[3] = f.ride) ∧ (f.time < 65536 → natOf16 b[4] b[5] = f.time) ∧
    (-128 ≤ f.m → f.m ≤ 127 → b[6].toInt = f.m) ∧ (f.band < 256 → b[7].toNat = f.band) ∧ b[8] = f.detail ∧
    natOf16 b[9] b[10] = f.context.toNat ∧ ∀ (j : Fin 8) (k : Fin 19), k.val = 11 + j.val → b[k] = f.codes[j]) ∧
  (∀ (s : State) (r : Report) (k : FrameKind), s.frameNow r k = frameBytes {
    slot := r.slot, kind := k, ride := s.ride.number, time := s.ride.time, m := s.quals[r.slot].m, band := r.band,
    detail := r.detail, context := r.context, codes := s.captureCodes r.slot }) ∧
  ∀ (s : State) (p : Port) (entry : Byte),
    (32 ≤ entry.toNat → s.entryCode p entry = 0xFF) ∧
    ∀ (owner : Port) (c : Fin 16),
      ((entry.toNat = c.val ∧ owner = p) ∨ (entry.toNat = 16 + c.val ∧ owner = p.other)) →
      ((s.port owner).channels[c] = none → s.entryCode p entry = 0xFF) ∧
      ∀ t, (s.port owner).channels[c] = some t →
        let limit := match s.adoptedCopy owner with
          | some copy => 50000 * copy.staleCode
          | none => 0
        (limit ≠ 0 → limit < s.now - t → s.entryCode p entry = 0xFE) ∧
        (limit = 0 ∨ s.now - t ≤ limit → s.entryCode p entry = byteOf (compactCode (s.channelValue owner c)))

/-! ### Port writes and reads -/

/-- CHECK_BYTE_WRITE: the owning port's write of a slot's check byte, or of the word of spare and check on a 16-bit port,
is stored and sets the touched mark (R3, R177). PORT_WRITE of an own byte that no block watches (any other tally byte, a
profile entry, the setup block, the channel lists) is stored, and nothing else (R175, R180). Every other byte of the
exchange RAM stays, but for the trail of a port that is heard again (R98). PORT_WRITE of the own cell's code byte on an
8-bit port, or of its parameter bytes, is stored in IDLE and otherwise ignored, and is never stray (R136). -/
def Obligations.OwnWritesAreStored : Prop :=
  ∀ (p : Port) (a : Addr) (d : Word) (s : State), s.inReset = false → s.MemoriesCanonical →
    let x := accessAddr (s.port p).wide a
    let b := accessBytes (s.port p) d
    let wide := (s.port p).wide
    let stored (t : State) : Prop := t.rd x = b.1 ∧ (wide = true → t.rd (x + 1) = b.2) ∧
      (∀ y, y ≠ x → (wide = true → y ≠ x + 1) → ((s.port p).silent = true → 0x0600 ≤ y) → t.rd y = s.rd y) ∧
      (t.port p).staging = none ∧ (t.port p).stray = (s.port p).stray ∧ t.ride = s.ride ∧ SameFaults s t ∧
      SameStore s t ∧ SameWorld s t ∧ t.exec = s.exec
    (∀ i : Slot, s.owner i = p → x = 0x0600 + 8 * i.val + (if wide then 6 else 7) →
      ∃ t, exec (.checkByteWrite p a d) s = .next t ∧ stored t ∧
        t.slots = s.slots.set i { s.slots[i] with touched := true }) ∧
    (((∃ i : Slot, s.owner i = p ∧
        ((0x0600 + 8 * i.val ≤ x ∧ x < 0x0600 + 8 * i.val + (if wide then 6 else 7)) ∨
          (0x0C00 + 4 * i.val ≤ x ∧ x < 0x0C04 + 4 * i.val))) ∨
      (Config.setupBase p ≤ x ∧ x < Config.setupBase p + 32) ∨ (Config.listsBase p ≤ x ∧ x < Config.listsBase p + 32)) →
      ∃ t, exec (.portWrite p a d) s = .next t ∧ stored t ∧ t.slots = s.slots) ∧
    ((wide = false ∧ x = Config.cellBase p + 1) ∨ (Config.cellBase p + 4 ≤ x ∧ x ≤ Config.cellBase p + 15) →
      ∃ t, exec (.portWrite p a d) s = .next t ∧ (t.port p).cell = (s.port p).cell ∧ t.slots = s.slots ∧
        ((s.port p).cell = .idle → stored t) ∧
        ((s.port p).cell ≠ .idle → (∀ y, ((s.port p).silent = true → 0x0600 ≤ y) → t.rd y = s.rd y) ∧
          (t.port p).stray = (s.port p).stray ∧ (t.port p).staging = none ∧ t.exec = s.exec ∧ SameInside s t))

/-- The owning port's writes to its cell's state byte, by the table of R135. POST: 1 in IDLE makes it POSTED, on a 16-bit
port with the word's other byte as the code (R136), and at a free executor the cell may be picked (R139, R140).
WITHDRAWAL: 0 in POSTED returns it to IDLE, it is not taken, and the other cell may be (R138). HAND_BACK: 0 in ANSWERED
returns it to IDLE, and the attention line stays only if the trail holds it (R137, R171). Any other value changes no
cell and is not stray; the code byte of a 16-bit port's word is stored in IDLE whatever the value (R136). Every other byte
of the exchange RAM stays, but for the trail of a port heard again. That the arbiter's pick is held in exec.claim, the
cell POSTED until the request's own command, is the model's choice (assumption log 11). -/
def Obligations.StateByteWritesFollowTheTable : Prop :=
  ∀ (p : Port) (a : Addr) (d : Word) (s : State), s.inReset = false → s.MemoriesCanonical →
    accessAddr (s.port p).wide a = Config.cellBase p →
    let v := (accessBytes (s.port p) d).1
    let wide := (s.port p).wide
    let quiet (y : Nat) : Prop := (s.port p).silent = true → 0x0600 ≤ y
    let open' := s.ride.state = .noRide ∨ s.ride.state = .riding
    ((s.port p).cell = .idle → v = 1 →
      ∃ t, exec (.post p a d) s = .next t ∧ (t.port p).cell = .posted ∧ t.rd (Config.cellBase p) = 1 ∧
        (wide = true → t.rd (Config.cellBase p + 1) = (accessBytes (s.port p) d).2) ∧
        (∀ y, y ≠ Config.cellBase p → (wide = true → y ≠ Config.cellBase p + 1) → quiet y → t.rd y = s.rd y) ∧
        (s.exec.taken = none → s.exec.claim = none → open' →
          t.exec.claim = some (if (s.port p.other).cell = .posted then s.exec.pref else p)) ∧
        (¬open' → t.exec = s.exec) ∧ SameInside s t) ∧
    ((s.port p).cell = .posted → v = 0 →
      ∃ t, exec (.withdrawal p a d) s = .next t ∧ (t.port p).cell = .idle ∧ t.rd (Config.cellBase p) = 0 ∧
        (∀ y, y ≠ Config.cellBase p → quiet y → t.rd y = s.rd y) ∧
        t.exec.claim ≠ some p ∧ t.exec.taken = s.exec.taken ∧ t.exec.pref = s.exec.pref ∧
        (s.exec.claim = some p → s.exec.taken = none → (s.port p.other).cell = .posted → open' →
          t.exec.claim = some p.other) ∧ SameInside s t) ∧
    ((s.port p).cell = .answered → v = 0 →
      ∃ t, exec (.handBack p a d) s = .next t ∧ (t.port p).cell = .idle ∧ t.rd (Config.cellBase p) = 0 ∧
        (∀ y, y ≠ Config.cellBase p → quiet y → t.rd y = s.rd y) ∧
        ((s.port p).silent = false → ((t.port p).attn = true ↔ s.pub.reader = p ∧ s.pub.threshold ≤ s.pub.unread)) ∧
        t.exec = s.exec ∧ SameInside s t) ∧
    ((((s.port p).cell = .idle ∧ v ≠ 1) ∨ ((s.port p).cell = .posted ∧ v ≠ 0) ∨ (s.port p).cell = .taken ∨
        ((s.port p).cell = .answered ∧ v ≠ 0)) →
      ∃ t, exec (.portWrite p a d) s = .next t ∧ (t.port p).cell = (s.port p).cell ∧
        (t.port p).stray = (s.port p).stray ∧ t.rd (Config.cellBase p) = s.rd (Config.cellBase p) ∧
        t.rd (Config.cellBase p + 1) = (if wide = true ∧ (s.port p).cell = .idle then (accessBytes (s.port p) d).2
          else s.rd (Config.cellBase p + 1)) ∧
        (∀ y, y ≠ Config.cellBase p + 1 → quiet y → t.rd y = s.rd y) ∧ t.exec = s.exec ∧ SameInside s t)

/-- RELEASE. The port's write leaves n in its release byte, and the release waits behind those of the port that wait
already; each take of the oldest one, by the trail reader, gives back k = the lesser of n and unread entries, clears
overrun at unread 0 and shows the changed fields, by the other port changes nothing on the trail, and writes the byte back
to 0, whatever was written since (R168). So each order of a write-back and a new write goes as R176 says. On a 16-bit
port the word at 0x1040 is a release with the own byte, whatever the other lane carries; on an 8-bit port the own byte is,
and the other's is stray (R176). That the command carries the write, if one is made, and how many releases that wait the
publisher then takes is the model's choice: with a write, 1 taken and none that waited it is the whole row of the step
table (assumption log 22). -/
def Obligations.ReleaseGivesEntriesBack : Prop :=
  (∀ (p : Port) (a : Addr) (d : Word) (s : State),
    ((s.port p).wide = false → a.toNat = Config.releaseAddr p → s.judgeWrite p a d = .release (lowByte d)) ∧
    ((s.port p).wide = false → a.toNat = Config.releaseAddr p.other → s.judgeWrite p a d = .stray) ∧
    ((s.port p).wide = true → a.toNat / 2 * 2 = 0x1040 →
      s.judgeWrite p a d = .release (match p with
        | .fp => (lanesIn (s.port p).swapped d).1
        | .bp => (lanesIn (s.port p).swapped d).2))) ∧
  ∀ (p : Port) (write : Option (Addr × Word)) (taken : Nat) (new : Option Byte) (s : State),
    s.inReset = false → s.MemoriesCanonical →
    (match write, new with
      | some (a, d), some n => s.judgeWrite p a d = .release n
      | none, none => True
      | some _, none | none, some _ => False) →
    let own := Config.releaseAddr p
    let waiting := (s.port p).releases ++ new.toList
    let now := waiting.take taken
    let n := (now.map BitVec.toNat).sum
    let k := min n s.pub.unread
    ∃ t, exec (.release p write taken) s = .next t ∧ (t.port p).releases = waiting.drop taken ∧
      (now ≠ [] → t.rd own = 0) ∧ (now = [] → t.rd own = new.getD (s.rd own)) ∧
      ((s.port p).silent = false ∨ write = none →
        (s.pub.reader = p → now ≠ [] →
          t.pub = { s.pub with
            readMark := s.pub.readMark + BitVec.ofNat 16 k, unread := s.pub.unread - k,
            overrun := s.pub.overrun && decide (s.pub.unread - k ≠ 0) } ∧
          natOf16 (t.rd 34) (t.rd 35) = t.pub.readMark.toNat ∧ t.rd 36 = byteOf t.pub.unread ∧
          t.rd 37 = byteOf (flagBit t.pub.overrun 0)) ∧
        ((s.pub.reader ≠ p ∨ now = []) → t.pub = s.pub ∧ ∀ y, y ≠ own → t.rd y = s.rd y)) ∧
      (t.port p.other).releases = (s.port p.other).releases ∧ (∀ y, 0x0600 ≤ y → y ≠ own → t.rd y = s.rd y) ∧
      t.exec = s.exec ∧ SameInside s t

/-- Channel writes. CONTEXT_LOW_BYTE_STAGE: on an 8-bit port the low byte of an own channel is staged, the page is not
changed, and a byte staged before is discarded. CONTEXT_COMMIT: the staged low byte and the high byte of the same
channel, or the word of a 16-bit port, are stored together, and the channel is fresh from this moment. A high byte that
completes no pair stores nothing, is not stray, and empties the staging (R61, R62, R178). -/
def Obligations.ChannelWritesArePaired : Prop :=
  ∀ (p : Port) (c : Fin 16) (a : Addr) (d : Word) (s : State), s.inReset = false → s.MemoriesCanonical →
    let base := Config.contextBase p + 2 * c.val
    let quiet (y : Nat) : Prop := (s.port p).silent = true → 0x0600 ≤ y
    ((s.port p).wide = false → a.toNat = base →
      ∃ t, exec (.contextLowByteStage p a d) s = .next t ∧ (t.port p).staging = some (c, lowByte d) ∧
        (t.port p).channels = (s.port p).channels ∧ (t.port p).stray = (s.port p).stray ∧
        (∀ y, quiet y → t.rd y = s.rd y) ∧ t.exec = s.exec ∧ SameInside s t) ∧
    (∀ lo hi : Byte,
      (((s.port p).wide = false ∧ a.toNat = base + 1 ∧ (s.port p).staging = some (c, lo) ∧ hi = lowByte d) ∨
        ((s.port p).wide = true ∧ a.toNat / 2 * 2 = base ∧ (lo, hi) = lanesIn (s.port p).swapped d)) →
      ∃ t, exec (.contextCommit p a d) s = .next t ∧ t.rd base = lo ∧ t.rd (base + 1) = hi ∧
        t.channelValue p c = natOf16 lo hi ∧ (t.port p).channels = (s.port p).channels.set c (some s.now) ∧
        (t.port p).staging = none ∧ (∀ y, y ≠ base → y ≠ base + 1 → quiet y → t.rd y = s.rd y) ∧
        t.exec = s.exec ∧ SameInside s t) ∧
    ((s.port p).wide = false → a.toNat = base + 1 → (∀ lo, (s.port p).staging ≠ some (c, lo)) →
      ∃ t, exec (.portWrite p a d) s = .next t ∧ (t.port p).staging = none ∧
        (t.port p).channels = (s.port p).channels ∧ (t.port p).stray = (s.port p).stray ∧
        (∀ y, quiet y → t.rd y = s.rd y) ∧ t.exec = s.exec ∧ SameInside s t)

/-- STRAY_WRITE: the areas the part writes, the part's bytes of either cell, the other port's cell, context page, setup
block and lists, the other port's slots and the unassigned space are not stored to; the stray flag sets (R175). -/
def Obligations.StrayWriteSetsTheFlagOnly : Prop :=
  ∀ (p : Port) (a : Addr) (d : Word) (s : State), s.inReset = false → s.MemoriesCanonical →
    let x := accessAddr (s.port p).wide a
    (x < 0x0600 ∨ 0x1042 ≤ x ∨
      (Config.cellBase p + 2 ≤ x ∧ x < Config.cellBase p + 4) ∨ (Config.cellBase p + 16 ≤ x ∧ x < Config.cellBase p + 64) ∨
      (Config.cellBase p.other ≤ x ∧ x < Config.cellBase p.other + 64) ∨
      (Config.contextBase p.other ≤ x ∧ x < Config.contextBase p.other + 32) ∨
      (Config.setupBase p.other ≤ x ∧ x < Config.setupBase p.other + 32) ∨
      (Config.listsBase p.other ≤ x ∧ x < Config.listsBase p.other + 32) ∨
      (∃ i : Slot, s.owner i = p.other ∧
        ((0x0600 + 8 * i.val ≤ x ∧ x < 0x0608 + 8 * i.val) ∨ (0x0C00 + 4 * i.val ≤ x ∧ x < 0x0C04 + 4 * i.val)))) →
    ∃ t, exec (.strayWrite p a d) s = .next t ∧ (t.port p).stray = true ∧
      ((s.port p).stray = false → t.pub.dirty = true) ∧ (t.port p).staging = none ∧
      (t.port p).channels = (s.port p).channels ∧ (t.port p).cell = (s.port p).cell ∧
      (t.port p.other).cell = (s.port p.other).cell ∧
      (∀ y, ((s.port p).silent = true → 0x0600 ≤ y) → t.rd y = s.rd y) ∧ t.exec = s.exec ∧ SameInside s t

/-- Every write of a port, under any of the nine write commands, stored, ignored or stray, is a sign of life: a running
silence timer starts again from 0, and a silent port is heard with PORT_HEARD (R98, R180). In reset the ports do not
respond: a write changes nothing (R182). -/
def Obligations.EveryWriteIsHeard : Prop :=
  ∀ (p : Port) (a : Addr) (d : Word) (s : State) (c : Instr),
    c ∈ [Instr.checkByteWrite p a d, .post p a d, .withdrawal p a d, .handBack p a d, .release p (some (a, d)) 0,
      .release p (some (a, d)) 1, .contextLowByteStage p a d, .contextCommit p a d, .strayWrite p a d, .portWrite p a d] →
    (s.inReset = true → exec c s = .next s) ∧
    ∀ copy : AdoptedCopy, s.inReset = false → s.MemoriesCanonical → s.adoptedCopy p = some copy →
      copy.silenceCode ≠ 0 → ((s.port p).silenceDue.isSome = true ∨ (s.port p).silent = true) →
      ∃ t, exec c s = .next t ∧ (t.port p).silenceDue = some (s.now + 50000 * copy.silenceCode) ∧
        (t.port p).silent = false ∧ (t.port p.other).silenceDue = (s.port p.other).silenceDue ∧
        ((s.port p).silent = true → t.pub.writeCount = s.pub.writeCount + 1 ∧ t.pub.dirty = true ∧
          t.TrailEntry s.pub.writeCount
            (trailBytes s.ride.number s.ride.time 0xFF .portHeard (byteOf (portCode p)) 0)) ∧
        ((s.port p).silent = false → t.pub.writeCount = s.pub.writeCount)

/-- Reads. READ_PAIR_CAPTURE: on an 8-bit port a read of the low byte of a paired field returns it and captures the high
byte of the same moment. CAPTURED_HIGH_READ: the read of the captured field's high byte returns the captured byte and
empties the capture. OTHER_READ_EMPTIES_CAPTURE: any other read returns the byte as it stands and leaves the capture
empty (R179). A 16-bit port reads the aligned word on its lanes (R177); in reset a read returns 0x00 (R173, R182). The
values are the rules'; that the field `readout` holds what the last read returned is the model's own (assumption log 24),
and so is that OTHER_READ_EMPTIES_CAPTURE stands for every other read, a 16-bit port's and one in reset among them
(assumption log 25). -/
def Obligations.ReadsReturnWhatStands : Prop :=
  ∀ (p : Port) (a : Addr) (s : State),
    let ps := s.port p
    (s.inReset = false → ps.wide = false → ∀ f, a.toNat = pairAddr f →
      exec (.readPairCapture p a) s = .next (s.setPort p { ps with
        readout := .byte (s.rd (pairAddr f)), capture := some (f, s.rd (pairAddr f + 1)) })) ∧
    (s.inReset = false → ps.wide = false → ∀ f b, ps.capture = some (f, b) → a.toNat = pairAddr f + 1 →
      exec (.capturedHighRead p a) s = .next (s.setPort p { ps with readout := .byte b, capture := none })) ∧
    (s.inReset = false → ps.wide = false → (∀ f, a.toNat ≠ pairAddr f) →
      (∀ f b, ps.capture = some (f, b) → a.toNat ≠ pairAddr f + 1) →
      exec (.otherReadEmptiesCapture p a) s =
        .next (s.setPort p { ps with readout := .byte (s.rd a.toNat), capture := none })) ∧
    (s.inReset = false → ps.wide = true →
      exec (.otherReadEmptiesCapture p a) s = .next (s.setPort p { ps with
        readout := .word (lanesOut ps.swapped (s.rd (a.toNat / 2 * 2)) (s.rd (a.toNat / 2 * 2 + 1))) })) ∧
    (s.inReset = true →
      exec (.otherReadEmptiesCapture p a) s = .next (s.setPort p { ps with
        readout := if ps.wide then .word 0 else .byte 0 }))

/-! ### Requests -/

/-- ADOPT at its take (R143, R144, R145): refused with RIDE_LOCKED in a ride by a port that has adopted. Otherwise the
new copy replaces the old as a whole, every slot of the port is rebased, each slot the new copy disables that is
outside IDLE is cleared with a CLEAR image and its record freed, and the other records of the port take their new
class (R55); it waits for nothing when no slot was cleared, and otherwise for the store's reports, which a FAILED
store gives at once as not written. Until the completion the lamp's counts stand under the old copy, less the demands
of the slots cleared: that is the model's reading (assumption log 30). At the completion the lamp is recounted, FP's
reader and threshold take effect, and a first ADOPT in RIDING starts the port's timers. The copy is what the port's
areas hold by the layouts of 11.3, U, D, fade rides and forget rides of 0 taken as 1, a pass code above 3 as 3, FP's
threshold into 1..64; the clamped count is the number of fields so changed, at most 255 (R143). A request answered at
once leaves the executor free, and what it picks then is assumption log 11 (R139, R140). -/
def Obligations.AdoptReplacesTheCopy : Prop :=
  (∀ x : Profile, clampProfile x = { x with
    stepUp := max 1 x.stepUp, stepDown := max 1 x.stepDown, fadeRides := max 1 x.fadeRides,
    forgetRides := max 1 x.forgetRides }) ∧
  (∀ (s : State) (i : Slot),
    let b (k : Nat) : Byte := s.rd (0x0C00 + 4 * i.val + k)
    let x := s.liveProfile i
    x.stepUp = (b 0 &&& 0x7F).toNat ∧ x.jump = (b 0).getLsbD 7 ∧ x.stepDown = (b 1 &&& 0x7F).toNat ∧
      x.enable = (b 1).getLsbD 7 ∧ x.fadeRides = (b 2 &&& 0x0F).toNat ∧ x.cls.val = ((b 2 >>> 4) &&& 3).toNat ∧
      x.list.val = (b 2 >>> 6).toNat ∧ x.forgetRides = (b 3).toNat) ∧
  (∀ (s : State) (p : Port),
    let b (k : Nat) : Byte := s.rd (Config.setupBase p + k)
    let c := s.liveCopy p
    let own := (List.finRange 192).filter (fun i => decide (s.owner i = p))
    let one (x : Prop) [Decidable x] : Nat := if x then 1 else 0
    let zeros (x : Profile) : Nat := one (x.stepUp = 0) + one (x.stepDown = 0) + one (x.fadeRides = 0) + one (x.forgetRides = 0)
    c.passCode = min 3 (b 0).toNat ∧ c.inverted = (b 1).getLsbD 0 ∧ c.staleCode = (b 2 &&& 0x0F).toNat ∧
      c.silenceCode = (b 3 &&& 0x0F).toNat ∧
      (p = .fp → c.reader = (if (b 4).getLsbD 0 then .bp else .fp) ∧ c.threshold = max 1 (min 64 (b 5).toNat)) ∧
      (∀ j : Fin 32, c.lists[j] = s.rd (Config.listsBase p + j.val)) ∧
      s.enabledCount p = own.countP (fun i => (s.liveProfile i).enable) ∧
      s.clampedCount p = min 255 ((own.map (fun i => zeros (s.liveProfile i))).sum + one (3 < (b 0).toNat) +
        one (p = .fp ∧ ((b 5).toNat = 0 ∨ 64 < (b 5).toNat)))) ∧
  ∀ (p : Port) (s : State), s.MemoriesCanonical → s.takes p 1 = true →
    let locked := s.ride.state = .riding ∧ (s.port p).adopted = true
    let gone := (s.portSlots p).filter (fun i => !(s.liveProfile i).enable && decide (s.quals[i].state ≠ .idle))
    let answer := bytes16 (s.enabledCount p) ++ [byteOf (s.clampedCount p), byteOf gone.length]
    (locked → Replies .adopt s p .rideLocked []) ∧
    (¬locked → ∀ part, part ≠ .completion → ∃ t, exec (.adopt { port := p, part := part }) s = .next t ∧
      (∀ i : Slot, s.owner i = p → t.profiles[i] = clampProfile (s.liveProfile i) ∧ t.slots[i] = s.rebased i ∧
        t.quals[i] = (if i ∈ gone then clearedQualifier else s.quals[i])) ∧
      (∀ i : Slot, s.owner i ≠ p → t.profiles[i] = s.profiles[i] ∧ t.slots[i] = s.slots[i] ∧ t.quals[i] = s.quals[i]) ∧
      (t.port p).copy = some (s.liveCopy p) ∧ t.exec.pref = p.other ∧
      t.store.logQueue = s.store.logQueue ++ gone.map (fun i => .clear i i) ∧
      t.pub.writeCount = s.pub.writeCount + BitVec.ofNat 16 gone.length ∧
      (∀ i ∈ gone, ∀ e r, s.recordOf i = some (e, r) → t.records[e] = none) ∧
      (∀ i : Slot, s.owner i = p → i ∉ gone → ∀ e r, s.recordOf i = some (e, r) →
        let cls := (clampProfile (s.liveProfile i)).cls
        let marks := decide (r.cls ≠ cls) && decide (r.state ≠ .pending)
        t.Holds e { r with cls := cls, dirty := r.dirty || marks, urgent := r.urgent || (marks && s.store.rideEnding) }) ∧
      (let settled := gone = [] ∨ s.store.state = .failed;
        (settled → part = .whole →
          t.Answered p (if gone = [] then .ok else .storeFault) answer ∧ AdoptDone s t p) ∧
        (settled → part = .take → t.Waits p (.adopted p (decide (gone ≠ [])) answer)) ∧
        (¬settled → t.Waits p (.adopt p gone.length answer)) ∧
        (¬settled ∨ part = .take → (t.port p).adopted = (s.port p).adopted ∧
          DemandsEnd s t p (fun x => gone.countP (fun i => decide (s.demandIn i s.quals[i].state = x))))) ∧
      t.frames = s.frames ∧ t.flash = s.flash ∧ t.ride = s.ride ∧ t.now = s.now)

/-- CLEAR SLOT at its take (R146, R147): BAD_TARGET beyond the port's slots, then NOT_ADOPTED; otherwise the qualifier
is cleared, its record freed, its lamp demand ends (R41, R103), the slot rebased, CLEARED appended and a CLEAR item
queued, and the request waits for the store's report, which a FAILED store gives at once. A request answered at once
leaves the executor free, and what it picks then is assumption log 11 (R139, R140). -/
def Obligations.ClearSlotClearsOneSlot : Prop :=
  ∀ (p : Port) (s : State), s.MemoriesCanonical → s.takes p 2 = true →
    let k := s.param p 0
    (s.slotCount p ≤ k → Replies .clearSlot s p .badTarget []) ∧
    (k < s.slotCount p → (s.port p).adopted = false → Replies .clearSlot s p .notAdopted []) ∧
    (k < s.slotCount p → (s.port p).adopted = true → ∀ i : Slot, i.val = s.slotBase p + k →
      ∀ part, part ≠ .completion → ∃ t, exec (.clearSlot { port := p, part := part }) s = .next t ∧
        let answer := [byteOf i.val, byteOf (qstateCode s.quals[i].state)]
        t.quals = s.quals.set i clearedQualifier ∧ t.slots = s.slots.set i (s.rebased i) ∧
        (∀ e r, s.recordOf i = some (e, r) → t.records = s.records.set e none) ∧
        (s.recordOf i = none → t.records = s.records) ∧ t.frames = s.frames ∧
        DemandsEnd s t p (fun x => if s.demandIn i s.quals[i].state = x then 1 else 0) ∧
        t.TrailEntry s.pub.writeCount
          (trailBytes s.ride.number s.ride.time (byteOf i.val) .cleared (byteOfInt s.quals[i].m) 0) ∧
        t.pub.writeCount = s.pub.writeCount + 1 ∧ t.pub.dirty = true ∧
        t.store.logQueue = s.store.logQueue ++ [.clear i i] ∧
        (s.store.state = .failed → part = .whole → t.Answered p .storeFault answer) ∧
        (s.store.state = .failed → part = .take → t.Waits p (.reply p .storeFault answer)) ∧
        (s.store.state ≠ .failed → t.Waits p (.clear p answer)) ∧
        t.flash = s.flash ∧ t.ride = s.ride ∧ SameWorld s t)

/-- CLEAR PORT at its take (R148): NOT_ADOPTED, or every slot of the port is cleared and rebased, its records are
freed, the lamp demands of all its qualifiers end (R41, R103), the declined count becomes 0, one CLEARED entry and one
CLEAR item cover the port. The law of R42 and R43 is assumed: a record stands for the qualifier of its slot, one for
each. A request answered at once leaves the executor free, and what it picks then is assumption log 11 (R139, R140).
-/
def Obligations.ClearPortClearsEverySlot : Prop :=
  ∀ (p : Port) (s : State), s.MemoriesCanonical → s.takes p 3 = true →
    let answer := [ byteOf ((s.portSlots p).countP (fun i => decide (s.quals[i].state ≠ .idle))),
      byteOf (s.recordList.countP (fun e => decide (s.owner e.2.slot = p))) ]
    ((s.port p).adopted = false → Replies .clearPort s p .notAdopted []) ∧
    ((s.port p).adopted = true → s.RecordLaw → ∀ part, part ≠ .completion →
      ∃ t, exec (.clearPort { port := p, part := part }) s = .next t ∧
      (∀ i : Slot, s.owner i = p → t.quals[i] = clearedQualifier ∧ t.slots[i] = s.rebased i) ∧
      (∀ i : Slot, s.owner i ≠ p → t.quals[i] = s.quals[i] ∧ t.slots[i] = s.slots[i]) ∧
      (∀ e r, t.Holds e r ↔ s.Holds e r ∧ s.owner r.slot ≠ p) ∧ t.frames = s.frames ∧ (t.port p).declined = 0 ∧
      DemandsEnd s t p (fun x => ((List.finRange 192).filter (fun i => decide (s.owner i = p))).countP
        (fun i => decide (s.demandIn i s.quals[i].state = x))) ∧
      t.TrailEntry s.pub.writeCount
        (trailBytes s.ride.number s.ride.time 0xFF .cleared (byteOf (portCode p)) 0) ∧
      t.pub.writeCount = s.pub.writeCount + 1 ∧ t.pub.dirty = true ∧
      (∃ lo hi : Slot, lo.val = s.slotBase p ∧ hi.val + 1 = s.slotBase p + s.slotCount p ∧
        t.store.logQueue = s.store.logQueue ++ [.clear lo hi]) ∧
      (s.store.state = .failed → part = .whole → t.Answered p .storeFault answer) ∧
      (s.store.state = .failed → part = .take → t.Waits p (.reply p .storeFault answer)) ∧
      (s.store.state ≠ .failed → t.Waits p (.clear p answer)) ∧
      t.flash = s.flash ∧ t.ride = s.ride ∧ SameWorld s t)

/-- FETCH FRAME and FETCH QUALIFIER change nothing but their cell (R150, R151): slot above 191, then kind, then
record, then frame; the answers are the 19 bytes of the frame and the 13 bytes of the qualifier and the engine's
state, read at the take. That one command may make both the take and the completion, as the row of the step table
does, or one of them alone, as R138 lets them fall, is the model's choice (95_what_each_step_holds.md; assumption log
39). A request answered at once leaves the executor free, and what it picks then is assumption log 11 (R139, R140). -/
def Obligations.FetchesAnswerWhatStands : Prop :=
  ∀ (p : Port) (s : State), s.MemoriesCanonical →
    (s.takes p 4 = true →
      (192 ≤ s.param p 0 ∨ (s.param p 1 ≠ 1 ∧ s.param p 1 ≠ 2) →
        Replies .fetchFrame s p .badTarget []) ∧
      ∀ (i : Slot) (k : FrameKind), s.param p 0 = i.val → s.param p 1 = frameKindCode k →
        (∀ e r f, s.recordOf i = some (e, r) → r.frameRef k = some f →
          Replies .fetchFrame s p .ok s.frames[f].toList) ∧
        ((∀ e r, s.recordOf i = some (e, r) → r.frameRef k = none) →
          Replies .fetchFrame s p .absent [])) ∧
    (s.takes p 5 = true →
      (192 ≤ s.param p 0 → Replies .fetchQualifier s p .badTarget []) ∧
      ∀ i : Slot, s.param p 0 = i.val →
        let q := s.quals[i]
        let e := s.slots[i]
        Replies .fetchQualifier s p .ok
          ([ byteOf (qstateCode q.state), byteOfInt q.m,
             byteOf (flagBit q.tested 0 + flagBit q.failed 1 + flagBit q.passedMature 2), byteOf q.fade, byteOf q.forget,
             e.seenPass, e.seenFail, byteOf e.held, byteOf (flagBit e.barred 0 + flagBit q.unrecorded 1) ]
           ++ (match s.adoptedProfile i with
                | some pr => profileBytes pr
                | none => [0, 0, 0, 0])))

/-- The requests on the retained sector. READ RETAINED (R152): BAD_TARGET above 15, else it waits for its read, which
RETAINED_READ makes while flash can be read, and not before, doing nothing then (assumption log 1): 24 bytes of a
valid position, else ABSENT. ERASE RETAINED (R153): LOCKED outside service mode, STORE_FAULT with the count from a
FAILED store, else it asks for the retained erase and waits. That the class of a position is the one the store last
read, and only the 24 bytes come from flash, is the model's reading (assumption log 29). A request answered at once
leaves the executor free, and what it picks then is assumption log 11 (R139, R140). -/
def Obligations.RetainedRequestsWaitForTheStore : Prop :=
  ∀ (p : Port) (s : State), s.MemoriesCanonical →
    (s.takes p 6 = true →
      (16 ≤ s.param p 0 → Replies .readRetained s p .badTarget []) ∧
      ∀ k : Fin 16, s.param p 0 = k.val → ∀ part, part ≠ .completion →
        ∃ t, exec (.readRetained { port := p, part := part }) s = .next t ∧ TakenOnly s t p (.readRetained p k)) ∧
    (∀ k : Fin 16, s.inReset = false → s.exec.taken = some (.readRetained p k) → s.store.program = none →
      (∀ e, s.store.erase = some e → e.suspended = true) → s.store.retErase ≠ .running →
      (∀ i, s.store.retPos[k] = .valid i →
        ∃ t, exec .retainedRead s = .next t ∧ AnswersOnly s t p .ok ((retainedBytes s.flash k).take 24)) ∧
      ((s.store.retPos[k] = .free ∨ s.store.retPos[k] = .void) →
        ∃ t, exec .retainedRead s = .next t ∧ AnswersOnly s t p .absent [])) ∧
    (s.store.program ≠ none ∨ (∃ e, s.store.erase = some e ∧ e.suspended = false) ∨ s.store.retErase = .running ∨
        (∀ q k, s.exec.taken ≠ some (.readRetained q k)) → exec .retainedRead s = .next s) ∧
    (s.takes p 7 = true →
      (s.svc = false → Replies .eraseRetained s p .locked []) ∧
      (s.svc = true → s.store.state = .failed → Replies .eraseRetained s p .storeFault [byteOf s.retainedCount]) ∧
      (s.svc = true → s.store.state ≠ .failed → ∀ part, part ≠ .completion →
        ∃ t, exec (.eraseRetained { port := p, part := part }) s = .next t ∧ t.Waits p (.eraseRetained p) ∧
          t.store = { s.store with retErase := .waiting } ∧ (∀ y, y ≠ Config.cellBase p → t.rd y = s.rd y) ∧
          t.pub = s.pub ∧ t.flash = s.flash ∧ t.ride = s.ride ∧ t.slots = s.slots ∧ SameFaults s t ∧ SameWorld s t))

/-- ACKNOWLEDGE answers the stray flag and the declined count and clears them, marking the view if either changed
(R154). A code outside 0x01..0x08 is answered BAD_REQUEST with no other effect (R155). The completion of any request
taken alone, whatever fell between the two: it answers what the take settled (R137), ADOPT's does its work too (R145),
and a request that waits for the store is not completed so. Where nothing falls between, the take and then the
completion make the whole command. That a command may make the two events together or one alone is the model's choice
(95_what_each_step_holds.md; assumption log 39). A request is taken, from a POSTED cell, by a free executor, in
NO_RIDE or RIDING only (R139), and of the cells the arbiter has picked this one (R140): that the pick stands in
exec.claim is the model's choice (assumption log 11). A take where this fails, and a command of another code than the
cell's, does nothing (assumption log 1). -/
def Obligations.AcknowledgeUnknownCodesAndCompletions : Prop :=
  (∀ (p : Port) (s : State),
    (s.canTake p = true ↔ s.inReset = false ∧ s.exec.taken = none ∧ s.exec.claim = some p ∧ (s.port p).cell = .posted ∧
      (s.ride.state = .noRide ∨ s.ride.state = .riding)) ∧
    (∀ code, s.takes p code = true ↔ s.canTake p = true ∧ s.requestCode p = code) ∧
    s.requestCode p = (s.rd (Config.cellBase p + 1)).toNat ∧ ∀ k, s.param p k = (s.rd (Config.cellBase p + 4 + k)).toNat) ∧
  (∀ (c : RequestStep → Instr) (p : Port) (s : State),
    let mine (x : State) : Prop :=
      (c = .adopt ∧ x.requestCode p = 1) ∨ (c = .clearSlot ∧ x.requestCode p = 2) ∨
      (c = .clearPort ∧ x.requestCode p = 3) ∨ (c = .fetchFrame ∧ x.requestCode p = 4) ∨
      (c = .fetchQualifier ∧ x.requestCode p = 5) ∨ (c = .readRetained ∧ x.requestCode p = 6) ∨
      (c = .eraseRetained ∧ x.requestCode p = 7) ∨ (c = .acknowledge ∧ x.requestCode p = 8) ∨
      (c = .badRequest ∧ (x.requestCode p = 0 ∨ 8 < x.requestCode p))
    let request : Prop := c = .adopt ∨ c = .clearSlot ∨ c = .clearPort ∨ c = .fetchFrame ∨ c = .fetchQualifier ∨
      c = .readRetained ∨ c = .eraseRetained ∨ c = .acknowledge ∨ c = .badRequest
    (request → s.canTake p = false → ∀ part, part ≠ .completion → exec (c { port := p, part := part }) s = .next s) ∧
    (request → ¬mine s → ∀ part, exec (c { port := p, part := part }) s = .next s) ∧
    (s.MemoriesCanonical → mine s →
    (s.inReset = false → ∀ st answer, s.exec.taken = some (.reply p st answer) →
      ∃ t, exec (c { port := p, part := .completion }) s = .next t ∧
        AnswersOnly s t p st (match st with
          | .ok | .storeFault => answer
          | .badRequest | .badTarget | .notAdopted | .rideLocked | .locked | .absent => [])) ∧
    (s.inReset = false → ∀ fault answer, s.exec.taken = some (.adopted p fault answer) →
      ∃ t, exec (c { port := p, part := .completion }) s = .next t ∧
        t.Answered p (if fault then .storeFault else .ok) answer ∧ AdoptDone s t p ∧ SameFaults s t ∧ SameStore s t ∧
        SameWorld s t ∧ t.slots = s.slots ∧ t.ride = s.ride) ∧
    ((∀ st answer, s.exec.taken ≠ some (.reply p st answer)) →
      (∀ fault answer, s.exec.taken ≠ some (.adopted p fault answer)) →
      exec (c { port := p, part := .completion }) s = .next s) ∧
    (s.canTake p = true → ∃ u, exec (c { port := p, part := .take }) s = .next u ∧ (u.port p).cell = .taken ∧
      u.exec.pref = p.other ∧ u.inReset = false ∧ mine u ∧
      (∀ y, (y = Config.cellBase p + 2 ∨ y = Config.cellBase p + 3 ∨
        (Config.cellBase p + 16 ≤ y ∧ y < Config.cellBase p + 64)) → u.rd y = s.rd y) ∧
      exec (c { port := p, part := .whole }) s = exec (c { port := p, part := .completion }) u))) ∧
  ∀ (p : Port) (s : State), s.MemoriesCanonical →
    (s.takes p 8 = true → ∀ part, part ≠ .completion →
      ∃ t, exec (.acknowledge { port := p, part := part }) s = .next t ∧
        (let answer := [byteOf (flagBit (s.port p).stray 0), byteOf (s.port p).declined];
          (part = .whole → t.Answered p .ok answer) ∧ (part = .take → t.Waits p (.reply p .ok answer))) ∧
        (t.port p).stray = false ∧ (t.port p).declined = 0 ∧
        (t.port p.other).stray = (s.port p.other).stray ∧ (t.port p.other).declined = (s.port p.other).declined ∧
        t.pub = { s.pub with
          dirty := s.pub.dirty || (s.port p).stray || decide ((s.port p).declined ≠ 0) } ∧ SameInside s t) ∧
    (s.canTake p = true → (s.requestCode p = 0 ∨ 8 < s.requestCode p) →
      Replies .badRequest s p .badRequest [])

/-! ### Publication and the trail -/

/-- What the copy of a pass holds (R159, R162 to R164): the header's bytes 2 to 31 field by field (11.5), the 192 status
bytes bit by bit, the 48 mirror entries field by field, a free one all 0.
PUBLISH_PASS_START clears the mark, takes it, and the generation becomes odd; PUBLISH_SPACING_EXPIRY ends the spacing, and
starts a pass at once where the mark is set (R158; assumption log 12). While the spacing runs or a pass is in flight, or
with no mark set, PUBLISH_PASS_START starts none (R158), and does nothing (assumption log 1). -/
def Obligations.PassStartsWithOneCopy : Prop :=
  ∀ s : State, s.inReset = false → s.MemoriesCanonical →
    s.viewCopy.length = 990 ∧
    (let head (offset : Nat) : Byte := byteAt s.viewCopy (offset - 2)
      let flags (b : Byte) (ps : PortState) : Prop := b.getLsbD 0 = ps.adopted ∧ b.getLsbD 1 = ps.silent ∧
        b.getLsbD 2 = ps.stray ∧ b.toNat < 8
      head 2 = 1 ∧ (head 3).toNat = s.part.toNat ∧ head 4 = (if s.svc then 1 else 0) ∧
      head 5 = byteOf (rideCode s.ride.state) ∧
      (s.ride.number < 65536 → natOf16 (head 6) (head 7) = s.ride.number) ∧
      (s.ride.time < 65536 → natOf16 (head 8) (head 9) = s.ride.time) ∧
      head 10 = byteOf (patternCode s.fp.shown) ∧ head 11 = byteOf (patternCode s.bp.shown) ∧
      flags (head 12) s.fp ∧ (head 13).toNat = s.barredCount .fp ∧ (s.fp.declined < 256 → (head 14).toNat = s.fp.declined) ∧
      flags (head 15) s.bp ∧ (head 16).toNat = s.barredCount .bp ∧ (s.bp.declined < 256 → (head 17).toNat = s.bp.declined) ∧
      (head 18).toNat = s.recordList.length ∧ (head 19).toNat = s.freeFrames.length ∧
      head 20 = byteOf (storeCode s.store.state) ∧ (head 21).toNat = s.sectorCount .erased ∧
      (head 22).toNat = s.sectorCount .retired ∧ head 23 = (if 0 < s.sectorCount .retired then 1 else 0) ∧
      (head 24).toNat = s.retainedCount ∧ ∀ offset, 25 ≤ offset → offset < 32 → head offset = 0) ∧
    (let code (st : QState) : Nat := match st with
        | .idle => 0
        | .pending => 1
        | .confirmed => 2
        | .fading => 3
        | .historic => 4;
      (∀ i : Slot,
        let b := byteAt s.viewCopy (30 + i.val)
        b.toNat % 8 = code s.quals[i].state ∧ b.getLsbD 3 = s.slots[i].barred ∧ b.getLsbD 4 = s.quals[i].unrecorded ∧
          b.getLsbD 5 = s.quals[i].failed ∧ b.getLsbD 6 = s.quals[i].tested ∧ b.getLsbD 7 = s.enabled i) ∧
      ∀ e : Fin 48,
        let at' (k : Nat) : Byte := byteAt s.viewCopy (222 + 16 * e.val + k)
        (s.records[e] = none → ∀ k, k < 16 → at' k = 0) ∧
        ∀ r, s.Holds e r →
          (at' 0).toNat = r.slot.val ∧ (at' 1).toNat = code r.state ∧ (at' 2).toNat % 4 = r.cls.val ∧
          (at' 2).getLsbD 2 = r.first.isSome ∧ (at' 2).getLsbD 3 = r.latest.isSome ∧ (at' 2).getLsbD 4 = r.persisted ∧
          (at' 2).getLsbD 5 = r.dirty ∧ (at' 2).toNat < 64 ∧ (r.occurrence < 256 → (at' 3).toNat = r.occurrence) ∧
          (r.onset < 65536 → natOf16 (at' 4) (at' 5) = r.onset) ∧
          (r.firstConf < 65536 → natOf16 (at' 6) (at' 7) = r.firstConf) ∧
          (r.latestConf < 65536 → natOf16 (at' 8) (at' 9) = r.latestConf) ∧
          (r.activity < 65536 → natOf16 (at' 10) (at' 11) = r.activity) ∧
          (r.fade < 256 → (at' 12).toNat = r.fade) ∧ (r.forget < 256 → (at' 13).toNat = r.forget) ∧
          (-128 ≤ s.quals[r.slot].m → s.quals[r.slot].m ≤ 127 → (at' 14).toInt = s.quals[r.slot].m) ∧ at' 15 = 1) ∧
    (∀ i : Slot, byteAt s.viewCopy (30 + i.val) = statusByte s.quals[i] s.slots[i].barred (s.enabled i)) ∧
    (∀ (e : Fin 48) (k : Nat), k < 16 → byteAt s.viewCopy (222 + 16 * e.val + k) = byteAt (match s.records[e] with
      | some r => mirrorBytes (some r) s.quals[r.slot].m
      | none => mirrorBytes none 0) k) ∧
    (s.pub.dirty = false ∨ s.pub.spacingDue ≠ none ∨ s.pub.pass ≠ none → exec .publishPassStart s = .next s) ∧
    let begun (t : State) : Prop :=
      t.pub = { s.pub with dirty := false, spacingDue := none, pass := some s.viewCopy,
                           generation := s.pub.generation + 1 } ∧
      natOf16 (t.rd 0) (t.rd 1) = t.pub.generation.toNat ∧ ∀ y, 2 ≤ y → t.rd y = s.rd y
    (s.pub.dirty = true → s.pub.spacingDue = none → s.pub.pass = none →
      ∃ t, exec .publishPassStart s = .next t ∧ begun t ∧ t.fp = s.fp ∧ t.bp = s.bp ∧ t.exec = s.exec ∧
        SameInside s t) ∧
    ∀ d, s.pub.spacingDue = some d →
      ∃ t, exec .publishSpacingExpiry s = .next t ∧ t.now = max s.now d ∧
        (s.pub.dirty = true → s.pub.pass = none → begun t) ∧
        (s.pub.dirty = false ∨ s.pub.pass ≠ none → t.pub = { s.pub with spacingDue := none } ∧ t.ram = s.ram) ∧
        t.exec = s.exec ∧ t.ride = s.ride ∧ t.slots = s.slots ∧ SameFaults s t ∧ SameStore s t

/-- PUBLISH_PASS_END writes every byte of the view from the copy, makes the generation even and starts the spacing; the
first pass after reset also writes the trail fields and the reserved bytes of the header, later passes neither (R159,
R160, R172). That no byte is written before this moment, so that a read in flight returns the old value, is the model's
choice (assumption log 47). -/
def Obligations.PassEndWritesTheWholeView : Prop :=
  ∀ (copy : List Byte) (s : State), s.inReset = false → s.MemoriesCanonical → s.pub.pass = some copy →
    copy.length = 990 →
    ∃ t, exec .publishPassEnd s = .next t ∧
      t.pub = { s.pub with pass := none, firstPass := false, spacingDue := some (s.now + 10000),
                           generation := s.pub.generation + 1 } ∧
      natOf16 (t.rd 0) (t.rd 1) = t.pub.generation.toNat ∧
      (∀ k, k < 30 → t.rd (2 + k) = byteAt copy k) ∧ (∀ k, k < 960 → t.rd (0x0040 + k) = byteAt copy (30 + k)) ∧
      (s.pub.firstPass = false → ∀ y, 32 ≤ y → y < 64 → t.rd y = s.rd y) ∧
      (s.pub.firstPass = true →
        natOf16 (t.rd 32) (t.rd 33) = s.pub.writeCount.toNat ∧ natOf16 (t.rd 34) (t.rd 35) = s.pub.readMark.toNat ∧
        t.rd 36 = byteOf s.pub.unread ∧ t.rd 37 = byteOf (flagBit s.pub.overrun 0) ∧
        t.rd 38 = byteOf (portCode s.pub.reader) ∧ t.rd 39 = byteOf s.pub.threshold ∧
        ∀ y, 40 ≤ y → y < 64 → t.rd y = 0) ∧
      (∀ y, 0x0400 ≤ y → t.rd y = s.rd y) ∧ t.fp = s.fp ∧ t.bp = s.bp ∧ t.exec = s.exec ∧ SameInside s t

/-- An append (R166, R167, R171): a full ring drops its oldest unread entry and the overrun flag sets; the entry is
written at write count modulo 64; the counts rise together and the header shows them; the attention lines follow. -/
def Obligations.AppendWritesOneEntry : Prop :=
  ∀ (s : State) (kind : TrailKind) (slot detail new : Byte), s.MemoriesCanonical → s.TrailLaw →
    let t := s.append kind slot detail new
    let pos := Config.trailBase + 8 * (s.pub.writeCount.toNat % 64)
    t.TrailEntry s.pub.writeCount (trailBytes s.ride.number s.ride.time slot kind detail new) ∧
    (s.pub.unread < 64 →
      t.pub = { s.pub with writeCount := s.pub.writeCount + 1, unread := s.pub.unread + 1 }) ∧
    (s.pub.unread = 64 →
      t.pub = { s.pub with writeCount := s.pub.writeCount + 1, readMark := s.pub.readMark + 1, overrun := true }) ∧
    t.TrailLaw ∧
    natOf16 (t.rd 32) (t.rd 33) = t.pub.writeCount.toNat ∧ t.rd 36 = byteOf t.pub.unread ∧
    (s.pub.unread = 64 → natOf16 (t.rd 34) (t.rd 35) = t.pub.readMark.toNat ∧ t.rd 37 = 1) ∧
    (∀ y, (y < 32 ∨ 38 ≤ y) → (y < pos ∨ pos + 8 ≤ y) → t.rd y = s.rd y) ∧
    (∀ p, (t.port p).attn = (decide ((s.port p).cell = .answered) ||
      (decide (s.pub.reader = p) && decide (s.pub.threshold ≤ t.pub.unread)))) ∧
    t.exec = s.exec ∧ SameInside s t

/-! ### The record store -/

/-- The writer's moments (R112, R118, R126): out of reset, the store READY, the write inhibit ended, nothing being
programmed, no log erase running unsuspended, no retained erase running. At no other does it begin an image or a
retained entry, or does a compaction or an erase of a log sector start; the command then does nothing (assumption log
1). What the writer takes at its moment (R118): RIDE, then CLEAR and RELEASE items oldest first, retained entries,
urgent records by index, the QUALIFIER; with none of these and no erase in flight or waiting, the next fresh image of
the compaction in progress and nothing else; with no compaction in progress or due and no SPOILED sector, an ordinary
record by index. That ordinary records wait for a compaction that is due and for a SPOILED sector is the model's
reading (assumption log 16). The next fresh image is that of the first key, in the order ride, qualifier, slots
ascending, whose newest image lies in the victim and which needs one, by the table of R121; that a RECORD image
remains only while it is valid, that an image which failed its read-back is complete if its mark and check read so,
and that a CLEAR counts as newer where the log holds no QUALIFIER image, are the model's choices (assumption logs 40,
43 and 49). -/
def Obligations.WriterTakesWorkInOrder : Prop :=
  ∀ s : State,
    let plain := s.store.rideMark = false ∧ s.store.logQueue = [] ∧ s.store.retQueue = []
    let lowest (want : Record → Prop) (e : Fin 48) (r : Record) : Prop :=
      s.Holds e r ∧ want r ∧ ∀ e' r', e' < e → s.Holds e' r' → ¬want r'
    let urgent (r : Record) : Prop := r.dirty = true ∧ r.urgent = true
    let noUrgent := ∀ e r, s.Holds e r → ¬urgent r
    (s.writerReady = true ↔ s.inReset = false ∧ s.store.state = .ready ∧ s.store.inhibitDue = none ∧
      s.store.program = none ∧ (∀ e, s.store.erase = some e → e.suspended = true) ∧ s.store.retErase ≠ .running) ∧
    (s.writerReady = false →
      exec .imageBegin s = .next s ∧ exec .retainedEntryBegin s = .next s ∧ exec .compactionStart s = .next s ∧
      exec .spoiledEraseStart s = .next s ∧ ∀ line, exec (.erasePhaseStart line) s = .next s) ∧
    (s.store.rideMark = true → s.urgentWork = some (.image .ride)) ∧
    (∀ it rest, s.store.rideMark = false → s.store.logQueue = it :: rest → s.urgentWork = some (.image (.log it))) ∧
    (s.store.rideMark = false → s.store.logQueue = [] → s.store.retQueue ≠ [] → s.urgentWork = some .retained) ∧
    (∀ e r, plain → lowest urgent e r → s.urgentWork = some (.image (.record e r))) ∧
    (plain → noUrgent → s.store.qualMark = true → s.urgentWork = some (.image .qualifier)) ∧
    (plain → noUrgent → s.store.qualMark = false → s.urgentWork = none) ∧
    (s.writerReady = false → s.nextImage = none) ∧
    (s.writerReady = true →
      (∀ j, s.urgentWork = some (.image j) → s.nextImage = some (j, .urgent)) ∧
      (s.urgentWork = some .retained → s.nextImage = none) ∧
      (s.urgentWork = none → (s.store.erase ≠ none ∨ s.store.retErase ≠ .nothing) → s.nextImage = none) ∧
      (s.urgentWork = none → s.store.erase = none → s.store.retErase = .nothing →
        (∀ v, s.store.compaction = some v → s.nextImage = (s.nextFresh v).map (fun j => (j, .compaction))) ∧
        (s.store.compaction = none →
          let spoiled := ∃ k : Fin 16, s.store.sectors[k].state = .spoiled
          let due := s.sectorCount .erased < 2 ∧ 0 < s.sectorCount .full
          (spoiled ∨ due ∨ (∀ e r, s.Holds e r → r.dirty = false) → s.nextImage = none) ∧
          (∀ e r, ¬spoiled → ¬due → lowest (fun x => x.dirty = true) e r →
            s.nextImage = some (.record e r, .ordinary))))) ∧
    ∀ v : Fin 16,
      let l := s.logImages
      let inVictim (im : Option Image) : Prop := ∃ x, im = some x ∧ x.sector = v
      let current (i : Slot) : Prop :=
        ∃ e r, s.recordOf i = some (e, r) ∧ (r.state = .confirmed ∨ r.state = .fading ∨ r.state = .historic)
      let newClear (im : Image) : Prop := im.kind = .clear ∧ ∀ q, newestQualifier l = some q → q.seq < im.seq
      let remains (i : Slot) : Prop := ∃ x ∈ l, x.valid = true ∧ x.kind = .record ∧ (byteAt x.body 0).toNat = i.val
      let fresh (i : Slot) (j : Job) : Prop := ∃ im, newestRecordKey l i.val = some im ∧ im.sector = v ∧
        ((current i ∧ ∃ e r, s.recordOf i = some (e, r) ∧ j = .record e r) ∨
          (¬current i ∧ newClear im ∧ j = .log (.clear i i)) ∨
          (¬current i ∧ ¬newClear im ∧ remains i ∧ j = .log (.release i)))
      let records := ¬inVictim (newestRide l) ∧ ¬inVictim (newestQualifier l)
      (inVictim (newestRide l) → s.nextFresh v = some .ride) ∧
      (¬inVictim (newestRide l) → inVictim (newestQualifier l) → s.nextFresh v = some .qualifier) ∧
      (∀ i j, records → fresh i j → (∀ i' < i, ∀ j', ¬fresh i' j') → s.nextFresh v = some j) ∧
      (records → (∀ i j, ¬fresh i j) → s.nextFresh v = none)

/-- IMAGE_BEGIN (R113, R114, R116, R124): the image the writer takes is begun in the OPEN sector, or, where it does
not fit before line 255 or none is OPEN, in the next ERASED sector its class may open, the old one becoming FULL; it
takes the next sequence number and its marks clear. With no number left, nothing is begun and the store becomes FAILED
(R125); that this is judged before room is looked for, an image that would have to wait with it, is the model's choice
(assumption log 46). A store that becomes FAILED appends STORE_FAILED, answers a clear or an ADOPT that waits
STORE_FAULT, and drops and reports a retained erase that waits (R125, R126, R129, R147). An urgent or a fresh image
may open a sector while 1 is ERASED, an ordinary one while 2 are; the sector opened is the first ERASED one in
circular order after the sector last OPEN, or from sector 0 when none was (R124). With no ERASED sector to open, an
urgent or a fresh image makes the store FAILED, and so does an ordinary one when no FULL sector remains to compact; an
ordinary image with fewer than 2 ERASED otherwise waits, its mark kept (R124). That the OPEN sector becomes FULL
although the image then waits is the model's reading (assumption log 17). With no image to take, nothing begins, and
the command does nothing (log 1). -/
def Obligations.ImageBeginTakesOneCopy : Prop :=
  (∀ s : State,
    let place (k : Fin 16) : Nat := match s.store.lastOpen with
      | some o => (k.val + 15 - o.val) % 16
      | none => k.val
    (∀ st, s.sectorCount st = ((List.finRange 16).filter (fun k => decide (s.store.sectors[k].state = st))).length) ∧
    (∀ pressing, s.mayOpen pressing = true ↔
      2 ≤ s.sectorCount .erased ∨ (pressing = true ∧ 1 ≤ s.sectorCount .erased)) ∧
    (∀ k, s.nextErased = some k ↔ s.store.sectors[k].state = .erased ∧
      ∀ j : Fin 16, s.store.sectors[j].state = .erased → place k ≤ place j) ∧
    (∀ k, s.openSector = some k ↔ s.store.sectors[k].state = .opened ∧
      ∀ j : Fin 16, j < k → s.store.sectors[j].state ≠ .opened) ∧
    (s.nextImage = none → exec .imageBegin s = .next s)) ∧
  ∀ (j : Job) (c : JobClass) (s : State), s.nextImage = some (j, c) →
    let n := imageLines (jobKind j)
    let pressing := decide (c ≠ .ordinary)
    let begun (t : State) (k : Fin 16) (line : Nat) : Prop :=
      t.store.program = some (.image {
        sector := k, line := line, bytes := imageBytes (jobKind j) s.store.nextSeq s.ride.number (s.jobBody j),
        redo := jobRedo j c, pressing := pressing, reports := jobReports j c }) ∧
      t.store.nextSeq = s.store.nextSeq + 1 ∧
      (j = .ride → t.store.rideMark = false) ∧ (j = .qualifier → t.store.qualMark = false) ∧
      (∀ it, j = .log it → c = .urgent → t.store.logQueue = s.store.logQueue.tail) ∧
      (∀ e r, j = .record e r →
        t.records = s.records.set e (some { r with dirty := false, urgent := false, persisted := true })) ∧
      t.quals = s.quals ∧ t.frames = s.frames ∧ t.slots = s.slots ∧ t.ride = s.ride ∧ t.ram = s.ram ∧ t.exec = s.exec ∧
      t.flash = s.flash
    (∀ k, s.store.nextSeq ≤ 0xFFFFFFFF → s.openSector = some k → s.store.sectors[k].used + n ≤ 255 →
      ∃ t, exec .imageBegin s = .next t ∧ begun t k s.store.sectors[k].used ∧
        t.store.sectors = s.store.sectors.set k { s.store.sectors[k] with
          firstSeq := some (s.store.sectors[k].firstSeq.getD s.store.nextSeq) }) ∧
    (∀ k, s.store.nextSeq ≤ 0xFFFFFFFF → (∀ o, s.openSector = some o → 255 < s.store.sectors[o].used + n) →
      s.mayOpen pressing = true → s.nextErased = some k →
      ∃ t, exec .imageBegin s = .next t ∧ begun t k 0 ∧ t.store.lastOpen = some k ∧ t.pub.dirty = true ∧
        t.store.sectors[k] = { state := .opened, marked := false, firstSeq := some s.store.nextSeq, used := 0 } ∧
        (∀ o, s.openSector = some o → t.store.sectors[o] = { s.store.sectors[o] with state := .full }) ∧
        ∀ o : Fin 16, o ≠ k → s.openSector ≠ some o → t.store.sectors[o] = s.store.sectors[o]) ∧
    let failing (t : State) : Prop := StoreFails s t s.pub.writeCount ∧ t.store.program = none ∧ t.flash = s.flash ∧
      SameFaults s t ∧ t.sectorCount .retired = s.sectorCount .retired ∧ t.slots = s.slots ∧ t.ride = s.ride
    let noRoom := ∀ o, s.openSector = some o → 255 < s.store.sectors[o].used + n
    (s.MemoriesCanonical → 0xFFFFFFFF < s.store.nextSeq → ∃ t, exec .imageBegin s = .next t ∧ failing t) ∧
    (s.MemoriesCanonical → s.store.nextSeq ≤ 0xFFFFFFFF → noRoom → s.sectorCount .erased = 0 →
      (c ≠ .ordinary ∨ (s.openSector = none ∧ s.sectorCount .full = 0)) →
      ∃ t, exec .imageBegin s = .next t ∧ failing t) ∧
    (s.store.nextSeq ≤ 0xFFFFFFFF → noRoom → s.sectorCount .erased < 2 → c = .ordinary →
      (0 < s.sectorCount .erased ∨ 0 < s.sectorCount .full ∨ s.openSector ≠ none) →
      ∃ t, exec .imageBegin s = .next t ∧ t.store.program = none ∧ t.store.state = s.store.state ∧
        t.store.nextSeq = s.store.nextSeq ∧ t.records = s.records ∧ t.ram = s.ram ∧ t.pub = s.pub ∧ t.exec = s.exec ∧
        t.flash = s.flash ∧ (s.openSector = none → t.store.sectors = s.store.sectors) ∧
        ∀ o, s.openSector = some o →
          t.store.sectors = s.store.sectors.set o { s.store.sectors[o] with state := .full })

/-- IMAGE_COMPLETION of an image that reads back (R114, R116): its bytes stand in flash, its lines are used, and a
CLEAR that was marked is reported to the request it belongs to (R145, R147). Of one that does not (R115): line 1 stays
as it was when line 0 or the body mismatched, the sector is FULL and marked, the mark comes back, a record keeps its
persisted flag, nothing is reported, and the next sector is opened where its class may open one (R124). The last
report completes ADOPT (R145). That a CLEAR or RELEASE item marked again goes behind those that wait, and that the
sector is opened at the failure, by the class of the failed image, are the model's readings (assumption logs 15 and
18). -/
def Obligations.ImageCompletionReadsBack : Prop :=
  ∀ (p : ImageProgram) (marred : Marred) (s : State), s.inReset = false → s.MemoriesCanonical →
    s.store.program = some (.image p) → 16 ≤ p.bytes.length →
    let got := readBack p.bytes marred
    let base := sectorAddr p.sector (8 * p.line)
    let used := p.line + p.bytes.length / 8
    let outside (t : State) : Prop := (∀ a, a < base ∨ base + p.bytes.length ≤ a → t.flashByte a = s.flashByte a) ∧
      t.store.program = none ∧ t.quals = s.quals ∧ t.frames = s.frames ∧ t.slots = s.slots ∧ t.ride = s.ride
    (got = p.bytes →
      ∃ t, exec (.imageCompletion marred) s = .next t ∧ outside t ∧
        (∀ k, k < p.bytes.length → t.flashByte (base + k) = byteAt p.bytes k) ∧
        t.store.sectors = s.store.sectors.set p.sector { s.store.sectors[p.sector] with used := used } ∧
        t.records = s.records ∧ (p.reports = false → t.exec = s.exec ∧ t.ram = s.ram ∧ t.pub = s.pub) ∧
        (p.reports = true → ∀ q answer,
          (s.exec.taken = some (.clear q answer) → t.Answered q .ok answer) ∧
          (s.exec.taken = some (.adopt q 1 answer) → t.Answered q .ok answer ∧ AdoptDone s t q) ∧
          ∀ n, s.exec.taken = some (.adopt q (n + 2) answer) →
            t.exec = { s.exec with taken := some (.adopt q (n + 1) answer) } ∧ t.ram = s.ram)) ∧
    (got ≠ p.bytes →
      ∃ t, exec (.imageCompletion marred) s = .next t ∧ outside t ∧
        (bodyReadsBack p.bytes got = false → ∀ k, 8 ≤ k → k < 16 → t.flashByte (base + k) = s.flashByte (base + k)) ∧
        t.store.sectors[p.sector] = { s.store.sectors[p.sector] with state := .full, marked := true, used := used } ∧
        (p.redo = .ride → t.store.rideMark = true) ∧ (p.redo = .qualifier → t.store.qualMark = true) ∧
        (∀ it, p.redo = .item it → t.store.logQueue = s.store.logQueue ++ [it]) ∧
        (∀ e r u, p.redo = .record e true u → s.Holds e r →
          ∃ r', t.Holds e r' ∧ r'.dirty = true ∧ (u = true → r'.urgent = true) ∧ r'.persisted = r.persisted) ∧
        (s.store.sectors[p.sector].state = .opened → s.mayOpen p.pressing = true →
          ∃ k : Fin 16, k ≠ p.sector ∧ s.nextErased = some k ∧ t.store.lastOpen = some k ∧
            t.store.sectors[k] = { state := .opened, marked := false, firstSeq := none, used := 0 }) ∧
        (s.store.sectors[p.sector].state = .opened → s.mayOpen p.pressing = false →
          t.store.lastOpen = s.store.lastOpen ∧ ∀ k : Fin 16, k ≠ p.sector → t.store.sectors[k] = s.store.sectors[k]) ∧
        t.exec = s.exec ∧ t.ram = s.ram)

/-- COMPACTION_START, at a writer's moment with no urgent work, fewer than 2 sectors ERASED, no erase in flight or
waiting, no SPOILED sector, no compaction and a FULL sector: the victim is the FULL sector of lowest first sequence
(R120). SPOILED_ERASE_START: the lowest SPOILED sector becomes ERASING (R122). Where a condition fails, neither
starts, and the command does nothing (assumption log 1). -/
def Obligations.CompactionAndSpoiledEraseStart : Prop :=
  (∀ s : State,
    let moment := s.writerReady = true ∧ s.urgentWork = none ∧ s.store.erase = none ∧ s.store.retErase = .nothing
    let spoiled := ∃ k : Fin 16, s.store.sectors[k].state = .spoiled
    (¬moment ∨ 2 ≤ s.sectorCount .erased ∨ spoiled ∨ s.store.compaction ≠ none ∨ s.sectorCount .full = 0 →
      exec .compactionStart s = .next s) ∧
    (¬moment ∨ ¬spoiled → exec .spoiledEraseStart s = .next s)) ∧
  ∀ s : State, s.writerReady = true → s.urgentWork = none → s.store.erase = none → s.store.retErase = .nothing →
    (s.sectorCount .erased < 2 → (∀ k : Fin 16, s.store.sectors[k].state ≠ .spoiled) → s.store.compaction = none →
      0 < s.sectorCount .full →
      ∃ v : Fin 16, exec .compactionStart s = .next { s with store := { s.store with compaction := some v } } ∧
        s.store.sectors[v].state = .full ∧
        ∀ k : Fin 16, s.store.sectors[k].state = .full →
          sectorAge s.store.sectors[v] ≤ sectorAge s.store.sectors[k]) ∧
    ∀ k : Fin 16, s.store.sectors[k].state = .spoiled → (∀ k' : Fin 16, k' < k → s.store.sectors[k'].state ≠ .spoiled) →
      exec .spoiledEraseStart s = .next { s with store := { s.store with
        sectors := s.store.sectors.set k { s.store.sectors[k] with state := .erasing },
        erase := some { sector := k, suspendAsked := false, suspended := false } } }

/-- ERASE_PHASE_START, when the copy phase finds no key, at a writer's moment with no urgent work, no log erase in
flight and no retained erase waiting: the victim becomes ERASING, or, marked for retirement, RETIRED (R118, R122). At
any other moment nothing starts, and the command does nothing (assumption log 1). No rule orders the erase phase
against a retained erase that waits: that the erase phase waits for it is the model's reading (assumption log 37).
ERASE_END of an erase not asked to suspend: a blank sector becomes ERASED, any other is RETIRED, and the compaction
ends (R122). R122 says so of an erase only: that the retirement of a marked victim ends the compaction too, also where
it leaves the store FAILED, is the model's reading (assumption log 36). A retirement programs the retire line, tells
STORE_DEGRADED, and leaves the store FAILED when fewer than 4 sectors remain (R125): STORE_FAILED is then the next
entry, a clear or an ADOPT that waits is answered STORE_FAULT, and a retained erase that waits is dropped and reported
(R126, R129, R147). -/
def Obligations.ErasePhaseAndEraseEnd : Prop :=
  ∀ (k : Fin 16) (residue line : Marred) (s : State), s.inReset = false → s.MemoriesCanonical →
    let erased := writeCells (Memory.clear s.flash (sectorAddr k 0) (sectorAddr k 0 + 2048)) (sectorAddr k 0) 2048 residue
    let retired (t : State) (before : Memory) : Prop :=
      t.store.sectors[k] = { state := .retired, marked := false, firstSeq := none, used := 0 } ∧
      t.flash = Memory.writeBytes flashDefault before (sectorAddr k 2040) (readBack (List.replicate 8 0x00) line) ∧
      t.store.erase = none ∧ t.store.compaction = none ∧ t.pub.dirty = true ∧
      t.TrailEntry s.pub.writeCount (trailBytes s.ride.number s.ride.time 0xFF .storeDegraded
        (byteOf (t.sectorCount .retired)) 0) ∧
      (16 - t.sectorCount .retired < 4 → StoreFails s t (s.pub.writeCount + 1)) ∧
      (4 ≤ 16 - t.sectorCount .retired → t.store.state = s.store.state ∧ t.store.retErase = s.store.retErase ∧
        t.exec = s.exec ∧ t.pub.writeCount = s.pub.writeCount + 1)
    let due := s.writerReady = true ∧ s.urgentWork = none ∧ s.store.erase = none ∧ s.store.retErase = .nothing ∧
      s.nextFresh k = none
    (s.store.compaction = none ∨ (s.store.compaction = some k ∧ ¬due) → exec (.erasePhaseStart line) s = .next s) ∧
    (s.store.compaction = some k → due → s.store.sectors[k].marked = false →
      exec (.erasePhaseStart line) s = .next { s with store := { s.store with
        sectors := s.store.sectors.set k { s.store.sectors[k] with state := .erasing },
        erase := some { sector := k, suspendAsked := false, suspended := false } } }) ∧
    (s.store.compaction = some k → due → s.store.sectors[k].marked = true →
      ∃ t, exec (.erasePhaseStart line) s = .next t ∧ retired t s.flash ∧ SameFaults s t) ∧
    (s.store.erase = some { sector := k, suspendAsked := false, suspended := false } →
      (residue = [] → ∀ o, o < 2048 → Memory.read flashDefault erased (sectorAddr k o) = 0xFF) ∧
      (allBlank (sectorBytes erased k) = true →
        ∃ t, exec (.eraseEnd residue line) s = .next t ∧ t.flash = erased ∧ t.pub.dirty = true ∧
          t.store = { s.store with
            erase := none, compaction := none,
            sectors := s.store.sectors.set k { state := .erased, marked := false, firstSeq := none, used := 0 } } ∧
          t.ram = s.ram ∧ SameFaults s t) ∧
      (allBlank (sectorBytes erased k) = false →
        ∃ t, exec (.eraseEnd residue line) s = .next t ∧ retired t erased ∧ SameFaults s t))

/-- WRITE_INHIBIT_EXPIRY ends the write inhibit (R112). ERASE_SUSPENDED: a suspend that was asked takes effect.
ERASE_RESUME: with no urgent item and no program, the erase runs again. An erase asked to suspend does not end before
it is suspended. In a FAILED store, with urgent work, with a program in flight, an erase is not resumed (R123, R126),
and the command does nothing (assumption log 1). Marking an urgent item of any kind asks a running erase to suspend
and leaves a suspended one as it is; an ordinary mark asks for nothing (R123). -/
def Obligations.InhibitSuspendAndResume : Prop :=
  (∀ (e : EraseOp) (s : State), s.store.erase = some e →
    let asked (t : State) : Prop :=
      t.store.erase = some (if e.suspended then e else { e with suspendAsked := true })
    asked s.markRide ∧ asked s.markQualifier ∧ (∀ it, asked (s.queueLog it)) ∧
    (∀ n r, s.Holds n r → asked (s.markRecord n true) ∧
      (s.store.rideEnding = true → asked (s.markRecord n false)) ∧
      (s.store.rideEnding = false → (s.markRecord n false).store.erase = some e)) ∧
    ∀ i occurrence frame k, ¬s.RetainedHolds i → s.RetainedSpare k → asked (s.requestRetained i occurrence frame)) ∧
  ∀ s : State, s.inReset = false →
    (∀ d, s.store.inhibitDue = some d →
      exec .writeInhibitExpiry s = .next { s.advanceTo d with store := { s.store with inhibitDue := none } }) ∧
    ∀ e, s.store.erase = some e →
      (e.suspendAsked = true → e.suspended = false → exec .eraseSuspended s =
        .next { s with store := { s.store with erase := some { e with suspended := true } } }) ∧
      (e.suspended = true → s.store.state = .ready → s.urgentWork = none → s.store.program = none →
        exec .eraseResume s = .next { s with store := { s.store with
          erase := some { e with suspendAsked := false, suspended := false } } }) ∧
      (e.suspended = false ∨ s.store.state ≠ .ready ∨ s.urgentWork ≠ none ∨ s.store.program ≠ none →
        exec .eraseResume s = .next s) ∧
      (e.suspendAsked = false ∨ e.suspended = true → exec .eraseSuspended s = .next s) ∧
      (e.suspendAsked = true → ∀ residue line, exec (.eraseEnd residue line) s = .next s)

/-- RETAINED_ENTRY_BEGIN, at a writer's moment whose first urgent work is a retained entry, and at no other, where the
command does nothing (R118; assumption log 1): the oldest queued entry is programmed. RETAINED_ENTRY_COMPLETION: an
entry that reads back makes its position valid and sets the publish-dirty mark. One that does not leaves it void and
sets no mark: the entry stays queued where it stood, reserved again at the lowest free position no queued entry has
reserved, and with none left it is dropped (R127, R128). -/
def Obligations.RetainedEntriesAreProgrammed : Prop :=
  (∀ (it : RetainedItem) (rest : List RetainedItem) (s : State), s.writerReady = true → s.urgentWork = some .retained →
    s.store.retQueue = it :: rest →
    exec .retainedEntryBegin s = .next { s with store := { s.store with
      retQueue := rest, program := some (.retained it) } }) ∧
  (∀ s : State, s.writerReady = false ∨ s.urgentWork ≠ some .retained → exec .retainedEntryBegin s = .next s) ∧
  ∀ (it : RetainedItem) (marred : Marred) (s : State), s.inReset = false → s.MemoriesCanonical →
    s.store.program = some (.retained it) →
    let bytes := retainedEntryBytes it
    let got := readBack bytes marred
    let base := retainedAddr it.pos 0
    let spare (k : Fin 16) : Prop := k ≠ it.pos ∧ s.store.retPos[k] = .free ∧ ∀ x ∈ s.store.retQueue, x.pos ≠ k
    let queuedAs (q : List RetainedItem) : Prop := ∃ t, exec (.retainedEntryCompletion marred) s = .next t ∧
      t.store = { s.store with program := none, retPos := s.store.retPos.set it.pos .void, retQueue := q } ∧
      (∀ a, a < base ∨ base + 64 ≤ a → t.flashByte a = s.flashByte a) ∧
      (got.take 56 ≠ bytes.take 56 → ∀ k, 56 ≤ k → k < 64 → t.flashByte (base + k) = s.flashByte (base + k)) ∧
      t.pub = s.pub ∧ t.ram = s.ram ∧ SameFaults s t ∧ t.exec = s.exec
    (got = bytes →
      ∃ t, exec (.retainedEntryCompletion marred) s = .next t ∧ t.pub = { s.pub with dirty := true } ∧
        (∀ k, k < 64 → t.flashByte (base + k) = byteAt bytes k) ∧
        (∀ a, a < base ∨ base + 64 ≤ a → t.flashByte a = s.flashByte a) ∧
        t.store = { s.store with program := none, retPos := s.store.retPos.set it.pos (.valid it.slot) } ∧
        t.ram = s.ram ∧ SameFaults s t ∧ t.exec = s.exec) ∧
    (∀ k, got ≠ bytes → spare k → (∀ j < k, ¬spare j) → queuedAs ({ it with pos := k } :: s.store.retQueue)) ∧
    (got ≠ bytes → (∀ k, ¬spare k) → queuedAs s.store.retQueue)

/-- RETAINED_ERASE_START: a retained erase asked of a READY store starts once the inhibit has ended, no log erase is
in flight, no program runs and no urgent work waits, and at no other moment, where the command does nothing (R112,
R126, R129; assumption log 1). RETAINED_ERASE_END: the positions become what the sector reads, queued entries are kept
in their order as far as free positions remain, each at the next lowest free position, and the request is answered
with the count, OK if every position reads free (R129, R153; assumption log 26). -/
def Obligations.RetainedEraseEmptiesTheSector : Prop :=
  (∀ s : State, s.inReset = false → s.store.retErase = .waiting → s.store.state = .ready → s.store.inhibitDue = none →
    s.store.erase = none → s.store.program = none → s.urgentWork = none →
    exec .retainedEraseStart s = .next { s with store := { s.store with retErase := .running } }) ∧
  (∀ s : State, s.store.retErase ≠ .waiting ∨ s.store.state ≠ .ready ∨ s.store.inhibitDue ≠ none ∨
    s.store.erase ≠ none ∨ s.store.program ≠ none ∨ s.urgentWork ≠ none → exec .retainedEraseStart s = .next s) ∧
  ∀ (residue : Marred) (s : State), s.inReset = false → s.MemoriesCanonical → s.store.retErase = .running →
    ∃ t, exec (.retainedEraseEnd residue) s = .next t ∧ t.store.retErase = .nothing ∧ t.pub.dirty = true ∧
      t.flash = erasedRetained s.flash residue ∧ t.store.retPos = readPositions t.flash ∧
      (residue = [] → ∀ k : Fin 16, t.store.retPos[k] = .free) ∧
      (let free := freePositions t.store.retPos;
        (∀ k, k ∈ free ↔ t.store.retPos[k] = .free) ∧ free.Pairwise (· < ·) ∧
        t.store.retQueue.length = min s.store.retQueue.length free.length ∧
        ∀ (n : Nat) (x : RetainedItem), t.store.retQueue[n]? = some x →
          ∃ (y : RetainedItem) (k : Fin 16), s.store.retQueue[n]? = some y ∧ free[n]? = some k ∧ x = { y with pos := k }) ∧
      (∀ p, s.exec.taken = some (.eraseRetained p) → t.Answered p
        (if ∀ k : Fin 16, t.store.retPos[k] = .free then .ok else .storeFault) [byteOf t.retainedCount]) ∧
      (∀ k o, o < 2048 → t.flashByte (sectorAddr k o) = s.flashByte (sectorAddr k o)) ∧ SameFaults s t

/-! ### Encodings -/

/-- An image and a retained entry read back as they were written: the walk of a sector parses the bytes of an image of
any kind into that image, valid, with its sequence, ride number and body (R113, R130, 11.7); the bytes of a retained
entry make its position valid for its slot, and their first 24 bytes are what READ RETAINED answers (R127, R152). -/
def Obligations.ImagesAndRetainedEntriesReadBack : Prop :=
  (∀ (kind : ImageKind) (seq ride : Nat) (body rest : List Byte) (k : Fin 16) (line : Nat), seq < 4294967296 →
    ride < 65536 → body.length + 16 = 8 * imageLines kind → line + imageLines kind ≤ 255 →
    parseImage k line (imageBytes kind seq ride body ++ rest) =
      some { sector := k, line := line, kind := kind, seq := seq, ride := ride, valid := true, body := body }) ∧
  ∀ it : RetainedItem, (retainedEntryBytes it).length = 64 ∧ retainedPosOf (retainedEntryBytes it) = .valid it.slot ∧
    (retainedEntryBytes it).take 24 = [byteOf it.slot.val] ++ bytes16 it.ride ++
      [byteOf it.occurrence, byteOf (if it.frame.isSome then 1 else 0)] ++
      (match it.frame with
        | some f => f.toList
        | none => List.replicate 19 0xFF)

/-- The body of a RECORD image gives back the record it was written from, its frames with it, and the body of a QUALIFIER
image each slot's state, M and counts (R113, R131, R132, 11.7). -/
def Obligations.ImageBodiesReadBack : Prop :=
  (∀ (r : Record) (frames : Vector Frame 64), r.occurrence < 256 → r.onset < 65536 → r.firstConf < 65536 →
    r.latestConf < 65536 → r.activity < 65536 → r.fade < 16 → r.forget < 256 →
    let b := rebuiltFrom r.slot (recordBody r frames)
    (recordBody r frames).length = 56 ∧ byteAt (recordBody r frames) 0 = byteOf r.slot.val ∧
    b.record = { r with first := none, latest := none, persisted := true, dirty := false, urgent := false } ∧
    b.first = r.first.map (fun f => frames[f]) ∧ b.latest = r.latest.map (fun f => frames[f])) ∧
  ∀ (qs : Vector Qualifier 192) (im : Image) (i : Slot), im.body = qualifierBody qs →
    -128 ≤ qs[i].m → qs[i].m ≤ 127 → qs[i].fade < 16 → qs[i].forget < 256 →
    im.body.length = 768 ∧ qualifierFrom (some im) i.val = { qs[i] with
      unrecorded := false, tested := false, failed := false, passedMature := false }

/-! ### What every step keeps -/

/-- Reset leaves every law in force. -/
def Obligations.ResetMeetsEveryLaw : Prop :=
  State.reset.MemoriesCanonical ∧ State.reset.TrailLaw ∧ State.reset.GenerationLaw ∧ State.reset.IgnLaw ∧
  State.reset.LampsCurrent ∧ State.reset.AttentionCurrent ∧ State.reset.TakenLaw ∧ State.reset.QualifierRanges ∧
  State.reset.BarLaw ∧ State.reset.RecordLaw ∧ State.reset.CountLaw ∧ State.reset.FrameLaw ∧ State.reset.RamShows

/-- Every step keeps both memories in canonical form. -/
def Obligations.StepKeepsTheMemoriesCanonical : Prop :=
  ∀ s t : State, s.MemoriesCanonical → step s = .next t → t.MemoriesCanonical

/-- Every step keeps R165's law of the trail counts, and the generation even exactly while no pass is in flight (R159). -/
def Obligations.StepKeepsTheTrailAndGenerationLaws : Prop :=
  ∀ s t : State, s.TrailLaw → s.GenerationLaw → step s = .next t → t.TrailLaw ∧ t.GenerationLaw

/-- Every step keeps the debounced level high in RIDING and low in NO_RIDE (R81), and a cell TAKEN exactly while the
executor holds its port's request, so that at most one is (R135, R139). -/
def Obligations.StepKeepsTheIgnAndExecutorLaws : Prop :=
  ∀ s t : State, step s = .next t → (s.IgnLaw → t.IgnLaw) ∧ (s.TakenLaw → t.TakenLaw)

/-- After every step each lamp shows what its inputs give (R105, R106), and each attention line stands as its two
conditions give (R171). -/
def Obligations.StepKeepsLampsAndAttentionCurrent : Prop :=
  ∀ s t : State, step s = .next t → (s.LampsCurrent → t.LampsCurrent) ∧ (s.AttentionCurrent → t.AttentionCurrent)

/-- Every step keeps every maturity within −128..+127 and the counts in their ranges (R26), and a slot barred exactly at a
held count of 3 (R10, R11). -/
def Obligations.StepKeepsTheQualifierAndBarLaws : Prop :=
  ∀ s t : State, step s = .next t → (s.QualifierRanges → t.QualifierRanges) ∧ (s.BarLaw → t.BarLaw)

/-- Every step keeps each record in step with its slot's qualifier, at most one for a slot, the unrecorded flags right
(R42, R43), and no frame referenced twice (R70). It keeps R51's laws too: occurrence 0 exactly in PENDING and within
1..255 otherwise, first-confirmed ≤ latest-confirmed ≤ current ride; at RESTORE_FINISH they hold where the records that
flash gives obey them under the ride number that flash gives. -/
def Obligations.StepKeepsTheRecordAndFrameLaws : Prop :=
  ∀ s t : State, s.RecordLaw → s.FrameLaw → step s = .next t → t.RecordLaw ∧ t.FrameLaw ∧
    (s.CountLaw →
      (s.ride.state = .waiting → s.pending.head? = some .restoreFinish →
        ∀ x ∈ keptRecords (parsedImages s.flash), x.record.CountsRight (restoredRide (parsedImages s.flash))) →
      t.CountLaw)

/-- After every step the exchange RAM shows the part's own state: the generation, the trail counts, the state bytes of the
cells, 0x00 in the unassigned space (R134, R159, R165, R173), and a release byte that reads 0, but for the value of the
port's last release while that waits for the publisher (R168, R176). -/
def Obligations.StepKeepsTheExchangeRamCurrent : Prop :=
  ∀ s t : State, s.MemoriesCanonical → s.RamShows → step s = .next t → t.RamShows
end

