-- ==== Sys2Proof/Laws/Images.lean ====
section
/-!
SUPPORT. What restore reads from flash: a byte no cell lists reads erased, a sector without cells is ERASED and holds no
image, and an image parsed from a sector names that sector.
-/

namespace Sys2Proof.Machine

/-- A byte that no cell lists reads as every unlisted byte does. -/
theorem Memory.read_unlisted (dflt : Byte) (m : Memory) (a : Nat) (h : ∀ c ∈ m, c.1 ≠ a) : m.read dflt a = dflt := by
  induction m with
  | nil => rfl
  | cons c rest ih =>
    rw [Memory.read, if_neg (h c List.mem_cons_self)]
    exact ih fun x hx => h x (List.mem_cons_of_mem _ hx)

/-- A log sector without cells reads blank. -/
theorem allBlank_of_unlisted (flash : Memory) (k : Fin 16)
    (h : ∀ c ∈ flash, c.1 < 2048 * k.val ∨ 2048 * k.val + 2048 ≤ c.1) : allBlank (sectorBytes flash k) = true := by
  simp only [allBlank, sectorBytes, Memory.readBytes, List.all_eq_true, List.mem_map, List.mem_range]
  rintro _ ⟨i, hi, rfl⟩
  have hb : i < 2048 := hi
  refine decide_eq_true (Memory.read_unlisted _ _ _ fun c hc he => ?_)
  have ha : sectorAddr k 0 = 2048 * k.val := rfl
  have := h c hc
  omega

/-- What begins on blank bytes is blank. -/
theorem allBlank_drop (bs : List Byte) (n : Nat) (h : allBlank bs = true) : allBlank (bs.drop n) = true := by
  simp only [allBlank, List.all_eq_true] at h ⊢
  exact fun b hb => h b (List.mem_of_mem_drop hb)

/-- A blank log sector is ERASED and holds no image (R130). -/
theorem classifySector_of_blank (flash : Memory) (k : Fin 16) (h : allBlank (sectorBytes flash k) = true) :
    classifySector flash k = ({ state := .erased, marked := false, firstSeq := none, used := 0 }, [], .blank 0) := by
  simp only [classifySector, allBlank_drop _ _ h, h, reduceIte, Bool.true_eq_false]

/-- An image parsed in sector `k` names that sector. -/
theorem parseImage_sector (k : Fin 16) (line : Nat) (bs : List Byte) (im : Image) (h : parseImage k line bs = some im) :
    im.sector = k := by
  unfold parseImage at h
  repeat' split at h
  all_goals cases h
  all_goals rfl

/-- Every image of the walk of sector `k` names that sector. -/
theorem walk_sector (k : Fin 16) (fuel line : Nat) (bs : List Byte) : ∀ im ∈ (walk k fuel line bs).1, im.sector = k := by
  induction fuel generalizing line bs with
  | zero => simp [walk]
  | succ n ih =>
    intro im
    unfold walk
    repeat' split
    · simp
    · simp
    · simp
    · intro h
      rcases List.mem_cons.mp h with rfl | h
      · exact parseImage_sector _ _ _ _ ‹_›
      · exact ih _ _ im h

/-- The images restore finds in a log sector name that sector. -/
theorem classifySector_sector (flash : Memory) (k : Fin 16) : ∀ im ∈ (classifySector flash k).2.1, im.sector = k := by
  intro im
  unfold classifySector
  simp only
  repeat' split
  · simp
  · simp
  · simp
  all_goals
    rename_i hw
    intro h
    exact walk_sector k _ _ _ im (by rw [hw]; exact h)

/-- With cells in one log sector alone, restore parses that sector's images alone (R130). -/
theorem parsedImages_of_one_sector (flash : Memory) (k : Fin 16)
    (h : ∀ c ∈ flash, 2048 * k.val ≤ c.1 ∧ c.1 < 2048 * k.val + 2048) : ∀ y ∈ parsedImages flash, y.sector = k := by
  intro y hy
  simp only [parsedImages, classifyAll, List.flatMap_map, List.mem_flatMap] at hy
  obtain ⟨j, -, hj⟩ := hy
  by_cases hjk : j = k
  · exact hjk ▸ classifySector_sector flash j y hj
  · rw [classifySector_of_blank flash j (allBlank_of_unlisted flash j fun c hc => by
      have := h c hc
      have : j.val ≠ k.val := fun e => hjk (Fin.ext e)
      omega)] at hj
    cases hj

/-- Where only one member of a list gives anything, the whole gives what it gives. -/
theorem flatMap_of_one {α β : Type} (l : List α) (f : α → List β) (k : α) (hn : l.Nodup) (hk : k ∈ l)
    (h : ∀ j ∈ l, j ≠ k → f j = []) : l.flatMap f = f k := by
  induction l with
  | nil => cases hk
  | cons j rest ih =>
    rw [List.flatMap_cons]
    obtain ⟨hj, hr⟩ := List.nodup_cons.mp hn
    rcases List.mem_cons.mp hk with rfl | hm
    · rw [List.flatMap_eq_nil_iff.mpr fun i hi => h i (List.mem_cons_of_mem _ hi) (fun e => hj (e ▸ hi)), List.append_nil]
    · rw [h j List.mem_cons_self (fun e => hj (e ▸ hm)), List.nil_append]
      exact ih hr hm fun i hi => h i (List.mem_cons_of_mem _ hi)

/-- With cells in one log sector alone, restore's images are those of that sector (R130). -/
theorem parsedImages_eq_of_one_sector (flash : Memory) (k : Fin 16)
    (h : ∀ c ∈ flash, 2048 * k.val ≤ c.1 ∧ c.1 < 2048 * k.val + 2048) :
    parsedImages flash = (classifySector flash k).2.1 := by
  simp only [parsedImages, classifyAll, List.flatMap_map]
  refine flatMap_of_one _ _ k (List.nodup_finRange 16) (List.mem_finRange k) fun j _ hjk => ?_
  rw [classifySector_of_blank flash j (allBlank_of_unlisted flash j fun c hc => by
    have := h c hc
    have : j.val ≠ k.val := fun e => hjk (Fin.ext e)
    omega)]

end Sys2Proof.Machine
end

