-- ==== Sys2Proof/Laws/Memory.lean ====
section
/-!
SUPPORT. The laws of the two memories: a read after a write, and that every operation on a memory keeps its canonical
form.
-/

namespace Sys2Proof.Machine

/-- A read at the address written gives the byte written. -/
theorem Memory.read_write_same (dflt : Byte) (m : Memory) (a : Nat) (b : Byte) (lo : Nat)
    (h : Memory.wfAbove dflt lo m = true) : Memory.read dflt (Memory.write dflt m a b) a = b := by
  induction m generalizing lo with
  | nil => by_cases hb : b = dflt <;> simp [Memory.write, Memory.read, hb]
  | cons c rest ih =>
    simp only [Memory.wfAbove, Bool.and_eq_true, decide_eq_true_eq] at h
    have skip : ∀ (n : Nat) (r : Memory), a < n → Memory.wfAbove dflt n r = true → Memory.read dflt r a = dflt := by
      intro n r hn hr
      induction r generalizing n with
      | nil => rfl
      | cons d r ihr =>
        simp only [Memory.wfAbove, Bool.and_eq_true, decide_eq_true_eq] at hr
        have : d.1 ≠ a := by omega
        simp only [Memory.read, this, if_false]
        exact ihr (d.1 + 1) (by omega) hr.2
    unfold Memory.write
    by_cases h1 : a < c.1
    · by_cases hb : b = dflt
      · simp only [h1, hb, if_true]
        exact skip (a + 1) (c :: rest) (by omega) (by simp [Memory.wfAbove, h.1.2, h.2]; omega)
      · simp [h1, hb, Memory.read]
    · by_cases h2 : a = c.1
      · by_cases hb : b = dflt
        · simp only [h2, hb, if_true, if_false, Nat.lt_irrefl]
          rw [← h2]; exact skip (c.1 + 1) rest (by omega) h.2
        · simp [h2, hb, Memory.read]
      · have h3 : c.1 ≠ a := fun e => h2 e.symm
        simp only [h1, h2, if_false, Memory.read, h3]
        exact ih _ h.2

/-- A write leaves every other address as it was. -/
theorem Memory.read_write_other (dflt : Byte) (m : Memory) (a x : Nat) (b : Byte) (lo : Nat) (hx : x ≠ a)
    (h : Memory.wfAbove dflt lo m = true) : Memory.read dflt (Memory.write dflt m a b) x = Memory.read dflt m x := by
  have hx' : a ≠ x := fun e => hx e.symm
  induction m generalizing lo with
  | nil => by_cases hb : b = dflt <;> simp [Memory.write, Memory.read, hb, hx']
  | cons c rest ih =>
    simp only [Memory.wfAbove, Bool.and_eq_true, decide_eq_true_eq] at h
    unfold Memory.write
    by_cases h1 : a < c.1
    · by_cases hb : b = dflt <;> simp [h1, hb, Memory.read, hx']
    · by_cases h2 : a = c.1
      · have h3 : c.1 ≠ x := fun e => hx (e ▸ h2.symm)
        by_cases hb : b = dflt
        · simp [h2, hb, Memory.read, h3]
        · simp [h2, hb, Memory.read, h3]
      · simp only [h1, h2, if_false, Memory.read]
        rw [ih _ h.2]

theorem Memory.wfAbove_mono (dflt : Byte) (m : Memory) (lo lo' : Nat) (hl : lo' ≤ lo)
    (h : Memory.wfAbove dflt lo m = true) : Memory.wfAbove dflt lo' m = true := by
  cases m with
  | nil => rfl
  | cons c rest =>
    simp only [Memory.wfAbove, Bool.and_eq_true, decide_eq_true_eq] at h ⊢
    exact ⟨⟨by omega, h.1.2⟩, h.2⟩

theorem Memory.wfAbove_write (dflt : Byte) (m : Memory) (a : Nat) (b : Byte) (lo : Nat) (ha : lo ≤ a)
    (h : Memory.wfAbove dflt lo m = true) : Memory.wfAbove dflt lo (Memory.write dflt m a b) = true := by
  induction m generalizing lo with
  | nil => by_cases hb : b = dflt <;> simp [Memory.write, Memory.wfAbove, hb, ha]
  | cons c rest ih =>
    have h' := h
    simp only [Memory.wfAbove, Bool.and_eq_true, decide_eq_true_eq] at h
    unfold Memory.write
    by_cases h1 : a < c.1
    · by_cases hb : b = dflt
      · simp only [h1, hb, if_true]; exact h'
      · simp [h1, hb, Memory.wfAbove, ha, h.1.2, h.2]
    · by_cases h2 : a = c.1
      · by_cases hb : b = dflt
        · simp only [hb, if_true, h2]
          simpa using Memory.wfAbove_mono dflt rest (c.1 + 1) lo (by omega) h.2
        · simp [h2, hb, Memory.wfAbove, h.2, h.1.1]
      · simp only [h1, h2, if_false, Memory.wfAbove, Bool.and_eq_true, decide_eq_true_eq]
        exact ⟨h.1, ih _ (by omega) h.2⟩

/-- A write keeps the canonical form. -/
theorem Memory.wf_write (dflt : Byte) (m : Memory) (a : Nat) (b : Byte) (h : Memory.wf dflt m = true) :
    Memory.wf dflt (Memory.write dflt m a b) = true :=
  Memory.wfAbove_write dflt m a b 0 (Nat.zero_le a) h

/-- Writing consecutive bytes keeps the canonical form. -/
theorem Memory.wf_writeBytes (dflt : Byte) (bs : List Byte) (m : Memory) (a : Nat) (h : Memory.wf dflt m = true) :
    Memory.wf dflt (Memory.writeBytes dflt m a bs) = true := by
  induction bs generalizing m a with
  | nil => exact h
  | cons b rest ih => exact ih _ _ (Memory.wf_write dflt m a b h)

/-- Writing consecutive bytes leaves every address outside them as it was. -/
theorem Memory.read_writeBytes_outside (dflt : Byte) (bs : List Byte) (m : Memory) (a x : Nat)
    (hx : x < a ∨ a + bs.length ≤ x) (h : Memory.wf dflt m = true) :
    Memory.read dflt (Memory.writeBytes dflt m a bs) x = Memory.read dflt m x := by
  induction bs generalizing m a with
  | nil => rfl
  | cons b rest ih =>
    simp only [List.length_cons] at hx
    unfold Memory.writeBytes
    rw [ih _ _ (by omega) (Memory.wf_write dflt m a b h)]
    exact Memory.read_write_other dflt m a x b 0 (by omega) h

/-- Writing consecutive bytes: the `i`-th address reads the `i`-th byte. -/
theorem Memory.read_writeBytes_inside (dflt : Byte) (bs : List Byte) (m : Memory) (a i : Nat) (hi : i < bs.length)
    (h : Memory.wf dflt m = true) : Memory.read dflt (Memory.writeBytes dflt m a bs) (a + i) = bs[i] := by
  induction bs generalizing m a i with
  | nil => exact absurd hi (Nat.not_lt_zero i)
  | cons b rest ih =>
    unfold Memory.writeBytes
    cases i with
    | zero =>
      rw [Memory.read_writeBytes_outside dflt rest _ (a + 1) (a + 0) (by omega) (Memory.wf_write dflt m a b h)]
      exact Memory.read_write_same dflt m a b 0 h
    | succ i =>
      have hi' : i < rest.length := by simpa using hi
      have := ih (Memory.write dflt m a b) (a + 1) i hi' (Memory.wf_write dflt m a b h)
      rw [show a + (i + 1) = a + 1 + i by omega, this]
      rfl

/-- Clearing a range keeps the canonical form. -/
theorem Memory.wf_clear (dflt : Byte) (m : Memory) (lo hi : Nat) (h : Memory.wf dflt m = true) :
    Memory.wf dflt (Memory.clear m lo hi) = true := by
  unfold Memory.wf Memory.clear at *
  generalize 0 = b at *
  induction m generalizing b with
  | nil => rfl
  | cons c rest ih =>
    simp only [Memory.wfAbove, Bool.and_eq_true, decide_eq_true_eq] at h
    rw [List.filter_cons]
    split
    · simp only [Memory.wfAbove, Bool.and_eq_true, decide_eq_true_eq]
      exact ⟨h.1, ih _ h.2⟩
    · exact Memory.wfAbove_mono dflt _ (c.1 + 1) b (by omega) (ih _ h.2)

/-- Single cells of flash that read something of their own keep the canonical form. -/
theorem wf_writeCells (cells : Marred) (m : Memory) (base limit : Nat) (h : Memory.wf flashDefault m = true) :
    Memory.wf flashDefault (writeCells m base limit cells) = true := by
  unfold writeCells
  induction cells generalizing m with
  | nil => exact h
  | cons c rest ih =>
    simp only [List.foldl_cons]
    apply ih
    split
    · exact Memory.wf_write _ _ _ _ h
    · exact h

/-- A cut program keeps the canonical form. -/
theorem wf_cutProgram (m : Memory) (base : Nat) (bytes : List Byte) (order : List Nat) (cut : FlashCut)
    (h : Memory.wf flashDefault m = true) : Memory.wf flashDefault (cutProgram m base bytes order cut) = true := by
  have lines : ∀ (l : List Nat) (m : Memory), Memory.wf flashDefault m = true →
      Memory.wf flashDefault (l.foldl
        (fun m ln => Memory.writeBytes flashDefault m (base + 8 * ln) ((bytes.drop (8 * ln)).take 8)) m) = true := by
    intro l
    induction l with
    | nil => exact fun _ h => h
    | cons x l ih => exact fun m h => ih _ (Memory.wf_writeBytes _ _ _ _ h)
  unfold cutProgram
  simp only
  split
  · exact wf_writeCells _ _ _ _ (lines _ _ h)
  · exact lines _ _ h

/-- A cut image keeps the canonical form. -/
theorem wf_cutImage (m : Memory) (base : Nat) (bytes : List Byte) (cut : FlashCut)
    (h : Memory.wf flashDefault m = true) : Memory.wf flashDefault (cutImage m base bytes cut) = true := by
  unfold cutImage
  simp only
  split
  · exact Memory.wf_write _ _ _ _ (wf_cutProgram _ _ _ _ _ h)
  · exact wf_cutProgram _ _ _ _ _ h

/-- A cut erase keeps the canonical form. -/
theorem wf_cutErase (m : Memory) (k : Fin 16) (erased : Marred) (h : Memory.wf flashDefault m = true) :
    Memory.wf flashDefault (cutErase m k erased) = true := by
  unfold cutErase
  simp only
  split
  · exact wf_writeCells _ _ _ _ h
  · exact Memory.wf_write _ _ _ _ (wf_writeCells _ _ _ _ h)

/-- A cut image has no programmed complete mark (R111). -/
theorem cutImage_mark (m : Memory) (base : Nat) (bytes : List Byte) (cut : FlashCut)
    (h : Memory.wf flashDefault m = true) :
    Memory.read flashDefault (cutImage m base bytes cut) (base + 10) ≠ 0x00 := by
  unfold cutImage
  simp only
  split
  · rw [Memory.read_write_same _ _ _ _ 0 (wf_cutProgram _ _ _ _ _ h)]
    decide
  · assumption

/-- What a cut program leaves in flash has the canonical form. -/
theorem State.wf_cutProgramFlash (s : State) (cut : FlashCut) (h : Memory.wf flashDefault s.flash = true) :
    Memory.wf flashDefault (s.cutProgramFlash cut) = true := by
  unfold State.cutProgramFlash
  split
  · exact wf_cutImage _ _ _ _ h
  · exact wf_cutProgram _ _ _ _ _ h
  · exact h

/-- What a cut log erase leaves in flash has the canonical form. -/
theorem State.wf_cutEraseFlash (s : State) (erased : Marred) (m : Memory) (h : Memory.wf flashDefault m = true) :
    Memory.wf flashDefault (s.cutEraseFlash erased m) = true := by
  unfold State.cutEraseFlash
  split
  · exact wf_cutErase _ _ _ h
  · exact h

/-- What a reset leaves in flash has the canonical form. -/
theorem State.wf_cutFlash (s : State) (cut : FlashCut) (h : Memory.wf flashDefault s.flash = true) :
    Memory.wf flashDefault (s.cutFlash cut) = true := by
  have hm := s.wf_cutEraseFlash cut.erased _ (s.wf_cutProgramFlash cut h)
  unfold State.cutFlash
  simp only
  split
  · exact wf_writeCells _ _ _ _ hm
  all_goals exact hm

/-- Memory at reset release has the canonical form. -/
theorem reset_memories_wf :
    Memory.wf ramDefault State.reset.ram = true ∧ Memory.wf flashDefault State.reset.flash = true := ⟨rfl, rfl⟩

end Sys2Proof.Machine
end

