-- ==== Sys2Proof/Laws/State.lean ====
section
/-!
SUPPORT. The small lemmas of the record updates of State: one per field an update leaves alone, and what the update
puts in place.
-/

namespace Sys2Proof.Machine

variable (s : State)

/-! ### setPort -/

@[simp] theorem State.setPort_pending (p : Port) (ps : PortState) : (s.setPort p ps).pending = s.pending := by cases p <;> rfl
@[simp] theorem State.setPort_resetn (p : Port) (ps : PortState) : (s.setPort p ps).resetn = s.resetn := by cases p <;> rfl
@[simp] theorem State.setPort_supgood (p : Port) (ps : PortState) : (s.setPort p ps).supgood = s.supgood := by cases p <;> rfl
@[simp] theorem State.setPort_ign (p : Port) (ps : PortState) : (s.setPort p ps).ign = s.ign := by cases p <;> rfl
@[simp] theorem State.setPort_part (p : Port) (ps : PortState) : (s.setPort p ps).part = s.part := by cases p <;> rfl
@[simp] theorem State.setPort_svc (p : Port) (ps : PortState) : (s.setPort p ps).svc = s.svc := by cases p <;> rfl
@[simp] theorem State.setPort_now (p : Port) (ps : PortState) : (s.setPort p ps).now = s.now := by cases p <;> rfl
@[simp] theorem State.setPort_ram (p : Port) (ps : PortState) : (s.setPort p ps).ram = s.ram := by cases p <;> rfl
@[simp] theorem State.setPort_slots (p : Port) (ps : PortState) : (s.setPort p ps).slots = s.slots := by cases p <;> rfl
@[simp] theorem State.setPort_quals (p : Port) (ps : PortState) : (s.setPort p ps).quals = s.quals := by cases p <;> rfl
@[simp] theorem State.setPort_profiles (p : Port) (ps : PortState) : (s.setPort p ps).profiles = s.profiles := by cases p <;> rfl
@[simp] theorem State.setPort_records (p : Port) (ps : PortState) : (s.setPort p ps).records = s.records := by cases p <;> rfl
@[simp] theorem State.setPort_frames (p : Port) (ps : PortState) : (s.setPort p ps).frames = s.frames := by cases p <;> rfl
@[simp] theorem State.setPort_ride (p : Port) (ps : PortState) : (s.setPort p ps).ride = s.ride := by cases p <;> rfl
@[simp] theorem State.setPort_store (p : Port) (ps : PortState) : (s.setPort p ps).store = s.store := by cases p <;> rfl
@[simp] theorem State.setPort_flash (p : Port) (ps : PortState) : (s.setPort p ps).flash = s.flash := by cases p <;> rfl
@[simp] theorem State.setPort_exec (p : Port) (ps : PortState) : (s.setPort p ps).exec = s.exec := by cases p <;> rfl
@[simp] theorem State.setPort_pub (p : Port) (ps : PortState) : (s.setPort p ps).pub = s.pub := by cases p <;> rfl

/-! ### setSlot -/

@[simp] theorem State.setSlot_pending (i : Slot) (e : SlotEngine) : (s.setSlot i e).pending = s.pending := rfl
@[simp] theorem State.setSlot_resetn (i : Slot) (e : SlotEngine) : (s.setSlot i e).resetn = s.resetn := rfl
@[simp] theorem State.setSlot_supgood (i : Slot) (e : SlotEngine) : (s.setSlot i e).supgood = s.supgood := rfl
@[simp] theorem State.setSlot_ign (i : Slot) (e : SlotEngine) : (s.setSlot i e).ign = s.ign := rfl
@[simp] theorem State.setSlot_part (i : Slot) (e : SlotEngine) : (s.setSlot i e).part = s.part := rfl
@[simp] theorem State.setSlot_svc (i : Slot) (e : SlotEngine) : (s.setSlot i e).svc = s.svc := rfl
@[simp] theorem State.setSlot_now (i : Slot) (e : SlotEngine) : (s.setSlot i e).now = s.now := rfl
@[simp] theorem State.setSlot_ram (i : Slot) (e : SlotEngine) : (s.setSlot i e).ram = s.ram := rfl
@[simp] theorem State.setSlot_fp (i : Slot) (e : SlotEngine) : (s.setSlot i e).fp = s.fp := rfl
@[simp] theorem State.setSlot_bp (i : Slot) (e : SlotEngine) : (s.setSlot i e).bp = s.bp := rfl
@[simp] theorem State.setSlot_quals (i : Slot) (e : SlotEngine) : (s.setSlot i e).quals = s.quals := rfl
@[simp] theorem State.setSlot_profiles (i : Slot) (e : SlotEngine) : (s.setSlot i e).profiles = s.profiles := rfl
@[simp] theorem State.setSlot_records (i : Slot) (e : SlotEngine) : (s.setSlot i e).records = s.records := rfl
@[simp] theorem State.setSlot_frames (i : Slot) (e : SlotEngine) : (s.setSlot i e).frames = s.frames := rfl
@[simp] theorem State.setSlot_ride (i : Slot) (e : SlotEngine) : (s.setSlot i e).ride = s.ride := rfl
@[simp] theorem State.setSlot_store (i : Slot) (e : SlotEngine) : (s.setSlot i e).store = s.store := rfl
@[simp] theorem State.setSlot_flash (i : Slot) (e : SlotEngine) : (s.setSlot i e).flash = s.flash := rfl
@[simp] theorem State.setSlot_exec (i : Slot) (e : SlotEngine) : (s.setSlot i e).exec = s.exec := rfl
@[simp] theorem State.setSlot_pub (i : Slot) (e : SlotEngine) : (s.setSlot i e).pub = s.pub := rfl
@[simp] theorem State.setSlot_port (i : Slot) (e : SlotEngine) (x : Port) : (s.setSlot i e).port x = s.port x := by cases x <;> rfl

/-! ### setQual -/

@[simp] theorem State.setQual_pending (i : Slot) (q : Qualifier) : (s.setQual i q).pending = s.pending := rfl
@[simp] theorem State.setQual_resetn (i : Slot) (q : Qualifier) : (s.setQual i q).resetn = s.resetn := rfl
@[simp] theorem State.setQual_supgood (i : Slot) (q : Qualifier) : (s.setQual i q).supgood = s.supgood := rfl
@[simp] theorem State.setQual_ign (i : Slot) (q : Qualifier) : (s.setQual i q).ign = s.ign := rfl
@[simp] theorem State.setQual_part (i : Slot) (q : Qualifier) : (s.setQual i q).part = s.part := rfl
@[simp] theorem State.setQual_svc (i : Slot) (q : Qualifier) : (s.setQual i q).svc = s.svc := rfl
@[simp] theorem State.setQual_now (i : Slot) (q : Qualifier) : (s.setQual i q).now = s.now := rfl
@[simp] theorem State.setQual_ram (i : Slot) (q : Qualifier) : (s.setQual i q).ram = s.ram := rfl
@[simp] theorem State.setQual_fp (i : Slot) (q : Qualifier) : (s.setQual i q).fp = s.fp := rfl
@[simp] theorem State.setQual_bp (i : Slot) (q : Qualifier) : (s.setQual i q).bp = s.bp := rfl
@[simp] theorem State.setQual_slots (i : Slot) (q : Qualifier) : (s.setQual i q).slots = s.slots := rfl
@[simp] theorem State.setQual_profiles (i : Slot) (q : Qualifier) : (s.setQual i q).profiles = s.profiles := rfl
@[simp] theorem State.setQual_records (i : Slot) (q : Qualifier) : (s.setQual i q).records = s.records := rfl
@[simp] theorem State.setQual_frames (i : Slot) (q : Qualifier) : (s.setQual i q).frames = s.frames := rfl
@[simp] theorem State.setQual_ride (i : Slot) (q : Qualifier) : (s.setQual i q).ride = s.ride := rfl
@[simp] theorem State.setQual_store (i : Slot) (q : Qualifier) : (s.setQual i q).store = s.store := rfl
@[simp] theorem State.setQual_flash (i : Slot) (q : Qualifier) : (s.setQual i q).flash = s.flash := rfl
@[simp] theorem State.setQual_exec (i : Slot) (q : Qualifier) : (s.setQual i q).exec = s.exec := rfl
@[simp] theorem State.setQual_pub (i : Slot) (q : Qualifier) : (s.setQual i q).pub = s.pub := rfl
@[simp] theorem State.setQual_port (i : Slot) (q : Qualifier) (x : Port) : (s.setQual i q).port x = s.port x := by cases x <;> rfl

/-! ### setRecord -/

@[simp] theorem State.setRecord_pending (i : Fin 48) (r : Option Record) : (s.setRecord i r).pending = s.pending := rfl
@[simp] theorem State.setRecord_resetn (i : Fin 48) (r : Option Record) : (s.setRecord i r).resetn = s.resetn := rfl
@[simp] theorem State.setRecord_supgood (i : Fin 48) (r : Option Record) : (s.setRecord i r).supgood = s.supgood := rfl
@[simp] theorem State.setRecord_ign (i : Fin 48) (r : Option Record) : (s.setRecord i r).ign = s.ign := rfl
@[simp] theorem State.setRecord_part (i : Fin 48) (r : Option Record) : (s.setRecord i r).part = s.part := rfl
@[simp] theorem State.setRecord_svc (i : Fin 48) (r : Option Record) : (s.setRecord i r).svc = s.svc := rfl
@[simp] theorem State.setRecord_now (i : Fin 48) (r : Option Record) : (s.setRecord i r).now = s.now := rfl
@[simp] theorem State.setRecord_ram (i : Fin 48) (r : Option Record) : (s.setRecord i r).ram = s.ram := rfl
@[simp] theorem State.setRecord_fp (i : Fin 48) (r : Option Record) : (s.setRecord i r).fp = s.fp := rfl
@[simp] theorem State.setRecord_bp (i : Fin 48) (r : Option Record) : (s.setRecord i r).bp = s.bp := rfl
@[simp] theorem State.setRecord_slots (i : Fin 48) (r : Option Record) : (s.setRecord i r).slots = s.slots := rfl
@[simp] theorem State.setRecord_quals (i : Fin 48) (r : Option Record) : (s.setRecord i r).quals = s.quals := rfl
@[simp] theorem State.setRecord_profiles (i : Fin 48) (r : Option Record) : (s.setRecord i r).profiles = s.profiles := rfl
@[simp] theorem State.setRecord_frames (i : Fin 48) (r : Option Record) : (s.setRecord i r).frames = s.frames := rfl
@[simp] theorem State.setRecord_ride (i : Fin 48) (r : Option Record) : (s.setRecord i r).ride = s.ride := rfl
@[simp] theorem State.setRecord_store (i : Fin 48) (r : Option Record) : (s.setRecord i r).store = s.store := rfl
@[simp] theorem State.setRecord_flash (i : Fin 48) (r : Option Record) : (s.setRecord i r).flash = s.flash := rfl
@[simp] theorem State.setRecord_exec (i : Fin 48) (r : Option Record) : (s.setRecord i r).exec = s.exec := rfl
@[simp] theorem State.setRecord_pub (i : Fin 48) (r : Option Record) : (s.setRecord i r).pub = s.pub := rfl
@[simp] theorem State.setRecord_port (i : Fin 48) (r : Option Record) (x : Port) : (s.setRecord i r).port x = s.port x := by cases x <;> rfl

/-! ### wr -/

@[simp] theorem State.wr_pending (a : Nat) (b : Byte) : (s.wr a b).pending = s.pending := rfl
@[simp] theorem State.wr_resetn (a : Nat) (b : Byte) : (s.wr a b).resetn = s.resetn := rfl
@[simp] theorem State.wr_supgood (a : Nat) (b : Byte) : (s.wr a b).supgood = s.supgood := rfl
@[simp] theorem State.wr_ign (a : Nat) (b : Byte) : (s.wr a b).ign = s.ign := rfl
@[simp] theorem State.wr_part (a : Nat) (b : Byte) : (s.wr a b).part = s.part := rfl
@[simp] theorem State.wr_svc (a : Nat) (b : Byte) : (s.wr a b).svc = s.svc := rfl
@[simp] theorem State.wr_now (a : Nat) (b : Byte) : (s.wr a b).now = s.now := rfl
@[simp] theorem State.wr_fp (a : Nat) (b : Byte) : (s.wr a b).fp = s.fp := rfl
@[simp] theorem State.wr_bp (a : Nat) (b : Byte) : (s.wr a b).bp = s.bp := rfl
@[simp] theorem State.wr_slots (a : Nat) (b : Byte) : (s.wr a b).slots = s.slots := rfl
@[simp] theorem State.wr_quals (a : Nat) (b : Byte) : (s.wr a b).quals = s.quals := rfl
@[simp] theorem State.wr_profiles (a : Nat) (b : Byte) : (s.wr a b).profiles = s.profiles := rfl
@[simp] theorem State.wr_records (a : Nat) (b : Byte) : (s.wr a b).records = s.records := rfl
@[simp] theorem State.wr_frames (a : Nat) (b : Byte) : (s.wr a b).frames = s.frames := rfl
@[simp] theorem State.wr_ride (a : Nat) (b : Byte) : (s.wr a b).ride = s.ride := rfl
@[simp] theorem State.wr_store (a : Nat) (b : Byte) : (s.wr a b).store = s.store := rfl
@[simp] theorem State.wr_flash (a : Nat) (b : Byte) : (s.wr a b).flash = s.flash := rfl
@[simp] theorem State.wr_exec (a : Nat) (b : Byte) : (s.wr a b).exec = s.exec := rfl
@[simp] theorem State.wr_pub (a : Nat) (b : Byte) : (s.wr a b).pub = s.pub := rfl
@[simp] theorem State.wr_port (a : Nat) (b : Byte) (x : Port) : (s.wr a b).port x = s.port x := by cases x <;> rfl

/-! ### wrBytes -/

@[simp] theorem State.wrBytes_pending (a : Nat) (bs : List Byte) : (s.wrBytes a bs).pending = s.pending := rfl
@[simp] theorem State.wrBytes_resetn (a : Nat) (bs : List Byte) : (s.wrBytes a bs).resetn = s.resetn := rfl
@[simp] theorem State.wrBytes_supgood (a : Nat) (bs : List Byte) : (s.wrBytes a bs).supgood = s.supgood := rfl
@[simp] theorem State.wrBytes_ign (a : Nat) (bs : List Byte) : (s.wrBytes a bs).ign = s.ign := rfl
@[simp] theorem State.wrBytes_part (a : Nat) (bs : List Byte) : (s.wrBytes a bs).part = s.part := rfl
@[simp] theorem State.wrBytes_svc (a : Nat) (bs : List Byte) : (s.wrBytes a bs).svc = s.svc := rfl
@[simp] theorem State.wrBytes_now (a : Nat) (bs : List Byte) : (s.wrBytes a bs).now = s.now := rfl
@[simp] theorem State.wrBytes_fp (a : Nat) (bs : List Byte) : (s.wrBytes a bs).fp = s.fp := rfl
@[simp] theorem State.wrBytes_bp (a : Nat) (bs : List Byte) : (s.wrBytes a bs).bp = s.bp := rfl
@[simp] theorem State.wrBytes_slots (a : Nat) (bs : List Byte) : (s.wrBytes a bs).slots = s.slots := rfl
@[simp] theorem State.wrBytes_quals (a : Nat) (bs : List Byte) : (s.wrBytes a bs).quals = s.quals := rfl
@[simp] theorem State.wrBytes_profiles (a : Nat) (bs : List Byte) : (s.wrBytes a bs).profiles = s.profiles := rfl
@[simp] theorem State.wrBytes_records (a : Nat) (bs : List Byte) : (s.wrBytes a bs).records = s.records := rfl
@[simp] theorem State.wrBytes_frames (a : Nat) (bs : List Byte) : (s.wrBytes a bs).frames = s.frames := rfl
@[simp] theorem State.wrBytes_ride (a : Nat) (bs : List Byte) : (s.wrBytes a bs).ride = s.ride := rfl
@[simp] theorem State.wrBytes_store (a : Nat) (bs : List Byte) : (s.wrBytes a bs).store = s.store := rfl
@[simp] theorem State.wrBytes_flash (a : Nat) (bs : List Byte) : (s.wrBytes a bs).flash = s.flash := rfl
@[simp] theorem State.wrBytes_exec (a : Nat) (bs : List Byte) : (s.wrBytes a bs).exec = s.exec := rfl
@[simp] theorem State.wrBytes_pub (a : Nat) (bs : List Byte) : (s.wrBytes a bs).pub = s.pub := rfl
@[simp] theorem State.wrBytes_port (a : Nat) (bs : List Byte) (x : Port) : (s.wrBytes a bs).port x = s.port x := by cases x <;> rfl

/-! ### program -/

@[simp] theorem State.program_pending (a : Nat) (bs : List Byte) : (s.program a bs).pending = s.pending := rfl
@[simp] theorem State.program_resetn (a : Nat) (bs : List Byte) : (s.program a bs).resetn = s.resetn := rfl
@[simp] theorem State.program_supgood (a : Nat) (bs : List Byte) : (s.program a bs).supgood = s.supgood := rfl
@[simp] theorem State.program_ign (a : Nat) (bs : List Byte) : (s.program a bs).ign = s.ign := rfl
@[simp] theorem State.program_part (a : Nat) (bs : List Byte) : (s.program a bs).part = s.part := rfl
@[simp] theorem State.program_svc (a : Nat) (bs : List Byte) : (s.program a bs).svc = s.svc := rfl
@[simp] theorem State.program_now (a : Nat) (bs : List Byte) : (s.program a bs).now = s.now := rfl
@[simp] theorem State.program_ram (a : Nat) (bs : List Byte) : (s.program a bs).ram = s.ram := rfl
@[simp] theorem State.program_fp (a : Nat) (bs : List Byte) : (s.program a bs).fp = s.fp := rfl
@[simp] theorem State.program_bp (a : Nat) (bs : List Byte) : (s.program a bs).bp = s.bp := rfl
@[simp] theorem State.program_slots (a : Nat) (bs : List Byte) : (s.program a bs).slots = s.slots := rfl
@[simp] theorem State.program_quals (a : Nat) (bs : List Byte) : (s.program a bs).quals = s.quals := rfl
@[simp] theorem State.program_profiles (a : Nat) (bs : List Byte) : (s.program a bs).profiles = s.profiles := rfl
@[simp] theorem State.program_records (a : Nat) (bs : List Byte) : (s.program a bs).records = s.records := rfl
@[simp] theorem State.program_frames (a : Nat) (bs : List Byte) : (s.program a bs).frames = s.frames := rfl
@[simp] theorem State.program_ride (a : Nat) (bs : List Byte) : (s.program a bs).ride = s.ride := rfl
@[simp] theorem State.program_store (a : Nat) (bs : List Byte) : (s.program a bs).store = s.store := rfl
@[simp] theorem State.program_exec (a : Nat) (bs : List Byte) : (s.program a bs).exec = s.exec := rfl
@[simp] theorem State.program_pub (a : Nat) (bs : List Byte) : (s.program a bs).pub = s.pub := rfl
@[simp] theorem State.program_port (a : Nat) (bs : List Byte) (x : Port) : (s.program a bs).port x = s.port x := by cases x <;> rfl

/-! ### setSector -/

@[simp] theorem State.setSector_pending (k : Fin 16) (c : Sector) : (s.setSector k c).pending = s.pending := rfl
@[simp] theorem State.setSector_resetn (k : Fin 16) (c : Sector) : (s.setSector k c).resetn = s.resetn := rfl
@[simp] theorem State.setSector_supgood (k : Fin 16) (c : Sector) : (s.setSector k c).supgood = s.supgood := rfl
@[simp] theorem State.setSector_ign (k : Fin 16) (c : Sector) : (s.setSector k c).ign = s.ign := rfl
@[simp] theorem State.setSector_part (k : Fin 16) (c : Sector) : (s.setSector k c).part = s.part := rfl
@[simp] theorem State.setSector_svc (k : Fin 16) (c : Sector) : (s.setSector k c).svc = s.svc := rfl
@[simp] theorem State.setSector_now (k : Fin 16) (c : Sector) : (s.setSector k c).now = s.now := rfl
@[simp] theorem State.setSector_ram (k : Fin 16) (c : Sector) : (s.setSector k c).ram = s.ram := rfl
@[simp] theorem State.setSector_fp (k : Fin 16) (c : Sector) : (s.setSector k c).fp = s.fp := rfl
@[simp] theorem State.setSector_bp (k : Fin 16) (c : Sector) : (s.setSector k c).bp = s.bp := rfl
@[simp] theorem State.setSector_slots (k : Fin 16) (c : Sector) : (s.setSector k c).slots = s.slots := rfl
@[simp] theorem State.setSector_quals (k : Fin 16) (c : Sector) : (s.setSector k c).quals = s.quals := rfl
@[simp] theorem State.setSector_profiles (k : Fin 16) (c : Sector) : (s.setSector k c).profiles = s.profiles := rfl
@[simp] theorem State.setSector_records (k : Fin 16) (c : Sector) : (s.setSector k c).records = s.records := rfl
@[simp] theorem State.setSector_frames (k : Fin 16) (c : Sector) : (s.setSector k c).frames = s.frames := rfl
@[simp] theorem State.setSector_ride (k : Fin 16) (c : Sector) : (s.setSector k c).ride = s.ride := rfl
@[simp] theorem State.setSector_flash (k : Fin 16) (c : Sector) : (s.setSector k c).flash = s.flash := rfl
@[simp] theorem State.setSector_exec (k : Fin 16) (c : Sector) : (s.setSector k c).exec = s.exec := rfl
@[simp] theorem State.setSector_pub (k : Fin 16) (c : Sector) : (s.setSector k c).pub = s.pub := rfl
@[simp] theorem State.setSector_port (k : Fin 16) (c : Sector) (x : Port) : (s.setSector k c).port x = s.port x := by cases x <;> rfl

/-! ### markView -/

@[simp] theorem State.markView_pending : s.markView.pending = s.pending := rfl
@[simp] theorem State.markView_resetn : s.markView.resetn = s.resetn := rfl
@[simp] theorem State.markView_supgood : s.markView.supgood = s.supgood := rfl
@[simp] theorem State.markView_ign : s.markView.ign = s.ign := rfl
@[simp] theorem State.markView_part : s.markView.part = s.part := rfl
@[simp] theorem State.markView_svc : s.markView.svc = s.svc := rfl
@[simp] theorem State.markView_now : s.markView.now = s.now := rfl
@[simp] theorem State.markView_ram : s.markView.ram = s.ram := rfl
@[simp] theorem State.markView_fp : s.markView.fp = s.fp := rfl
@[simp] theorem State.markView_bp : s.markView.bp = s.bp := rfl
@[simp] theorem State.markView_slots : s.markView.slots = s.slots := rfl
@[simp] theorem State.markView_quals : s.markView.quals = s.quals := rfl
@[simp] theorem State.markView_profiles : s.markView.profiles = s.profiles := rfl
@[simp] theorem State.markView_records : s.markView.records = s.records := rfl
@[simp] theorem State.markView_frames : s.markView.frames = s.frames := rfl
@[simp] theorem State.markView_ride : s.markView.ride = s.ride := rfl
@[simp] theorem State.markView_store : s.markView.store = s.store := rfl
@[simp] theorem State.markView_flash : s.markView.flash = s.flash := rfl
@[simp] theorem State.markView_exec : s.markView.exec = s.exec := rfl
@[simp] theorem State.markView_port (x : Port) : s.markView.port x = s.port x := by cases x <;> rfl

/-! ### what the updates put in place -/

@[simp] theorem State.setPort_port (p : Port) (ps : PortState) : (s.setPort p ps).port p = ps := by cases p <;> rfl
@[simp] theorem State.setPort_port_other (p : Port) (ps : PortState) : (s.setPort p ps).port p.other = s.port p.other := by
  cases p <;> rfl
theorem State.setPort_port_ne (p x : Port) (ps : PortState) (h : x ≠ p) : (s.setPort p ps).port x = s.port x := by
  cases p <;> cases x <;> first | rfl | exact absurd rfl h
@[simp] theorem State.setSlot_slots (i : Slot) (e : SlotEngine) : (s.setSlot i e).slots = s.slots.set i e := rfl
@[simp] theorem State.setQual_quals (i : Slot) (q : Qualifier) : (s.setQual i q).quals = s.quals.set i q := rfl
@[simp] theorem State.setRecord_records (i : Fin 48) (r : Option Record) :
    (s.setRecord i r).records = s.records.set i r := rfl
@[simp] theorem State.wr_ram (a : Nat) (b : Byte) : (s.wr a b).ram = Memory.write ramDefault s.ram a b := rfl
@[simp] theorem State.wrBytes_ram (a : Nat) (bs : List Byte) :
    (s.wrBytes a bs).ram = Memory.writeBytes ramDefault s.ram a bs := rfl
@[simp] theorem State.program_flash (a : Nat) (bs : List Byte) :
    (s.program a bs).flash = Memory.writeBytes flashDefault s.flash a bs := rfl
@[simp] theorem State.setSector_sectors (k : Fin 16) (c : Sector) :
    (s.setSector k c).store.sectors = s.store.sectors.set k c := rfl
@[simp] theorem State.markView_dirty : s.markView.pub.dirty = true := rfl
@[simp] theorem State.markView_pub : s.markView.pub = { s.pub with dirty := true } := rfl
@[simp] theorem Port.other_other (p : Port) : p.other.other = p := by cases p <;> rfl
theorem Port.other_ne (p : Port) : p.other ≠ p := by cases p <;> decide

end Sys2Proof.Machine
end

