-- ==== Sys2Proof/Laws/Ops.lean ====
section
/-!
SUPPORT. For each shared operation, once, everything it can change: the result is the state it started from with only
the named parts replaced. Later proofs cite these instead of unfolding the operation.
-/

namespace Sys2Proof.Machine

variable (s : State)

/-- The result differs at most in the two lamp outputs, the time base and nothing else. -/
theorem State.advanceTo_only (t : Nat) :
    ∃ n x y, s.advanceTo t = { s with now := n, fp := { s.fp with lamp := x }, bp := { s.bp with lamp := y } } := by
  unfold State.advanceTo
  split
  · exact ⟨_, _, _, rfl⟩
  · exact ⟨s.now, s.fp.lamp, s.bp.lamp, rfl⟩

/-- An expiry never moves the time base back, and reaches its deadline. -/
theorem State.advanceTo_now (t : Nat) : (s.advanceTo t).now = max s.now t := by
  unfold State.advanceTo
  split
  · show t = _; omega
  · show s.now = _; omega

theorem State.refreshAttn_only :
    ∃ x y, s.refreshAttn = { s with fp := { s.fp with attn := x }, bp := { s.bp with attn := y } } := ⟨_, _, rfl⟩

theorem State.refreshLamp_only (p : Port) :
    ∃ sh l d, s.refreshLamp p =
      ({ s with pub := { s.pub with dirty := d } } : State).setPort p { s.port p with shown := sh, lamp := l } := by
  cases p <;> (unfold State.refreshLamp State.markViewIf; split)
  all_goals first
    | exact ⟨_, _, true, rfl⟩
    | exact ⟨_, _, s.pub.dirty, rfl⟩

theorem State.makeRoom_only : ∃ ram pub, s.makeRoom = { s with ram := ram, pub := pub } := by
  unfold State.makeRoom
  split
  · exact ⟨_, _, rfl⟩
  · exact ⟨s.ram, s.pub, rfl⟩

theorem State.addEntry_only (entry : List Byte) :
    ∃ ram pub x y, s.addEntry entry =
      { s with ram := ram, pub := pub, fp := { s.fp with attn := x }, bp := { s.bp with attn := y } } := by
  unfold State.addEntry
  simp only
  generalize hv : State.wr 36 _ _ = v
  have h1 : ∃ ram pub, v = { s with ram := ram, pub := pub } := ⟨_, _, hv.symm⟩
  obtain ⟨ram, pub, rfl⟩ := h1
  obtain ⟨x, y, h⟩ := State.refreshAttn_only { s with ram := ram, pub := pub }
  exact ⟨ram, pub, x, y, h⟩

/-- An append touches the ring and the trail fields, the publisher and the two attention lines. -/
theorem State.append_only (k : TrailKind) (sl d n : Byte) :
    ∃ ram pub x y, s.append k sl d n =
      { s with ram := ram, pub := pub, fp := { s.fp with attn := x }, bp := { s.bp with attn := y } } := by
  obtain ⟨m, pb, h⟩ := s.makeRoom_only
  obtain ⟨m', pb', x, y, h'⟩ := s.makeRoom.addEntry_only (trailBytes s.ride.number s.ride.time sl k d n)
  exact ⟨m', pb', x, y, by rw [State.append, h', h]⟩

theorem State.takeRelease_only (p : Port) (n : Nat) :
    ∃ ram pub x y, s.takeRelease p n =
      { s with ram := ram, pub := pub, fp := { s.fp with attn := x }, bp := { s.bp with attn := y } } := by
  unfold State.takeRelease
  split <;> exact ⟨_, _, _, _, rfl⟩

/-- A release raised: its byte, and the port's waiting releases. -/
theorem State.raiseRelease_only (p : Port) (n : Byte) :
    ∃ m, s.raiseRelease p n =
      ({ s with ram := m } : State).setPort p { s.port p with releases := (s.port p).releases ++ [n] } := by
  cases p <;> exact ⟨_, rfl⟩

/-- A release taken touches the exchange RAM, the publisher and the two ports, and nothing else. -/
theorem State.takeOldest_only (p : Port) :
    ∃ ram pub f b, s.takeOldest p = { s with ram := ram, pub := pub, fp := f, bp := b } := by
  unfold State.takeOldest
  split
  · exact ⟨s.ram, s.pub, s.fp, s.bp, rfl⟩
  · rename_i n rest _
    obtain ⟨m, pb, x, y, h⟩ := (s.setPort p { s.port p with releases := rest }).takeRelease_only p n.toNat
    rw [h]
    cases p <;> exact ⟨_, _, _, _, rfl⟩

/-- The same of taking several. -/
theorem State.takeReleases_only (p : Port) (n : Nat) :
    ∃ ram pub f b, s.takeReleases p n = { s with ram := ram, pub := pub, fp := f, bp := b } := by
  unfold State.takeReleases
  generalize (s.port p).releases.take n = l
  induction l generalizing s with
  | nil => exact ⟨s.ram, s.pub, s.fp, s.bp, rfl⟩
  | cons n rest ih =>
    obtain ⟨m, pb, f, b, h⟩ := ih (s.takeOldest p)
    obtain ⟨m', pb', f', b', h'⟩ := s.takeOldest_only p
    exact ⟨m, pb, f, b, by rw [List.foldl_cons, h, h']⟩

theorem State.setReader_only (r : Port) (n : Nat) :
    ∃ ram pub x y, s.setReader r n =
      { s with ram := ram, pub := pub, fp := { s.fp with attn := x }, bp := { s.bp with attn := y } } := ⟨_, _, _, _, rfl⟩

theorem State.startSilence_only (p : Port) : ∃ d, s.startSilence p = s.setPort p { s.port p with silenceDue := d } := by
  unfold State.startSilence
  split
  · exact ⟨(s.port p).silenceDue, by cases p <;> rfl⟩
  · exact ⟨_, rfl⟩

theorem State.startPassTimer_only (p : Port) : ∃ d, s.startPassTimer p = s.setPort p { s.port p with passDue := d } := by
  unfold State.startPassTimer
  split
  · exact ⟨_, rfl⟩
  · exact ⟨(s.port p).passDue, by cases p <;> rfl⟩

/-- The silence event touches the exchange RAM, the publisher and the two ports, and nothing else. -/
theorem State.heard_only (p : Port) : ∃ ram pub f b, s.heard p = { s with ram := ram, pub := pub, fp := f, bp := b } := by
  unfold State.heard
  split
  · obtain ⟨d, h1⟩ := (s.setPort p { s.port p with silent := false }).startSilence_only p
    rw [h1]
    generalize hx : (s.setPort p { s.port p with silent := false }).setPort p _ = x
    obtain ⟨m, pb, a, c, h2⟩ := x.append_only .portHeard 0xFF (byteOf (portCode p)) 0
    obtain ⟨sh, l, e, h3⟩ := (x.appendPart .portHeard (byteOf (portCode p))).markView.refreshLamp_only p
    rw [h3]
    unfold State.appendPart
    rw [h2, ← hx]
    cases p <;> exact ⟨_, _, _, _, rfl⟩
  · split
    · obtain ⟨d, h⟩ := s.startSilence_only p
      rw [h]
      cases p <;> exact ⟨s.ram, s.pub, _, _, rfl⟩
    · exact ⟨s.ram, s.pub, s.fp, s.bp, rfl⟩

/-- A mark of an urgent item reaches nothing but the erase in flight. -/
theorem State.urgentMarked_only : ∃ e, s.urgentMarked = { s with store := { s.store with erase := e } } := by
  unfold State.urgentMarked
  split
  · split
    · exact ⟨s.store.erase, rfl⟩
    · exact ⟨_, rfl⟩
  · exact ⟨s.store.erase, rfl⟩

theorem State.queueLog_only (it : LogItem) :
    ∃ e, s.queueLog it = { s with store := { s.store with logQueue := s.store.logQueue ++ [it], erase := e } } := by
  obtain ⟨e, h⟩ := State.urgentMarked_only { s with store := { s.store with logQueue := s.store.logQueue ++ [it] } }
  exact ⟨e, h⟩

theorem State.markRide_only : ∃ e, s.markRide = { s with store := { s.store with rideMark := true, erase := e } } := by
  obtain ⟨e, h⟩ := State.urgentMarked_only { s with store := { s.store with rideMark := true } }
  exact ⟨e, h⟩

theorem State.markQualifier_only :
    ∃ e, s.markQualifier = { s with store := { s.store with qualMark := true, erase := e } } := by
  obtain ⟨e, h⟩ := State.urgentMarked_only { s with store := { s.store with qualMark := true } }
  exact ⟨e, h⟩

/-- Marking a record changes its two marks, and may ask an erase to suspend. -/
theorem State.markRecord_only (i : Fin 48) (u : Bool) :
    ∃ recs e d, s.markRecord i u =
      { s with records := recs, store := { s.store with erase := e }, pub := { s.pub with dirty := d } } := by
  unfold State.markRecord
  split
  · exact ⟨s.records, s.store.erase, s.pub.dirty, rfl⟩
  · simp only [State.markViewIf]
    split
    · rename_i r _ _
      split
      · obtain ⟨e, h⟩ := ((s.setRecord i (some { r with dirty := true, urgent := r.urgent || (u || s.store.rideEnding) })).markView).urgentMarked_only
        rw [h]; exact ⟨_, e, true, rfl⟩
      · obtain ⟨e, h⟩ := (s.setRecord i (some { r with dirty := true, urgent := r.urgent || (u || s.store.rideEnding) })).urgentMarked_only
        rw [h]; exact ⟨_, e, s.pub.dirty, rfl⟩
    · split
      · exact ⟨_, s.store.erase, true, rfl⟩
      · exact ⟨_, s.store.erase, s.pub.dirty, rfl⟩

theorem State.setCell_only (p : Port) (c : CellState) :
    ∃ m, s.setCell p c = ({ s with ram := m } : State).setPort p { s.port p with cell := c } := by
  cases p <;> exact ⟨_, rfl⟩

theorem State.offer_only : ∃ c, s.offer = { s with exec := { s.exec with claim := c } } := by
  unfold State.offer
  split
  · split
    · exact ⟨_, rfl⟩
    · exact ⟨s.exec.claim, rfl⟩
  · exact ⟨s.exec.claim, rfl⟩

/-- The completion of a request: its cell, the exchange RAM, the executor and the attention lines. -/
theorem State.complete_only (p : Port) (st : Status) (a : List Byte) :
    ∃ m f b x, s.complete p st a = { s with ram := m, fp := f, bp := b, exec := x } := by
  unfold State.complete
  simp only
  generalize hv : State.setCell p .answered _ = v
  have h1 : ∃ m f b, v = { s with ram := m, fp := f, bp := b } := by
    obtain ⟨m, h⟩ := State.setCell_only (((s.wr (Config.cellBase p + 2) (byteOf (statusCode st))).wr
      (Config.cellBase p + 3) (byteOf (answerFor st a).length)).wrBytes (Config.cellBase p + 16)
      (paddedAnswer (answerFor st a))) p .answered
    rw [← hv, h]
    cases p <;> exact ⟨m, _, _, rfl⟩
  obtain ⟨m, f, b, rfl⟩ := h1
  obtain ⟨x, y, h2⟩ := State.refreshAttn_only
    { s with ram := m, fp := f, bp := b, exec := { s.exec with taken := none } }
  simp only [h2]
  obtain ⟨c, h3⟩ := State.offer_only
    { s with ram := m, fp := { f with attn := x }, bp := { b with attn := y }, exec := { s.exec with taken := none } }
  exact ⟨_, _, _, _, h3⟩

/-- The change of a lamp's counts: one port and the publish-dirty mark. -/
theorem State.handDemand_only (p : Port) (old new : Pattern) :
    ∃ ps d, s.handDemand p old new = ({ s with pub := { s.pub with dirty := d } } : State).setPort p ps := by
  unfold State.handDemand
  split
  · exact ⟨s.port p, s.pub.dirty, by cases p <;> rfl⟩
  · obtain ⟨sh, l, d, h⟩ :=
      (s.setPort p (countDemand true new (countDemand false old (s.port p)))).refreshLamp_only p
    rw [h]
    cases p <;> exact ⟨_, d, rfl⟩

theorem State.recountLamp_only (p : Port) :
    ∃ ps d, s.recountLamp p = ({ s with pub := { s.pub with dirty := d } } : State).setPort p ps := by
  unfold State.recountLamp
  generalize hx : s.setPort p _ = x
  obtain ⟨sh, l, d, h⟩ := x.refreshLamp_only p
  rw [h, ← hx]
  cases p <;> exact ⟨_, d, rfl⟩

/-- A rebase: the slot's engine state, and the publish-dirty mark. -/
theorem State.rebase_only (i : Slot) :
    ∃ e d, s.rebase i = { s with slots := s.slots.set i e, pub := { s.pub with dirty := d } } := by
  unfold State.rebase State.markViewIf
  simp only
  split
  · exact ⟨_, true, rfl⟩
  · exact ⟨_, s.pub.dirty, rfl⟩

/-- A pass stands, ends or begins: one port's position and owed pass. -/
theorem State.passFrom_only (p : Port) (pos : Nat) :
    ∃ x o, s.passFrom p pos = s.setPort p { s.port p with passPos := x, owed := o } := by
  unfold State.passFrom
  simp only
  split
  · exact ⟨_, (s.port p).owed, rfl⟩
  · split
    · exact ⟨_, _, rfl⟩
    · exact ⟨none, (s.port p).owed, rfl⟩

/-- A restore changes nothing in flash, in the exchange RAM or in the ports. -/
theorem State.rebuild_only :
    ∃ q r f n st, s.rebuild =
      { s with quals := q, records := r, frames := f, ride := { s.ride with number := n }, store := st } :=
  ⟨_, _, _, _, _, rfl⟩

/-- The take of a request: its cell, the exchange RAM and the executor. -/
theorem State.take_only (p : Port) :
    ∃ m x, s.take p = ({ s with ram := m, exec := x } : State).setPort p { s.port p with cell := .taken } := by
  cases p <;> exact ⟨_, _, rfl⟩

theorem State.applyTrailSetup_only (p : Port) :
    ∃ m f b pb, s.applyTrailSetup p = { s with ram := m, fp := f, bp := b, pub := pb } := by
  unfold State.applyTrailSetup
  split
  · rename_i c _
    obtain ⟨m, pb, x, y, h⟩ := s.setReader_only c.reader c.threshold
    exact ⟨_, _, _, _, h⟩
  all_goals exact ⟨s.ram, s.fp, s.bp, s.pub, rfl⟩

theorem State.startTimers_only (p : Port) (first : Bool) : ∃ f b, s.startTimers p first = { s with fp := f, bp := b } := by
  unfold State.startTimers
  split
  · obtain ⟨d, h⟩ := s.startPassTimer_only p
    obtain ⟨d', h'⟩ := (s.startPassTimer p).startSilence_only p
    rw [h', h]
    cases p <;> exact ⟨_, _, rfl⟩
  · exact ⟨s.fp, s.bp, rfl⟩

/-- What a completion of ADOPT does beside its answer: the two ports, the publisher and the exchange RAM. -/
theorem State.adoptTakesEffect_only (p : Port) :
    ∃ m f b pb, s.adoptTakesEffect p = { s with ram := m, fp := f, bp := b, pub := pb } := by
  unfold State.adoptTakesEffect
  obtain ⟨ps, d, h1⟩ := (s.setPort p { s.port p with adopted := true }).markView.recountLamp_only p
  generalize (s.setPort p { s.port p with adopted := true }).markView.recountLamp p = u at h1 ⊢
  obtain ⟨m, f, b, pb, h2⟩ := u.applyTrailSetup_only p
  obtain ⟨f', b', h3⟩ := (u.applyTrailSetup p).startTimers_only p (!(s.port p).adopted)
  rw [h3, h2, h1]
  cases p <;> exact ⟨_, _, _, _, rfl⟩

/-- A completion of ADOPT: the two ports, the publisher, the executor and the exchange RAM. -/
theorem State.completeAdopt_only (p : Port) (fault : Bool) (a : List Byte) :
    ∃ m f b x pb, s.completeAdopt p fault a = { s with ram := m, fp := f, bp := b, exec := x, pub := pb } := by
  unfold State.completeAdopt
  obtain ⟨m, f, b, pb, h⟩ := s.adoptTakesEffect_only p
  obtain ⟨m', f', b', x, h'⟩ := (s.adoptTakesEffect p).complete_only p (if fault then .storeFault else .ok) a
  exact ⟨m', f', b', x, pb, by rw [h', h]⟩

/-- A request that waits for nothing is completed by its reply, ADOPT by its own completion; no other is completed. -/
theorem State.finish_cases (p : Port) :
    (∃ st a, s.exec.taken = some (.reply p st a) ∧ s.finish p = s.complete p st a) ∨
    (∃ fault a, s.exec.taken = some (.adopted p fault a) ∧ s.finish p = s.completeAdopt p fault a) ∨
    s.finish p = s := by
  unfold State.finish
  split
  · rename_i q st a h
    split
    · rename_i e; subst e; exact .inl ⟨st, a, h, rfl⟩
    · exact .inr (.inr rfl)
  · rename_i q fault a h
    split
    · rename_i e; subst e; exact .inr (.inl ⟨fault, a, h, rfl⟩)
    · exact .inr (.inr rfl)
  all_goals exact .inr (.inr rfl)

/-- The report on CLEAR items: the two ports, the publisher, the executor and the exchange RAM. -/
theorem State.reportClear_only (written : Bool) :
    ∃ m f b x pb, s.reportClear written = { s with ram := m, fp := f, bp := b, exec := x, pub := pb } := by
  unfold State.reportClear
  split
  · split
    · split
      · exact s.completeAdopt_only _ _ _
      · exact ⟨s.ram, s.fp, s.bp, _, s.pub, rfl⟩
    · exact s.completeAdopt_only _ _ _
  · obtain ⟨m, f, b, x, h⟩ := s.complete_only _ _ _
    exact ⟨m, f, b, x, s.pub, h⟩
  all_goals exact ⟨s.ram, s.fp, s.bp, s.exec, s.pub, rfl⟩

/-- Entry to FAILED: of the store its state and the retained erase; beside it the two ports, the publisher, the executor
and the exchange RAM. -/
theorem State.failStore_only :
    ∃ m f b x pb e, s.failStore =
      { s with ram := m, fp := f, bp := b, exec := x, pub := pb, store := { s.store with state := .failed, retErase := e } } := by
  unfold State.failStore
  simp only
  generalize hv : State.reportClear false _ = v
  have h1 : ∃ m f b x pb, v =
      { s with ram := m, fp := f, bp := b, exec := x, pub := pb, store := { s.store with state := .failed } } := by
    obtain ⟨m, f, b, x, pb, h⟩ := State.reportClear_only
      ((({ s with store := { s.store with state := .failed } } : State).appendPart .storeFailed
        (byteOf (s.sectorCount .retired))).markView) false
    obtain ⟨m', pb', a, c, h'⟩ := State.append_only
      ({ s with store := { s.store with state := .failed } } : State) .storeFailed 0xFF (byteOf (s.sectorCount .retired)) 0
    refine ⟨m, f, b, x, pb, ?_⟩
    rw [← hv, h]
    unfold State.appendPart
    rw [h']
    rfl
  obtain ⟨m, f, b, x, pb, rfl⟩ := h1
  have report (u : State) : ∃ m f b x, u.reportRetainedErase .storeFault = { u with ram := m, fp := f, bp := b, exec := x } := by
    unfold State.reportRetainedErase
    split
    · exact u.complete_only _ _ _
    all_goals exact ⟨u.ram, u.fp, u.bp, u.exec, rfl⟩
  split
  · obtain ⟨m', f', b', x', h⟩ := report
      { s with ram := m, fp := f, bp := b, exec := x, pub := pb,
               store := { s.store with state := .failed, retErase := .nothing } }
    exact ⟨m', f', b', x', pb, .nothing, h⟩
  all_goals exact ⟨m, f, b, x, pb, s.store.retErase, rfl⟩

/-- The whole request command, where its take arises, is the take and then the completion. -/
theorem State.request_whole (p : Port) (mine : Bool) (f : State → State) (hc : s.canTake p = true) (hm : mine = true) :
    s.request { port := p, part := .whole } mine f = .next ((f (s.take p)).finish p) := by
  have hr : s.inReset = false := by
    simp only [State.canTake, Bool.and_eq_true] at hc
    simpa using hc.1.1.1.1
  simp [State.request, arises, hr, hc, hm]

/-- The take alone, where it arises. -/
theorem State.request_take (p : Port) (mine : Bool) (f : State → State) (hc : s.canTake p = true) (hm : mine = true) :
    s.request { port := p, part := .take } mine f = .next (f (s.take p)) := by
  have hr : s.inReset = false := by
    simp only [State.canTake, Bool.and_eq_true] at hc
    simpa using hc.1.1.1.1
  simp [State.request, arises, hr, hc, hm]

/-- The completion alone, out of reset and with the command's own code in the cell. -/
theorem State.request_completion (p : Port) (mine : Bool) (f : State → State) (hr : s.inReset = false)
    (hm : mine = true) : s.request { port := p, part := .completion } mine f = .next (s.finish p) := by
  simp [State.request, arises, hr, hm]

/-- A command whose event arises answers the state it leads to. -/
theorem arises_pos (c : Bool) (s t : State) (hr : s.inReset = false) (hc : c = true) : arises c s t = .next t := by
  simp [arises, hr, hc]

/-- A command whose event does not arise answers the state it found. -/
theorem arises_neg (c : Bool) (s t : State) (h : s.inReset = true ∨ c = false) : arises c s t = .next s := by
  rcases h with h | h <;> simp [arises, h]

/-- What a command of `arises` can answer. -/
theorem arises_cases (c : Bool) (s t u : State) (h : arises c s t = .next u) :
    (s.inReset = false ∧ c = true ∧ u = t) ∨ ((s.inReset = true ∨ c = false) ∧ u = s) := by
  unfold arises at h
  cases hr : s.inReset <;> cases c <;> simp [hr] at h <;> simp [h.symm]

end Sys2Proof.Machine
end

