-- ==== Sys2Proof/Laws/PerInstr.lean ====
section
/-!
SUPPORT. Laws of every command as syntax, one lemma per constructor.
-/

namespace Sys2Proof.Laws.FlashOffsets

/-- A well-formed command lists no byte beyond one flash sector (R109). -/
def Statement (i : Instr) : Prop := i.wf = true → ∀ c ∈ i.flashBytes, c.1 < Config.sectorBytes

/-- What `Marred.within` bounds. -/
theorem within_lt (limit lo : Nat) (m : Marred) (h : Marred.within limit lo m = true) : ∀ c ∈ m, c.1 < limit := by
  induction m generalizing lo with
  | nil => exact fun _ hc => absurd hc List.not_mem_nil
  | cons d rest ih =>
    simp only [Marred.within, Bool.and_eq_true, decide_eq_true_eq] at h
    intro c hc
    rcases List.mem_cons.1 hc with rfl | hc
    · exact h.1.2
    · exact ih _ h.2 c hc

/-- A command that lists no byte keeps the law. -/
theorem of_none (i : Instr) (h : i.flashBytes = []) : Statement i := fun _ c hc => absurd (h ▸ hc) List.not_mem_nil

theorem resetEntry (cause : ResetCause) (cut : FlashCut) : Statement (.resetEntry cause cut) := by
  intro h c hc
  simp only [Instr.wf, FlashCut.wf, Bool.and_eq_true] at h
  rcases List.mem_append.1 hc with hc | hc
  · exact Nat.lt_of_lt_of_le (within_lt _ _ _ h.1 c hc) (by decide)
  · exact within_lt _ _ _ h.2 c hc
theorem resetRelease (straps : Straps) : Statement (.resetRelease straps) := of_none _ rfl
theorem restoreFinish : Statement .restoreFinish := of_none _ rfl
theorem ignChange (level : Bool) : Statement (.ignChange level) := of_none _ rfl
theorem ignDebounceExpiry : Statement .ignDebounceExpiry := of_none _ rfl
theorem rideEndAccounting : Statement .rideEndAccounting := of_none _ rfl
theorem endingCompletion : Statement .endingCompletion := of_none _ rfl
theorem rideTimeSecond : Statement .rideTimeSecond := of_none _ rfl
theorem proveOutExpiry : Statement .proveOutExpiry := of_none _ rfl
theorem holdLimitExpiry : Statement .holdLimitExpiry := of_none _ rfl
theorem releaseOnCompletion : Statement .releaseOnCompletion := of_none _ rfl
theorem silenceTimerExpiry (p : Port) : Statement (.silenceTimerExpiry p) := of_none _ rfl
theorem passTimerExpiry (p : Port) : Statement (.passTimerExpiry p) := of_none _ rfl
theorem slotVisit (p : Port) : Statement (.slotVisit p) := of_none _ rfl
theorem checkByteWrite (p : Port) (a : Addr) (d : Word) : Statement (.checkByteWrite p a d) := of_none _ rfl
theorem post (p : Port) (a : Addr) (d : Word) : Statement (.post p a d) := of_none _ rfl
theorem withdrawal (p : Port) (a : Addr) (d : Word) : Statement (.withdrawal p a d) := of_none _ rfl
theorem handBack (p : Port) (a : Addr) (d : Word) : Statement (.handBack p a d) := of_none _ rfl
theorem release (p : Port) (w : Option (Addr × Word)) (n : Nat) : Statement (.release p w n) := of_none _ rfl
theorem contextLowByteStage (p : Port) (a : Addr) (d : Word) : Statement (.contextLowByteStage p a d) := of_none _ rfl
theorem contextCommit (p : Port) (a : Addr) (d : Word) : Statement (.contextCommit p a d) := of_none _ rfl
theorem strayWrite (p : Port) (a : Addr) (d : Word) : Statement (.strayWrite p a d) := of_none _ rfl
theorem portWrite (p : Port) (a : Addr) (d : Word) : Statement (.portWrite p a d) := of_none _ rfl
theorem readPairCapture (p : Port) (a : Addr) : Statement (.readPairCapture p a) := of_none _ rfl
theorem capturedHighRead (p : Port) (a : Addr) : Statement (.capturedHighRead p a) := of_none _ rfl
theorem adopt (r : RequestStep) : Statement (.adopt r) := of_none _ rfl
theorem clearSlot (r : RequestStep) : Statement (.clearSlot r) := of_none _ rfl
theorem clearPort (r : RequestStep) : Statement (.clearPort r) := of_none _ rfl
theorem fetchFrame (r : RequestStep) : Statement (.fetchFrame r) := of_none _ rfl
theorem fetchQualifier (r : RequestStep) : Statement (.fetchQualifier r) := of_none _ rfl
theorem readRetained (r : RequestStep) : Statement (.readRetained r) := of_none _ rfl
theorem retainedRead : Statement .retainedRead := of_none _ rfl
theorem eraseRetained (r : RequestStep) : Statement (.eraseRetained r) := of_none _ rfl
theorem acknowledge (r : RequestStep) : Statement (.acknowledge r) := of_none _ rfl
theorem badRequest (r : RequestStep) : Statement (.badRequest r) := of_none _ rfl
theorem publishPassStart : Statement .publishPassStart := of_none _ rfl
theorem publishPassEnd : Statement .publishPassEnd := of_none _ rfl
theorem publishSpacingExpiry : Statement .publishSpacingExpiry := of_none _ rfl
theorem blinkPhaseBoundary : Statement .blinkPhaseBoundary := of_none _ rfl
theorem writeInhibitExpiry : Statement .writeInhibitExpiry := of_none _ rfl
theorem imageBegin : Statement .imageBegin := of_none _ rfl
theorem imageCompletion (marred : Marred) : Statement (.imageCompletion marred) := fun h c hc => Nat.lt_of_lt_of_le (within_lt _ _ _ h c hc) (by decide)
theorem compactionStart : Statement .compactionStart := of_none _ rfl
theorem erasePhaseStart (retireLine : Marred) : Statement (.erasePhaseStart retireLine) := fun h c hc => Nat.lt_of_lt_of_le (within_lt _ _ _ h c hc) (by decide)
theorem spoiledEraseStart : Statement .spoiledEraseStart := of_none _ rfl
theorem eraseEnd (residue : Marred) (retireLine : Marred) : Statement (.eraseEnd residue retireLine) := by
  intro h c hc
  simp only [Instr.wf, Bool.and_eq_true] at h
  rcases List.mem_append.1 hc with hc | hc
  · exact within_lt _ _ _ h.1 c hc
  · exact Nat.lt_of_lt_of_le (within_lt _ _ _ h.2 c hc) (by decide)
theorem eraseSuspended : Statement .eraseSuspended := of_none _ rfl
theorem eraseResume : Statement .eraseResume := of_none _ rfl
theorem retainedEntryBegin : Statement .retainedEntryBegin := of_none _ rfl
theorem retainedEntryCompletion (marred : Marred) : Statement (.retainedEntryCompletion marred) := fun h c hc => Nat.lt_of_lt_of_le (within_lt _ _ _ h c hc) (by decide)
theorem retainedEraseStart : Statement .retainedEraseStart := of_none _ rfl
theorem retainedEraseEnd (residue : Marred) : Statement (.retainedEraseEnd residue) := fun h c hc => within_lt _ _ _ h c hc
theorem otherReadEmptiesCapture (p : Port) (a : Addr) : Statement (.otherReadEmptiesCapture p a) := of_none _ rfl

end Sys2Proof.Laws.FlashOffsets
end

