-- ==== Sys2Proof/Tests/Slice0.lean ====
section
/-!
SUPPORT. Tests: the WellFormed checks refuse ill-formed terms; the spec's worked examples; and for every statement with
hypotheses a witness, a concrete state and operands that meet them, clause by clause, at boundary values where a clause
has a range.
-/

namespace Sys2Proof.Tests

-- One theorem at a time: each waiting proof holds a thread, and there are many here.
set_option Elab.async false

open Sys2Proof.Machine

/-! ### WellFormed refuses -/

/-- A line of flash has 8 bytes: offset 8 lies outside it. -/
theorem test_wf_cut_line_outside :
    (Instr.resetEntry .supgood { lines := 0, line := [(8, 0)], erased := [] }).wf = false := by decide

/-- Offsets rise strictly. -/
theorem test_wf_cut_line_not_rising :
    (Instr.resetEntry .supgood { lines := 0, line := [(3, 0), (3, 1)], erased := [] }).wf = false := by decide

/-- A sector has 2048 bytes. -/
theorem test_wf_cut_erase_outside :
    (Instr.resetEntry .supgood { lines := 0, line := [], erased := [(2048, 0)] }).wf = false := by decide

/-- The longest image has 784 bytes. -/
theorem test_wf_image_outside : (Instr.imageCompletion [(784, 0)]).wf = false := by decide

theorem test_wf_image_not_rising : (Instr.imageCompletion [(5, 0), (4, 0)]).wf = false := by decide

theorem test_wf_retire_line_outside : (Instr.erasePhaseStart [(8, 1)]).wf = false := by decide

theorem test_wf_erase_residue_outside : (Instr.eraseEnd [(2048, 1)] []).wf = false := by decide

theorem test_wf_erase_retire_line_outside : (Instr.eraseEnd [] [(8, 1)]).wf = false := by decide

/-- A retained entry has 64 bytes. -/
theorem test_wf_retained_entry_outside : (Instr.retainedEntryCompletion [(64, 0)]).wf = false := by decide

theorem test_wf_retained_residue_outside : (Instr.retainedEraseEnd [(2048, 0)]).wf = false := by decide

/-- A RELEASE with neither a write nor a take names no event. -/
theorem test_wf_release_of_nothing : (Instr.release .fp none 0).wf = false := by decide

/-- The last offset of each unit is inside it. -/
theorem test_wf_accepts_last_offsets :
    (Instr.imageCompletion [(0, 1), (783, 2)]).wf = true ∧ (Instr.eraseEnd [(2047, 0)] [(7, 0)]).wf = true ∧
    (Instr.retainedEntryCompletion [(63, 1)]).wf = true ∧ (Instr.release .fp none 1).wf = true ∧
    (Instr.release .bp (some (0x1041, 3)) 0).wf = true ∧
    (Instr.resetEntry (.resetn 1000) { lines := 9, line := [(7, 0)], erased := [(2047, 0)] }).wf = true := by decide

/-- The table gives no row any bits (chapter 10: no command bus). -/
theorem test_no_word_spells_a_command : decodeTableWord 16 0x1234 = none ∧
    (State.reset.withFetchWord 16 0x1234) = State.reset := by decide +kernel

/-! ### States the tests stand on -/

/-- An adopted copy: pass period 10 ms, stale limit 200 ms, silence limit 100 ms. -/
def copyOf : AdoptedCopy :=
  { passCode := 1, inverted := false, staleCode := 4, silenceCode := 2, reader := .fp, threshold := 16,
    lists := Vector.replicate 32 0xFF }

/-- The profile of chapter 2's maturity run: U 16, D 4, jump, class 2. -/
def profileOf2 : Profile :=
  { stepUp := 16, jump := true, stepDown := 4, enable := true, fadeRides := 3, cls := 2, list := 0, forgetRides := 40 }

def erasedSector : Sector := { state := .erased, marked := false, firstSeq := none, used := 0 }

def fullSector (first : Nat) : Sector := { state := .full, marked := false, firstSeq := some first, used := 100 }

/-- A port that has adopted, its timers running. -/
def adoptedPort : PortState :=
  { PortState.reset false false with
    adopted := true, copy := some copyOf, passDue := some 10000, silenceDue := some 100000, shown := .steady, lamp := true }

/-- A 16-bit port, big-endian, that has adopted. -/
def widePort : PortState := { adoptedPort with wide := true, swapped := true }

/-- Ride 412 at 100 s, both ports adopted, partition 0 (FP has slots 0..95), the store READY with every sector ERASED. -/
def riding : State :=
  { State.reset with
    now := 5000, fp := adoptedPort, bp := adoptedPort,
    ride := { state := .riding, number := 412, time := 100, secondDue := some 1000000, debounced := true,
              debounceDue := none, proveOutDue := some 2000000, holdDue := none, pwrhold := true },
    ign := true,
    store := { State.reset.store with state := .ready, inhibitDue := none, sectors := Vector.replicate 16 erasedSector },
    profiles := State.reset.profiles.set 37 profileOf2 }

/-- NO_RIDE after ride 412. -/
def parked : State :=
  { riding with ign := false, ride := { riding.ride with
      state := .noRide, debounced := false, secondDue := none, proveOutDue := none, holdDue := some 3000000 } }

/-- ENDING of ride 412. -/
def ending : State :=
  { parked with ride := { parked.ride with state := .ending } }

/-- A FADING record for slot 37, with both frames. -/
def record37 : Record :=
  { slot := 37, state := .fading, cls := 2, occurrence := 2, onset := 400, firstConf := 401, latestConf := 405,
    activity := 410, fade := 1, forget := 0, first := some 0, latest := some 1, persisted := true, dirty := false,
    urgent := false }

def fading37 : Qualifier := { Qualifier.reset with state := .fading, m := -128, fade := 1 }

/-- `riding` with slot 37 FADING and its record in entry 0. -/
def recorded : State :=
  { riding with quals := riding.quals.set 37 fading37, records := riding.records.set 0 (some record37) }

/-- `riding` with the tally slot of FP slot 37 holding these bytes, touched, a pass standing before it. -/
def sampled (bytes : List Byte) (q : Qualifier) (e : SlotEngine) : State :=
  ({ riding with
      quals := riding.quals.set 37 q, slots := riding.slots.set 37 { e with touched := true },
      fp := { riding.fp with passPos := some 0 } } : State).wrBytes (0x0600 + 8 * 37) bytes

/-- A port's cell POSTED and picked, with this code and these parameters. -/
def posted (p : Port) (code : Byte) (params : List Byte) (s : State) : State :=
  let s1 := ((s.setPort p { s.port p with cell := .posted }).wr (Config.cellBase p) 1).wrBytes (Config.cellBase p + 1)
    [code, 0, 0]
  { s1.wrBytes (Config.cellBase p + 4) params with exec := { s.exec with claim := some p } }

/-- The state a command leads to. -/
def after (c : Instr) (s : State) : State :=
  match exec c s with
  | .next t => t
  | .fault _ => s
  | .refused _ => s

/-! ### The spec's worked examples -/

/-- Chapter 1's example of a check under both senses. -/
theorem test_check_senses :
    let x : Sample := { pass := 0x0E, fail := 0x04, band := 0x00, detail := 0x21, ctxLo := 0x34, ctxHi := 0x12,
                        spare := 0x00, check := 0 }
    expectedCheck false x = 0x0D ∧ expectedCheck true x = 0xF2 := by decide

/-- Chapter 2's maturity run: samples 1, 2, 4, 5, 7 and 8. -/
theorem test_maturity_run :
    newM profileOf2 { slot := 37, f := 7, p := 2, band := 1, detail := 0, context := 0 } (-20) = 48 ∧
    newM profileOf2 { slot := 37, f := 10, p := 0, band := 0, detail := 0, context := 0 } 48 = 127 ∧
    newM profileOf2 { slot := 37, f := 0, p := 20, band := 0, detail := 0, context := 0 } 127 = -80 ∧
    newM profileOf2 { slot := 37, f := 0, p := 12, band := 2, detail := 0, context := 0 } (-80) = -128 ∧
    newM profileOf2 { slot := 37, f := 0, p := 200, band := 0, detail := 0, context := 0 } (-128) = -128 ∧
    newM profileOf2 { slot := 37, f := 9, p := 1, band := 0, detail := 0, context := 0 } (-128) = 127 := by decide

/-- Chapter 2's sample 1 as a visit: fail tally wrapped from 250 to 1, pass 10 to 12, band 1; PENDING with M +48. -/
theorem test_visit_sample1 :
    (after (.slotVisit .fp) (sampled [12, 1, 1, 0, 0, 0, 0, 12] { Qualifier.reset with m := -20 }
      { SlotEngine.reset with seenPass := 10, seenFail := 250 })).quals[37].m = 48 ∧
    (after (.slotVisit .fp) (sampled [12, 1, 1, 0, 0, 0, 0, 12] { Qualifier.reset with m := -20 }
      { SlotEngine.reset with seenPass := 10, seenFail := 250 })).quals[37].state = .pending := by decide +kernel

/-- Chapter 4's worked capture: 4250, 87, 1210 and 12. -/
theorem test_compact_codes : compactCode 4250 = 0x91 ∧ compactCode 87 = 0x36 ∧ compactCode 1210 = 0x73 ∧
    compactCode 12 = 0x0C := by decide +kernel

/-- Chapter 9's overrun: 60 unread of 1000, six appends, a release of 60 (orders A and B). -/
theorem test_overrun_orders :
    let s : State := { riding with pub := { riding.pub with writeCount := 1000, readMark := 940, unread := 60 } }
    let six (x : State) : State := (List.range 6).foldl (fun x _ => x.appendPart .rideBegin 0) x
    let a := (six s).takeRelease .fp 60
    let b := six (s.takeRelease .fp 60)
    (a.pub.writeCount = 1006 ∧ a.pub.readMark = 1002 ∧ a.pub.unread = 4 ∧ a.pub.overrun = true) ∧
    (b.pub.writeCount = 1006 ∧ b.pub.readMark = 1000 ∧ b.pub.unread = 6 ∧ b.pub.overrun = false) := by decide +kernel

/-- Chapter 8's CLEAR SLOT exchange: BP's index 44 is global slot 140; the answer is 140 and the state before. -/
theorem test_clear_slot_exchange :
    let s := posted .bp 2 [44] { riding with quals := riding.quals.set 140 { Qualifier.reset with state := .confirmed, m := 127 } }
    let t := after (.clearSlot { port := .bp, part := .whole }) s
    t.exec.taken = some (.clear .bp [140, 2]) ∧ t.exec.pref = .fp ∧ t.store.logQueue = [.clear 140 140] ∧
    t.quals[140].state = .idle := by decide +kernel

/-- Chapter 8's withdrawal against take, on FETCH QUALIFIER for slot 37: the write of 0 first, or the take first and the
write before the completion (R138). -/
theorem test_withdrawal_against_take :
    let s := posted .fp 5 [37] recorded
    let w (x : State) : State := after (.withdrawal .fp 0x0F00 0) x
    let take : Instr := .fetchQualifier { port := .fp, part := .take }
    let ends : Instr := .fetchQualifier { port := .fp, part := .completion }
    (after take (w s)).fp.cell = .idle ∧ (after take (w s)).exec.taken = none ∧ (after take (w s)).exec.pref = .fp ∧
    (w (after take s)).fp.cell = .taken ∧ (w (after take s)).exec.pref = .bp ∧
    (let t := after ends (w (after take s))
     t.fp.cell = .answered ∧ t.rd 0x0F02 = 0 ∧ t.rd 0x0F03 = 13 ∧ t.rd 0x0F10 = 3 ∧ t.rd 0x0F11 = 0x80 ∧ t.fp.attn = true ∧
       (w t).fp.cell = .idle) := by decide +kernel

/-- A request taken alone holds the ride-end accounting until its completion (R90, R139). -/
theorem test_accounting_waits_for_a_completion :
    let s : State := { after (.acknowledge { port := .bp, part := .take }) (posted .bp 8 [] riding) with ride := ending.ride }
    s.accountingDue = false ∧ (after (.acknowledge { port := .bp, part := .completion }) s).accountingDue = true := by
  decide +kernel

/-- 11.7: a CLEAR image of slots 96..191, sequence 5, ride 412; the check is the sum of its other bytes. -/
theorem test_clear_image_bytes :
    imageBytes .clear 5 412 (logBody (.clear 96 191)) =
      [4, 3, 5, 0, 0, 0, 0x9C, 0x01, 0xC8, 0x01, 0, 0, 0, 0, 0, 0, 96, 191, 0, 0, 0, 0, 0, 0] := by decide

/-! ### Witnesses: the step, reset, the ignition -/

theorem canonical_riding : riding.MemoriesCanonical := by unfold State.MemoriesCanonical; decide

theorem canonical_parked : parked.MemoriesCanonical := canonical_riding

theorem canonical_ending : ending.MemoriesCanonical := canonical_riding

theorem test_witness_StepRunsTheFrontCommand :
    ({ riding with pending := [.proveOutExpiry, .imageBegin] } : State).pending = .proveOutExpiry :: [.imageBegin] ∧
    riding.pending = [] ∧ riding.inReset = false ∧
    ({ riding with supgood := false } : State).pending = [] ∧ ({ riding with supgood := false } : State).inReset = true := by
  decide +kernel

theorem test_witness_OnlyCertainCommandsChangeFlashStrapsAndRideNumber :
    exec .holdLimitExpiry parked = .next (after .holdLimitExpiry parked) ∧ parked.ride.number ≤ 65535 ∧
    (∀ straps, Instr.holdLimitExpiry ≠ .resetRelease straps) ∧
    (∀ cause cut, Instr.holdLimitExpiry ≠ .resetEntry cause cut) ∧ Instr.holdLimitExpiry ≠ .restoreFinish :=
  ⟨rfl, by decide, fun _ h => (by cases h), fun _ _ h => (by cases h), by decide⟩

/-- A pulse of 999 ns, a recognised one of 1000 ns, and SUPGOOD, at a part with nothing in flight. -/
theorem test_witness_ResetEntryAbandonsEverything :
    999 < 1000 ∧ riding.inReset = false ∧ (∃ n, ResetCause.resetn 1000 = .resetn n ∧ 1000 ≤ n) ∧
    riding.store.program = none ∧ riding.store.erase = none ∧ riding.store.retErase ≠ .running :=
  ⟨by decide, by decide, ⟨1000, rfl, by decide⟩, rfl, rfl, by decide⟩

theorem test_witness_ResetReleaseSetsEveryBlock : ({ riding with resetn := false } : State).inReset = true := by decide

/-- A change, a change in reset, a level that stood; a debounce expiry in WAITING and in ENDING. -/
theorem test_witness_IgnIsDebounced :
    true = riding.ign ∧ false ≠ riding.ign ∧ riding.inReset = false ∧
    (false ≠ ({ riding with resetn := false } : State).ign ∧ ({ riding with resetn := false } : State).inReset = true) ∧
    (let w : State := { State.reset with ride := { State.reset.ride with debounceDue := some 50000 } }
     w.inReset = false ∧ w.ride.debounceDue = some 50000 ∧ w.ride.state = .waiting) ∧
    (let e : State := { ending with ride := { ending.ride with debounceDue := some 60000 } }
     e.inReset = false ∧ e.ride.debounceDue = some 60000 ∧ e.ride.state = .ending) := by decide

/-- NO_RIDE with IGN high and the debounce timer running. -/
def rising : State := { parked with ign := true, ride := { parked.ride with debounceDue := some 55000 } }

theorem test_witness_DebouncedRiseBeginsARide :
    rising.MemoriesCanonical ∧ rising.inReset = false ∧ rising.ride.debounceDue = some 55000 ∧ rising.ride.state = .noRide ∧
    rising.ign = true ∧ rising.adoptedCopy .bp = some copyOf ∧ copyOf.silenceCode ≠ 0 :=
  ⟨canonical_riding, by decide⟩

theorem test_witness_DebouncedFallEntersEnding :
    let s : State := { riding with ign := false, ride := { riding.ride with debounceDue := some 55000 } }
    s.inReset = false ∧ s.ride.debounceDue = some 55000 ∧ s.ride.state = .riding ∧ s.ign = false := by decide

/-! ### Witnesses: rides -/

/-- Restore with the debounced level low, and high. -/
theorem test_witness_RestoreFinishRebuildsAndLeavesWaiting :
    State.reset.inReset = false ∧ State.reset.ride.state = .waiting ∧ State.reset.ride.debounced = false ∧
    ({ State.reset with ride := { State.reset.ride with debounced := true } } : State).ride.debounced = true := by decide

/-- Thirteen sectors whose retire line is not blank, the others SPOILED: the store becomes FAILED (R133). -/
theorem test_witness_RestoreFinish_failed :
    let few (n : Nat) : State := { State.reset with
      flash := (List.range 16).map (fun k => if k < n then (2048 * k + 2047, 0) else (2048 * k, 0)) }
    (few 13).MemoriesCanonical ∧ (few 13).rebuild.settleStore.store.state = .failed := by
  unfold State.MemoriesCanonical; decide +kernel

/-- Flash with these image headers in sector 15, each as its line, kind and length; their other bytes read erased. -/
def headers (l : List (Nat × Byte × Byte)) : Memory :=
  l.foldl (fun m x => Memory.writeBytes flashDefault m (sectorAddr 15 (8 * x.1)) [x.2.1, x.2.2]) []

/-- Sector 15 full of images up to line 250, then these. -/
def upTo (last : List (Nat × Byte × Byte)) : Memory :=
  headers ([(0, 2, 98), (98, 2, 98), (196, 3, 9), (205, 3, 9), (214, 3, 9), (223, 3, 9), (232, 3, 9), (241, 3, 9)] ++ last)

/-- The only images of `upTo` are those of sector 15. -/
theorem images_upTo (last : List (Nat × Byte × Byte))
    (h : ∀ c ∈ upTo last, 2048 * (15 : Fin 16).val ≤ c.1 ∧ c.1 < 2048 * (15 : Fin 16).val + 2048) :
    ∀ y ∈ parsedImages (upTo last), y.sector ≠ 15 → ∀ n, y.seq < n :=
  fun y hy hne => absurd (parsedImages_of_one_sector _ 15 h y hy) hne

/-- The classes of R130: a retire line not blank; a blank sector; no image parsed; a walk that ends on a blank line 254,
and one that ends at line 255; a restored ride number and sequence. -/
theorem test_witness_RestoreFinish_classes :
    (let m : Memory := [(2 * 2048 + 2047, 0)]
     allBlank ((sectorBytes m 2).drop 2040) = false ∧ allBlank (sectorBytes m 1) = true) ∧
    (let m : Memory := [(3 * 2048, 0)]
     allBlank ((sectorBytes m 3).drop 2040) = true ∧ allBlank (sectorBytes m 3) = false ∧ (walkSector m 3).1 = []) ∧
    (let m := upTo [(250, 1, 2), (252, 1, 2)]
     (∀ c ∈ m, 2048 * (15 : Fin 16).val ≤ c.1 ∧ c.1 < 2048 * (15 : Fin 16).val + 2048) ∧
       allBlank ((sectorBytes m 15).drop 2040) = true ∧ allBlank (sectorBytes m 15) = false ∧
       (walkSector m 15).1.length = 10 ∧ (walkSector m 15).2 = .blank 254) ∧
    (let m := upTo [(250, 5, 3), (253, 1, 2)]
     allBlank ((sectorBytes m 15).drop 2040) = true ∧ (walkSector m 15).1.length = 10 ∧
       (walkSector m 15).2 = .blank 255) := by decide +kernel

/-- A valid image of slot 37's record key with this kind, sequence and body. -/
def image37 (kind : ImageKind) (seq : Nat) (body : List Byte) : Image :=
  { sector := 0, line := 0, kind := kind, seq := seq, ride := 412, valid := true, body := body }

def recordImage37 (seq : Nat) : Image := image37 .record seq (recordBody record37 State.reset.frames)

def clearImage37 (seq : Nat) : Image := image37 .clear seq (logBody (.clear 37 37))

def releaseImage37 (seq : Nat) : Image := image37 .release seq (logBody (.release 37))

/-- A QUALIFIER image that shows slot 37 as `q`. -/
def qualifierImage (seq : Nat) (q : Qualifier) : Image :=
  image37 .qualifier seq (qualifierBody (riding.quals.set 37 q))

/-- A rebuilt record with both frame copies, for entry `e` of a list. -/
def rebuilt (e : Nat) : Rebuilt :=
  { record := { record37 with slot := Fin.ofNat 192 e }, first := some (Vector.replicate 19 1),
    latest := some (Vector.replicate 19 2) }

/-- One list for each row of R131's table, sequences one apart; no key, and each key with two images; frames handed out up
to number 63, and none beyond. -/
theorem test_witness_RestoreFollowsTheNewestImages :
    (newestRecordKey [] 37 = none ∧ newestQualifier [] = none) ∧
    newestRecordKey [recordImage37 4, releaseImage37 5] 37 = some (releaseImage37 5) ∧
    (newestRecordKey [clearImage37 5] 37 = some (clearImage37 5) ∧ newestQualifier [clearImage37 5] = none) ∧
    (newestRecordKey [clearImage37 5, qualifierImage 4 fading37] 37 = some (clearImage37 5) ∧
      newestQualifier [clearImage37 5, qualifierImage 4 fading37] = some (qualifierImage 4 fading37)) ∧
    (newestRecordKey [clearImage37 5, qualifierImage 6 fading37] 37 = some (clearImage37 5) ∧
      newestQualifier [qualifierImage 5 fading37, qualifierImage 6 fading37] = some (qualifierImage 6 fading37)) ∧
    (newestRecordKey [recordImage37 5] 37 = some (recordImage37 5) ∧ newestQualifier [recordImage37 5] = none ∧
      (rebuiltFrom 37 (recordImage37 5).body).record.state = .fading ∧
      (rebuildSlot [recordImage37 5] 37).1.fade = 1) ∧
    (newestRecordKey [recordImage37 5, qualifierImage 6 fading37] 37 = some (recordImage37 5) ∧
      (qualifierFrom (some (qualifierImage 6 fading37)) 37).state = .fading) ∧
    (qualifierFrom (some (qualifierImage 6 Qualifier.reset)) 37).state = .idle ∧
    (let kept := (List.range 33).map rebuilt
     let one (f : Option Frame) : Nat := if f.isSome then 1 else 0
     kept[31]? = some (rebuilt 31) ∧ kept[32]? = some (rebuilt 32) ∧
       ((kept.take 31).map (fun y => one y.first + one y.latest)).sum = 62 ∧
       ((kept.take 32).map (fun y => one y.first + one y.latest)).sum = 64 ∧
       ({ rebuilt 0 with latest := none } : Rebuilt).latest = none) := by decide +kernel

/-- A RECORD image of slot 37 with both its frames, alone in sector 0. -/
def oneRecord : Memory :=
  Memory.writeBytes flashDefault [] 0 (imageBytes .record 5 412 (recordBody record37 (State.reset.frames.set 1 (Vector.replicate 19 7))))

/-- The one image restore finds in `oneRecord`. -/
def oneImage : Image :=
  image37 .record 5 (recordBody record37 (State.reset.frames.set 1 (Vector.replicate 19 7)))

theorem parsed_oneRecord : parsedImages oneRecord = [oneImage] := by
  rw [parsedImages_eq_of_one_sector oneRecord 0 (by decide +kernel)]
  decide +kernel

/-- A frame copy handed out by a restore, and its records under the laws of R51. -/
theorem test_witness_RestoreFinish_frames :
    (placeRecords (keptRecords (parsedImages oneRecord))).2[(1 : Fin 64).val]? = some (Vector.replicate 19 7) ∧
    (∀ x ∈ keptRecords (parsedImages oneRecord), x.record.CountsRight (restoredRide (parsedImages oneRecord))) ∧
    (let s : State := { State.reset with flash := oneRecord, pending := [.restoreFinish] }
     s.ride.state = .waiting ∧ s.pending.head? = some .restoreFinish ∧ s.CountLaw) := by
  rw [parsed_oneRecord]
  refine ⟨by decide +kernel, fun x hx => ?_, rfl, rfl, by decide, fun e r h => ?_⟩
  · have h : ∀ x ∈ keptRecords [oneImage], x.record.state = .fading ∧ x.record.occurrence = 2 ∧ x.record.firstConf = 401 ∧
        x.record.latestConf = 405 ∧ restoredRide [oneImage] = 412 := by decide +kernel
    obtain ⟨h1, h2, h3, h4, h5⟩ := h x hx
    exact ⟨by simp [h1], by simp [h2], by simp [h3, h4, h5]⟩
  · have h0 : ∀ e : Fin 48, State.reset.records[e] = none := by decide +kernel
    have h1 : State.reset.records[e] = some r := h
    rw [h0 e] at h1
    cases h1

theorem test_witness_RideEndAccountingClosesTheRide :
    ending.MemoriesCanonical ∧ ending.inReset = false ∧ ending.ride.state = .ending ∧ ending.store.rideEnding = false ∧
    ending.exec.taken = none := ⟨canonical_ending, by decide⟩

/-- `ending` with slot 37 in this state and counts. -/
def endingWith (q : Qualifier) : State :=
  { ending with quals := ending.quals.set 37 q, records := ending.records.set 0 (some { record37 with state := q.state }) }

/-- Slot 37 in each state: fade 1 and 2 under 3 fade rides, forget 38 and 39 under 40 forget rides. -/
theorem test_witness_AccountingOfOneQualifier :
    let f : Qualifier := { fading37 with passedMature := true }
    let h : Qualifier := { Qualifier.reset with state := .historic, forget := 38 }
    (endingWith f).adoptedProfile 37 = some profileOf2 ∧
    (endingWith f).quals[37].state = .fading ∧ (endingWith f).slots[37].barred = false ∧
    min 15 (f.fade + 1) < profileOf2.fadeRides ∧ profileOf2.fadeRides ≤ min 15 (({ f with fade := 2 } : Qualifier).fade + 1) ∧
    (endingWith f).recordOf 37 = some (0, { record37 with state := .fading }) ∧
    (endingWith h).quals[37].state = .historic ∧ min 255 (h.forget + 1) < profileOf2.forgetRides ∧
    profileOf2.forgetRides ≤ min 255 (39 + 1) ∧ profileOf2.forgetRides ≠ 255 ∧
    (endingWith { h with state := .pending }).quals[37].state = .pending ∧
    (endingWith { h with failed := true }).quals[37].failed = true ∧
    (endingWith { f with state := .confirmed }).quals[37].state = .confirmed ∧
    ending.quals[37].state = .idle ∧ State.reset.adoptedProfile 37 = none := by decide +kernel

/-- A count that changes in a slot with a record, and a change of state out of FADING, HISTORIC and PENDING. -/
theorem test_witness_AccountingOfOneQualifier_trail :
    let f : Qualifier := { fading37 with passedMature := true }
    let h : Qualifier := { Qualifier.reset with state := .historic, forget := 39 }
    let u (q : Qualifier) : Qualifier := ((endingWith q).accountSlot 37).quals[37]
    ending.MemoriesCanonical ∧ ((u f).state = .fading ∧ (u f).fade ≠ f.fade ∧ (u { f with fade := 2 }).state = .historic ∧
      (u h).state = .idle ∧ (u { h with state := .pending }).state = .idle) := ⟨canonical_ending, by decide +kernel⟩

/-- A clean READY store and a FAILED one, with either debounced level. -/
theorem test_witness_EndingCompletesByTheDebouncedLevel :
    let s : State := { ending with store := { ending.store with rideEnding := true } }
    s.inReset = false ∧ s.ride.state = .ending ∧ s.store.rideEnding = true ∧ s.anyMarked = false ∧ s.store.erase = none ∧
    s.store.retErase ≠ .running ∧ s.ride.debounced = false ∧
    ({ s with store := { s.store with state := .failed } } : State).store.state = .failed ∧
    ({ s with ride := { s.ride with debounced := true } } : State).ride.debounced = true := by decide +kernel

/-- Both cells POSTED and one alone, BP preferred, as ENDING completes; a TAKEN request holds the accounting up. -/
theorem test_witness_EndingCompletes_opportunity :
    let done : State := { ending with store := { ending.store with rideEnding := true }, exec := { ending.exec with pref := .bp } }
    let one : State := { done with fp := { done.fp with cell := .posted } }
    let two : State := { one with bp := { one.bp with cell := .posted } }
    let busy : State := { ending with exec := { ending.exec with taken := some (.clear .fp []) } }
    done.exec.taken = none ∧ done.exec.claim = none ∧ (after .endingCompletion done).exec.claim = none ∧
    (after .endingCompletion one).exec.claim = some .fp ∧ (after .endingCompletion two).exec.claim = some .bp ∧
    busy.exec.taken ≠ none ∧ ending.store.rideEnding = false ∧
    ({ ending with store := { ending.store with rideMark := true } } : State).anyMarked = true := by decide +kernel

theorem test_witness_RideTimeAndPowerHold :
    riding.inReset = false ∧ riding.ride.secondDue = some 1000000 ∧ riding.ride.time < 65535 ∧
    parked.ride.holdDue = some 3000000 ∧ parked.ride.pwrhold = true ∧ parked.ride.state = .noRide ∧
    parked.ride.debounced = false ∧ parked.store.state ≠ .starting ∧ parked.anyMarked = false ∧
    parked.store.program = none ∧ parked.store.erase = none ∧ parked.store.retErase ≠ .running ∧
    parked.store.compaction = none ∧ (∀ k : Fin 16, parked.store.sectors[k].state ≠ .spoiled) ∧
    riding.ride.state ≠ .noRide := by decide +kernel

theorem test_witness_LampsFollowDemandAndPhase :
    riding.inReset = false ∧ riding.ride.state = .riding ∧ riding.ride.proveOutDue = some 2000000 := by decide

/-- SLOW and FAST at the last lit and the first dark moment of a cycle (R101). -/
theorem test_blink_edges : litAt .slow 1499999 = true ∧ litAt .slow 1500000 = false ∧ litAt .fast 374999 = true ∧
    litAt .fast 375000 = false := by decide

/-- The demand of a FADING class 2 qualifier ends at HISTORIC, at its clear and at the clear of its port (R41, R91). -/
theorem test_demand_ends :
    let s : State := endingWith { fading37 with passedMature := true, fade := 2 }
    let lit (u : State) : State := { u with fp := { u.fp with slow := 1 } }
    ((lit s).accountSlot 37).fp.slow = 0 ∧ (lit s).fp.slow = 1 ∧
    (after (.clearSlot { port := .fp, part := .whole }) (posted .fp 2 [37] (lit recorded))).fp.slow = 0 ∧
    (after (.clearPort { port := .fp, part := .whole }) (posted .fp 3 [] (lit recorded))).fp.slow = 0 := by decide +kernel

theorem test_witness_SilenceExpiryFlagsThePort :
    riding.MemoriesCanonical ∧ riding.inReset = false ∧ (riding.port .bp).silenceDue = some 100000 :=
  ⟨canonical_riding, by decide⟩

/-! ### Witnesses: qualification -/

/-- An expiry with a pass in progress, with a touched slot, and with none. -/
theorem test_witness_PassTimerBeginsOrOwesAPass :
    riding.inReset = false ∧ (riding.port .fp).passDue = some 10000 ∧ riding.adoptedCopy .fp = some copyOf ∧
    (sampled [] fading37 SlotEngine.reset).fp.passPos = some 0 ∧ riding.fp.passPos = none ∧
    (∀ i : Slot, riding.owner i = .fp → riding.slots[i].touched = false) ∧
    (∃ i : Slot, riding.owner i = .fp ∧ (riding.touch 37).slots[i].touched = true) :=
  ⟨by decide, by decide, by decide, by decide, by decide, by decide +kernel, 37, by decide +kernel⟩

/-- A mismatching sample at held 0, 1, 2 and in a barred slot; a slot whose enable flag is clear. -/
theorem test_witness_VisitThatAcceptsNothing :
    let at' (n : Nat) : State := sampled [12, 1, 1, 0, 0, 0, 0, 13] fading37 { SlotEngine.reset with held := n, barred := decide (n = 3) }
    let s := at' 2
    (at' 0).inReset = false ∧ s.fp.passPos = some 0 ∧ s.nextTouched .fp 0 = some 37 ∧ s.enabled 37 = true ∧
    expectedCheck (s.checkInverted .fp) (s.sample 37) ≠ (s.sample 37).check ∧
    (at' 0).slots[37].held < 2 ∧ (at' 1).slots[37].held < 2 ∧ s.slots[37].held = 2 ∧ s.slots[37].barred = false ∧
    (at' 3).slots[37].barred = true ∧
    ({ s with profiles := s.profiles.set 37 { profileOf2 with enable := false } } : State).enabled 37 = false := by
  decide +kernel

/-- Behind slot 37 the pass goes on to slot 95, FP's highest, but not to BP's 96; at its end an owed pass meets the mark a
held sample leaves, and finds none where the slot was disabled (R6, R10, R15). -/
theorem test_witness_Visit_passGoesOn :
    let held : State := sampled [12, 1, 1, 0, 0, 0, 0, 13] fading37 SlotEngine.reset
    let owing (s : State) : State := { s with fp := { s.fp with owed := true } }
    let off (s : State) : State := { s with profiles := s.profiles.set 37 { profileOf2 with enable := false } }
    let seen (s : State) : Option Nat × Bool := ((after (.slotVisit .fp) s).fp.passPos, (after (.slotVisit .fp) s).fp.owed)
    seen (held.touch 95) = (some 38, false) ∧ seen (owing (held.touch 95)) = (some 38, true) ∧
    seen (held.touch 96) = (none, false) ∧ seen (owing (held.touch 96)) = (some 0, false) ∧
    seen (owing (off (held.touch 96))) = (none, false) ∧ riding.fp.passPos = none := by decide +kernel

/-- A sample of chapter 2's run, under band 1 and under band 3, in a slot not barred and in a barred one. -/
def accepted (band check : Byte) (barred : Bool) : State :=
  sampled [12, 1, band, 0, 0, 0, 0, check] { Qualifier.reset with m := -20 }
    { SlotEngine.reset with seenPass := 10, seenFail := 250, held := if barred then 3 else 0, barred := barred }

theorem canonical_accepted : (accepted 1 12 false).MemoriesCanonical := by unfold State.MemoriesCanonical; decide +kernel

theorem test_witness_MatchingSampleIsAccepted :
    (accepted 1 12 false).MemoriesCanonical ∧
    ((accepted 1 12 false).inReset = false ∧ (accepted 1 12 false).fp.passPos = some 0 ∧
      (accepted 1 12 false).nextTouched .fp 0 = some 37 ∧ (accepted 1 12 false).enabled 37 = true ∧
      expectedCheck ((accepted 1 12 false).checkInverted .fp) ((accepted 1 12 false).sample 37) =
        ((accepted 1 12 false).sample 37).check ∧
      (accepted 1 12 true).slots[37].barred = true ∧ ((accepted 3 14 false).sample 37).band.toNat % 4 = 3) :=
  ⟨canonical_accepted, by decide +kernel⟩

theorem test_witness_ReportMovesMaturityAndState :
    let s := accepted 1 12 false
    s.inReset = false ∧ s.fp.passPos = some 0 ∧ s.nextTouched .fp 0 = some 37 ∧ s.adoptedProfile 37 = some profileOf2 ∧
    profileOf2.enable = true ∧ expectedCheck (s.checkInverted .fp) (s.sample 37) = (s.sample 37).check ∧
    (s.sample 37).band.toNat % 4 ≠ 3 := by decide +kernel

/-- A matching sample of slot 37 with these verdicts under band 0, the qualifier at M 0 in a state, its record in entry 0
if it has one, the profile of this class. -/
def moving (fails passes : Byte) (st : QState) (r : Option Record) (cls : Fin 4) : State :=
  let s := sampled [passes, fails, 0, 0, 0, 0, 0, passes ^^^ fails] { Qualifier.reset with state := st } SlotEngine.reset
  { s with records := s.records.set 0 r, profiles := s.profiles.set 37 { profileOf2 with cls := cls } }

/-- The hypotheses common to every clause, with the new state. -/
def moves (s : State) (cls : Fin 4) (st : QState) : Bool :=
  let pr : Profile := { profileOf2 with cls := cls }
  let x := s.sample 37
  let r : Report := { slot := 37, f := x.fail.toNat, p := x.pass.toNat, band := x.band.toNat % 4, detail := x.detail,
                      context := wordOf x.ctxLo x.ctxHi }
  !s.inReset && decide (s.fp.passPos = some 0) && decide (s.nextTouched .fp 0 = some 37) &&
    decide (s.adoptedProfile 37 = some pr) && decide (expectedCheck (s.checkInverted .fp) x = x.check) &&
    decide (x.band.toNat % 4 ≠ 3) && decide (stateAfter s.quals[37].state (matured pr r s.quals[37]).m = st) &&
    decide (st ≠ s.quals[37].state)

theorem canonical_moving : (moving 20 0 .idle none 2).MemoriesCanonical ∧
    (moving 0 80 .pending none 2).MemoriesCanonical := by unfold State.MemoriesCanonical; decide +kernel

/-- A record held through a drop, a fade and recurrences with its LATEST frame and without, and none held with a free table;
20 fails at 16 reach +127, 80 passes at 4 reach −128; class 3 with position 0 spare, none spare, and the slot listed. -/
theorem test_witness_TransitionsDoTheirWork :
    ((moving 20 0 .idle none 2).MemoriesCanonical ∧ (moving 0 80 .pending none 2).MemoriesCanonical) ∧
    (let held (st : QState) : Option Record := some { record37 with state := st }
     let bare : Option Record := some { record37 with state := .historic, latest := none }
     moves (moving 0 80 .pending (held .pending) 2) 2 .idle = true ∧
       moves (moving 0 80 .confirmed (held .confirmed) 2) 2 .fading = true ∧
       moves (moving 20 0 .pending (held .pending) 2) 2 .confirmed = true ∧
       moves (moving 20 0 .fading (held .fading) 2) 2 .confirmed = true ∧
       moves (moving 20 0 .historic bare 2) 2 .confirmed = true ∧
       (moving 20 0 .historic bare 2).recordOf 37 = some (0, { record37 with state := .historic, latest := none }) ∧
       ((moving 20 0 .historic bare 2).frameUsed 0 = true ∧ (moving 20 0 .historic bare 2).frameUsed 1 = false)) ∧
    (let s := moving 1 0 .idle none 2
     moves s 2 .pending = true ∧ moves (moving 20 0 .idle none 2) 2 .confirmed = true ∧
       moves (moving 20 0 .historic none 2) 2 .confirmed = true ∧ moves (moving 0 80 .confirmed none 2) 2 .fading = true ∧
       s.recordOf 37 = none ∧ s.records[0] = none ∧ s.frameUsed 0 = false ∧ s.frameUsed 1 = false) ∧
    (let s := moving 20 0 .pending none 3
     moves s 3 .confirmed = true ∧ s.store.retPos[(0 : Fin 16)] = .free ∧ s.store.retQueue = [] ∧
       s.store.program = none ∧
       (let full : State := { s with store := { s.store with retPos := Vector.replicate 16 .void } }
        moves full 3 .confirmed = true ∧ ∀ k : Fin 16, full.store.retPos[k] ≠ .free) ∧
       (let listed : State := { s with store := { s.store with retPos := s.store.retPos.set 0 (.valid 37) } }
        moves listed 3 .confirmed = true ∧ listed.store.retPos[(0 : Fin 16)] = .valid 37)) :=
  ⟨canonical_moving, by decide +kernel⟩

/-- F = Q > 0 (chapter 2's sample 3), no verdicts, the largest weights; the jump's rows. -/
theorem test_witness_NetChangeAndJump :
    (let r : Report := { slot := 37, f := 1, p := 4, band := 0, detail := 0, context := 0 }
     0 < failWeight profileOf2 r ∧ failWeight profileOf2 r = passWeight profileOf2 r) ∧
    (255 ≤ 255 ∧ 1 ≤ 127 ∧ 127 ≤ 127 ∧ (-128 : Int) ≤ -128 ∧ (127 : Int) ≤ 127) ∧
    ((0 : Int) < 1 ∧ (-1 : Int) < 0) := by decide

/-! ### Witnesses: records, frames, codes -/

/-- A free table, and one full of HISTORIC records with entry 5 the oldest: outranked by PENDING class 2 and, with every
record CONFIRMED of class 3, not outranked. -/
def fullTable (st : QState) (cls : Fin 4) : State :=
  { riding with records := Vector.ofFn (fun e : Fin 48 => some { record37 with
      slot := Fin.ofNat 192 (100 + e.val), state := st, cls := cls, activity := if e.val = 5 then 300 else 400 }) }

/-- Entry `e` comes before every other entry in the order of R46: rank, then activity ride, then the higher slot. -/
def firstOut (s : State) (e : Fin 48) : Bool :=
  (List.finRange 48).all (fun e' => decide (e' = e) || (s.records[e]).all (fun v => (s.records[e']).all (fun v' =>
    decide (v.rank < v'.rank ∨ (v.rank = v'.rank ∧
      (v.activity < v'.activity ∨ (v.activity = v'.activity ∧ v'.slot < v.slot)))))))

/-- The oldest entry, and, with every record as old, the one of the highest slot. -/
theorem test_witness_RecordRequestIsPlacedOrDeclined :
    (riding.records[0] = none ∧ (∀ e' : Fin 48, e' < 0 → riding.records[e'] ≠ none)) ∧
    ((∀ e' : Fin 48, (fullTable .historic 2).records[e'] ≠ none) ∧ firstOut (fullTable .historic 2) 5 = true ∧
      ((fullTable .historic 2).records[5]).all (fun v =>
        decide (v.slot ≠ 37) && decide (v.rank < rankVal .pending ((fullTable .historic 2).classOf 37))) = true) ∧
    (firstOut (fullTable .confirmed 3) 5 = true ∧ ((fullTable .confirmed 3).records[5]).all (fun v =>
      decide (v.slot ≠ 37) && decide (¬v.rank < rankVal .confirmed ((fullTable .confirmed 3).classOf 37))) = true) ∧
    (let s : State := { fullTable .historic 2 with records := (fullTable .historic 2).records.map (fun x =>
        x.map (fun r => { r with activity := 400 })) }
     firstOut s 47 = true) := by decide +kernel

theorem test_witness_RecordRequest_trail :
    (fullTable .historic 2).MemoriesCanonical ∧ (fullTable .confirmed 3).MemoriesCanonical :=
  ⟨canonical_riding, canonical_riding⟩

/-- A record with its LATEST in place, one without FIRST and a free frame; with every frame used, no lender, and one. -/
def framesUsed (st : QState) : State :=
  { riding with records := Vector.ofFn (fun e : Fin 48 =>
      if e.val < 32 then some { record37 with
        slot := Fin.ofNat 192 (100 + e.val), state := st, first := some (Fin.ofNat 64 (2 * e.val)),
        latest := some (Fin.ofNat 64 (2 * e.val + 1)) }
      else if e.val = 40 then some { record37 with first := none, latest := none } else none) }

/-- Whether entry `j` lends its LATEST frame to a record in entry 40 (R71). -/
def lendsTo40 (s : State) (rank : Nat) (j : Fin 48) : Bool :=
  (s.records[j]).any (fun x => decide (j ≠ 40) && x.latest.isSome && decide (x.rank < rank))

theorem test_witness_CaptureFindsItsFrame :
    (recorded.records[0] = some record37 ∧ record37.frameRef .latest = some 1) ∧
    (({ record37 with first := none } : Record).frameRef .first = none ∧ riding.frameUsed 0 = false ∧
      ∀ g : Fin 64, g < 0 → riding.frameUsed g = true) ∧
    ((∀ f : Fin 64, (framesUsed .fading).frameUsed f = true) ∧
      ∀ j : Fin 48, lendsTo40 (framesUsed .fading) ({ record37 with first := none, latest := none } : Record).rank j = false) ∧
    (lendsTo40 (framesUsed .historic) record37.rank 31 = true ∧
      (∀ j' : Fin 48, lendsTo40 (framesUsed .historic) record37.rank j' = true → j' ≠ 31 →
        ((framesUsed .historic).records[j']).all (fun x => ((framesUsed .historic).records[31]).all (fun l =>
          decide (l.rank = x.rank ∧ l.activity = x.activity ∧ x.slot < l.slot))) = true) ∧
      ((framesUsed .historic).records[31]).map (fun l => l.latest) = some (some 63)) := by decide +kernel

/-- Values 31, 32, 33 (half-way), 64511, 64512 and 65535; list entries 15, 16, 31 and 32; a channel fresh, stale and never written. -/
theorem test_witness_CompactCodeOfAChannel :
    (31 ≤ 65535 ∧ 32 ≤ 64511 ∧ 64511 < 64512 ∧ 64512 ≤ 65535 ∧ 2 * (33 % 2 ^ (Nat.log2 33 - 4)) = 2 ^ (Nat.log2 33 - 4)) ∧
    (32 ≤ (32 : Byte).toNat ∧ (15 : Byte).toNat = (15 : Fin 16).val ∧ (16 : Byte).toNat = 16 + (0 : Fin 16).val ∧
      (31 : Byte).toNat = 16 + (15 : Fin 16).val) ∧
    (let s : State := { riding with now := 300000, fp := { riding.fp with
        channels := (riding.fp.channels.set 0 (some 100000)).set 15 (some 99999) } }
     s.adoptedCopy .fp = some copyOf ∧ s.fp.channels[0] = some 100000 ∧ s.now - 100000 ≤ 50000 * copyOf.staleCode ∧
     s.fp.channels[15] = some 99999 ∧ 50000 * copyOf.staleCode < s.now - 99999 ∧ s.fp.channels[1] = none) := by
  decide +kernel

/-- The last entry of list 3 and the first of list 0; a frame of the largest fields. -/
theorem test_witness_CompactCodeOfAChannel_capture :
    let s : State := { riding with profiles := riding.profiles.set 37 { profileOf2 with list := 3 } }
    (s.adoptedCopy (s.owner 37) = some copyOf ∧ s.adoptedProfile 37 = some { profileOf2 with list := 3 } ∧
      (31 : Fin 32).val = 8 * (3 : Fin 4).val + (7 : Fin 8).val) ∧
    (riding.adoptedProfile 37 = some profileOf2 ∧ (0 : Fin 32).val = 8 * profileOf2.list.val + (0 : Fin 8).val) ∧
    (65535 < 65536 ∧ (-128 : Int) ≤ -128 ∧ (127 : Int) ≤ 127 ∧ 3 < 256 ∧ (18 : Fin 19).val = 11 + (7 : Fin 8).val) := by
  decide +kernel

/-! ### Witnesses: port accesses -/

/-- `riding` with FP a 16-bit, big-endian port. -/
def wideRiding : State := { riding with fp := widePort }

theorem canonical_wide : wideRiding.MemoriesCanonical := canonical_riding

/-- Check bytes of slots 0 and 95 on an 8-bit port, the word of slot 0 on a 16-bit one; tally bytes 0 and 6, the last
byte of profile 95, of the setup block and of the lists; on the 16-bit port the word before the check word. -/
theorem test_witness_OwnWritesAreStored :
    (riding.MemoriesCanonical ∧ wideRiding.MemoriesCanonical) ∧
    (riding.inReset = false ∧ riding.owner 0 = .fp ∧ riding.owner 95 = .fp ∧ riding.owner 96 = .bp ∧
      accessAddr false 0x607 = 0x0600 + 8 * (0 : Slot).val + 7 ∧ accessAddr false 0x8FF = 0x0600 + 8 * (95 : Slot).val + 7 ∧
      accessAddr (wideRiding.port .fp).wide 0x607 = 0x0600 + 8 * (0 : Slot).val + 6) ∧
    (0x0600 ≤ accessAddr false 0x600 ∧ accessAddr false 0x606 < 0x0600 + 7 ∧ accessAddr true 0x605 < 0x0600 + 6 ∧
      accessAddr false 0xD7F < 0x0C04 + 4 * (95 : Slot).val ∧ 0x0C00 + 4 * (95 : Slot).val ≤ accessAddr false 0xD7F) ∧
    (Config.setupBase .fp ≤ accessAddr false 0xFDF ∧ accessAddr false 0xFDF < Config.setupBase .fp + 32) ∧
    (Config.listsBase .fp ≤ accessAddr false 0x101F ∧ accessAddr false 0x101F < Config.listsBase .fp + 32) ∧
    ((riding.port .fp).wide = false ∧ accessAddr false 0xF01 = Config.cellBase .fp + 1 ∧
      accessAddr false 0xF04 = Config.cellBase .fp + 4 ∧ accessAddr false 0xF0F = Config.cellBase .fp + 15 ∧
      accessAddr true 0xF0F = Config.cellBase .fp + 14 ∧ (riding.port .fp).cell = .idle ∧
      (posted .fp 1 [] riding).fp.cell ≠ .idle) :=
  ⟨⟨canonical_riding, canonical_wide⟩, by decide +kernel⟩

/-- BP's cell in a state, FP's POSTED beside it. -/
def cellIn (c : CellState) (claim : Option Port) : State :=
  { riding with
    bp := { riding.bp with cell := c }, fp := { riding.fp with cell := .posted }, exec := { riding.exec with claim := claim } }

/-- Each row of R135's table: 1 and 2 in IDLE, 0 and 1 in POSTED, any in TAKEN, 0 and 255 in ANSWERED. -/
theorem test_witness_StateByteWritesFollowTheTable :
    (cellIn .idle none).MemoriesCanonical ∧
    ((cellIn .idle none).inReset = false ∧ accessAddr ((cellIn .idle none).port .bp).wide 0xF40 = Config.cellBase .bp ∧
      (accessBytes ((cellIn .idle none).port .bp) 0x0001).1 = 1 ∧ (accessBytes ((cellIn .idle none).port .bp) 0x0100).1 = 0 ∧
      (accessBytes ((cellIn .idle none).port .bp) 0x0002).1 ≠ 1 ∧ (accessBytes ((cellIn .idle none).port .bp) 0x00FF).1 ≠ 0) ∧
    (((cellIn .idle none).port .bp).cell = .idle ∧ (cellIn .idle none).exec.taken = none ∧
      (cellIn .idle none).exec.claim = none ∧ (cellIn .idle none).ride.state = .riding ∧ ending.ride.state = .ending) ∧
    (((cellIn .posted (some .bp)).port .bp).cell = .posted ∧ (cellIn .posted (some .bp)).exec.claim = some .bp ∧
      ((cellIn .posted (some .bp)).port (Port.other .bp)).cell = .posted) ∧
    ((cellIn .taken none).port .bp).cell = .taken ∧
    (((cellIn .answered none).port .bp).cell = .answered ∧ ((cellIn .answered none).port .bp).silent = false) :=
  ⟨canonical_riding, by decide⟩

/-- BP's byte and FP's byte on 8-bit ports, the word on a 16-bit port; n 0, 1 and 255 over 1 unread; releases that wait, and
none. -/
theorem test_witness_ReleaseGivesEntriesBack :
    let s : State := { wideRiding with pub := { riding.pub with writeCount := 1, unread := 1 } }
    s.MemoriesCanonical ∧
    ((s.port .bp).wide = false ∧ (0x1041 : Addr).toNat = Config.releaseAddr .bp ∧
      (0x1040 : Addr).toNat = Config.releaseAddr (Port.other .bp) ∧
      (s.port .fp).wide = true ∧ (0x1041 : Addr).toNat / 2 * 2 = 0x1040 ∧ s.inReset = false ∧
      s.judgeWrite .fp 0x1040 0x0100 = .release 1 ∧ s.judgeWrite .fp 0x1041 0xFF00 = .release 255 ∧
      s.judgeWrite .fp 0x1040 0x0001 = .release 0 ∧ s.judgeWrite .bp 0x1041 0x0001 = .release 1 ∧ s.pub.reader = .fp ∧
      (s.port .fp).silent = false ∧ s.pub.reader ≠ .bp ∧ (s.port .fp).releases = [] ∧
      (({ s with fp := { s.fp with releases := [1, 255] } } : State).port .fp).releases = [1, 255]) :=
  ⟨canonical_wide, by decide⟩

/-- R176's two orders of an earlier release's write-back and a new write of 1, from a release of 2 that waits: the byte, and
what waits; and a whole release after it. -/
theorem test_release_orders :
    let s : State := after (.release .fp (some (0x1040, 2)) 0) { riding with pub := { riding.pub with writeCount := 5, unread := 5 } }
    let byte (t : State) : Byte × List Byte × Nat := (t.rd 0x1040, t.fp.releases, t.pub.unread)
    byte s = (2, [2], 5) ∧
    byte (after (.release .fp none 1) s) = (0, [], 3) ∧
    byte (after (.release .fp (some (0x1040, 1)) 0) (after (.release .fp none 1) s)) = (1, [1], 3) ∧
    byte (after (.release .fp none 1) (after (.release .fp (some (0x1040, 1)) 0) s)) = (0, [1], 3) ∧
    byte (after (.release .fp (some (0x1040, 1)) 1) s) = (0, [1], 3) ∧
    byte (after (.release .fp (some (0x1040, 1)) 2) s) = (0, [], 2) ∧
    byte (after (.portWrite .fp 0x1040 1) s) = (0, [], 2) := by decide +kernel

/-- Channels 0 and 15: a low byte, a high byte that completes its pair, a word, a high byte with another channel staged. -/
theorem test_witness_ChannelWritesArePaired :
    let st : State := { riding with bp := { riding.bp with staging := some (15, 0x34) } }
    (riding.MemoriesCanonical ∧ st.MemoriesCanonical ∧ wideRiding.MemoriesCanonical) ∧
    (riding.inReset = false ∧ (riding.port .bp).wide = false ∧
      (0xFA0 : Addr).toNat = Config.contextBase .bp + 2 * (0 : Fin 16).val ∧
      (0xFBF : Addr).toNat = Config.contextBase .bp + 2 * (15 : Fin 16).val + 1 ∧ (st.port .bp).staging = some (15, 0x34) ∧
      (0x12 : Byte) = lowByte 0x0012 ∧ (wideRiding.port .fp).wide = true ∧
      (0xF9F : Addr).toNat / 2 * 2 = Config.contextBase .fp + 2 * (15 : Fin 16).val ∧
      ((0x12 : Byte), (0x34 : Byte)) = lanesIn (wideRiding.port .fp).swapped 0x1234) ∧
    (∀ lo, (st.port .bp).staging ≠ some (14, lo)) ∧ (∀ lo, (riding.port .bp).staging ≠ some (15, lo)) :=
  ⟨⟨canonical_riding, canonical_riding, canonical_wide⟩, by decide,
   fun lo h => by simp [riding, State.port, adoptedPort, PortState.reset] at h,
   fun lo h => by simp [riding, State.port, adoptedPort, PortState.reset] at h⟩

/-- The last byte the part writes below the tally boards, the first unassigned byte, the edges of the cells and of the
other port's areas, the last byte of FP's slot 95 written by BP. -/
theorem test_witness_StrayWriteSetsTheFlagOnly :
    riding.MemoriesCanonical ∧
    (riding.inReset = false ∧ accessAddr false 0x5FF < 0x0600 ∧ 0x1042 ≤ accessAddr false 0x1042 ∧
      Config.cellBase .fp + 2 ≤ accessAddr false 0xF02 ∧ accessAddr false 0xF03 < Config.cellBase .fp + 4 ∧
      Config.cellBase .fp + 16 ≤ accessAddr false 0xF10 ∧ accessAddr false 0xF3F < Config.cellBase .fp + 64 ∧
      Config.cellBase (Port.other .bp) ≤ accessAddr false 0xF00 ∧
      accessAddr false 0xF9F < Config.contextBase (Port.other .bp) + 32 ∧
      accessAddr false 0xFDF < Config.setupBase (Port.other .bp) + 32 ∧
      accessAddr false 0x101F < Config.listsBase (Port.other .bp) + 32 ∧ riding.owner 95 = Port.other .bp ∧
      0x0600 + 8 * (95 : Slot).val ≤ accessAddr false 0x8FF ∧ accessAddr false 0x8FF < 0x0608 + 8 * (95 : Slot).val ∧
      accessAddr false 0xD7F < 0x0C04 + 4 * (95 : Slot).val) := ⟨canonical_riding, by decide⟩

/-- A running silence timer, and a silent port; a part in reset. -/
theorem test_witness_EveryWriteIsHeard :
    let q : State := { riding with fp := { riding.fp with silent := true, silenceDue := none } }
    (riding.MemoriesCanonical ∧ q.MemoriesCanonical) ∧
    (Instr.strayWrite .fp 0 0 ∈ [Instr.checkByteWrite .fp 0 0, .post .fp 0 0, .withdrawal .fp 0 0, .handBack .fp 0 0,
        .release .fp (some (0, 0)) 0, .release .fp (some (0, 0)) 1, .contextLowByteStage .fp 0 0, .contextCommit .fp 0 0, .strayWrite .fp 0 0, .portWrite .fp 0 0] ∧
      riding.inReset = false ∧ riding.adoptedCopy .fp = some copyOf ∧ copyOf.silenceCode ≠ 0 ∧
      (riding.port .fp).silenceDue.isSome = true ∧ q.adoptedCopy .fp = some copyOf ∧ (q.port .fp).silent = true ∧
      ({ riding with resetn := false } : State).inReset = true) := ⟨⟨canonical_riding, canonical_riding⟩, by decide⟩

/-- The lowest and the highest paired field; a byte that is no field's; a 16-bit port; a part in reset. -/
theorem test_witness_ReadsReturnWhatStands :
    let s : State := { riding with bp := { riding.bp with capture := some (.readMark, 7) } }
    (s.inReset = false ∧ (s.port .bp).wide = false ∧ (0 : Addr).toNat = pairAddr .generation ∧
      (34 : Addr).toNat = pairAddr .readMark ∧ (s.port .bp).capture = some (.readMark, 7) ∧
      (35 : Addr).toNat = pairAddr .readMark + 1 ∧ (wideRiding.port .fp).wide = true ∧
      ({ riding with resetn := false } : State).inReset = true) ∧
    (∀ f, (36 : Addr).toNat ≠ pairAddr f) ∧ (∀ f b, (s.port .bp).capture = some (f, b) → (36 : Addr).toNat ≠ pairAddr f + 1) :=
  ⟨by decide, fun f => by cases f <;> decide, fun f _ _ => by cases f <;> decide⟩

/-! ### Witnesses: requests -/

/-- A RIDING port that has adopted, one that has not (with slot 37 to be cleared), and one with a FAILED store. -/
def firstAdopt (st : StoreState) : State :=
  posted .fp 1 [] { recorded with fp := { recorded.fp with adopted := false }, store := { recorded.store with state := st } }

theorem canonical_posted_adopt : (posted .fp 1 [] riding).MemoriesCanonical ∧ (firstAdopt .ready).MemoriesCanonical := by
  unfold State.MemoriesCanonical; decide +kernel

theorem test_witness_AdoptReplacesTheCopy :
    ((posted .fp 1 [] riding).MemoriesCanonical ∧ (firstAdopt .ready).MemoriesCanonical) ∧
    ((posted .fp 1 [] riding).takes .fp 1 = true ∧ (posted .fp 1 [] riding).ride.state = .riding ∧
      ((posted .fp 1 [] riding).port .fp).adopted = true) ∧
    ((firstAdopt .ready).takes .fp 1 = true ∧ ((firstAdopt .ready).port .fp).adopted = false ∧
      ((firstAdopt .ready).portSlots .fp).filter (fun i => !((firstAdopt .ready).liveProfile i).enable &&
        decide ((firstAdopt .ready).quals[i].state ≠ .idle)) = [37] ∧
      (firstAdopt .failed).takes .fp 1 = true ∧ (firstAdopt .failed).store.state = .failed ∧
      (posted .bp 1 [] recorded).takes .bp 1 = true) := ⟨canonical_posted_adopt, by decide +kernel⟩

/-- 11.3's fields at their bounds: nothing clamped, everything clamped, and a count that saturates. -/
theorem test_adopt_clamps :
    let s (b : List Byte) : State := riding.wrBytes 0x0FC0 b
    (s [3, 0xFF, 0xF4, 0xF2, 0xFF, 64]).liveCopy .fp = {
      passCode := 3, inverted := true, staleCode := 4, silenceCode := 2, reader := .bp, threshold := 64,
      lists := Vector.replicate 32 0 } ∧
    (s [4, 0xFE, 0, 0, 0xFE, 65]).liveCopy .fp = {
      passCode := 3, inverted := false, staleCode := 0, silenceCode := 0, reader := .fp, threshold := 64,
      lists := Vector.replicate 32 0 } ∧
    ((s []).liveCopy .fp).threshold = 1 ∧ (s []).clampedCount .fp = 255 ∧
    (riding.wrBytes (0x0C00 + 4 * 37) [0xC1, 0x02, 0x9C, 7]).liveProfile 37 =
      { stepUp := 65, jump := true, stepDown := 2, enable := false, fadeRides := 12, cls := 1, list := 2, forgetRides := 7 } ∧
    clampProfile { profileOf2 with stepUp := 0, stepDown := 0, fadeRides := 0, forgetRides := 0 } =
      { profileOf2 with stepUp := 1, stepDown := 1, fadeRides := 1, forgetRides := 1 } := by decide +kernel

/-- A port that has not adopted, FADING slot 37 enabled with class 3 in its profile area, its record of class 2. -/
def classChange : State :=
  posted .fp 1 [] (({ recorded with fp := { recorded.fp with adopted := false } } : State).wrBytes (0x0C00 + 4 * 37)
    [0x90, 0x84, 0x33, 40])

theorem canonical_classChange : classChange.MemoriesCanonical := by unfold State.MemoriesCanonical; decide +kernel

/-- No slot is cleared, and one record changes class; `firstAdopt` has a record that is freed. -/
theorem test_witness_AdoptReplacesTheCopy_records :
    classChange.MemoriesCanonical ∧ (classChange.takes .fp 1 = true ∧ (classChange.port .fp).adopted = false ∧
      (classChange.portSlots .fp).filter (fun i => !(classChange.liveProfile i).enable &&
        decide (classChange.quals[i].state ≠ .idle)) = [] ∧
      classChange.recordOf 37 = some (0, record37) ∧ (clampProfile (classChange.liveProfile 37)).cls = 3 ∧
      record37.cls = 2 ∧ classChange.ride.state = .riding ∧ (firstAdopt .ready).recordOf 37 = some (0, record37)) :=
  ⟨canonical_classChange, by decide +kernel⟩

theorem canonical_posted_clear : (posted .fp 2 [37] recorded).MemoriesCanonical ∧
    (posted .fp 2 [96] recorded).MemoriesCanonical ∧ (posted .fp 3 [] recorded).MemoriesCanonical := by
  unfold State.MemoriesCanonical; decide +kernel

/-- FP's index 96 is the first beyond its slots, 95 the last; slot 37 has a record. -/
theorem test_witness_ClearSlotClearsOneSlot :
    ((posted .fp 2 [37] recorded).MemoriesCanonical ∧ (posted .fp 2 [96] recorded).MemoriesCanonical ∧
      (posted .fp 3 [] recorded).MemoriesCanonical) ∧
    ((posted .fp 2 [96] recorded).takes .fp 2 = true ∧
      (posted .fp 2 [96] recorded).slotCount .fp ≤ (posted .fp 2 [96] recorded).param .fp 0 ∧
      (posted .fp 2 [95] recorded).param .fp 0 < (posted .fp 2 [95] recorded).slotCount .fp ∧
      (37 : Slot).val = (posted .fp 2 [37] recorded).slotBase .fp + (posted .fp 2 [37] recorded).param .fp 0 ∧
      ((posted .fp 2 [37] recorded).port .fp).adopted = true ∧
      (posted .fp 2 [37] recorded).recordOf 37 = some (0, record37) ∧ (posted .fp 2 [37] recorded).recordOf 36 = none ∧
      (posted .fp 2 [37] recorded).store.state ≠ .failed ∧
      ((firstAdopt .failed).port .fp).adopted = false) := ⟨canonical_posted_clear, by decide +kernel⟩

theorem holds_recorded (e : Fin 48) (r : Record) (h : recorded.Holds e r) : e = 0 ∧ r = record37 := by
  have h0 : ∀ e : Fin 48, e ≠ 0 → recorded.records[e] = none := by decide +kernel
  have h1 : recorded.records[(0 : Fin 48)] = some record37 := by decide +kernel
  unfold State.Holds at h
  by_cases he : e = 0
  · subst he; rw [h1] at h; exact ⟨rfl, (Option.some.inj h).symm⟩
  · rw [h0 e he] at h; cases h

theorem recordLaw_recorded : recorded.RecordLaw where
  inStep := fun e r h => by
    obtain ⟨-, rfl⟩ := holds_recorded e r h
    decide +kernel
  oneEach := fun e e' r r' h h' _ => (holds_recorded e r h).1.trans (holds_recorded e' r' h').1.symm
  unrecorded := fun i => by
    have h1 : ∀ i : Slot, recorded.quals[i].unrecorded = false := by decide +kernel
    have h2 : ∀ i : Slot, i ≠ 37 → recorded.quals[i].state = .idle := by decide +kernel
    have h3 : recorded.Holds 0 record37 := by unfold State.Holds; decide +kernel
    rw [h1 i]
    constructor
    · intro h; cases h
    · rintro ⟨hs, hn⟩
      by_cases hi : i = 37
      · subst hi; exact absurd rfl (hn 0 record37 h3)
      · exact absurd (h2 i hi) hs

/-- The law speaks of the records and the qualifiers alone. -/
theorem recordLaw_of_same {s t : State} (h : s.RecordLaw) (hr : t.records = s.records) (hq : t.quals = s.quals) :
    t.RecordLaw where
  inStep := by unfold State.Holds; rw [hr, hq]; exact h.inStep
  oneEach := by unfold State.Holds; rw [hr]; exact h.oneEach
  unrecorded := by unfold State.Holds; rw [hr, hq]; exact h.unrecorded

theorem test_witness_ClearPortClearsEverySlot :
    (posted .fp 3 [] recorded).MemoriesCanonical ∧ (posted .fp 3 [] recorded).RecordLaw ∧
    ((posted .fp 3 [] recorded).takes .fp 3 = true ∧ ((posted .fp 3 [] recorded).port .fp).adopted = true ∧
      (posted .fp 3 [] recorded).store.state ≠ .failed ∧
      (posted .fp 3 [] { recorded with fp := { recorded.fp with adopted := false } }).takes .fp 3 = true) :=
  ⟨canonical_posted_clear.2.2, recordLaw_of_same recordLaw_recorded rfl rfl, by decide +kernel⟩

theorem canonical_posted_fetch : (posted .fp 4 [37, 1] recorded).MemoriesCanonical ∧
    (posted .fp 5 [191] recorded).MemoriesCanonical := by
  unfold State.MemoriesCanonical; decide +kernel

/-- Slots 191 and 192, kinds 0, 1, 2 and 3, a slot with a frame and one without a record. -/
theorem test_witness_FetchesAnswerWhatStands :
    ((posted .fp 4 [37, 1] recorded).MemoriesCanonical ∧ (posted .fp 5 [191] recorded).MemoriesCanonical) ∧
    ((posted .fp 4 [192, 1] recorded).takes .fp 4 = true ∧ 192 ≤ (posted .fp 4 [192, 1] recorded).param .fp 0 ∧
      (posted .fp 4 [37, 3] recorded).param .fp 1 ≠ 1 ∧ (posted .fp 4 [37, 3] recorded).param .fp 1 ≠ 2 ∧
      (posted .fp 4 [37, 0] recorded).param .fp 1 ≠ 1 ∧ (posted .fp 4 [37, 1] recorded).takes .fp 4 = true ∧
      (posted .fp 4 [37, 1] recorded).param .fp 0 = (37 : Slot).val ∧
      (posted .fp 4 [37, 1] recorded).param .fp 1 = frameKindCode .first ∧
      (posted .fp 4 [37, 2] recorded).param .fp 1 = frameKindCode .latest ∧
      (posted .fp 4 [37, 1] recorded).recordOf 37 = some (0, record37) ∧ record37.frameRef .first = some 0 ∧
      (posted .fp 4 [191, 1] recorded).recordOf 191 = none ∧
      (posted .fp 5 [192] recorded).takes .fp 5 = true ∧ 192 ≤ (posted .fp 5 [192] recorded).param .fp 0 ∧
      (posted .fp 5 [191] recorded).param .fp 0 = (191 : Slot).val) := ⟨canonical_posted_fetch, by decide +kernel⟩

/-- A valid retained entry in position 15, in `recorded` waiting for its read. -/
def reading : State :=
  { recorded with
    fp := { recorded.fp with cell := .taken }, exec := { recorded.exec with taken := some (.readRetained .fp 15) },
    store := { recorded.store with retPos := recorded.store.retPos.set 15 (.valid 37) } }

theorem canonical_posted_retained : (posted .bp 6 [15] riding).MemoriesCanonical ∧
    (posted .bp 7 [] riding).MemoriesCanonical ∧ reading.MemoriesCanonical := by
  unfold State.MemoriesCanonical; decide +kernel

/-- Positions 15 and 16; a read of a valid and of a free position; service mode or not, a FAILED store or not. -/
theorem test_witness_RetainedRequestsWaitForTheStore :
    ((posted .bp 6 [15] riding).MemoriesCanonical ∧ (posted .bp 7 [] riding).MemoriesCanonical ∧
      reading.MemoriesCanonical) ∧
    ((posted .bp 6 [15] riding).takes .bp 6 = true ∧ (posted .bp 6 [15] riding).param .bp 0 = (15 : Fin 16).val ∧
      16 ≤ (posted .bp 6 [16] riding).param .bp 0) ∧
    (reading.inReset = false ∧ reading.exec.taken = some (.readRetained .fp 15) ∧ reading.store.program = none ∧
      reading.store.erase = none ∧ reading.store.retErase ≠ .running ∧
      reading.store.retPos[(15 : Fin 16)] = .valid 37 ∧ reading.store.retPos[(14 : Fin 16)] = .free) ∧
    ((posted .bp 7 [] riding).takes .bp 7 = true ∧ (posted .bp 7 [] riding).svc = false ∧
      (posted .bp 7 [] { riding with svc := true }).takes .bp 7 = true ∧
      (posted .bp 7 [] { riding with svc := true }).store.state ≠ .failed ∧
      (posted .bp 7 [] { riding with svc := true, store := { riding.store with state := .failed } }).takes .bp 7 = true ∧
      (posted .bp 7 [] { riding with svc := true, store := { riding.store with state := .failed } }).store.state = .failed) :=
  ⟨canonical_posted_retained, by decide +kernel⟩

theorem canonical_posted_acknowledge : (posted .bp 8 [] riding).MemoriesCanonical ∧
    (posted .bp 9 [] riding).MemoriesCanonical := by unfold State.MemoriesCanonical; decide +kernel

/-- A request of `riding` with this code in FP's cell, taken alone. -/
def held (code : Byte) (t : Taken) : State :=
  { (posted .fp code [] riding).setCell .fp .taken with exec := { taken := some t, pref := .bp, claim := none } }

theorem canonical_held : (held 4 (.reply .fp .ok [])).MemoriesCanonical ∧
    (held 1 (.adopted .fp true [])).MemoriesCanonical := by unfold State.MemoriesCanonical; decide +kernel

/-- What forbids a take: ENDING, a busy executor, the other cell picked, a cell not POSTED; and a command of another code. A
completion picks the other port's POSTED cell. -/
theorem test_witness_takesForbidden :
    let s : State := posted .fp 8 [] riding
    let two : State := { s with bp := { s.bp with cell := .posted } }
    s.canTake .fp = true ∧ ({ s with ride := { s.ride with state := .ending } } : State).canTake .fp = false ∧
    ({ s with exec := { s.exec with taken := some (.clear .bp []) } } : State).canTake .fp = false ∧
    s.canTake .bp = false ∧ ({ s with fp := { s.fp with cell := .idle } } : State).canTake .fp = false ∧
    s.requestCode .fp ≠ 1 ∧ (after (.acknowledge { port := .fp, part := .whole }) two).exec.claim = some .bp ∧
    (after (.acknowledge { port := .fp, part := .whole }) s).exec.claim = none := by decide +kernel

/-- A reply to come, of a code and of none; an ADOPT to complete; a request that waits for the store; takes of a code and of
none. -/
theorem test_witness_Completions :
    ((held 4 (.reply .fp .ok [])).MemoriesCanonical ∧ (held 1 (.adopted .fp true [])).MemoriesCanonical) ∧
    ((held 4 (.reply .fp .ok [])).requestCode .fp = 4 ∧ (held 4 (.reply .fp .ok [])).inReset = false ∧
      (held 4 (.reply .fp .ok [])).exec.taken = some (.reply .fp .ok []) ∧
      8 < (held 9 (.reply .fp .badRequest [])).requestCode .fp ∧
      (held 1 (.adopted .fp true [])).requestCode .fp = 1 ∧ (held 1 (.adopted .fp true [])).inReset = false ∧
      (held 1 (.adopted .fp true [])).exec.taken = some (.adopted .fp true []) ∧
      (held 6 (.readRetained .fp 15)).requestCode .fp = 6 ∧
      (∀ st answer, (held 6 (.readRetained .fp 15)).exec.taken ≠ some (.reply .fp st answer)) ∧
      (∀ fault answer, (held 6 (.readRetained .fp 15)).exec.taken ≠ some (.adopted .fp fault answer)) ∧
      (posted .fp 2 [37] recorded).canTake .fp = true ∧ (posted .fp 2 [37] recorded).requestCode .fp = 2) := by
  refine ⟨canonical_held, by decide +kernel, by decide +kernel, rfl, by decide +kernel, by decide +kernel,
    by decide +kernel, rfl, by decide +kernel, ?_, ?_, by decide +kernel, by decide +kernel⟩
  · intro st answer h; exact Taken.noConfusion (Option.some.inj h)
  · intro fault answer h; exact Taken.noConfusion (Option.some.inj h)

/-- Codes 0, 8 and 9. -/
theorem test_witness_AcknowledgeUnknownCodesAndCompletions :
    ((posted .bp 8 [] riding).MemoriesCanonical ∧ (posted .bp 9 [] riding).MemoriesCanonical) ∧
    ((posted .bp 8 [] riding).takes .bp 8 = true ∧ (posted .bp 9 [] riding).canTake .bp = true ∧
      8 < (posted .bp 9 [] riding).requestCode .bp ∧ (posted .bp 0 [] riding).requestCode .bp = 0) :=
  ⟨canonical_posted_acknowledge, by decide +kernel⟩

/-! ### Witnesses: publication -/

/-- The mark set with the spacing expired; the spacing running with the mark set, and with the mark clear. -/
theorem test_witness_PassStartsWithOneCopy :
    riding.MemoriesCanonical ∧ (riding.inReset = false ∧ riding.pub.dirty = true ∧ riding.pub.spacingDue = none ∧
      riding.pub.pass = none ∧ riding.ride.number < 65536 ∧ riding.ride.time < 65536 ∧ riding.fp.declined < 256 ∧
      ({ riding with pub := { riding.pub with spacingDue := some 15000 } } : State).pub.spacingDue = some 15000 ∧
      ({ riding with pub := { riding.pub with spacingDue := some 15000, dirty := false } } : State).pub.dirty = false) :=
  ⟨canonical_riding, by decide⟩

/-- The status byte of slot 37, FADING and enabled, its mirror entry's flags (class 2, both frames, persisted) and in-use byte
(11.5), and a free entry. -/
theorem test_witness_PassStarts_record :
    recorded.Holds 0 record37 ∧ (record37.occurrence < 256 ∧ record37.activity < 65536 ∧ record37.forget < 256 ∧
      -128 ≤ recorded.quals[record37.slot].m ∧ recorded.records[(47 : Fin 48)] = none ∧
      byteAt recorded.viewCopy (30 + 37) = 0x83 ∧ byteAt recorded.viewCopy (222 + 2) = 30 ∧
      byteAt recorded.viewCopy (222 + 14) = 0x80 ∧ byteAt recorded.viewCopy (222 + 15) = 1 ∧
      byteAt recorded.viewCopy (222 + 16 * 47 + 15) = 0) := by
  refine ⟨?_, by decide +kernel⟩
  unfold State.Holds; decide +kernel

/-- The first pass of `riding`, in flight. -/
def passing : State := after .publishPassStart riding

theorem canonical_passing : passing.MemoriesCanonical := by unfold State.MemoriesCanonical; decide +kernel

theorem test_witness_PassEndWritesTheWholeView :
    passing.MemoriesCanonical ∧ (passing.inReset = false ∧ passing.pub.pass = some riding.viewCopy ∧
      riding.viewCopy.length = 990 ∧ passing.pub.firstPass = true ∧
      ({ passing with pub := { passing.pub with firstPass := false } } : State).pub.firstPass = false) :=
  ⟨canonical_passing, by decide +kernel⟩

/-- 63 unread, and a full ring. -/
theorem test_witness_AppendWritesOneEntry :
    let s (n : Nat) : State := { riding with pub := { riding.pub with writeCount := BitVec.ofNat 16 n, unread := n } }
    (s 63).MemoriesCanonical ∧ (s 63).TrailLaw ∧ (s 64).TrailLaw ∧ (s 63).pub.unread < 64 ∧ (s 64).pub.unread = 64 := by
  refine ⟨canonical_riding, ?_, ?_, ?_, ?_⟩ <;> (try unfold State.TrailLaw) <;> decide +kernel

/-! ### Witnesses: the record store -/

/-- `riding` with sector 0 OPEN up to a line, sectors 1..`full` FULL. -/
def logOpen (used full : Nat) : State :=
  { riding with store := { riding.store with lastOpen := some 0, sectors := Vector.ofFn (fun k : Fin 16 =>
      if k.val = 0 then { state := .opened, marked := false, firstSeq := some 1, used := used }
      else if k.val ≤ full then fullSector (10 * k.val) else erasedSector) } }

/-- A queued CLEAR; a retained entry queued; an urgent record; an ordinary one; a compaction in its copy phase. -/
def queued37 : RetainedItem := { slot := 37, ride := 412, occurrence := 1, frame := none, pos := 0 }

def dirty37 (urgent : Bool) : State :=
  { logOpen 0 0 with records := riding.records.set 0 (some { record37 with dirty := true, urgent := urgent }) }

theorem test_witness_WriterTakesWorkInOrder :
    let s := logOpen 0 0
    (s.writerReady = true ∧ State.reset.writerReady = false ∧ s.store.rideMark = false ∧ s.store.logQueue = [] ∧
      s.store.retQueue = [] ∧ s.store.qualMark = false ∧ s.urgentWork = none ∧ s.store.erase = none ∧
      s.store.retErase = .nothing) ∧
    ((s.queueLog (.clear 0 191)).store.logQueue = [.clear 0 191] ∧ s.markRide.store.rideMark = true ∧
      s.markQualifier.store.qualMark = true ∧ s.markRide.urgentWork = some (.image .ride) ∧
      ({ s with store := { s.store with retQueue := [queued37] } } : State).urgentWork = some .retained) ∧
    ((dirty37 true).records[0] = some { record37 with dirty := true, urgent := true } ∧
      (dirty37 false).urgentWork = none ∧ (dirty37 false).store.compaction = none ∧
      (dirty37 false).spoiledWaiting = none ∧ (dirty37 false).compactionDue = false ∧
      (dirty37 false).records[0] = some { record37 with dirty := true, urgent := false }) ∧
    (({ s with store := { s.store with compaction := some 0 } } : State).store.compaction = some 0 ∧
      ({ s with store := { s.store with retErase := .waiting } } : State).store.retErase ≠ .nothing) := by decide +kernel

/-- What makes a moment the writer's, each condition in turn (R112, R118, R126); a suspended erase does not forbid it. -/
theorem test_witness_WriterMoments :
    let s := logOpen 0 0
    let erase (b : Bool) : State := { s with store := { s.store with erase := some { sector := 1, suspendAsked := true, suspended := b } } }
    (s.writerReady = true ∧ (erase true).writerReady = true) ∧
    ((erase false).writerReady = false ∧ ({ s with resetn := false } : State).writerReady = false ∧
      ({ s with store := { s.store with state := .failed } } : State).writerReady = false ∧
      ({ s with store := { s.store with inhibitDue := some 5000 } } : State).writerReady = false ∧
      ({ s with store := { s.store with program := some (.retained queued37) } } : State).writerReady = false ∧
      ({ s with store := { s.store with retErase := .running } } : State).writerReady = false) := by decide +kernel

/-- An ordinary record waits for a compaction that is due and for a SPOILED sector; with none dirty nothing is written. -/
theorem test_witness_WriterTakesWork_waits :
    let due : State := { logOpen 0 14 with records := (dirty37 false).records }
    let spoiled : State := { dirty37 false with store := { (dirty37 false).store with
      sectors := (dirty37 false).store.sectors.set 5 { erasedSector with state := .spoiled } } }
    (due.writerReady = true ∧ due.urgentWork = none ∧ due.store.compaction = none ∧ due.sectorCount .erased < 2 ∧
      0 < due.sectorCount .full) ∧
    (spoiled.writerReady = true ∧ spoiled.urgentWork = none ∧ spoiled.store.sectors[5].state = .spoiled) ∧
    (logOpen 0 0).recordList = [] := by decide +kernel

/-- `riding` with one image in sector 0, which is FULL: of a kind, sequence 7, with this body. -/
def logged (kind : ImageKind) (body : List Byte) : State :=
  { logOpen 0 0 with
    flash := Memory.writeBytes flashDefault [] 0 (imageBytes kind 7 412 body),
    store := { (logOpen 0 0).store with sectors := riding.store.sectors.set 0 (fullSector 7) } }

/-- A RIDE image, and a QUALIFIER image, of sector 0, each the newest of its key; a RECORD image of slot 0 with a current record, a CLEAR
image of slot 0, and a RECORD image of slot 0 without a record; an empty log. -/
theorem test_witness_WriterTakesWorkInOrder_fresh :
    (newestRide (logged .ride []).logImages).map (·.sector) = some 0 ∧
    (let s := logged .qualifier (List.replicate 768 0xFF)
     (newestQualifier s.logImages).map (·.sector) = some 0 ∧ newestRide s.logImages = none) ∧
    (let s := logged .record (recordBody { record37 with slot := 0 } riding.frames)
     let l := s.logImages
     newestRide l = none ∧ newestQualifier l = none ∧ (newestRecordKey l 0).map (fun x => (x.sector, x.kind)) = some (0, .record) ∧
       s.recordOf 0 = none ∧ l.any (fun x => x.valid && decide (x.kind = .record) && decide ((byteAt x.body 0).toNat = 0)) = true ∧
       ({ s with records := s.records.set 0 (some { record37 with slot := 0 }) } : State).recordOf 0 =
         some (0, { record37 with slot := 0 })) ∧
    (let s := logged .clear (logBody (.clear 0 0))
     newestRide s.logImages = none ∧ newestQualifier s.logImages = none ∧
       (newestRecordKey s.logImages 0).map (fun x => (x.sector, x.kind)) = some (0, .clear) ∧ s.recordOf 0 = none) ∧
    ({ riding with store := { riding.store with sectors := riding.store.sectors.set 0 erasedSector } } : State).logImages =
      [] := by decide +kernel

/-- A RIDE image of 2 lines at line 253 fits, at 254 it does not; the last sequence number, and none left. -/
theorem test_witness_ImageBeginTakesOneCopy :
    let s (used seq : Nat) : State := ({ logOpen used 0 with store := { (logOpen used 0).store with nextSeq := seq } } : State).markRide
    (s 253 1).nextImage = some (.ride, .urgent) ∧ (s 253 1).openSector = some 0 ∧
    (s 253 1).store.sectors[0].used + imageLines .ride ≤ 255 ∧
    (s 254 1).nextImage = some (.ride, .urgent) ∧ 255 < (s 254 1).store.sectors[0].used + imageLines .ride ∧
    (s 254 1).mayOpen true = true ∧ (s 254 1).nextErased = some 1 ∧ (s 0 0xFFFFFFFF).store.nextSeq ≤ 0xFFFFFFFF ∧
    (s 0 0x100000000).nextImage = some (.ride, .urgent) ∧ 0xFFFFFFFF < (s 0 0x100000000).store.nextSeq ∧
    (logOpen 0 0).mayOpen false = true := by decide +kernel

/-- The sector opened after 15, after 7 and with none last OPEN; after 7 with 7 alone ERASED; an ordinary image may open one
of two ERASED sectors and not the last (R124). -/
theorem test_witness_ImageBegin_order :
    let s (last : Option (Fin 16)) (l : List (Fin 16)) : State := { logOpen 0 0 with store := { (logOpen 0 0).store with
      lastOpen := last, sectors := Vector.ofFn (fun k : Fin 16 => if k ∈ l then erasedSector else fullSector 10) } }
    (s (some 15) [3, 9]).nextErased = some 3 ∧ (s (some 7) [3, 9]).nextErased = some 9 ∧
    (s none [3, 9]).nextErased = some 3 ∧ (s (some 7) [7]).nextErased = some 7 ∧ (s none [3, 9]).mayOpen false = true ∧
    (s none [3]).mayOpen false = false ∧ (s none [3]).mayOpen true = true ∧ (s none []).mayOpen true = false ∧
    (s none []).nextErased = none ∧ (logOpen 0 0).nextImage = none := by decide +kernel

/-- Sector 0 OPEN up to line 250 or not OPEN, `erased` sectors ERASED, the others in a state; a RIDE, or an ordinary record. -/
def shortOf (opened : Bool) (erased : Nat) (rest : SectorState) (s : State) : State :=
  { s with store := { s.store with sectors := Vector.ofFn (fun k : Fin 16 =>
      if k.val = 0 ∧ opened then { state := .opened, marked := false, firstSeq := some 1, used := 254 }
      else if k.val ≤ erased ∧ k.val ≠ 0 then erasedSector else { fullSector 10 with state := rest }) } }

/-- No sector ERASED under an urgent image, and under an ordinary one with none OPEN or FULL; one ERASED or one OPEN under an
ordinary one. -/
theorem test_witness_ImageBegin_withoutRoom :
    ((logOpen 0 0).MemoriesCanonical ∧ (dirty37 false).MemoriesCanonical) ∧
    (let u := shortOf true 0 .full (logOpen 0 0).markRide
     u.nextImage = some (.ride, .urgent) ∧ u.openSector = some 0 ∧ 255 < u.store.sectors[0].used + imageLines .ride ∧
       u.sectorCount .erased = 0 ∧ u.store.nextSeq ≤ 0xFFFFFFFF) ∧
    (let o := shortOf false 0 .retired (dirty37 false)
     (o.nextImage).map (·.2) = some .ordinary ∧ o.openSector = none ∧ o.sectorCount .erased = 0 ∧
       o.sectorCount .full = 0) ∧
    (let w := shortOf true 1 .retired (dirty37 false)
     (w.nextImage).map (·.2) = some .ordinary ∧ w.openSector = some 0 ∧
       255 < w.store.sectors[0].used + imageLines .record ∧ w.sectorCount .erased = 1) ∧
    (let n := shortOf false 1 .retired (dirty37 false)
     (n.nextImage).map (·.2) = some .ordinary ∧ n.openSector = none ∧ 0 < n.sectorCount .erased) :=
  ⟨⟨canonical_riding, canonical_riding⟩, by decide +kernel⟩

/-- Each request that waits while the store fails for want of a number, and a retained erase with it (R126, R147). -/
theorem test_witness_ImageBegin_answersTheWaiting :
    let s (t : Taken) (e : RetainedErase) : State := ({ logOpen 0 0 with
      exec := { taken := some t, pref := .bp, claim := none },
      store := { (logOpen 0 0).store with nextSeq := 0x100000000, retErase := e } } : State).markRide
    let u (t : Taken) (e : RetainedErase) : State := after .imageBegin (s t e)
    ((s (.clear .fp [37, 2]) .nothing).nextImage = some (.ride, .urgent) ∧
      (u (.clear .fp [37, 2]) .nothing).fp.cell = .answered ∧ (u (.clear .fp [37, 2]) .nothing).rd 0x0F02 = 7 ∧
      (u (.clear .fp [37, 2]) .nothing).rd 0x0F10 = 37) ∧
    ((u (.adopt .fp 2 [0, 0, 0, 2]) .nothing).fp.cell = .answered ∧
      (u (.adopt .fp 2 [0, 0, 0, 2]) .nothing).rd 0x0F02 = 7) ∧
    ((s (.eraseRetained .fp) .waiting).nextImage = some (.ride, .urgent) ∧
      (u (.eraseRetained .fp) .waiting).store.retErase = .nothing ∧
      (u (.eraseRetained .fp) .waiting).fp.cell = .answered ∧ (u (.eraseRetained .fp) .waiting).rd 0x0F02 = 7) ∧
    (u (.readRetained .fp 3) .nothing).exec.taken = some (.readRetained .fp 3) := by decide +kernel

/-- A CLEAR image of slot 37 in flight at line 3 of sector 0. -/
def clearImage : ImageProgram :=
  { sector := 0, line := 3, bytes := imageBytes .clear 7 412 (logBody (.clear 37 37)), redo := .item (.clear 37 37),
    pressing := true, reports := true }

def programming (p : ImageProgram) (t : Option Taken) : State :=
  { logOpen 3 0 with
    store := { (logOpen 3 0).store with program := some (.image p) }, exec := { riding.exec with taken := t },
    records := riding.records.set 0 (some record37) }

theorem canonical_programming : (programming clearImage none).MemoriesCanonical := canonical_riding

/-- Each report; a byte of the body, and a byte of line 1, that did not take; each mark. -/
theorem test_witness_ImageCompletionReadsBack :
    (programming clearImage none).MemoriesCanonical ∧
    ((programming clearImage none).inReset = false ∧ (programming clearImage none).store.program = some (.image clearImage) ∧
      16 ≤ clearImage.bytes.length ∧ readBack clearImage.bytes [] = clearImage.bytes ∧ clearImage.reports = true ∧
      ({ clearImage with reports := false } : ImageProgram).reports = false ∧
      (programming clearImage (some (.clear .fp [37, 3]))).exec.taken = some (.clear .fp [37, 3]) ∧
      (programming clearImage (some (.adopt .fp 1 []))).exec.taken = some (.adopt .fp 1 []) ∧
      (programming clearImage (some (.adopt .fp 2 []))).exec.taken = some (.adopt .fp (0 + 2) []) ∧
      readBack clearImage.bytes [(16, 0)] ≠ clearImage.bytes ∧
      bodyReadsBack clearImage.bytes (readBack clearImage.bytes [(16, 0)]) = false ∧
      readBack clearImage.bytes [(8, 0)] ≠ clearImage.bytes ∧
      bodyReadsBack clearImage.bytes (readBack clearImage.bytes [(8, 0)]) = true ∧
      (programming clearImage none).store.sectors[0].state = .opened ∧ clearImage.pressing = true ∧
      (programming clearImage none).mayOpen true = true ∧
      (shortOf true 1 .full (programming clearImage none)).mayOpen false = false ∧
      (shortOf true 1 .full (programming clearImage none)).store.sectors[0].state = .opened ∧ clearImage.redo = .item (.clear 37 37) ∧
      ({ clearImage with redo := .record 0 true true } : ImageProgram).redo = .record 0 true true ∧
      (programming clearImage none).records[0] = some record37) := ⟨canonical_programming, by decide +kernel⟩

/-- One sector ERASED, fourteen FULL, sector 1 the oldest; two SPOILED sectors. -/
theorem test_witness_CompactionAndSpoiledEraseStart :
    let s := logOpen 0 14
    let bad : Sector := { erasedSector with state := .spoiled }
    let sp : State := { s with store := { s.store with sectors := (s.store.sectors.set 5 bad).set 9 bad } }
    s.writerReady = true ∧ s.urgentWork = none ∧ s.store.erase = none ∧ s.store.retErase = .nothing ∧
    s.sectorCount .erased = 1 ∧ (∀ k : Fin 16, s.store.sectors[k].state ≠ .spoiled) ∧ s.store.compaction = none ∧
    0 < s.sectorCount .full ∧ sp.store.sectors[5].state = .spoiled ∧ sp.writerReady = true ∧ sp.urgentWork = none ∧
    (∀ k' : Fin 16, k' < 5 → sp.store.sectors[k'].state ≠ .spoiled) := by decide +kernel

/-- A compaction of sector 1 with no key left, unmarked and marked; an erase that ends blank, one that does not. -/
def emptied (marked : Bool) : State :=
  { logOpen 0 0 with store := { (logOpen 0 0).store with
      compaction := some 1, sectors := (logOpen 0 0).store.sectors.set 1 { fullSector 10 with marked := marked } } }

def erasing : State := (emptied false).startErase 1

theorem canonical_emptied : (emptied true).MemoriesCanonical ∧ erasing.MemoriesCanonical := ⟨canonical_riding, canonical_riding⟩

theorem test_witness_ErasePhaseAndEraseEnd :
    let due (s : State) : Prop := s.writerReady = true ∧ s.urgentWork = none ∧ s.store.erase = none ∧
      s.store.retErase = .nothing ∧ s.nextFresh 1 = none
    ((emptied true).MemoriesCanonical ∧ erasing.MemoriesCanonical) ∧
    ((emptied true).inReset = false ∧ (emptied false).store.compaction = some 1 ∧ due (emptied false) ∧
      (emptied false).store.sectors[(1 : Fin 16)].marked = false ∧ due (emptied true) ∧
      (emptied true).store.sectors[(1 : Fin 16)].marked = true) ∧
    (erasing.store.erase = some { sector := 1, suspendAsked := false, suspended := false } ∧
      allBlank (sectorBytes (writeCells (Memory.clear erasing.flash (sectorAddr 1 0) (sectorAddr 1 0 + 2048))
        (sectorAddr 1 0) 2048 []) 1) = true ∧
      allBlank (sectorBytes (writeCells (Memory.clear erasing.flash (sectorAddr 1 0) (sectorAddr 1 0 + 2048))
        (sectorAddr 1 0) 2048 [(0, 0x7F)]) 1) = false) := ⟨canonical_emptied, by decide +kernel⟩

/-- A marked victim with twelve sectors RETIRED: its retirement is the thirteenth and leaves the store FAILED; with eleven it
does not. -/
theorem test_witness_ErasePhaseAndEraseEnd_failed :
    let few (n : Nat) : State := { emptied true with store := { (emptied true).store with sectors := Vector.ofFn (fun k : Fin 16 =>
      if k.val = 1 then { fullSector 10 with marked := true }
      else if k.val ≤ n + 1 ∧ k.val ≠ 0 then { erasedSector with state := .retired } else erasedSector) } }
    let t (n : Nat) : State := after (.erasePhaseStart []) (few n)
    (few 12).erasePhaseDue 1 = true ∧ 16 - (t 12).sectorCount .retired < 4 ∧ (t 12).store.state = .failed ∧
    (t 12).pub.writeCount = (few 12).pub.writeCount + 2 ∧
    (few 11).erasePhaseDue 1 = true ∧ 4 ≤ 16 - (t 11).sectorCount .retired ∧ (t 11).store.state = .ready := by decide +kernel

theorem test_witness_InhibitSuspendAndResume :
    State.reset.inReset = false ∧ State.reset.store.inhibitDue = some 5000 ∧
    erasing.markRide.store.erase = some { sector := 1, suspendAsked := true, suspended := false } ∧
    (let s : State := { erasing with store := { erasing.store with
        erase := some { sector := 1, suspendAsked := true, suspended := true } } }
     s.inReset = false ∧ s.store.erase = some { sector := 1, suspendAsked := true, suspended := true } ∧
     s.store.state = .ready ∧ s.urgentWork = none ∧ s.store.program = none) := by decide +kernel

/-- A RECORD image's first and last line next to a sector it does not reach; an image in flight at the last lines that hold
it; an erase in flight of a sector whose line 255 is blank; a retained entry, and a retained erase. -/
theorem test_witness_ResetEntryAbandonsEverything_flash :
    ((programming clearImage none).MemoriesCanonical ∧ erasing.MemoriesCanonical) ∧
    ((programming clearImage none).inReset = false ∧ (programming clearImage none).store.program = some (.image clearImage) ∧
      (programming clearImage none).store.erase = none ∧ 16 ≤ clearImage.bytes.length ∧
      clearImage.line + clearImage.bytes.length / 8 ≤ 255 ∧ 252 + clearImage.bytes.length / 8 = 255 ∧
      23 < sectorAddr clearImage.sector (8 * clearImage.line) ∧
      sectorAddr clearImage.sector (8 * clearImage.line) + clearImage.bytes.length = 48) ∧
    (erasing.inReset = false ∧ erasing.store.erase = some { sector := 1, suspendAsked := false, suspended := false } ∧
      erasing.store.program = none ∧ erasing.store.retErase ≠ .running ∧
      (∀ o : Fin 8, erasing.flashByte (sectorAddr 1 (2040 + o.val)) = 0xFF) ∧ 2047 < sectorAddr 1 0 ∧
      sectorAddr 1 2040 = 4088) ∧
    (2047 < retainedAddr 0 0 ∧ retainedAddr 15 0 + 64 < 34816) := ⟨⟨canonical_programming, canonical_riding⟩, by decide +kernel⟩

/-- A suspended erase of sector 1 while a CLEAR image is being programmed in sector 0. -/
theorem test_witness_ResetEntryAbandonsEverything_suspended :
    let s : State := { erasing with store := { erasing.store with
      erase := some { sector := 1, suspendAsked := true, suspended := true }, program := some (.image clearImage) } }
    s.MemoriesCanonical ∧ s.inReset = false ∧ s.store.program = some (.image clearImage) ∧ clearImage.sector ≠ 1 ∧
    16 ≤ clearImage.bytes.length ∧ clearImage.line + clearImage.bytes.length / 8 ≤ 255 := by
  unfold State.MemoriesCanonical; decide +kernel

/-- A running erase and a suspended one, in ride-ending mode or not, with a record held and position 0 spare. -/
theorem test_witness_InhibitSuspendAndResume_marks :
    let s : State := { erasing with records := erasing.records.set 0 (some record37) }
    let held : State := { s with store := { s.store with erase := some { sector := 1, suspendAsked := true, suspended := true } } }
    s.store.erase = some { sector := 1, suspendAsked := false, suspended := false } ∧ s.records[0] = some record37 ∧
    s.store.rideEnding = false ∧ ({ s with store := { s.store with rideEnding := true } } : State).store.rideEnding = true ∧
    held.store.erase = some { sector := 1, suspendAsked := true, suspended := true } ∧
    (∀ k : Fin 16, s.store.retPos[k] ≠ .valid 37) ∧ s.store.retQueue = [] ∧ s.store.program = none ∧
    s.store.retPos[(0 : Fin 16)] = .free := by decide +kernel

def writingRetained : State :=
  { logOpen 0 0 with store := { (logOpen 0 0).store with program := some (.retained queued37) } }

theorem test_witness_RetainedEntriesAreProgrammed :
    writingRetained.MemoriesCanonical ∧
    (let s : State := { logOpen 0 0 with store := { (logOpen 0 0).store with retQueue := [queued37] } }
     s.writerReady = true ∧ s.urgentWork = some .retained ∧ s.store.retQueue = queued37 :: []) ∧
    (writingRetained.inReset = false ∧ writingRetained.store.program = some (.retained queued37) ∧
      readBack (retainedEntryBytes queued37) [] = retainedEntryBytes queued37 ∧
      readBack (retainedEntryBytes queued37) [(63, 1)] ≠ retainedEntryBytes queued37 ∧
      (readBack (retainedEntryBytes queued37) [(55, 1)]).take 56 ≠ (retainedEntryBytes queued37).take 56) ∧
    (queued37.pos = 0 ∧ writingRetained.store.retPos[(1 : Fin 16)] = .free ∧ writingRetained.store.retQueue = [] ∧
      (∀ j : Fin 16, j < 1 → j = queued37.pos)) ∧
    (let full : State := { writingRetained with store := { writingRetained.store with retPos := Vector.replicate 16 .void } }
     full.store.program = some (.retained queued37) ∧ ∀ k : Fin 16, full.store.retPos[k] ≠ .free) :=
  ⟨canonical_riding, by decide +kernel⟩

theorem test_witness_RetainedEraseEmptiesTheSector :
    let w : State := { logOpen 0 0 with store := { (logOpen 0 0).store with retErase := .waiting } }
    let r : State := { logOpen 0 0 with
      store := { (logOpen 0 0).store with retErase := .running, retQueue := [{ queued37 with pos := 3 }] },
      exec := { riding.exec with taken := some (.eraseRetained .bp) } }
    r.MemoriesCanonical ∧
    (w.inReset = false ∧ w.store.retErase = .waiting ∧ w.store.state = .ready ∧ w.store.inhibitDue = none ∧
      w.store.erase = none ∧ w.store.program = none ∧ w.urgentWork = none ∧ r.inReset = false ∧
      r.store.retErase = .running ∧ r.exec.taken = some (.eraseRetained .bp) ∧
      r.store.retQueue.length ≤ (freePositions (readPositions (erasedRetained r.flash []))).length) :=
  ⟨canonical_riding, by decide +kernel⟩

/-! ### Witnesses: encodings and laws -/

/-- The longest image at the last line that holds it, with the largest sequence and ride number. -/
theorem test_witness_ImagesAndRetainedEntriesReadBack :
    4294967295 < 4294967296 ∧ 65535 < 65536 ∧ (qualifierBody riding.quals).length + 16 = 8 * imageLines .qualifier ∧
    157 + imageLines .qualifier ≤ 255 ∧ (logBody (.release 191)).length + 16 = 8 * imageLines .release ∧
    ([] : List Byte).length + 16 = 8 * imageLines .ride := by decide +kernel

theorem test_witness_ImageBodiesReadBack :
    (record37.occurrence < 256 ∧ record37.onset < 65536 ∧ record37.firstConf < 65536 ∧ record37.latestConf < 65536 ∧
      record37.activity < 65536 ∧ record37.fade < 16 ∧ record37.forget < 256) ∧
    (qualifierImage 1 fading37).body = qualifierBody (riding.quals.set 37 fading37) ∧
    (-128 ≤ (riding.quals.set 37 fading37)[(37 : Slot)].m ∧ (riding.quals.set 37 fading37)[(37 : Slot)].m ≤ 127 ∧
      (riding.quals.set 37 fading37)[(37 : Slot)].fade < 16 ∧ (riding.quals.set 37 fading37)[(37 : Slot)].forget < 256) :=
  ⟨by decide, rfl, by decide +kernel⟩

/-- `recorded` with a publish pass to start: every law holds of it, and its step answers a next state. -/
def lawful : State := { recorded with pending := [.publishPassStart] }

theorem frameLaw_lawful : lawful.FrameLaw := by
  intro e e' r r' k k' f h h' hk hk'
  obtain ⟨rfl, rfl⟩ := holds_recorded e r h
  obtain ⟨rfl, rfl⟩ := holds_recorded e' r' h'
  refine ⟨rfl, ?_⟩
  cases k <;> cases k' <;> simp_all [Record.frameRef, record37] <;> (subst hk; exact absurd hk' (by decide))

theorem ramShows_lawful : lawful.RamShows where
  generation := rfl
  writeCount := rfl
  readMark := rfl
  unread := rfl
  overrun := rfl
  cells := fun p => by cases p <;> rfl
  releases := fun p => Or.inl (by cases p <;> rfl)
  unassigned := fun _ _ => rfl
  passCopy := fun _ h => by cases h

theorem test_witness_StepKeepsEveryLaw :
    step lawful = .next (after .publishPassStart recorded) ∧ lawful.MemoriesCanonical ∧ lawful.TrailLaw ∧
    lawful.GenerationLaw ∧ lawful.IgnLaw ∧ lawful.LampsCurrent ∧ lawful.AttentionCurrent ∧ lawful.TakenLaw ∧
    lawful.QualifierRanges ∧ lawful.BarLaw ∧ lawful.RecordLaw ∧ lawful.FrameLaw ∧ lawful.RamShows ∧
    lawful.CountLaw := by
  refine ⟨rfl, canonical_riding, by unfold State.TrailLaw; decide, by unfold State.GenerationLaw; decide,
    by unfold State.IgnLaw; decide, fun p => by cases p <;> decide, fun p => by cases p <;> decide,
    fun p => by cases p <;> decide, ?_, ?_, recordLaw_of_same recordLaw_recorded rfl rfl, frameLaw_lawful, ramShows_lawful,
    by decide, fun e r h => ?_⟩
  · unfold State.QualifierRanges; decide +kernel
  · unfold State.BarLaw; decide +kernel
  · obtain ⟨-, rfl⟩ := holds_recorded e r h
    exact ⟨by decide, by decide, by decide⟩

/-- A release that waits, with its value in the byte (R176), beside one that reads 0. -/
theorem test_witness_StepKeepsTheExchangeRamCurrent :
    let s : State := after (.release .fp (some (0x1040, 2)) 0) riding
    (s.port .fp).releases.getLast? = some (s.rd (Config.releaseAddr .fp)) ∧ s.rd (Config.releaseAddr .bp) = 0 := by
  decide +kernel

end Sys2Proof.Tests
end

