-- ==== Sys2Proof/Proofs/Maturity.lean ====
section
/-!
PROOFS. The maturity arithmetic of R23 to R27: one rule for each of its operations, and the statement about them.
-/

namespace Sys2Proof.Machine

/-! ### Weights and net change -/

/-- R23's rows of the effective step-up as conditions on the band. -/
theorem effStepUp_eq (band u : Nat) :
    effStepUp band u = if band = 0 then u else if band = 1 then max 1 (u / 2) else 0 := by
  match band with
  | 0 => rfl
  | 1 => rfl
  | n + 2 => simp [effStepUp]

/-- No band weighs a fail above the profile's own step-up, which is at least 1 (R23). -/
theorem effStepUp_le (band : Nat) {u : Nat} (hu : 1 ≤ u) : effStepUp band u ≤ u := by
  rw [effStepUp_eq]
  split_ifs <;> omega

/-- R24's range at the largest weights: 255 verdicts of step 127 on either side. -/
theorem netChange_bounds {pr : Profile} {r : Report} (hf : r.f ≤ 255) (hp : r.p ≤ 255) (hu : 1 ≤ pr.stepUp)
    (hU : pr.stepUp ≤ 127) (hD : pr.stepDown ≤ 127) : -32385 ≤ netChange pr r ∧ netChange pr r ≤ 32385 := by
  have hF : failWeight pr r ≤ 255 * 127 := Nat.mul_le_mul hf ((effStepUp_le r.band hu).trans hU)
  have hQ : passWeight pr r ≤ 255 * 127 := Nat.mul_le_mul hp hD
  unfold netChange
  omega

/-- Equal weights cancel (R24). -/
theorem netChange_eq_zero {pr : Profile} {r : Report} (h : failWeight pr r = passWeight pr r) : netChange pr r = 0 := by
  rw [netChange, h, sub_self]

theorem failWeight_of_no_fails (pr : Profile) {r : Report} (h : r.f = 0) : failWeight pr r = 0 := by
  rw [failWeight, h, Nat.zero_mul]

theorem passWeight_of_no_passes (pr : Profile) {r : Report} (h : r.p = 0) : passWeight pr r = 0 := by
  rw [passWeight, h, Nat.zero_mul]

/-! ### The jump and the clamp -/

/-- M and the net change have opposite signs, R25's only occasion for a jump. -/
def OppositeSigns (m d : Int) : Prop := (0 < d ∧ m < 0) ∨ (d < 0 ∧ 0 < m)

/-- With the flag set, an M of the opposite sign becomes 0 (R25). -/
theorem jumped_of_oppositeSigns {m d : Int} (h : OppositeSigns m d) : jumped true m d = 0 := if_pos ⟨rfl, h⟩

/-- An M that has not the opposite sign stays, whatever the flag (R25). -/
theorem jumped_of_not_oppositeSigns (jump : Bool) {m d : Int} (h : ¬OppositeSigns m d) : jumped jump m d = m :=
  if_neg fun hj => h hj.2

/-- Without the flag M stays (R25). -/
theorem jumped_of_no_flag (m d : Int) : jumped false m d = m := if_neg fun hj => Bool.false_ne_true hj.1

/-- A net change of 0 has no sign, so it takes no jump (R24, R25). -/
theorem not_oppositeSigns_zero (m : Int) : ¬OppositeSigns m 0 := by
  unfold OppositeSigns
  omega

/-- R26's clamp as a bound from above and one from below. -/
theorem clampM_eq (x : Int) : clampM x = max (-128) (min 127 x) := by
  unfold clampM
  split_ifs <;> omega

/-- The clamp leaves an M in range (R26). -/
theorem clampM_of_mem {x : Int} (hlo : -128 ≤ x) (hhi : x ≤ 127) : clampM x = x := by
  rw [clampM, if_neg (by omega), if_neg (by omega)]

/-- A net change of 0 leaves an M in range, with the jump flag and without (R24 to R26). -/
theorem newM_of_netChange_zero {pr : Profile} {r : Report} {m : Int} (hlo : -128 ≤ m) (hhi : m ≤ 127)
    (h : netChange pr r = 0) : newM pr r m = m := by
  rw [newM, h, jumped_of_not_oppositeSigns _ (not_oppositeSigns_zero m), add_zero, clampM_of_mem hlo hhi]

/-! ### The matured qualifier -/

theorem matured_m (pr : Profile) (r : Report) (q : Qualifier) : (matured pr r q).m = newM pr r q.m := rfl

/-- A report with fail weight sets the tested and the failed flag (R27). -/
theorem matured_flags_of_failWeight {pr : Profile} {r : Report} (q : Qualifier) (h : 0 < failWeight pr r) :
    (matured pr r q).tested = true ∧ (matured pr r q).failed = true := by
  simp [matured, h]

/-- A report without weights neither moves M nor sets a ride flag (R24 to R27). -/
theorem matured_of_no_weights {pr : Profile} {r : Report} {q : Qualifier} (hlo : -128 ≤ q.m) (hhi : q.m ≤ 127)
    (hF : failWeight pr r = 0) (hQ : passWeight pr r = 0) : matured pr r q = q := by
  have hm : newM pr r q.m = q.m := newM_of_netChange_zero hlo hhi (netChange_eq_zero (hF.trans hQ.symm))
  simp [matured, hm, hF, hQ]

/-- Settles O21: the weights and the net change as R23 and R24 define them, the jump by the cases of the two signs. -/
theorem netChangeAndJump : Obligations.NetChangeAndJump := by
  refine ⟨fun pr r q => ⟨?weight, rfl, rfl, netChange_bounds, ?silent, ?balanced, ?clamped⟩, fun jump m d => ?jump⟩
  case weight => rw [failWeight, effStepUp_eq]
  case silent =>
    intro hlo hhi hf hp
    exact matured_of_no_weights hlo hhi (failWeight_of_no_fails pr hf) (passWeight_of_no_passes pr hp)
  case balanced =>
    intro hlo hhi hpos heq
    have hzero := netChange_eq_zero heq
    exact ⟨hzero, newM_of_netChange_zero hlo hhi hzero, matured_flags_of_failWeight q hpos⟩
  case clamped => rw [matured_m, newM, clampM_eq]
  case jump =>
    refine ⟨?rise, ?fall, ?same, ?unflagged⟩
    case rise =>
      rintro rfl hd hm
      exact jumped_of_oppositeSigns (.inl ⟨hd, hm⟩)
    case fall =>
      rintro rfl hd hm
      exact jumped_of_oppositeSigns (.inr ⟨hd, hm⟩)
    case same =>
      intro _ hsigns
      exact jumped_of_not_oppositeSigns jump (by unfold OppositeSigns; omega)
    case unflagged =>
      rintro rfl
      exact jumped_of_no_flag m d

end Sys2Proof.Machine
end

