-- ==== Sys2Proof/Proofs/RecordTable.lean ====
section
/-!
PROOFS. The record table of chapter 3: the rank of a record and of a requester (R44), and the statement about its order.
-/

namespace Sys2Proof.Machine

/-! ### Rank -/

/-- A requester of an adopted port has the class of its adopted profile (R17, R44). -/
theorem classOf_of_adopted {s : State} {i : Slot} {pr : Profile} (h : s.adoptedProfile i = some pr) :
    s.classOf i = pr.cls := by
  simp only [State.classOf, h]

/-- State rank and class are the two digits of the rank to the base 4, so the state rank decides first (R44). -/
theorem rankVal_lt_iff (a b : QState) (x y : Fin 4) :
    rankVal a x < rankVal b y ↔ stateRank a < stateRank b ∨ (stateRank a = stateRank b ∧ x < y) := by
  rw [rankVal, rankVal, Fin.lt_def]
  omega

/-- A rank determines both its digits (R44). -/
theorem rankVal_eq_iff (a b : QState) (x y : Fin 4) :
    rankVal a x = rankVal b y ↔ stateRank a = stateRank b ∧ x = y := by
  rw [rankVal, rankVal, Fin.ext_iff]
  omega

/-- Settles O22: the four state ranks and a record's rank by definition, the order by the two digits of a rank. -/
theorem rankIsLexicographic : Obligations.RankIsLexicographic :=
  ⟨⟨rfl, rfl, rfl, rfl⟩, fun _ => rfl, fun _ _ _ => classOf_of_adopted,
    fun a b x y => ⟨rankVal_lt_iff a b x y, rankVal_eq_iff a b x y⟩⟩

end Sys2Proof.Machine
end

