-- ==== Sys2Proof/Proofs/Frames.lean ====
section
/-!
PROOFS. The rules of the shared operations: for each one what it leaves alone (a frame, in simp form) and an equation for
what it puts in place. Later proofs go through these rules and do not open the operations again.
-/

-- Proofs in the order of the text: those that elaborate default tactic arguments at once wait for each other.
set_option Elab.async false

namespace Sys2Proof.Machine

/-! ### Frames -/

/-- The parts of the state that only few operations reach are the same. -/
@[simp] abbrev CoreKept (s t : State) : Prop :=
  t.pending = s.pending ∧ t.resetn = s.resetn ∧ t.supgood = s.supgood ∧ t.ign = s.ign ∧ t.part = s.part ∧
  t.svc = s.svc ∧ t.slots = s.slots ∧ t.quals = s.quals ∧ t.profiles = s.profiles ∧ t.records = s.records ∧
  t.frames = s.frames ∧ t.ride = s.ride ∧ t.flash = s.flash

/-- So are the time base, the store and the executor. -/
@[simp] abbrev InnerKept (s t : State) : Prop := CoreKept s t ∧ t.now = s.now ∧ t.store = s.store ∧ t.exec = s.exec

section

variable (s : State)

theorem State.port_fp : s.port .fp = s.fp := rfl
theorem State.port_bp : s.port .bp = s.bp := rfl

theorem Port.eq_or_other (x p : Port) : x = p ∨ x = p.other := by cases x <;> cases p <;> simp [Port.other]

theorem State.setPort_port_eq (p x : Port) (ps : PortState) :
    (s.setPort p ps).port x = if x = p then ps else s.port x := by
  split
  · next h => rw [h, State.setPort_port]
  · next h => exact s.setPort_port_ne p x ps h

/-- Putting back what a port's state is changes nothing. -/
@[simp] theorem State.setPort_self (p : Port) : s.setPort p (s.port p) = s := by cases p <;> rfl

theorem State.port_setPort (p : Port) (ps : PortState) (h : (s.port p) = ps) : s.setPort p ps = s := by
  rw [← h, State.setPort_self]

/-! ### Reset -/

@[simp] theorem State.setPort_inReset (p : Port) (ps : PortState) : (s.setPort p ps).inReset = s.inReset := by
  simp [State.inReset]

/-! ### The publish-dirty mark -/

theorem State.markViewIf_eq (c : Bool) :
    s.markViewIf c = { s with pub := { s.pub with dirty := s.pub.dirty || c } } := by
  cases c
  · simp [State.markViewIf]
  · simp [State.markViewIf, State.markView]

@[simp] theorem State.markViewIf_frame (c : Bool) :
    InnerKept s (s.markViewIf c) ∧ (s.markViewIf c).ram = s.ram ∧ (s.markViewIf c).fp = s.fp ∧
    (s.markViewIf c).bp = s.bp := by
  rw [s.markViewIf_eq c]
  simp

@[simp] theorem State.markViewIf_port (c : Bool) (x : Port) : (s.markViewIf c).port x = s.port x := by
  rw [s.markViewIf_eq c]
  cases x <;> rfl

@[simp] theorem State.markViewIf_pub (c : Bool) :
    (s.markViewIf c).pub = { s.pub with dirty := s.pub.dirty || c } := by rw [State.markViewIf_eq]

/-! ### Lamps -/

@[simp] theorem State.drivePin_frame (p : Port) :
    InnerKept s (s.drivePin p) ∧ (s.drivePin p).ram = s.ram ∧ (s.drivePin p).pub = s.pub := by
  simp [State.drivePin]

@[simp] theorem State.drivePins_frame :
    InnerKept s s.drivePins ∧ s.drivePins.ram = s.ram ∧ s.drivePins.pub = s.pub := by
  simp [State.drivePins]

theorem State.drivePins_port (x : Port) :
    s.drivePins.port x = { s.port x with lamp := litAt (s.port x).shown s.now } := by
  cases x <;> rfl

@[simp] theorem State.refreshLamp_frame (p : Port) :
    InnerKept s (s.refreshLamp p) ∧ (s.refreshLamp p).ram = s.ram := by
  simp [State.refreshLamp]

@[simp] theorem State.refreshLamps_frame : InnerKept s s.refreshLamps ∧ s.refreshLamps.ram = s.ram := by
  simp [State.refreshLamps]

/-- What the two lamps may differ in does not reach the pattern a lamp is to show (R104). -/
theorem State.patternNow_congr {s t : State} {p : Port} (hr : t.ride = s.ride) (hs : (t.port p).steady = (s.port p).steady)
    (hl : (t.port p).slow = (s.port p).slow) (hf : (t.port p).fast = (s.port p).fast)
    (ha : (t.port p).adopted = (s.port p).adopted) (hq : (t.port p).silent = (s.port p).silent) :
    t.patternNow p = s.patternNow p := by
  simp only [State.patternNow, classDemand, hr, hs, hl, hf, ha, hq]

theorem State.refreshLamp_port (p x : Port) :
    (s.refreshLamp p).port x =
      if x = p then { s.port p with shown := s.patternNow p, lamp := litAt (s.patternNow p) s.now } else s.port x := by
  simp only [State.refreshLamp, State.markViewIf_port, State.drivePin, State.setPort_port_eq, State.setPort_now]
  split <;> simp_all

@[simp] theorem State.refreshLamp_pub (p : Port) :
    (s.refreshLamp p).pub =
      { s.pub with dirty := s.pub.dirty || decide ((s.port p).shown ≠ s.patternNow p) } := by
  simp [State.refreshLamp, State.drivePin]

@[simp] theorem State.refreshLamp_patternNow (p x : Port) : (s.refreshLamp p).patternNow x = s.patternNow x := by
  refine State.patternNow_congr (by simp) ?_ ?_ ?_ ?_ ?_
  all_goals
    rw [State.refreshLamp_port]
    split <;> simp_all

theorem State.refreshLamps_port (x : Port) :
    s.refreshLamps.port x = { s.port x with shown := s.patternNow x, lamp := litAt (s.patternNow x) s.now } := by
  rw [State.refreshLamps, State.refreshLamp_port]
  cases x <;> simp [State.refreshLamp_port]

theorem State.refreshLamps_pub :
    ∃ d, s.refreshLamps.pub = { s.pub with dirty := d } ∧ (s.pub.dirty = true → d = true) := by
  refine ⟨_, by rw [State.refreshLamps, State.refreshLamp_pub, State.refreshLamp_pub], ?_⟩
  intro h
  simp [h]

/-- Recomputing the lamps reaches the publisher's dirty mark at most, and does not clear it. -/
@[simp] theorem State.refreshLamps_trail :
    s.refreshLamps.pub.writeCount = s.pub.writeCount ∧ s.refreshLamps.pub.readMark = s.pub.readMark ∧
    s.refreshLamps.pub.unread = s.pub.unread ∧ s.refreshLamps.pub.overrun = s.pub.overrun ∧
    s.refreshLamps.pub.reader = s.pub.reader ∧ s.refreshLamps.pub.threshold = s.pub.threshold ∧
    s.refreshLamps.pub.generation = s.pub.generation ∧ s.refreshLamps.pub.pass = s.pub.pass ∧
    s.refreshLamps.pub.firstPass = s.pub.firstPass ∧ s.refreshLamps.pub.spacingDue = s.pub.spacingDue := by
  obtain ⟨d, h, -⟩ := s.refreshLamps_pub
  simp [h]

theorem State.refreshLamps_dirty (h : s.pub.dirty = true) : s.refreshLamps.pub.dirty = true := by
  obtain ⟨d, h', hd⟩ := s.refreshLamps_pub
  rw [h']
  exact hd h

@[simp] theorem State.handDemand_frame (p : Port) (x y : Pattern) :
    InnerKept s (s.handDemand p x y) ∧ (s.handDemand p x y).ram = s.ram := by
  unfold State.handDemand
  split <;> simp

/-- The counts of a lamp after a change of demand (R103). -/
def demandMoved (x y : Pattern) (ps : PortState) : PortState :=
  if x = y then ps else countDemand true y (countDemand false x ps)

theorem countDemand_eq (up : Bool) (x : Pattern) (ps : PortState) :
    ∃ a b c, countDemand up x ps = { ps with steady := a, slow := b, fast := c } := by
  cases x <;> exact ⟨_, _, _, rfl⟩

theorem demandMoved_eq (x y : Pattern) (ps : PortState) :
    ∃ a b c, demandMoved x y ps = { ps with steady := a, slow := b, fast := c } := by
  unfold demandMoved
  split
  · exact ⟨_, _, _, rfl⟩
  · obtain ⟨a, b, c, h⟩ := countDemand_eq false x ps
    obtain ⟨a', b', c', h'⟩ := countDemand_eq true y (countDemand false x ps)
    exact ⟨a', b', c', by rw [h', h]⟩

/-- A change of demand leaves every lamp's pattern and output to be recomputed, and the rest of the ports (R103). -/
theorem State.handDemand_port (p x' : Port) (x y : Pattern) :
    ∃ sh l, (s.handDemand p x y).port x' =
      if x' = p then { demandMoved x y (s.port p) with shown := sh, lamp := l } else s.port x' := by
  unfold State.handDemand demandMoved
  split
  · refine ⟨(s.port p).shown, (s.port p).lamp, ?_⟩
    split
    · next h => rw [h]
    · rfl
  · let u := s.setPort p (countDemand true y (countDemand false x (s.port p)))
    refine ⟨u.patternNow p, litAt (u.patternNow p) u.now, ?_⟩
    rw [State.refreshLamp_port]
    split
    · rw [State.setPort_port]
    · next h => rw [State.setPort_port_ne _ _ _ _ h]

@[simp] theorem State.handDemand_trail (p : Port) (x y : Pattern) :
    (s.handDemand p x y).pub.writeCount = s.pub.writeCount ∧ (s.handDemand p x y).pub.readMark = s.pub.readMark ∧
    (s.handDemand p x y).pub.unread = s.pub.unread ∧ (s.handDemand p x y).pub.overrun = s.pub.overrun ∧
    (s.handDemand p x y).pub.reader = s.pub.reader ∧ (s.handDemand p x y).pub.threshold = s.pub.threshold ∧
    (s.handDemand p x y).pub.generation = s.pub.generation ∧ (s.handDemand p x y).pub.pass = s.pub.pass ∧
    (s.handDemand p x y).pub.firstPass = s.pub.firstPass ∧ (s.handDemand p x y).pub.spacingDue = s.pub.spacingDue := by
  unfold State.handDemand
  split <;> simp

@[simp] theorem State.recountLamp_frame (p : Port) :
    InnerKept s (s.recountLamp p) ∧ (s.recountLamp p).ram = s.ram := by
  simp [State.recountLamp]

/-! ### The time base -/

@[simp] theorem State.advanceTo_frame (t : Nat) :
    CoreKept s (s.advanceTo t) ∧ (s.advanceTo t).store = s.store ∧ (s.advanceTo t).exec = s.exec ∧
    (s.advanceTo t).ram = s.ram ∧ (s.advanceTo t).pub = s.pub := by
  obtain ⟨n, x, y, h⟩ := s.advanceTo_only t
  rw [h]
  simp

theorem State.advanceTo_port (t : Nat) (x : Port) :
    ∃ l, (s.advanceTo t).port x = { s.port x with lamp := l } := by
  obtain ⟨n, a, b, h⟩ := s.advanceTo_only t
  rw [h]
  cases x
  · exact ⟨a, rfl⟩
  · exact ⟨b, rfl⟩

/-- An expiry reaches of a port its lamp output alone. -/
@[simp] theorem State.advanceTo_portFields (t : Nat) (x : Port) :
    ((s.advanceTo t).port x).wide = (s.port x).wide ∧ ((s.advanceTo t).port x).swapped = (s.port x).swapped ∧
    ((s.advanceTo t).port x).staging = (s.port x).staging ∧ ((s.advanceTo t).port x).capture = (s.port x).capture ∧
    ((s.advanceTo t).port x).readout = (s.port x).readout ∧ ((s.advanceTo t).port x).stray = (s.port x).stray ∧
    ((s.advanceTo t).port x).releases = (s.port x).releases ∧ ((s.advanceTo t).port x).adopted = (s.port x).adopted ∧
    ((s.advanceTo t).port x).copy = (s.port x).copy ∧ ((s.advanceTo t).port x).passDue = (s.port x).passDue ∧
    ((s.advanceTo t).port x).passPos = (s.port x).passPos ∧ ((s.advanceTo t).port x).owed = (s.port x).owed ∧
    ((s.advanceTo t).port x).declined = (s.port x).declined ∧
    ((s.advanceTo t).port x).silenceDue = (s.port x).silenceDue ∧ ((s.advanceTo t).port x).silent = (s.port x).silent ∧
    ((s.advanceTo t).port x).cell = (s.port x).cell ∧ ((s.advanceTo t).port x).channels = (s.port x).channels ∧
    ((s.advanceTo t).port x).steady = (s.port x).steady ∧ ((s.advanceTo t).port x).slow = (s.port x).slow ∧
    ((s.advanceTo t).port x).fast = (s.port x).fast ∧ ((s.advanceTo t).port x).shown = (s.port x).shown ∧
    ((s.advanceTo t).port x).attn = (s.port x).attn := by
  obtain ⟨l, h⟩ := s.advanceTo_port t x
  simp [h]

/-! ### Attention -/

@[simp] theorem State.refreshAttn_frame :
    InnerKept s s.refreshAttn ∧ s.refreshAttn.ram = s.ram ∧ s.refreshAttn.pub = s.pub := by
  obtain ⟨x, y, h⟩ := s.refreshAttn_only
  rw [h]
  simp

theorem State.attnNow_congr {s t : State} {p : Port} (hc : (t.port p).cell = (s.port p).cell)
    (hr : t.pub.reader = s.pub.reader) (ht : t.pub.threshold = s.pub.threshold) (hu : t.pub.unread = s.pub.unread) :
    t.attnNow p = s.attnNow p := by
  simp only [State.attnNow, hc, hr, ht, hu]

theorem State.refreshAttn_port (x : Port) : s.refreshAttn.port x = { s.port x with attn := s.attnNow x } := by
  cases x <;> rfl

/-! ### The trail -/

@[simp] theorem State.append_frame (k : TrailKind) (a b c : Byte) : InnerKept s (s.append k a b c) := by
  obtain ⟨m, pb, x, y, h⟩ := s.append_only k a b c
  rw [h]
  simp

/-- The publisher after an append: a full ring has dropped its oldest unread entry (R166). -/
def Publisher.appended (pb : Publisher) : Publisher :=
  { pb with
    writeCount := pb.writeCount + 1, readMark := if pb.unread = 64 then pb.readMark + 1 else pb.readMark,
    unread := if pb.unread = 64 then 64 else pb.unread + 1, overrun := pb.overrun || decide (pb.unread = 64) }

theorem State.append_pub (k : TrailKind) (a b c : Byte) : (s.append k a b c).pub = s.pub.appended := by
  unfold State.append State.addEntry State.makeRoom Publisher.appended
  by_cases h : s.pub.unread = 64 <;> simp [h]

/-- An append reaches of the publisher the trail alone. -/
@[simp] theorem State.append_publisher (k : TrailKind) (a b c : Byte) :
    (s.append k a b c).pub.writeCount = s.pub.writeCount + 1 ∧ (s.append k a b c).pub.dirty = s.pub.dirty ∧
    (s.append k a b c).pub.reader = s.pub.reader ∧ (s.append k a b c).pub.threshold = s.pub.threshold ∧
    (s.append k a b c).pub.generation = s.pub.generation ∧ (s.append k a b c).pub.pass = s.pub.pass ∧
    (s.append k a b c).pub.firstPass = s.pub.firstPass ∧ (s.append k a b c).pub.spacingDue = s.pub.spacingDue := by
  rw [State.append_pub]
  simp [Publisher.appended]

theorem State.append_port (k : TrailKind) (a b c : Byte) (x : Port) :
    (s.append k a b c).port x = { s.port x with attn := (s.append k a b c).attnNow x } := by
  obtain ⟨m, pb, f, h⟩ : ∃ m pb, ∃ f : State, s.append k a b c = f.refreshAttn ∧
      f = { s with ram := m, pub := pb } := by
    obtain ⟨m, pb, h⟩ := s.makeRoom_only
    unfold State.append State.addEntry
    rw [h]
    exact ⟨_, _, _, rfl, rfl⟩
  rw [h.1, State.refreshAttn_port, h.2]
  cases x <;> rfl

/-- An append reaches of a port its attention line alone. -/
@[simp] theorem State.append_portFields (k : TrailKind) (a b c : Byte) (x : Port) :
    ((s.append k a b c).port x).wide = (s.port x).wide ∧ ((s.append k a b c).port x).swapped = (s.port x).swapped ∧
    ((s.append k a b c).port x).staging = (s.port x).staging ∧
    ((s.append k a b c).port x).capture = (s.port x).capture ∧
    ((s.append k a b c).port x).readout = (s.port x).readout ∧ ((s.append k a b c).port x).stray = (s.port x).stray ∧
    ((s.append k a b c).port x).releases = (s.port x).releases ∧
    ((s.append k a b c).port x).adopted = (s.port x).adopted ∧ ((s.append k a b c).port x).copy = (s.port x).copy ∧
    ((s.append k a b c).port x).passDue = (s.port x).passDue ∧
    ((s.append k a b c).port x).passPos = (s.port x).passPos ∧ ((s.append k a b c).port x).owed = (s.port x).owed ∧
    ((s.append k a b c).port x).declined = (s.port x).declined ∧
    ((s.append k a b c).port x).silenceDue = (s.port x).silenceDue ∧
    ((s.append k a b c).port x).silent = (s.port x).silent ∧ ((s.append k a b c).port x).cell = (s.port x).cell ∧
    ((s.append k a b c).port x).channels = (s.port x).channels ∧
    ((s.append k a b c).port x).steady = (s.port x).steady ∧ ((s.append k a b c).port x).slow = (s.port x).slow ∧
    ((s.append k a b c).port x).fast = (s.port x).fast ∧ ((s.append k a b c).port x).shown = (s.port x).shown ∧
    ((s.append k a b c).port x).lamp = (s.port x).lamp := by
  rw [State.append_port]
  simp

/-! ### The silence watch -/

@[simp] theorem State.startSilence_frame (p : Port) :
    InnerKept s (s.startSilence p) ∧ (s.startSilence p).ram = s.ram ∧ (s.startSilence p).pub = s.pub := by
  obtain ⟨d, h⟩ := s.startSilence_only p
  rw [h]
  simp

@[simp] theorem State.startPassTimer_frame (p : Port) :
    InnerKept s (s.startPassTimer p) ∧ (s.startPassTimer p).ram = s.ram ∧ (s.startPassTimer p).pub = s.pub := by
  obtain ⟨d, h⟩ := s.startPassTimer_only p
  rw [h]
  simp

@[simp] theorem State.heard_frame (p : Port) : InnerKept s (s.heard p) := by
  obtain ⟨m, pb, f, b, h⟩ := s.heard_only p
  rw [h]
  simp

/-! ### Marks of the record store -/

/-- A running erase is asked to suspend; a suspended one stays (R123). -/
def askSuspend (e : Option EraseOp) : Option EraseOp :=
  e.map (fun x => if x.suspended then x else { x with suspendAsked := true })

theorem State.urgentMarked_eq :
    s.urgentMarked = { s with store := { s.store with erase := askSuspend s.store.erase } } := by
  unfold State.urgentMarked
  split
  · next e h =>
    split
    · next hs =>
      have same : askSuspend s.store.erase = s.store.erase := by simp [askSuspend, h, hs]
      rw [same]
    · next hs => simp [askSuspend, h, hs]
  · next h =>
    have same : askSuspend s.store.erase = s.store.erase := by simp [askSuspend, h]
    rw [same]

theorem State.queueLog_eq (it : LogItem) :
    s.queueLog it = { s with store := { s.store with
      logQueue := s.store.logQueue ++ [it], erase := askSuspend s.store.erase } } := by
  rw [State.queueLog, State.urgentMarked_eq]

theorem State.markRide_eq :
    s.markRide = { s with store := { s.store with rideMark := true, erase := askSuspend s.store.erase } } := by
  rw [State.markRide, State.urgentMarked_eq]

theorem State.markQualifier_eq :
    s.markQualifier = { s with store := { s.store with qualMark := true, erase := askSuspend s.store.erase } } := by
  rw [State.markQualifier, State.urgentMarked_eq]

/-- A record with its mark set (R53, R117). -/
def Record.marked (r : Record) (u : Bool) : Record := { r with dirty := true, urgent := r.urgent || u }

theorem State.markRecord_none (i : Fin 48) (u : Bool) (h : s.records[i] = none) : s.markRecord i u = s := by
  simp only [State.markRecord, h]

theorem State.markRecord_some (i : Fin 48) (u : Bool) (r : Record) (h : s.records[i] = some r) :
    s.markRecord i u = { s with
      records := s.records.set i (some (r.marked (u || s.store.rideEnding))),
      store := { s.store with erase := if u || s.store.rideEnding then askSuspend s.store.erase else s.store.erase },
      pub := { s.pub with dirty := s.pub.dirty || !r.dirty } } := by
  simp only [State.markRecord, h]
  split
  · next hu => rw [State.urgentMarked_eq, State.markViewIf_eq]; simp [State.setRecord, Record.marked, hu]
  · next hu => rw [State.markViewIf_eq]; simp [State.setRecord, Record.marked, hu]

/-! ### Cells and the executor -/

@[simp] theorem State.setCell_frame (p : Port) (c : CellState) :
    InnerKept s (s.setCell p c) ∧ (s.setCell p c).pub = s.pub := by
  obtain ⟨m, h⟩ := s.setCell_only p c
  rw [h]
  simp

theorem State.setCell_port (p x : Port) (c : CellState) :
    (s.setCell p c).port x = if x = p then { s.port p with cell := c } else s.port x := by
  rw [State.setCell, State.wr_port, State.setPort_port_eq]

@[simp] theorem State.offer_frame :
    CoreKept s s.offer ∧ s.offer.now = s.now ∧ s.offer.store = s.store ∧ s.offer.ram = s.ram ∧ s.offer.pub = s.pub ∧
    s.offer.fp = s.fp ∧ s.offer.bp = s.bp ∧ s.offer.exec.taken = s.exec.taken ∧ s.offer.exec.pref = s.exec.pref := by
  obtain ⟨c, h⟩ := s.offer_only
  rw [h]
  simp

@[simp] theorem State.offer_port (x : Port) : s.offer.port x = s.port x := by
  obtain ⟨c, h⟩ := s.offer_only
  rw [h]
  cases x <;> rfl

end

end Sys2Proof.Machine
end

