-- ==== Sys2Proof/Proofs/Bytes.lean ====
section
/-!
PROOFS. What a byte of the exchange RAM or of flash reads after a write, while both memories are canonical; where an
append writes.
-/

-- Proofs in the order of the text: those that elaborate default tactic arguments at once wait for each other.
set_option Elab.async false

namespace Sys2Proof.Machine

section

variable {s : State}

/-! ### Canonical memories -/

theorem State.MemoriesCanonical.of_same {t : State} (h : s.MemoriesCanonical) (hr : t.ram = s.ram)
    (hf : t.flash = s.flash) : t.MemoriesCanonical := by
  rw [State.MemoriesCanonical, hr, hf]
  exact h

theorem State.MemoriesCanonical.wr (h : s.MemoriesCanonical) (a : Nat) (b : Byte) : (s.wr a b).MemoriesCanonical :=
  ⟨Memory.wf_write _ _ _ _ h.1, h.2⟩

theorem State.MemoriesCanonical.wrBytes (h : s.MemoriesCanonical) (a : Nat) (bs : List Byte) :
    (s.wrBytes a bs).MemoriesCanonical :=
  ⟨Memory.wf_writeBytes _ _ _ _ h.1, h.2⟩

theorem State.MemoriesCanonical.program (h : s.MemoriesCanonical) (a : Nat) (bs : List Byte) :
    (s.program a bs).MemoriesCanonical :=
  ⟨h.1, Memory.wf_writeBytes _ _ _ _ h.2⟩

/-! ### Reads after writes -/

theorem State.rd_of_ram {t : State} (h : t.ram = s.ram) (a : Nat) : t.rd a = s.rd a := by rw [State.rd, h, State.rd]

theorem State.rd_wr (h : s.MemoriesCanonical) (a x : Nat) (b : Byte) :
    (s.wr a b).rd x = if x = a then b else s.rd x := by
  split
  · next e => rw [e]; exact Memory.read_write_same _ _ _ _ 0 h.1
  · next e => exact Memory.read_write_other _ _ _ _ _ 0 e h.1

theorem byteAt_of_lt {bs : List Byte} {i : Nat} (h : i < bs.length) : byteAt bs i = bs[i] := by
  rw [byteAt, List.getD_eq_getElem _ _ h]

theorem byteAt_of_le {bs : List Byte} {i : Nat} (h : bs.length ≤ i) : byteAt bs i = 0 := by
  rw [byteAt, List.getD_eq_default _ _ h]

theorem byteAt_append (xs ys : List Byte) (i : Nat) :
    byteAt (xs ++ ys) i = if i < xs.length then byteAt xs i else byteAt ys (i - xs.length) := by
  split
  · next h => rw [byteAt, byteAt, List.getD_append _ _ _ _ h]
  · next h => rw [byteAt, byteAt, List.getD_append_right _ _ _ _ (Nat.le_of_not_lt h)]

theorem byteAt_cons_zero (b : Byte) (bs : List Byte) : byteAt (b :: bs) 0 = b := rfl

theorem byteAt_cons_succ (b : Byte) (bs : List Byte) (i : Nat) : byteAt (b :: bs) (i + 1) = byteAt bs i := rfl

theorem Memory.read_writeBytes (dflt : Byte) (m : Memory) (h : Memory.wf dflt m = true) (a x : Nat) (bs : List Byte) :
    Memory.read dflt (Memory.writeBytes dflt m a bs) x =
      if a ≤ x ∧ x < a + bs.length then byteAt bs (x - a) else Memory.read dflt m x := by
  split
  · next hx =>
    have hi : x - a < bs.length := by omega
    have := Memory.read_writeBytes_inside dflt bs m a (x - a) hi h
    rw [show a + (x - a) = x by omega] at this
    rw [this, byteAt_of_lt hi]
  · next hx => exact Memory.read_writeBytes_outside _ _ _ _ _ (by omega) h

theorem State.rd_wrBytes (h : s.MemoriesCanonical) (a x : Nat) (bs : List Byte) :
    (s.wrBytes a bs).rd x = if a ≤ x ∧ x < a + bs.length then byteAt bs (x - a) else s.rd x :=
  Memory.read_writeBytes _ _ h.1 _ _ _

theorem State.flashByte_program (h : s.MemoriesCanonical) (a x : Nat) (bs : List Byte) :
    (s.program a bs).flashByte x = if a ≤ x ∧ x < a + bs.length then byteAt bs (x - a) else s.flashByte x :=
  Memory.read_writeBytes _ _ h.2 _ _ _

/-! ### Numbers in bytes -/

theorem byteOf_toNat (n : Nat) : (byteOf n).toNat = n % 256 := by simp [byteOf]

@[simp] theorem length_bytes16 (n : Nat) : (bytes16 n).length = 2 := rfl

@[simp] theorem length_bytes32 (n : Nat) : (bytes32 n).length = 4 := rfl

/-- A 16-bit field gives back its number (R184). -/
theorem natOf16_bytes16 {n : Nat} (h : n < 65536) : natOf16 (byteOf n) (byteOf (n / 256)) = n := by
  simp only [natOf16, byteOf_toNat]
  omega

theorem natOf32_bytes32 {n : Nat} (h : n < 4294967296) :
    natOf32 (byteOf n) (byteOf (n / 256)) (byteOf (n / 65536)) (byteOf (n / 16777216)) = n := by
  simp only [natOf32, natOf16, byteOf_toNat]
  omega

/-- A word's two bytes give it back. -/
theorem natOf16_word (w : Word) : natOf16 (byteOf w.toNat) (byteOf (w.toNat / 256)) = w.toNat :=
  natOf16_bytes16 w.isLt

/-! ### Where an append writes -/

theorem State.MemoriesCanonical.makeRoom (h : s.MemoriesCanonical) : s.makeRoom.MemoriesCanonical := by
  unfold State.makeRoom
  split
  · exact ((State.MemoriesCanonical.wrBytes (h.of_same rfl rfl) _ _).wr _ _).wr _ _
  · exact h

theorem State.MemoriesCanonical.refreshAttn (h : s.MemoriesCanonical) : s.refreshAttn.MemoriesCanonical :=
  h.of_same (by simp) (by simp)

theorem State.MemoriesCanonical.addEntry (h : s.MemoriesCanonical) (entry : List Byte) :
    (s.addEntry entry).MemoriesCanonical := by
  have h1 := h.wrBytes (Config.trailBase + 8 * (s.pub.writeCount.toNat % 64)) entry
  unfold State.addEntry
  generalize s.wrBytes _ entry = s1 at h1 ⊢
  have h2 : State.MemoriesCanonical
      { s1 with pub := { s1.pub with writeCount := s1.pub.writeCount + 1, unread := s1.pub.unread + 1 } } :=
    h1.of_same rfl rfl
  exact ((h2.wrBytes _ _).wr _ _).refreshAttn

theorem State.MemoriesCanonical.append (h : s.MemoriesCanonical) (k : TrailKind) (a b c : Byte) :
    (s.append k a b c).MemoriesCanonical :=
  h.makeRoom.addEntry _

/-- Reads after the first step of an append: the read mark, the unread count and the overrun flag of a full ring (R166). -/
theorem State.rd_makeRoom (h : s.MemoriesCanonical) (x : Nat) :
    s.makeRoom.rd x =
      if s.pub.unread = 64 then
        if x = 36 then 63 else if x = 37 then 1
        else if x = 34 then byteOf (s.pub.readMark + 1).toNat
        else if x = 35 then byteOf ((s.pub.readMark + 1).toNat / 256) else s.rd x
      else s.rd x := by
  unfold State.makeRoom
  split
  · let s1 : State := { s with pub := { s.pub with readMark := s.pub.readMark + 1, unread := 63, overrun := true } }
    have h1 : s1.MemoriesCanonical := h.of_same rfl rfl
    rw [State.rd_wr ((h1.wrBytes _ _).wr _ _), State.rd_wr (h1.wrBytes _ _), State.rd_wrBytes h1, length_bytes16]
    by_cases e34 : x = 34
    · simp [e34, bytes16, byteAt]
    by_cases e35 : x = 35
    · simp [e35, bytes16, byteAt]
    have e : ¬(34 ≤ x ∧ x < 34 + 2) := by omega
    simp only [e, e34, e35, if_false]
    rfl
  · rfl

/-- Where an entry's eight bytes go: the ring position of the write count (R165). -/
def State.ringAddr (s : State) : Nat := 0x0400 + 8 * (s.pub.writeCount.toNat % 64)

theorem State.ringAddr_bounds (s : State) : 0x0400 ≤ s.ringAddr ∧ s.ringAddr + 8 ≤ 0x0600 := by
  unfold State.ringAddr
  omega

theorem length_trailBytes (r n : Nat) (a : Byte) (k : TrailKind) (b c : Byte) : (trailBytes r n a k b c).length = 8 := rfl

/-- Reads after an append (R166): the entry in the ring, the counts in the header, every other byte as it was. -/
theorem State.rd_append (h : s.MemoriesCanonical) (k : TrailKind) (a b c : Byte) (x : Nat) :
    (s.append k a b c).rd x =
      if x = 36 then byteOf s.pub.appended.unread
      else if x = 32 then byteOf (s.pub.writeCount + 1).toNat
      else if x = 33 then byteOf ((s.pub.writeCount + 1).toNat / 256)
      else if s.ringAddr ≤ x ∧ x < s.ringAddr + 8 then
        byteAt (trailBytes s.ride.number s.ride.time a k b c) (x - s.ringAddr)
      else s.makeRoom.rd x := by
  let u := s.makeRoom
  have hu : u.MemoriesCanonical := h.makeRoom
  have hw : u.pub.writeCount = s.pub.writeCount := by
    simp only [u, State.makeRoom]
    split <;> rfl
  have hn : u.pub.unread + 1 = s.pub.appended.unread := by
    simp only [u, State.makeRoom, Publisher.appended]
    split <;> rfl
  let e := trailBytes s.ride.number s.ride.time a k b c
  let s1 := u.wrBytes (Config.trailBase + 8 * (u.pub.writeCount.toNat % 64)) e
  let s2 : State := { s1 with pub := { s1.pub with writeCount := s1.pub.writeCount + 1, unread := s1.pub.unread + 1 } }
  have h2 : s2.MemoriesCanonical := (hu.wrBytes _ _).of_same rfl rfl
  have hx : (s.append k a b c).rd x = ((s2.wrBytes 32 (bytes16 s2.pub.writeCount.toNat)).wr 36 (byteOf s2.pub.unread)).rd x :=
    State.rd_of_ram (State.refreshAttn_frame _).2.1 x
  have hx2 : s2.rd x = s1.rd x := rfl
  rw [hx, State.rd_wr (h2.wrBytes _ _), State.rd_wrBytes h2, hx2, State.rd_wrBytes hu, length_bytes16, length_trailBytes]
  have hb := s.ringAddr_bounds
  have ha : Config.trailBase + 8 * (u.pub.writeCount.toNat % 64) = s.ringAddr := by rw [hw]; rfl
  have hs2w : s2.pub.writeCount = s.pub.writeCount + 1 := congrArg (· + 1) hw
  have hs2u : s2.pub.unread = s.pub.appended.unread := hn
  rw [ha, hs2w, hs2u]
  by_cases e36 : x = 36
  · simp [e36]
  by_cases e32 : x = 32
  · simp [e32, bytes16, byteAt]
  by_cases e33 : x = 33
  · simp [e33, bytes16, byteAt]
  have e : ¬(32 ≤ x ∧ x < 32 + 2) := by omega
  simp only [e, e36, e32, e33, if_false]
  rfl

/-- An append leaves every byte outside the ring and the trail's header fields (R165). -/
theorem State.rd_append_outside (h : s.MemoriesCanonical) (k : TrailKind) (a b c : Byte) {x : Nat}
    (hx : x < 32 ∨ (37 < x ∧ x < 0x0400) ∨ 0x0600 ≤ x) : (s.append k a b c).rd x = s.rd x := by
  have hb := s.ringAddr_bounds
  rw [State.rd_append h, State.rd_makeRoom h]
  split_ifs <;> first | omega | rfl

end

end Sys2Proof.Machine
end

