-- ==== Sys2Proof/Proofs/Effects.lean ====
section
/-!
PROOFS. What an operation can do, as one relation: the fields it may change and the laws it may break. Every field that is
not named stays, every law that is not named is kept; effects compose, so an operation's effect is read off its steps.
-/

-- Proofs in the order of the text: those that elaborate default tactic arguments at once wait for each other.
set_option Elab.async false

namespace Sys2Proof.Machine

/-! ### Fields and laws -/

/-- The fields of the state, as far as operations differ in what they reach. `board` stands for the exchange RAM from
the tally boards up. -/
inductive Field where
  | queue | lines | straps | now | ram | board | slots | quals | profiles | records | frames | ride | flash | exec
  | dirty | trail | reader | pass | spacing
  | widths | iface | releases | adoption | passTimer | passes | declined | silenceDue | silent | cells | channels
  | counts | lamp | attn
  | storeState | sectors | marks | logQueue | retQueue | program | erase | rideEnding | inhibit | retained | retErase
  deriving DecidableEq

/-- A field of the ports is the same in `a` and `b`. -/
def Field.onPort (f : Field) (a b : PortState) : Prop :=
  match f with
  | .widths => b.wide = a.wide ∧ b.swapped = a.swapped
  | .iface => b.staging = a.staging ∧ b.capture = a.capture ∧ b.readout = a.readout ∧ b.stray = a.stray
  | .releases => b.releases = a.releases
  | .adoption => b.adopted = a.adopted ∧ b.copy = a.copy
  | .passTimer => b.passDue = a.passDue
  | .passes => b.passPos = a.passPos ∧ b.owed = a.owed
  | .declined => b.declined = a.declined
  | .silenceDue => b.silenceDue = a.silenceDue
  | .silent => b.silent = a.silent
  | .cells => b.cell = a.cell
  | .channels => b.channels = a.channels
  | .counts => b.steady = a.steady ∧ b.slow = a.slow ∧ b.fast = a.fast
  | .lamp => b.shown = a.shown ∧ b.lamp = a.lamp
  | .attn => b.attn = a.attn
  | _ => True

/-- A field of the publisher is the same in `a` and `b`. -/
def Field.onPub (f : Field) (a b : Publisher) : Prop :=
  match f with
  | .dirty => b.dirty = a.dirty
  | .trail => b.writeCount = a.writeCount ∧ b.readMark = a.readMark ∧ b.unread = a.unread ∧ b.overrun = a.overrun
  | .reader => b.reader = a.reader ∧ b.threshold = a.threshold
  | .pass => b.generation = a.generation ∧ b.pass = a.pass ∧ b.firstPass = a.firstPass
  | .spacing => b.spacingDue = a.spacingDue
  | _ => True

/-- A field of the store is the same in `a` and `b`. -/
def Field.onStore (f : Field) (a b : Store) : Prop :=
  match f with
  | .storeState => b.state = a.state
  | .sectors => b.sectors = a.sectors ∧ b.lastOpen = a.lastOpen ∧ b.nextSeq = a.nextSeq ∧ b.compaction = a.compaction
  | .marks => b.rideMark = a.rideMark ∧ b.qualMark = a.qualMark
  | .logQueue => b.logQueue = a.logQueue
  | .retQueue => b.retQueue = a.retQueue
  | .program => b.program = a.program
  | .erase => b.erase = a.erase
  | .rideEnding => b.rideEnding = a.rideEnding
  | .inhibit => b.inhibitDue = a.inhibitDue
  | .retained => b.retPos = a.retPos
  | .retErase => b.retErase = a.retErase
  | _ => True

/-- A field beside ports, publisher and store is the same in `s` and `t`. -/
def Field.onCore (f : Field) (s t : State) : Prop :=
  match f with
  | .queue => t.pending = s.pending
  | .lines => t.resetn = s.resetn ∧ t.supgood = s.supgood ∧ t.ign = s.ign
  | .straps => t.part = s.part ∧ t.svc = s.svc
  | .now => t.now = s.now
  | .ram => t.ram = s.ram
  | .board => s.MemoriesCanonical → t.MemoriesCanonical ∧ ∀ a, 0x0600 ≤ a → t.rd a = s.rd a
  | .slots => t.slots = s.slots
  | .quals => t.quals = s.quals
  | .profiles => t.profiles = s.profiles
  | .records => t.records = s.records
  | .frames => t.frames = s.frames
  | .ride => t.ride = s.ride
  | .flash => t.flash = s.flash
  | .exec => t.exec = s.exec
  | _ => True

/-- The field is the same in `s` and `t`. -/
def Field.Same (f : Field) (s t : State) : Prop :=
  f.onCore s t ∧ f.onPub s.pub t.pub ∧ f.onStore s.store t.store ∧ ∀ p, f.onPort (s.port p) (t.port p)

theorem Field.onPort_refl (f : Field) (a : PortState) : f.onPort a a := by cases f <;> simp [Field.onPort]

theorem Field.onPub_refl (f : Field) (a : Publisher) : f.onPub a a := by cases f <;> simp [Field.onPub]

theorem Field.onStore_refl (f : Field) (a : Store) : f.onStore a a := by cases f <;> simp [Field.onStore]

theorem Field.onCore_refl (f : Field) (s : State) : f.onCore s s := by cases f <;> simp [Field.onCore]

theorem Field.Same.refl (f : Field) (s : State) : f.Same s s :=
  ⟨f.onCore_refl s, f.onPub_refl _, f.onStore_refl _, fun _ => f.onPort_refl _⟩

theorem Field.onPort_trans {f : Field} {a b c : PortState} (h : f.onPort a b) (h' : f.onPort b c) : f.onPort a c := by
  cases f <;> simp_all [Field.onPort]

theorem Field.onPub_trans {f : Field} {a b c : Publisher} (h : f.onPub a b) (h' : f.onPub b c) : f.onPub a c := by
  cases f <;> simp_all [Field.onPub]

theorem Field.onStore_trans {f : Field} {a b c : Store} (h : f.onStore a b) (h' : f.onStore b c) : f.onStore a c := by
  cases f <;> simp_all [Field.onStore]

theorem Field.onCore_trans {f : Field} {s t u : State} (h : f.onCore s t) (h' : f.onCore t u) : f.onCore s u := by
  cases f
  case board =>
    intro hs
    obtain ⟨ht, e⟩ := h hs
    obtain ⟨hu, e'⟩ := h' ht
    exact ⟨hu, fun a ha => (e' a ha).trans (e a ha)⟩
  all_goals simp_all [Field.onCore]

theorem Field.Same.trans {f : Field} {s t u : State} (h : f.Same s t) (h' : f.Same t u) : f.Same s u :=
  ⟨Field.onCore_trans h.1 h'.1, Field.onPub_trans h.2.1 h'.2.1, Field.onStore_trans h.2.2.1 h'.2.2.1,
    fun p => Field.onPort_trans (h.2.2.2 p) (h'.2.2.2 p)⟩

/-- The laws of Safety.lean that a step keeps, but for those of records and frames, and that a publish-dirty mark
stays. The laws of the exchange RAM are stated of canonical memories. -/
inductive Law where
  | memories | ram | trail | generation | attention | ranges | bar | lamps | taken | ign | view
  deriving DecidableEq

def Law.Holds (k : Law) (s : State) : Prop :=
  match k with
  | .memories => s.MemoriesCanonical
  | .ram => s.MemoriesCanonical ∧ s.RamShows
  | .trail => s.TrailLaw
  | .generation => s.GenerationLaw
  | .attention => s.AttentionCurrent
  | .ranges => s.QualifierRanges
  | .bar => s.BarLaw
  | .lamps => s.LampsCurrent
  | .taken => s.TakenLaw
  | .ign => s.IgnLaw
  | .view => s.pub.dirty = true

/-- The fields a law speaks of. -/
def Law.fields (k : Law) : List Field :=
  match k with
  | .memories => [.ram, .flash]
  | .ram => [.ram, .flash, .trail, .pass, .cells, .releases]
  | .trail => [.trail]
  | .generation => [.pass]
  | .attention => [.attn, .cells, .reader, .trail]
  | .ranges => [.quals]
  | .bar => [.slots]
  | .lamps => [.lamp, .counts, .adoption, .silent, .ride, .now]
  | .taken => [.cells, .exec]
  | .ign => [.ride]
  | .view => [.dirty]

/-- A law holds on while the fields it speaks of are the same. -/
theorem Law.holds_of_same {k : Law} {s t : State} (h : ∀ f ∈ k.fields, f.Same s t) (hs : k.Holds s) : k.Holds t := by
  cases k <;> simp only [Law.fields, List.forall_mem_cons, List.not_mem_nil, IsEmpty.forall_iff, implies_true, and_true] at h
  case memories => exact State.MemoriesCanonical.of_same hs h.1.1 h.2.1
  case ram =>
    obtain ⟨hr, hf, ht, hp, hc, hl⟩ := h
    obtain ⟨hm, g, w, r, u, o, c, l, z, k⟩ := hs
    have rd : ∀ a, t.rd a = s.rd a := State.rd_of_ram hr.1
    obtain ⟨hw, hrm, hun, hov⟩ := ht.2.1
    obtain ⟨hg, hpa, -⟩ := hp.2.1
    have hcell : ∀ p, (t.port p).cell = (s.port p).cell := hc.2.2.2
    have hrel : ∀ p, (t.port p).releases = (s.port p).releases := hl.2.2.2
    refine ⟨State.MemoriesCanonical.of_same hm hr.1 hf.1, ?_, ?_, ?_, ?_, ?_, ?_, ?_, ?_, ?_⟩ <;>
      simpa only [rd, hw, hrm, hun, hov, hg, hpa, hcell, hrel]
  case trail =>
    obtain ⟨hw, hr, hu, -⟩ := h.2.1
    exact (by rw [State.TrailLaw, hw, hr, hu]; exact hs : t.TrailLaw)
  case generation =>
    obtain ⟨hg, hp, -⟩ := h.2.1
    exact (by rw [State.GenerationLaw, hg, hp]; exact hs : t.GenerationLaw)
  case attention =>
    obtain ⟨ha, hc, hr, ht⟩ := h
    intro p
    rw [State.attnNow_congr (hc.2.2.2 p) hr.2.1.1 hr.2.1.2 ht.2.1.2.2.1, ← hs p]
    exact ha.2.2.2 p
  case ranges => exact (by rw [State.QualifierRanges, show t.quals = s.quals from h.1]; exact hs : t.QualifierRanges)
  case bar => exact (by rw [State.BarLaw, show t.slots = s.slots from h.1]; exact hs : t.BarLaw)
  case lamps =>
    obtain ⟨hl, hc, ha, hq, hr, hn⟩ := h
    intro p
    obtain ⟨hsh, hla⟩ := hl.2.2.2 p
    obtain ⟨h1, h2, h3⟩ := hc.2.2.2 p
    rw [hsh, hla, show t.now = s.now from hn.1, State.patternNow_congr hr.1 h1 h2 h3 (ha.2.2.2 p).1 (hq.2.2.2 p)]
    exact hs p
  case taken =>
    obtain ⟨hc, he⟩ := h
    intro p
    rw [show t.exec = s.exec from he.1, show (t.port p).cell = _ from hc.2.2.2 p]
    exact hs p
  case ign => exact (by rw [State.IgnLaw, show t.ride = s.ride from h.1]; exact hs : t.IgnLaw)
  case view => exact (show t.pub.dirty = s.pub.dirty from h.2.1).trans hs

/-! ### Effects -/

/-- From `s` to `t` at most the fields `l` change and at most the laws `b` break. -/
structure Effect (l : List Field) (b : List Law) (s t : State) : Prop where
  same  : ∀ f, f ∉ l → f.Same s t
  keeps : ∀ k, k ∉ b → k.Holds s → k.Holds t

theorem Effect.refl {l : List Field} {b : List Law} (s : State) : Effect l b s s :=
  ⟨fun f _ => Field.Same.refl f s, fun _ _ h => h⟩

theorem Effect.of_eq {l : List Field} {b : List Law} {s t : State} (h : t = s) : Effect l b s t := by
  rw [h]
  exact Effect.refl s

theorem Effect.mono {l l' : List Field} {b b' : List Law} {s t : State} (h : Effect l b s t)
    (hl : ∀ f ∈ l, f ∈ l' := by decide) (hb : ∀ k ∈ b, k ∈ b' := by decide) : Effect l' b' s t :=
  ⟨fun f hf => h.same f fun x => hf (hl f x), fun k hk => h.keeps k fun x => hk (hb k x)⟩

/-- Effects compose: the fields and laws of both. -/
theorem Effect.trans {l : List Field} {b : List Law} {s t u : State} (h : Effect l b s t) (h' : Effect l b t u) :
    Effect l b s u :=
  ⟨fun f hf => (h.same f hf).trans (h'.same f hf), fun k hk hs => h'.keeps k hk (h.keeps k hk hs)⟩

/-- The composition of two effects, each within the given fields and laws. -/
theorem Effect.seq {l₁ l₂ l : List Field} {b₁ b₂ b : List Law} {s t u : State} (h : Effect l₁ b₁ s t)
    (h' : Effect l₂ b₂ t u) (h₁ : ∀ f ∈ l₁, f ∈ l := by decide) (h₂ : ∀ f ∈ l₂, f ∈ l := by decide)
    (hb₁ : ∀ k ∈ b₁, k ∈ b := by decide) (hb₂ : ∀ k ∈ b₂, k ∈ b := by decide) : Effect l b s u :=
  (h.mono h₁ hb₁).trans (h'.mono h₂ hb₂)

/-- The same where no law is broken. -/
theorem Effect.step {l₁ l₂ l : List Field} {s t u : State} (h : Effect l₁ [] s t) (h' : Effect l₂ [] t u)
    (h₁ : ∀ f ∈ l₁, f ∈ l := by decide) (h₂ : ∀ f ∈ l₂, f ∈ l := by decide) : Effect l [] s u :=
  h.seq h' h₁ h₂

/-- An effect from what it does to the fields: of the laws it need answer only for those that speak of a field in `l`,
which are those of `ls` and those of `b`. -/
theorem Effect.intro {l : List Field} {b : List Law} {s t : State} (ls : List Law)
    (same : ∀ f, f ∉ l → f.Same s t) (keeps : ∀ k ∈ ls, k.Holds s → k.Holds t)
    (rest : ∀ k : Law, k ∈ b ∨ k ∈ ls ∨ ∀ f ∈ k.fields, f ∉ l := by intro k; cases k <;> decide) : Effect l b s t := by
  refine ⟨same, fun k hk hs => ?_⟩
  rcases rest k with h | h | h
  · exact absurd h hk
  · exact keeps k h hs
  · exact Law.holds_of_same (fun f hf => same f (h f hf)) hs

/-- A law that the operation as a whole keeps need not be counted among those its steps may break. -/
theorem Effect.repair {l : List Field} {b : List Law} {s t : State} (k : Law) (h : Effect l (k :: b) s t)
    (ht : k.Holds s → k.Holds t) : Effect l b s t := by
  refine ⟨h.same, fun j hj hs => ?_⟩
  by_cases e : j = k
  · rw [e] at hs ⊢
    exact ht hs
  · exact h.keeps j (by simp [e, hj]) hs

theorem Effect.swap {l : List Field} {j k : Law} {b : List Law} {s t : State} (h : Effect l (j :: k :: b) s t) :
    Effect l (k :: j :: b) s t :=
  h.mono (fun _ h => h) fun x hx => by simp at hx ⊢; tauto

/-! ### Reading an effect -/

section

variable {l : List Field} {b : List Law} {s t : State} (h : Effect l b s t)

include h

theorem Effect.queue (hf : Field.queue ∉ l := by decide) : t.pending = s.pending := (h.same _ hf).1
theorem Effect.lines (hf : Field.lines ∉ l := by decide) : t.resetn = s.resetn ∧ t.supgood = s.supgood ∧ t.ign = s.ign :=
  (h.same _ hf).1
theorem Effect.straps (hf : Field.straps ∉ l := by decide) : t.part = s.part ∧ t.svc = s.svc := (h.same _ hf).1
theorem Effect.now (hf : Field.now ∉ l := by decide) : t.now = s.now := (h.same _ hf).1
theorem Effect.ram (hf : Field.ram ∉ l := by decide) : t.ram = s.ram := (h.same _ hf).1
theorem Effect.board (hs : s.MemoriesCanonical) (hf : Field.board ∉ l := by decide) :
    t.MemoriesCanonical ∧ ∀ a, 0x0600 ≤ a → t.rd a = s.rd a := (h.same _ hf).1 hs
theorem Effect.slots (hf : Field.slots ∉ l := by decide) : t.slots = s.slots := (h.same _ hf).1
theorem Effect.quals (hf : Field.quals ∉ l := by decide) : t.quals = s.quals := (h.same _ hf).1
theorem Effect.profiles (hf : Field.profiles ∉ l := by decide) : t.profiles = s.profiles := (h.same _ hf).1
theorem Effect.records (hf : Field.records ∉ l := by decide) : t.records = s.records := (h.same _ hf).1
theorem Effect.frames (hf : Field.frames ∉ l := by decide) : t.frames = s.frames := (h.same _ hf).1
theorem Effect.ride (hf : Field.ride ∉ l := by decide) : t.ride = s.ride := (h.same _ hf).1
theorem Effect.flash (hf : Field.flash ∉ l := by decide) : t.flash = s.flash := (h.same _ hf).1
theorem Effect.exec (hf : Field.exec ∉ l := by decide) : t.exec = s.exec := (h.same _ hf).1
theorem Effect.dirty (hf : Field.dirty ∉ l := by decide) : t.pub.dirty = s.pub.dirty := (h.same _ hf).2.1
theorem Effect.trail (hf : Field.trail ∉ l := by decide) : t.pub.writeCount = s.pub.writeCount ∧
    t.pub.readMark = s.pub.readMark ∧ t.pub.unread = s.pub.unread ∧ t.pub.overrun = s.pub.overrun := (h.same _ hf).2.1
theorem Effect.reader (hf : Field.reader ∉ l := by decide) : t.pub.reader = s.pub.reader ∧
    t.pub.threshold = s.pub.threshold := (h.same _ hf).2.1
theorem Effect.pass (hf : Field.pass ∉ l := by decide) : t.pub.generation = s.pub.generation ∧
    t.pub.pass = s.pub.pass ∧ t.pub.firstPass = s.pub.firstPass := (h.same _ hf).2.1
theorem Effect.spacing (hf : Field.spacing ∉ l := by decide) : t.pub.spacingDue = s.pub.spacingDue := (h.same _ hf).2.1
theorem Effect.storeState (hf : Field.storeState ∉ l := by decide) : t.store.state = s.store.state :=
  (h.same _ hf).2.2.1
theorem Effect.sectors (hf : Field.sectors ∉ l := by decide) : t.store.sectors = s.store.sectors ∧
    t.store.lastOpen = s.store.lastOpen ∧ t.store.nextSeq = s.store.nextSeq ∧
    t.store.compaction = s.store.compaction := (h.same _ hf).2.2.1
theorem Effect.marks (hf : Field.marks ∉ l := by decide) : t.store.rideMark = s.store.rideMark ∧
    t.store.qualMark = s.store.qualMark := (h.same _ hf).2.2.1
theorem Effect.logQueue (hf : Field.logQueue ∉ l := by decide) : t.store.logQueue = s.store.logQueue :=
  (h.same _ hf).2.2.1
theorem Effect.retQueue (hf : Field.retQueue ∉ l := by decide) : t.store.retQueue = s.store.retQueue :=
  (h.same _ hf).2.2.1
theorem Effect.program (hf : Field.program ∉ l := by decide) : t.store.program = s.store.program := (h.same _ hf).2.2.1
theorem Effect.erase (hf : Field.erase ∉ l := by decide) : t.store.erase = s.store.erase := (h.same _ hf).2.2.1
theorem Effect.rideEnding (hf : Field.rideEnding ∉ l := by decide) : t.store.rideEnding = s.store.rideEnding :=
  (h.same _ hf).2.2.1
theorem Effect.inhibit (hf : Field.inhibit ∉ l := by decide) : t.store.inhibitDue = s.store.inhibitDue :=
  (h.same _ hf).2.2.1
theorem Effect.retained (hf : Field.retained ∉ l := by decide) : t.store.retPos = s.store.retPos := (h.same _ hf).2.2.1
theorem Effect.retErase (hf : Field.retErase ∉ l := by decide) : t.store.retErase = s.store.retErase :=
  (h.same _ hf).2.2.1
theorem Effect.onPort (p : Port) (f : Field) (hf : f ∉ l) : f.onPort (s.port p) (t.port p) := (h.same f hf).2.2.2 p
theorem Effect.cell (p : Port) (hf : Field.cells ∉ l := by decide) : (t.port p).cell = (s.port p).cell :=
  h.onPort p _ hf
theorem Effect.adoption (p : Port) (hf : Field.adoption ∉ l := by decide) :
    (t.port p).adopted = (s.port p).adopted ∧ (t.port p).copy = (s.port p).copy := h.onPort p _ hf

theorem Effect.store_eq (hf : ∀ f ∈ [Field.storeState, .sectors, .marks, .logQueue, .retQueue, .program, .erase, .rideEnding,
    .inhibit, .retained, .retErase], f ∉ l := by decide) : t.store = s.store := by
  have hst : ∀ f, f ∈ [Field.storeState, .sectors, .marks, .logQueue, .retQueue, .program, .erase, .rideEnding,
    .inhibit, .retained, .retErase] → f.onStore s.store t.store := fun f hm => (h.same f (hf f hm)).2.2.1
  simp only [List.forall_mem_cons, List.not_mem_nil, IsEmpty.forall_iff, implies_true, Field.onStore, and_true] at hst
  obtain ⟨h1, ⟨h2, h3, h4, h5⟩, ⟨h6, h7⟩, h8, h9, h10, h11, h12, h13, h14, h15⟩ := hst
  cases hs : s.store
  cases ht : t.store
  simp_all

theorem Effect.sameFaults (hf : ∀ f ∈ [Field.quals, .records, .frames], f ∉ l := by decide) : SameFaults s t :=
  ⟨h.quals (hf _ (by decide)), h.records (hf _ (by decide)), h.frames (hf _ (by decide))⟩

theorem Effect.sameWorld (hf : ∀ f ∈ [Field.queue, .lines, .straps, .now, .profiles], f ∉ l := by decide) :
    SameWorld s t :=
  ⟨h.queue (hf _ (by decide)), h.lines (hf _ (by decide)), h.straps (hf _ (by decide)), h.now (hf _ (by decide)),
    h.profiles (hf _ (by decide))⟩

theorem Effect.inReset (hf : Field.lines ∉ l := by decide) : t.inReset = s.inReset := by
  obtain ⟨h1, h2, -⟩ := h.lines hf
  rw [State.inReset, h1, h2, State.inReset]

theorem Effect.owner (hf : Field.straps ∉ l := by decide) (i : Slot) : t.owner i = s.owner i := by
  rw [State.owner, (h.straps hf).1, State.owner]

theorem Effect.adoptedCopy (hf : Field.adoption ∉ l := by decide) (p : Port) : t.adoptedCopy p = s.adoptedCopy p := by
  obtain ⟨h1, h2⟩ := h.adoption p hf
  rw [State.adoptedCopy, h1, h2, State.adoptedCopy]

theorem Effect.adoptedProfile (hf : ∀ f ∈ [Field.straps, .adoption, .profiles], f ∉ l := by decide) (i : Slot) :
    t.adoptedProfile i = s.adoptedProfile i := by
  have ho := h.owner (hf _ (by decide)) i
  rw [State.adoptedProfile, ho, (h.adoption _ (hf _ (by decide))).1, h.profiles (hf _ (by decide)), State.adoptedProfile]

theorem Effect.recordOf (hf : Field.records ∉ l := by decide) (i : Slot) : t.recordOf i = s.recordOf i := by
  rw [State.recordOf, State.recordList, h.records hf, State.recordOf, State.recordList]

end

end Sys2Proof.Machine
end

