-- ==== Sys2Proof/Proofs/Operations.lean ====
section
/-!
PROOFS. The effect of each shared operation: marks, lamps, attention lines, the time base, the trail, the silence watch,
cells and releases, single bytes and single updates.
-/

-- Proofs in the order of the text: those that elaborate default tactic arguments at once wait for each other.
set_option Elab.async false

namespace Sys2Proof.Machine

section

variable (s : State)

/-! ### Single updates -/

/-- An update of one port: of the fields of the ports only those of `l` differ. -/
theorem Effect.setPort {l : List Field} {b : List Law} (p : Port) (ps : PortState) (ls : List Law)
    (same : ∀ f, f ∉ l → f.onPort (s.port p) ps) (keeps : ∀ k ∈ ls, k.Holds s → k.Holds (s.setPort p ps))
    (rest : ∀ k : Law, k ∈ b ∨ k ∈ ls ∨ ∀ f ∈ k.fields, f ∉ l := by intro k; cases k <;> decide) :
    Effect l b s (s.setPort p ps) := by
  refine Effect.intro ls (fun f hf => ⟨?_, ?_, ?_, fun x => ?_⟩) keeps rest
  · cases f
    case board => exact fun h => ⟨h.of_same (by simp) (by simp), fun a _ => State.rd_of_ram (by simp) a⟩
    all_goals simp [Field.onCore]
  · rw [State.setPort_pub]; exact f.onPub_refl _
  · rw [State.setPort_store]; exact f.onStore_refl _
  · rw [State.setPort_port_eq]
    split
    · next e => rw [e]; exact same f hf
    · exact f.onPort_refl _

/-- The record update of all fields but the lines, the straps, the queue, the two memories and the ports. -/
theorem Effect.update {l : List Field} {b : List Law} {n : Nat} {es : Vector SlotEngine 192} {qs : Vector Qualifier 192}
    {prs : Vector Profile 192} {rs : Vector (Option Record) 48} {fs : Vector Frame 64} {rd : RideCtl} {st : Store}
    {x : Executor} {pb : Publisher} (ls : List Law)
    (keeps : ∀ k ∈ ls, k.Holds s → k.Holds { s with
      now := n, slots := es, quals := qs, profiles := prs, records := rs, frames := fs, ride := rd, store := st, exec := x,
      pub := pb })
    (hn : Field.now ∈ l ∨ n = s.now := by exact .inr rfl) (he : Field.slots ∈ l ∨ es = s.slots := by exact .inr rfl)
    (hq : Field.quals ∈ l ∨ qs = s.quals := by exact .inr rfl)
    (hprs : Field.profiles ∈ l ∨ prs = s.profiles := by exact .inr rfl)
    (hrs : Field.records ∈ l ∨ rs = s.records := by exact .inr rfl)
    (hfs : Field.frames ∈ l ∨ fs = s.frames := by exact .inr rfl)
    (hrd : Field.ride ∈ l ∨ rd = s.ride := by exact .inr rfl) (hx : Field.exec ∈ l ∨ x = s.exec := by exact .inr rfl)
    (hst : ∀ f, f ∉ l → f.onStore s.store st := by exact fun f _ => f.onStore_refl _)
    (hpb : ∀ f, f ∉ l → f.onPub s.pub pb := by exact fun f _ => f.onPub_refl _)
    (rest : ∀ k : Law, k ∈ b ∨ k ∈ ls ∨ ∀ f ∈ k.fields, f ∉ l := by intro k; cases k <;> decide) :
    Effect l b s { s with
      now := n, slots := es, quals := qs, profiles := prs, records := rs, frames := fs, ride := rd, store := st, exec := x,
      pub := pb } := by
  refine Effect.intro ls (fun f hf => ⟨?_, hpb f hf, hst f hf, fun p => ?_⟩) keeps rest
  · cases f
    case board => exact fun h => ⟨h.of_same rfl rfl, fun _ _ => rfl⟩
    all_goals simp_all [Field.onCore]
  · cases p <;> exact f.onPort_refl _

/-- An update of the store. -/
theorem Effect.setStore {l : List Field} (st : Store) (same : ∀ f, f ∉ l → f.onStore s.store st)
    (rest : ∀ k : Law, ∀ f ∈ k.fields, f ∉ l := by intro k; cases k <;> decide) :
    Effect l [] s { s with store := st } :=
  Effect.update s [] (fun k hk => by cases hk) (hst := same) (rest := fun k => .inr (.inr (rest k)))

/-- An update of the ride controller may break the laws of lamps and ignition. -/
theorem Effect.setRide (r : RideCtl) : Effect [.ride] [.lamps, .ign] s { s with ride := r } :=
  Effect.update s [] (fun k hk => by cases hk) (hrd := .inl (by decide))

/-- An update of the executor that leaves the request it holds. -/
theorem Effect.setExec (x : Executor) (h : x.taken = s.exec.taken) : Effect [.exec] [] s { s with exec := x } := by
  refine Effect.update s [.taken] ?_ (hx := .inl (by decide))
  simp only [List.mem_singleton, forall_eq]
  intro hs p
  have := hs p
  cases p <;> simpa [h, State.port] using this

/-- A qualifier's fields lie in their ranges (R26, 2.1). -/
def Qualifier.InRange (q : Qualifier) : Prop := -128 ≤ q.m ∧ q.m ≤ 127 ∧ q.fade ≤ 15 ∧ q.forget ≤ 255

theorem State.quals_set_get (i j : Slot) (q : Qualifier) :
    (s.quals.set i q)[j] = if i = j then q else s.quals[j] := by
  simp only [Fin.getElem_fin, Vector.getElem_set, Fin.ext_iff]

theorem Effect.setQual (i : Slot) (q : Qualifier) (h : s.quals[i].InRange → q.InRange) :
    Effect [.quals] [] s (s.setQual i q) := by
  refine Effect.update s [.ranges] ?_ (hq := .inl (by decide))
  simp only [List.mem_singleton, forall_eq]
  intro hs j
  rw [State.quals_set_get]
  split
  · exact h (hs i)
  · exact hs j

/-- A slot's held count and bar fit together (R10, R11). -/
def SlotEngine.BarRight (e : SlotEngine) : Prop := e.held ≤ 3 ∧ (e.barred = true ↔ e.held = 3)

theorem State.slots_set_get (i j : Slot) (e : SlotEngine) :
    (s.slots.set i e)[j] = if i = j then e else s.slots[j] := by
  simp only [Fin.getElem_fin, Vector.getElem_set, Fin.ext_iff]

theorem Effect.setSlot (i : Slot) (e : SlotEngine) (h : s.slots[i].BarRight → e.BarRight) :
    Effect [.slots] [] s (s.setSlot i e) := by
  refine Effect.update s [.bar] ?_ (he := .inl (by decide))
  simp only [List.mem_singleton, forall_eq]
  intro hs j
  rw [State.slots_set_get]
  split
  · exact h (hs i)
  · exact hs j

theorem Effect.setRecords (rs : Vector (Option Record) 48) : Effect [.records] [] s { s with records := rs } :=
  Effect.update s [] (fun k hk => by cases hk) (hrs := .inl (by decide))

theorem Effect.setRecord (e : Fin 48) (r : Option Record) : Effect [.records] [] s (s.setRecord e r) :=
  Effect.setRecords s _

theorem Effect.setFrames (fs : Vector Frame 64) : Effect [.frames] [] s { s with frames := fs } :=
  Effect.update s [] (fun k hk => by cases hk) (hfs := .inl (by decide))

/-! ### Marks, lamps and attention lines -/

theorem State.markViewIf_effect (c : Bool) : Effect [.dirty] [] s (s.markViewIf c) := by
  rw [State.markViewIf_eq]
  refine Effect.update s [.view] ?_ (hpb := fun f hf => ?_)
  · simp only [List.mem_singleton, forall_eq]
    exact fun hs => Bool.or_eq_true_iff.mpr (.inl hs)
  · cases f <;> simp_all [Field.onPub]

theorem State.markView_effect : Effect [.dirty] [] s s.markView := s.markViewIf_effect true

/-- A lamp recomputed shows what its inputs give (R105, R106); the other is not touched. -/
theorem State.lampsCurrent_refreshLamp {s : State} (p : Port)
    (h : (s.port p.other).shown = s.patternNow p.other ∧ (s.port p.other).lamp = litAt (s.port p.other).shown s.now) :
    (s.refreshLamp p).LampsCurrent := by
  intro x
  rw [State.refreshLamp_patternNow, (s.refreshLamp_frame p).1.2.1, State.refreshLamp_port]
  split
  · next e => rw [e]; exact ⟨rfl, rfl⟩
  · next e =>
    have : x = p.other := (Port.eq_or_other x p).resolve_left e
    rw [this]
    exact h

/-- Both lamps recomputed show what their inputs give (R105). -/
theorem State.lampsCurrent_refreshLamps : s.refreshLamps.LampsCurrent := by
  refine State.lampsCurrent_refreshLamp .bp ?_
  rw [State.refreshLamp_patternNow, State.refreshLamp_port]
  simp [Port.other]

theorem State.refreshLamp_effect (p : Port) : Effect [.lamp, .dirty] [] s (s.refreshLamp p) := by
  refine Effect.intro [.lamps, .view] (fun f hf => ⟨?_, ?_, ?_, fun x => ?_⟩) ?_
  · cases f
    case board => exact fun h => ⟨h.of_same (by simp) (by simp), fun a _ => State.rd_of_ram (by simp) a⟩
    all_goals simp [Field.onCore]
  · cases f <;> simp_all [Field.onPub]
  · rw [(s.refreshLamp_frame p).1.2.2.1]; exact f.onStore_refl _
  · rw [State.refreshLamp_port]
    split
    · next e => rw [e]; cases f <;> simp_all [Field.onPort]
    · exact f.onPort_refl _
  · simp only [List.forall_mem_cons, List.not_mem_nil, IsEmpty.forall_iff, implies_true, and_true]
    refine ⟨fun hs => State.lampsCurrent_refreshLamp p (hs p.other), fun hs => ?_⟩
    have hd : s.pub.dirty = true := hs
    simp [Law.Holds, hd]

theorem State.refreshLamps_effect : Effect [.lamp, .dirty] [] s s.refreshLamps :=
  (s.refreshLamp_effect .fp).trans ((s.refreshLamp .fp).refreshLamp_effect .bp)

/-- The lamps' inputs and outputs of one port may go stale; the port's own refresh sets them right (R105). -/
theorem Effect.refreshing {s t : State} {l : List Field} (p : Port) (h : Effect l [.lamps] s t)
    (hk : ∀ x, x ≠ p → s.LampsCurrent →
      (t.port x).shown = t.patternNow x ∧ (t.port x).lamp = litAt (t.port x).shown t.now)
    (hl : Field.lamp ∈ l := by decide) (hd : Field.dirty ∈ l := by decide) : Effect l [] s (t.refreshLamp p) := by
  have h' : Effect l [.lamps] s (t.refreshLamp p) := h.trans ((t.refreshLamp_effect p).mono (by simp [hl, hd]))
  exact h'.repair _ fun hs => State.lampsCurrent_refreshLamp p (hk _ (Port.other_ne p) hs)

theorem State.setPort_counts_effect (p : Port) (a b c : Nat) :
    Effect [.counts] [.lamps] s (s.setPort p { s.port p with steady := a, slow := b, fast := c }) := by
  refine Effect.setPort s p _ [] (fun f hf => ?_) (fun k hk => by cases hk)
  cases f <;> simp_all [Field.onPort]

/-- The other port's lamp does not see an update of this one. -/
theorem State.lamp_of_setPort {s : State} {p x : Port} (ps : PortState) (hx : x ≠ p) (h : s.LampsCurrent) :
    ((s.setPort p ps).port x).shown = (s.setPort p ps).patternNow x ∧
    ((s.setPort p ps).port x).lamp = litAt ((s.setPort p ps).port x).shown (s.setPort p ps).now := by
  have e := State.setPort_port_ne s p x ps hx
  have hn : (s.setPort p ps).patternNow x = s.patternNow x := by
    refine State.patternNow_congr (by simp) ?_ ?_ ?_ ?_ ?_ <;> rw [e]
  rw [hn, e, State.setPort_now]
  exact h x

theorem State.setCounts_refresh_effect (p : Port) (a b c : Nat) :
    Effect [.counts, .lamp, .dirty] [] s
      ((s.setPort p { s.port p with steady := a, slow := b, fast := c }).refreshLamp p) :=
  Effect.refreshing p ((s.setPort_counts_effect p a b c).mono)
    (fun _ hx h => State.lamp_of_setPort _ hx h)

theorem State.handDemand_effect (p : Port) (x y : Pattern) :
    Effect [.counts, .lamp, .dirty] [] s (s.handDemand p x y) := by
  unfold State.handDemand
  split
  · exact Effect.refl s
  · obtain ⟨a, b, c, h⟩ := countDemand_eq false x (s.port p)
    obtain ⟨a', b', c', h'⟩ := countDemand_eq true y (countDemand false x (s.port p))
    rw [h', h]
    exact s.setCounts_refresh_effect p a' b' c'

theorem State.recountLamp_effect (p : Port) : Effect [.counts, .lamp, .dirty] [] s (s.recountLamp p) :=
  s.setCounts_refresh_effect p _ _ _

theorem State.attentionCurrent_refreshAttn : s.refreshAttn.AttentionCurrent := by
  intro p
  have e : s.refreshAttn.attnNow p = s.attnNow p :=
    State.attnNow_congr (by rw [State.refreshAttn_port]) (by simp) (by simp) (by simp)
  rw [e, State.refreshAttn_port]

theorem State.refreshAttn_effect : Effect [.attn] [] s s.refreshAttn := by
  refine Effect.intro [.attention] (fun f hf => ⟨?_, ?_, ?_, fun x => ?_⟩) ?_
  · cases f
    case board => exact fun h => ⟨h.of_same (by simp) (by simp), fun a _ => State.rd_of_ram (by simp) a⟩
    all_goals simp [Field.onCore]
  · rw [s.refreshAttn_frame.2.2]; exact f.onPub_refl _
  · rw [s.refreshAttn_frame.1.2.2.1]; exact f.onStore_refl _
  · rw [State.refreshAttn_port]; cases f <;> simp_all [Field.onPort]
  · simp only [List.mem_singleton, forall_eq]
    exact fun _ => s.attentionCurrent_refreshAttn

theorem State.lampsCurrent_advanceTo {s : State} (t : Nat) (h : s.LampsCurrent) : (s.advanceTo t).LampsCurrent := by
  unfold State.advanceTo
  split
  · intro p
    have hp : State.patternNow ({ s with now := t } : State).drivePins p = s.patternNow p := by
      refine State.patternNow_congr (by simp) ?_ ?_ ?_ ?_ ?_ <;> (rw [State.drivePins_port]; cases p <;> rfl)
    have hs := (h p).1
    rw [hp, State.drivePins_port]
    refine ⟨?_, ?_⟩
    · cases p <;> exact hs
    · rw [(State.drivePins_frame _).1.2.1]
  · exact h

theorem State.advanceTo_effect (t : Nat) : Effect [.now, .lamp] [] s (s.advanceTo t) := by
  refine Effect.intro [.lamps] (fun f hf => ⟨?_, ?_, ?_, fun x => ?_⟩) ?_
  · cases f
    case board => exact fun h => ⟨h.of_same (by simp) (by simp), fun a _ => State.rd_of_ram (by simp) a⟩
    case now => exact absurd (by decide) hf
    all_goals simp [Field.onCore]
  · rw [(s.advanceTo_frame t).2.2.2.2]; exact f.onPub_refl _
  · rw [(s.advanceTo_frame t).2.1]; exact f.onStore_refl _
  · obtain ⟨l, h⟩ := s.advanceTo_port t x
    rw [h]; cases f <;> simp_all [Field.onPort]
  · simp only [List.mem_singleton, forall_eq]
    exact fun h => State.lampsCurrent_advanceTo t h

/-! ### Bytes -/

/-- The bytes of the exchange RAM that show the part's own state: generation, trail fields, cell states, release bytes,
and the unassigned space. -/
def Watched (a : Nat) : Prop :=
  a < 2 ∨ (32 ≤ a ∧ a ≤ 37) ∨ (∃ p, a = Config.cellBase p) ∨ (∃ p, a = Config.releaseAddr p) ∨ 0x1042 ≤ a

/-- What the exchange RAM shows holds on while the watched bytes and what they show stay. -/
theorem State.RamShows.of_watched {s t : State} (h : s.RamShows) (rd : ∀ a, Watched a → t.rd a = s.rd a)
    (hp : t.pub = s.pub) (hc : ∀ p, (t.port p).cell = (s.port p).cell)
    (hr : ∀ p, (t.port p).releases = (s.port p).releases) : t.RamShows := by
  obtain ⟨g, w, r, u, o, c, l, z, k⟩ := h
  have low : ∀ a, a < 2 → t.rd a = s.rd a := fun a ha => rd a (.inl ha)
  have mid : ∀ a, 32 ≤ a → a ≤ 37 → t.rd a = s.rd a := fun a h1 h2 => rd a (.inr (.inl ⟨h1, h2⟩))
  refine ⟨?_, ?_, ?_, ?_, ?_, fun p => ?_, fun p => ?_, fun a ha => ?_, ?_⟩
  · rw [low 0 (by decide), low 1 (by decide), hp]; exact g
  · rw [mid 32 (by decide) (by decide), mid 33 (by decide) (by decide), hp]; exact w
  · rw [mid 34 (by decide) (by decide), mid 35 (by decide) (by decide), hp]; exact r
  · rw [mid 36 (by decide) (by decide), hp]; exact u
  · rw [mid 37 (by decide) (by decide), hp]; exact o
  · rw [rd _ (.inr (.inr (.inl ⟨p, rfl⟩))), hc]; exact c p
  · rw [rd _ (.inr (.inr (.inr (.inl ⟨p, rfl⟩)))), hr]; exact l p
  · rw [rd a (.inr (.inr (.inr (.inr ha))))]; exact z a ha
  · rw [hp]; exact k

/-- A write to bytes that show nothing of the part's own. -/
theorem State.wrBytes_effect (a : Nat) (bs : List Byte) (h : ∀ x, a ≤ x → x < a + bs.length → ¬Watched x) :
    Effect [.ram, .board] [] s (s.wrBytes a bs) := by
  refine Effect.intro [.memories, .ram] (fun f hf => ⟨?_, f.onPub_refl _, f.onStore_refl _, fun x => ?_⟩) ?_
  · cases f <;> simp_all [Field.onCore]
  · rw [State.wrBytes_port]; exact f.onPort_refl _
  · simp only [List.forall_mem_cons, List.not_mem_nil, IsEmpty.forall_iff, implies_true, and_true]
    refine ⟨fun hs => State.MemoriesCanonical.wrBytes hs a bs, fun ⟨hm, hs⟩ => ⟨hm.wrBytes a bs, ?_⟩⟩
    refine hs.of_watched (fun x hx => ?_) rfl (by simp) (by simp)
    rw [State.rd_wrBytes hm, if_neg fun e => h x e.1 e.2 hx]

theorem State.wr_effect (a : Nat) (b : Byte) (h : ¬Watched a) : Effect [.ram, .board] [] s (s.wr a b) :=
  s.wrBytes_effect a [b] fun x h1 h2 => by
    have : x = a := by simp at h2; omega
    rw [this]; exact h

/-! ### The trail -/

theorem State.rd_append_header {s : State} (h : s.MemoriesCanonical) (k : TrailKind) (a b c : Byte) {x : Nat}
    (hx : x < 0x0400) : (s.append k a b c).rd x =
      if x = 36 then byteOf s.pub.appended.unread
      else if x = 32 then byteOf (s.pub.writeCount + 1).toNat
      else if x = 33 then byteOf ((s.pub.writeCount + 1).toNat / 256)
      else s.makeRoom.rd x := by
  have hb := s.ringAddr_bounds
  rw [State.rd_append h]
  have : ¬(s.ringAddr ≤ x ∧ x < s.ringAddr + 8) := by omega
  simp only [this, if_false]

/-- The header shows the counts after an append as it did before (R165, R166). -/
theorem State.ramShows_append {s : State} (hm : s.MemoriesCanonical) (h : s.RamShows) (k : TrailKind) (a b c : Byte) :
    (s.append k a b c).RamShows := by
  have out : ∀ x, (x < 32 ∨ (37 < x ∧ x < 0x0400) ∨ 0x0600 ≤ x) → (s.append k a b c).rd x = s.rd x :=
    fun x hx => State.rd_append_outside hm k a b c hx
  have hdr : ∀ x, x < 0x0400 → _ := fun x hx => State.rd_append_header hm k a b c (x := x) hx
  have cell : ∀ p, 0x0600 ≤ Config.cellBase p := by intro p; cases p <;> decide
  have rel : ∀ p, 0x0600 ≤ Config.releaseAddr p := by intro p; cases p <;> decide
  refine ⟨?_, ?_, ?_, ?_, ?_, fun p => ?_, fun p => ?_, fun x hx => ?_, ?_⟩
  · rw [out 0 (by omega), out 1 (by omega), (s.append_publisher k a b c).2.2.2.2.1]; exact h.generation
  · rw [hdr 32 (by omega), hdr 33 (by omega), (s.append_publisher k a b c).1]
    exact natOf16_word _
  · have h34 : (s.append k a b c).rd 34 = s.makeRoom.rd 34 := hdr 34 (by omega)
    have h35 : (s.append k a b c).rd 35 = s.makeRoom.rd 35 := hdr 35 (by omega)
    rw [h34, h35, State.append_pub, State.rd_makeRoom hm, State.rd_makeRoom hm]
    by_cases e : s.pub.unread = 64
    · simpa [Publisher.appended, e] using natOf16_word (s.pub.readMark + 1)
    · simpa [Publisher.appended, e] using h.readMark
  · rw [hdr 36 (by omega), State.append_pub]; rfl
  · have h37 : (s.append k a b c).rd 37 = s.makeRoom.rd 37 := hdr 37 (by omega)
    rw [h37, State.append_pub, State.rd_makeRoom hm]
    by_cases e : s.pub.unread = 64
    · simp [Publisher.appended, e, flagBit, byteOf]
    · simpa [Publisher.appended, e] using h.overrun
  · rw [out _ (.inr (.inr (cell p))), (s.append_portFields k a b c p).2.2.2.2.2.2.2.2.2.2.2.2.2.2.2.1]; exact h.cells p
  · rw [out _ (.inr (.inr (rel p))), (s.append_portFields k a b c p).2.2.2.2.2.2.1]; exact h.releases p
  · rw [out x (.inr (.inr (by omega)))]; exact h.unassigned x hx
  · rw [(s.append_publisher k a b c).2.2.2.2.2.1]; exact h.passCopy

theorem Publisher.appended_trailLaw {pb : Publisher}
    (h : pb.unread ≤ 64 ∧ (pb.writeCount - pb.readMark).toNat = pb.unread) :
    pb.appended.unread ≤ 64 ∧ (pb.appended.writeCount - pb.appended.readMark).toNat = pb.appended.unread := by
  obtain ⟨hu, he⟩ := h
  unfold Publisher.appended
  split
  · next e =>
    refine ⟨by simp, ?_⟩
    have : pb.writeCount + 1 - (pb.readMark + 1) = pb.writeCount - pb.readMark := by bv_omega
    simp only [this]
    omega
  · next e =>
    refine ⟨show pb.unread + 1 ≤ 64 by omega, ?_⟩
    simp only
    bv_omega

theorem State.TrailLaw.append {s : State} (h : s.TrailLaw) (k : TrailKind) (a b c : Byte) :
    (s.append k a b c).TrailLaw := by
  rw [State.TrailLaw, State.append_pub]
  exact Publisher.appended_trailLaw h

theorem State.append_effect (k : TrailKind) (a b c : Byte) :
    Effect [.ram, .trail, .attn] [] s (s.append k a b c) := by
  refine Effect.intro [.memories, .ram, .trail, .attention] (fun f hf => ⟨?_, ?_, ?_, fun x => ?_⟩) ?_
  · cases f
    case board =>
      exact fun h => ⟨h.append k a b c, fun x hx => State.rd_append_outside h k a b c (.inr (.inr hx))⟩
    case ram => exact absurd (by decide) hf
    all_goals simp [Field.onCore]
  · cases f <;> simp_all [Field.onPub]
  · rw [(s.append_frame k a b c).2.2.1]; exact f.onStore_refl _
  · rw [State.append_port]; cases f <;> simp_all [Field.onPort]
  · simp only [List.forall_mem_cons, List.not_mem_nil, IsEmpty.forall_iff, implies_true, and_true]
    refine ⟨fun h => State.MemoriesCanonical.append h k a b c, fun h => ⟨h.1.append k a b c, ?_⟩, fun h => ?_, fun _ p => ?_⟩
    · exact State.ramShows_append h.1 h.2 k a b c
    · exact State.TrailLaw.append h k a b c
    · rw [State.append_port]

theorem State.appendSlot_effect (k : TrailKind) (i : Slot) (d : Byte) (st : QState) :
    Effect [.ram, .trail, .attn] [] s (s.appendSlot k i d st) := s.append_effect _ _ _ _

theorem State.appendPart_effect (k : TrailKind) (d : Byte) :
    Effect [.ram, .trail, .attn] [] s (s.appendPart k d) := s.append_effect _ _ _ _

/-! ### Releases and the reader -/

/-- The publisher after a release of `n` by the trail reader (R168). -/
def Publisher.released (pb : Publisher) (n : Nat) : Publisher :=
  { pb with
    readMark := pb.readMark + BitVec.ofNat 16 (min n pb.unread), unread := pb.unread - min n pb.unread,
    overrun := pb.overrun && decide (pb.unread - min n pb.unread ≠ 0) }

theorem State.takeRelease_reader (p : Port) (n : Nat) (h : s.pub.reader = p) :
    s.takeRelease p n = ((((({ s with pub := s.pub.released n } : State).wrBytes 34
      (bytes16 (s.pub.released n).readMark.toNat)).wr 36 (byteOf (s.pub.released n).unread)).wr 37
      (byteOf (flagBit (s.pub.released n).overrun 0))).refreshAttn) := by
  subst h
  simp only [State.takeRelease, if_true]
  rfl

theorem State.takeRelease_other (p : Port) (n : Nat) (h : s.pub.reader ≠ p) : s.takeRelease p n = s.refreshAttn := by
  simp only [State.takeRelease, h, if_false]

theorem State.MemoriesCanonical.takeRelease {s : State} (h : s.MemoriesCanonical) (p : Port) (n : Nat) :
    (s.takeRelease p n).MemoriesCanonical := by
  by_cases e : s.pub.reader = p
  · rw [State.takeRelease_reader _ _ _ e]
    have h1 : ({ s with pub := s.pub.released n } : State).MemoriesCanonical := h.of_same rfl rfl
    have h2 := ((h1.wrBytes 34 (bytes16 (s.pub.released n).readMark.toNat)).wr 36 (byteOf (s.pub.released n).unread)).wr
      37 (byteOf (flagBit (s.pub.released n).overrun 0))
    exact h2.of_same (by simp) (by simp)
  · rw [State.takeRelease_other _ _ _ e]
    exact h.of_same (by simp) (by simp)

/-- Reads after a release is taken: read mark, unread count and overrun flag of the reader's (R168). -/
theorem State.rd_takeRelease {s : State} (h : s.MemoriesCanonical) (p : Port) (n x : Nat) :
    (s.takeRelease p n).rd x =
      if s.pub.reader = p then
        if x = 37 then byteOf (flagBit (s.pub.released n).overrun 0)
        else if x = 36 then byteOf (s.pub.released n).unread
        else if x = 34 then byteOf (s.pub.released n).readMark.toNat
        else if x = 35 then byteOf ((s.pub.released n).readMark.toNat / 256)
        else s.rd x
      else s.rd x := by
  by_cases e : s.pub.reader = p
  · have h1 : ({ s with pub := s.pub.released n } : State).MemoriesCanonical := h.of_same rfl rfl
    rw [State.takeRelease_reader _ _ _ e, State.rd_of_ram (State.refreshAttn_frame _).2.1,
      State.rd_wr ((h1.wrBytes _ _).wr _ _), State.rd_wr (h1.wrBytes _ _), State.rd_wrBytes h1, length_bytes16, if_pos e]
    by_cases e34 : x = 34
    · simp [e34, bytes16, byteAt]
    by_cases e35 : x = 35
    · simp [e35, bytes16, byteAt]
    have : ¬(34 ≤ x ∧ x < 34 + 2) := by omega
    simp only [this, e34, e35, if_false]
    rfl
  · rw [State.takeRelease_other _ _ _ e, State.rd_of_ram (State.refreshAttn_frame _).2.1, if_neg e]

theorem State.takeRelease_pub (p : Port) (n : Nat) :
    (s.takeRelease p n).pub = if s.pub.reader = p then s.pub.released n else s.pub := by
  by_cases e : s.pub.reader = p
  · rw [State.takeRelease_reader _ _ _ e, if_pos e]; simp
  · rw [State.takeRelease_other _ _ _ e, if_neg e]; simp

@[simp] theorem State.takeRelease_frame (p : Port) (n : Nat) : InnerKept s (s.takeRelease p n) := by
  obtain ⟨m, pb, x, y, h⟩ := s.takeRelease_only p n
  rw [h]
  simp

theorem State.takeRelease_port (p : Port) (n : Nat) (x : Port) :
    ∃ a, (s.takeRelease p n).port x = { s.port x with attn := a } := by
  obtain ⟨m, pb, a, b, h⟩ := s.takeRelease_only p n
  rw [h]
  cases x
  · exact ⟨a, rfl⟩
  · exact ⟨b, rfl⟩

theorem State.attentionCurrent_takeRelease (p : Port) (n : Nat) : (s.takeRelease p n).AttentionCurrent := by
  unfold State.takeRelease
  split <;> exact State.attentionCurrent_refreshAttn _

theorem Publisher.released_trailLaw {pb : Publisher} (n : Nat)
    (h : pb.unread ≤ 64 ∧ (pb.writeCount - pb.readMark).toNat = pb.unread) :
    (pb.released n).unread ≤ 64 ∧ ((pb.released n).writeCount - (pb.released n).readMark).toNat = (pb.released n).unread := by
  obtain ⟨hu, he⟩ := h
  have hk : min n pb.unread ≤ pb.unread := Nat.min_le_right _ _
  unfold Publisher.released
  generalize min n pb.unread = k at hk
  refine ⟨show pb.unread - k ≤ 64 by omega, ?_⟩
  simp only
  rw [← he] at hk ⊢
  bv_omega

theorem State.TrailLaw.takeRelease {s : State} (h : s.TrailLaw) (p : Port) (n : Nat) : (s.takeRelease p n).TrailLaw := by
  rw [State.TrailLaw, State.takeRelease_pub]
  split
  · exact Publisher.released_trailLaw n h
  · exact h

theorem State.ramShows_takeRelease {s : State} (hm : s.MemoriesCanonical) (h : s.RamShows) (p : Port) (n : Nat) :
    (s.takeRelease p n).RamShows := by
  have port : ∀ q, ((s.takeRelease p n).port q).cell = (s.port q).cell ∧
      ((s.takeRelease p n).port q).releases = (s.port q).releases := by
    intro q
    obtain ⟨a, e⟩ := s.takeRelease_port p n q
    rw [e]
    exact ⟨rfl, rfl⟩
  have out : ∀ x, (x < 34 ∨ 37 < x) → (s.takeRelease p n).rd x = s.rd x := by
    intro x hx
    rw [State.rd_takeRelease hm]
    split_ifs <;> first | omega | rfl
  have cell : ∀ p, 37 < Config.cellBase p := by intro p; cases p <;> decide
  have rel : ∀ p, 37 < Config.releaseAddr p := by intro p; cases p <;> decide
  have pub := s.takeRelease_pub p n
  refine ⟨?_, ?_, ?_, ?_, ?_, fun q => ?_, fun q => ?_, fun x hx => ?_, ?_⟩
  · rw [out 0 (by omega), out 1 (by omega), h.generation, pub]
    split <;> rfl
  · rw [out 32 (by omega), out 33 (by omega), h.writeCount, pub]
    split <;> rfl
  · rw [pub, State.rd_takeRelease hm, State.rd_takeRelease hm]
    split
    · simpa using natOf16_word (s.pub.released n).readMark
    · exact h.readMark
  · rw [pub, State.rd_takeRelease hm]
    split
    · rfl
    · exact h.unread
  · rw [pub, State.rd_takeRelease hm]
    split
    · rfl
    · exact h.overrun
  · rw [out _ (.inr (cell q)), (port q).1]; exact h.cells q
  · rw [out _ (.inr (rel q)), (port q).2]; exact h.releases q
  · rw [out x (.inr (by omega))]; exact h.unassigned x hx
  · intro copy hc
    refine h.passCopy copy ?_
    rw [← hc, pub]
    split <;> rfl

theorem State.takeRelease_effect (p : Port) (n : Nat) : Effect [.ram, .trail, .attn] [] s (s.takeRelease p n) := by
  refine Effect.intro [.memories, .ram, .trail, .attention] (fun f hf => ⟨?_, ?_, ?_, fun x => ?_⟩) ?_
  · cases f
    case board =>
      intro h
      refine ⟨h.takeRelease p n, fun x hx => ?_⟩
      rw [State.rd_takeRelease h]
      split_ifs <;> first | omega | rfl
    case ram => exact absurd (by decide) hf
    all_goals simp [Field.onCore]
  · rw [State.takeRelease_pub]
    split
    · cases f <;> simp_all [Field.onPub, Publisher.released]
    · exact f.onPub_refl _
  · rw [(s.takeRelease_frame p n).2.2.1]; exact f.onStore_refl _
  · obtain ⟨a, e⟩ := s.takeRelease_port p n x
    rw [e]; cases f <;> simp_all [Field.onPort]
  · simp only [List.forall_mem_cons, List.not_mem_nil, IsEmpty.forall_iff, implies_true, and_true]
    exact ⟨fun h => State.MemoriesCanonical.takeRelease h p n,
      fun h => ⟨h.1.takeRelease p n, State.ramShows_takeRelease h.1 h.2 p n⟩,
      fun h => State.TrailLaw.takeRelease h p n, fun _ => s.attentionCurrent_takeRelease p n⟩

/-- A write to bytes of the header that show neither generation nor trail counts. -/
theorem State.wr_header_effect (a : Nat) (b : Byte) (h : 37 < a) (h' : a < 0x0600) :
    Effect [.ram] [] s (s.wr a b) := by
  have hw : ¬Watched a := by
    rintro (h | h | ⟨p, h⟩ | ⟨p, h⟩ | h)
    · omega
    · omega
    · cases p <;> simp only [Config.cellBase] at h <;> omega
    · cases p <;> simp only [Config.releaseAddr] at h <;> omega
    · omega
  have he := s.wr_effect a b hw
  refine ⟨fun f hf => ?_, he.keeps⟩
  by_cases e : f = .board
  · rw [e]
    refine ⟨fun hm => ⟨hm.wr a b, fun x hx => ?_⟩, trivial, trivial, fun _ => trivial⟩
    rw [State.rd_wr hm, if_neg (by omega)]
  · exact he.same f (by simp_all)

theorem State.setReader_effect (r : Port) (n : Nat) : Effect [.ram, .reader, .attn] [] s (s.setReader r n) := by
  let s1 : State := { s with pub := { s.pub with reader := r, threshold := n } }
  have h1 : Effect [.reader] [.attention] s s1 := by
    refine Effect.update s [] (fun k hk => by cases hk) (hpb := fun f hf => ?_)
    cases f <;> simp_all [Field.onPub]
  have h2 := s1.wr_header_effect 38 (byteOf (portCode r)) (by decide) (by decide)
  have h3 := (s1.wr 38 (byteOf (portCode r))).wr_header_effect 39 (byteOf n) (by decide) (by decide)
  have h4 := ((s1.wr 38 (byteOf (portCode r))).wr 39 (byteOf n)).refreshAttn_effect
  have h : Effect [.ram, .reader, .attn] [.attention] s (s.setReader r n) :=
    (((h1.seq h2 (l := [.ram, .reader, .attn])).trans (h3.mono)).trans (h4.mono))
  exact h.repair _ fun _ => State.attentionCurrent_refreshAttn _

/-! ### The silence watch -/

theorem State.setSilenceDue_effect (p : Port) (d : Option Nat) :
    Effect [.silenceDue] [] s (s.setPort p { s.port p with silenceDue := d }) := by
  refine Effect.setPort s p _ [] (fun f hf => ?_) (fun k hk => by cases hk)
  cases f <;> simp_all [Field.onPort]

theorem State.startSilence_effect (p : Port) : Effect [.silenceDue] [] s (s.startSilence p) := by
  obtain ⟨d, h⟩ := s.startSilence_only p
  rw [h]
  exact s.setSilenceDue_effect p d

theorem State.startPassTimer_effect (p : Port) : Effect [.passTimer] [] s (s.startPassTimer p) := by
  obtain ⟨d, h⟩ := s.startPassTimer_only p
  rw [h]
  refine Effect.setPort s p _ [] (fun f hf => ?_) (fun k hk => by cases hk)
  cases f <;> simp_all [Field.onPort]

theorem State.setSilent_effect (p : Port) (b : Bool) (d : Option Nat) :
    Effect [.silent, .silenceDue] [.lamps] s (s.setPort p { s.port p with silent := b, silenceDue := d }) := by
  refine Effect.setPort s p _ [] (fun f hf => ?_) (fun k hk => by cases hk)
  cases f <;> simp_all [Field.onPort]

/-- A lamp is current: it shows what its inputs give (R105, R106). -/
def State.LampCurrent (s : State) (p : Port) : Prop :=
  (s.port p).shown = s.patternNow p ∧ (s.port p).lamp = litAt (s.port p).shown s.now

/-- A lamp stays current while its inputs and outputs are the same. -/
theorem State.LampCurrent.of_effect {s t : State} {l : List Field} {b : List Law} {p : Port} (h : s.LampCurrent p)
    (e : Effect l b s t) (hl : ∀ f ∈ [Field.lamp, .counts, .adoption, .silent, .ride, .now], f ∉ l := by decide) :
    t.LampCurrent p := by
  obtain ⟨hsh, hla⟩ : (t.port p).shown = (s.port p).shown ∧ (t.port p).lamp = (s.port p).lamp :=
    e.onPort p .lamp (hl _ (by decide))
  obtain ⟨h1, h2, h3⟩ : _ ∧ _ ∧ _ := e.onPort p .counts (hl _ (by decide))
  have hp : t.patternNow p = s.patternNow p :=
    State.patternNow_congr (e.ride (hl _ (by decide))) h1 h2 h3 (e.adoption p (hl _ (by decide))).1
      (e.onPort p .silent (hl _ (by decide)))
  rw [State.LampCurrent, hsh, hla, hp, e.now (hl _ (by decide))]
  exact h

/-- What a port's silence event does beside the lamp (R98). -/
theorem State.heard_effect (p : Port) :
    Effect [.silent, .silenceDue, .ram, .trail, .attn, .dirty, .lamp] [] s (s.heard p) := by
  unfold State.heard
  split
  · let s1 := s.setPort p { s.port p with silent := false }
    have h1 : Effect [.silent, .silenceDue] [.lamps] s s1 := s.setSilent_effect p false (s.port p).silenceDue
    have h2 : Effect [.silenceDue, .ram, .trail, .attn, .dirty] [] s1
        ((s1.startSilence p).appendPart .portHeard (byteOf (portCode p))).markView :=
      (((s1.startSilence_effect p).seq (State.appendPart_effect _ _ _)
        (l := [.silenceDue, .ram, .trail, .attn, .dirty]))).trans ((State.markView_effect _).mono)
    refine Effect.refreshing p (h1.seq h2) (fun x hx hs => ?_)
    exact State.LampCurrent.of_effect (State.lamp_of_setPort _ hx hs) h2
  · split
    · exact (s.startSilence_effect p).mono
    · exact Effect.refl s

/-! ### Marks of the record store -/

theorem State.urgentMarked_effect : Effect [.erase] [] s s.urgentMarked := by
  rw [State.urgentMarked_eq]
  refine Effect.setStore s _ (fun f hf => ?_)
  cases f <;> simp_all [Field.onStore]

theorem State.queueLog_effect (it : LogItem) : Effect [.logQueue, .erase] [] s (s.queueLog it) := by
  rw [State.queueLog_eq]
  refine Effect.setStore s _ (fun f hf => ?_)
  cases f <;> simp_all [Field.onStore]

theorem State.markRide_effect : Effect [.marks, .erase] [] s s.markRide := by
  rw [State.markRide_eq]
  refine Effect.setStore s _ (fun f hf => ?_)
  cases f <;> simp_all [Field.onStore]

theorem State.markQualifier_effect : Effect [.marks, .erase] [] s s.markQualifier := by
  rw [State.markQualifier_eq]
  refine Effect.setStore s _ (fun f hf => ?_)
  cases f <;> simp_all [Field.onStore]

theorem State.markRecord_effect (i : Fin 48) (u : Bool) : Effect [.records, .erase, .dirty] [] s (s.markRecord i u) := by
  cases h : s.records[i] with
  | none => exact Effect.of_eq (s.markRecord_none i u h)
  | some r =>
    rw [State.markRecord_some _ _ _ _ h]
    refine Effect.update s [.view] ?_ (hrs := .inl (by decide)) (hst := fun f hf => ?_) (hpb := fun f hf => ?_)
    · simp only [List.mem_singleton, forall_eq]
      exact fun hs => Bool.or_eq_true_iff.mpr (.inl hs)
    · cases f <;> simp_all [Field.onStore]
    · cases f <;> simp_all [Field.onPub]

/-! ### Cells and waiting releases -/

theorem State.MemoriesCanonical.setCell {s : State} (h : s.MemoriesCanonical) (p : Port) (c : CellState) :
    (s.setCell p c).MemoriesCanonical :=
  State.MemoriesCanonical.wr (h.of_same (by simp) (by simp)) _ _

theorem State.rd_setCell {s : State} (h : s.MemoriesCanonical) (p : Port) (c : CellState) (x : Nat) :
    (s.setCell p c).rd x = if x = Config.cellBase p then byteOf (cellCode c) else s.rd x := by
  rw [State.setCell, State.rd_wr (h.of_same (by simp) (by simp)), State.rd_of_ram (s := s) (by simp)]

theorem Config.cellBase_inj {p q : Port} (h : Config.cellBase p = Config.cellBase q) : p = q := by
  cases p <;> cases q <;> first | rfl | exact absurd h (by decide)

theorem Config.releaseAddr_inj {p q : Port} (h : Config.releaseAddr p = Config.releaseAddr q) : p = q := by
  cases p <;> cases q <;> first | rfl | exact absurd h (by decide)

theorem Config.cellBase_ne_releaseAddr (p q : Port) : Config.cellBase p ≠ Config.releaseAddr q := by
  cases p <;> cases q <;> decide

/-- A cell and its state byte change together (R134); the attention line and the executor are another matter. -/
theorem State.setCell_effect (p : Port) (c : CellState) :
    Effect [.ram, .board, .cells] [.attention, .taken] s (s.setCell p c) := by
  refine Effect.intro [.memories, .ram] (fun f hf => ⟨?_, ?_, ?_, fun x => ?_⟩) ?_
  · cases f <;> simp_all [Field.onCore]
  · rw [(s.setCell_frame p c).2]; exact f.onPub_refl _
  · rw [(s.setCell_frame p c).1.2.2.1]; exact f.onStore_refl _
  · rw [State.setCell_port]
    split
    · next e => rw [e]; cases f <;> simp_all [Field.onPort]
    · exact f.onPort_refl _
  · simp only [List.forall_mem_cons, List.not_mem_nil, IsEmpty.forall_iff, implies_true, and_true]
    refine ⟨fun h => State.MemoriesCanonical.setCell h p c, fun ⟨hm, h⟩ => ⟨hm.setCell p c, ?_⟩⟩
    have out : ∀ x, x ≠ Config.cellBase p → (s.setCell p c).rd x = s.rd x := fun x hx => by
      rw [State.rd_setCell hm, if_neg hx]
    have far : ∀ x, x < 64 → (s.setCell p c).rd x = s.rd x := fun x hx => out x (by cases p <;> simp [Config.cellBase] <;> omega)
    have pub : (s.setCell p c).pub = s.pub := (s.setCell_frame p c).2
    refine ⟨?_, ?_, ?_, ?_, ?_, fun q => ?_, fun q => ?_, fun x hx => ?_, ?_⟩
    · rw [far 0 (by decide), far 1 (by decide), pub]; exact h.generation
    · rw [far 32 (by decide), far 33 (by decide), pub]; exact h.writeCount
    · rw [far 34 (by decide), far 35 (by decide), pub]; exact h.readMark
    · rw [far 36 (by decide), pub]; exact h.unread
    · rw [far 37 (by decide), pub]; exact h.overrun
    · rw [State.rd_setCell hm, State.setCell_port]
      by_cases e : q = p
      · simp [e]
      · rw [if_neg fun he => e (Config.cellBase_inj he), if_neg e]
        exact h.cells q
    · rw [out _ (Config.cellBase_ne_releaseAddr p q).symm, State.setCell_port]
      have := h.releases q
      split
      · next e => rw [e] at this ⊢; exact this
      · exact this
    · rw [out x (by cases p <;> simp [Config.cellBase] <;> omega)]; exact h.unassigned x hx
    · rw [pub]; exact h.passCopy

theorem State.offer_effect : Effect [.exec] [] s s.offer := by
  obtain ⟨c, h⟩ := s.offer_only
  rw [h]
  exact Effect.setExec s _ rfl

theorem State.unclaim_effect : Effect [.exec] [] s s.unclaim := Effect.setExec s _ rfl

/-- Of the bytes watched a release byte shows the port's own releases alone. -/
theorem State.ramShows_wr_release {s t : State} (hm : s.MemoriesCanonical) (h : s.RamShows) (p : Port) (b : Byte)
    (rel : List Byte) (ht : t = (s.setPort p { s.port p with releases := rel }).wr (Config.releaseAddr p) b)
    (hb : b = 0 ∨ rel.getLast? = some b) : t.RamShows := by
  have hm' : (s.setPort p { s.port p with releases := rel }).MemoriesCanonical := hm.of_same (by simp) (by simp)
  have rd : ∀ x, t.rd x = if x = Config.releaseAddr p then b else s.rd x := by
    intro x
    rw [ht, State.rd_wr hm', State.rd_of_ram (s := s) (by simp)]
  have far : ∀ x, x < 64 → t.rd x = s.rd x := fun x hx => by
    rw [rd, if_neg (by cases p <;> simp [Config.releaseAddr] <;> omega)]
  have pub : t.pub = s.pub := by rw [ht]; simp
  have port : ∀ q, t.port q = if q = p then { s.port p with releases := rel } else s.port q := by
    intro q
    rw [ht, State.wr_port, State.setPort_port_eq]
  refine ⟨?_, ?_, ?_, ?_, ?_, fun q => ?_, fun q => ?_, fun x hx => ?_, ?_⟩
  · rw [far 0 (by decide), far 1 (by decide), pub]; exact h.generation
  · rw [far 32 (by decide), far 33 (by decide), pub]; exact h.writeCount
  · rw [far 34 (by decide), far 35 (by decide), pub]; exact h.readMark
  · rw [far 36 (by decide), pub]; exact h.unread
  · rw [far 37 (by decide), pub]; exact h.overrun
  · rw [rd, if_neg (Config.cellBase_ne_releaseAddr q p), port]
    have := h.cells q
    split
    · next e => rw [e] at this ⊢; exact this
    · exact this
  · rw [rd, port]
    by_cases e : q = p
    · simpa [e] using hb
    · rw [if_neg fun he => e (Config.releaseAddr_inj he), if_neg e]
      exact h.releases q
  · rw [rd, if_neg (by cases p <;> simp [Config.releaseAddr] <;> omega)]; exact h.unassigned x hx
  · rw [pub]; exact h.passCopy

theorem State.wr_release_effect (p : Port) (b : Byte) (rel : List Byte) (hb : b = 0 ∨ rel.getLast? = some b) :
    Effect [.ram, .board, .releases] [] s
      ((s.setPort p { s.port p with releases := rel }).wr (Config.releaseAddr p) b) := by
  refine Effect.intro [.memories, .ram] (fun f hf => ⟨?_, ?_, ?_, fun x => ?_⟩) ?_
  · cases f <;> simp_all [Field.onCore]
  · simpa using f.onPub_refl _
  · simpa using f.onStore_refl _
  · rw [State.wr_port, State.setPort_port_eq]
    split
    · next e => rw [e]; cases f <;> simp_all [Field.onPort]
    · exact f.onPort_refl _
  · simp only [List.forall_mem_cons, List.not_mem_nil, IsEmpty.forall_iff, implies_true, and_true]
    have wf : s.MemoriesCanonical →
        ((s.setPort p { s.port p with releases := rel }).wr (Config.releaseAddr p) b).MemoriesCanonical :=
      fun h => State.MemoriesCanonical.wr (h.of_same (by simp) (by simp)) _ _
    exact ⟨wf, fun h => ⟨wf h.1, State.ramShows_wr_release h.1 h.2 p b rel rfl hb⟩⟩

theorem State.raiseRelease_effect (p : Port) (n : Byte) : Effect [.ram, .board, .releases] [] s (s.raiseRelease p n) :=
  s.wr_release_effect p n _ (.inr (by simp))

end

/-- The publisher's take of a release and its write-back to 0 commute with the port's list (R168). -/
theorem State.takeOldest_cons (s : State) (p : Port) (n : Byte) (rest : List Byte) (h : (s.port p).releases = n :: rest) :
    s.takeOldest p =
      ((s.setPort p { s.port p with releases := rest }).takeRelease p n.toNat).wr (Config.releaseAddr p) 0 := by
  simp only [State.takeOldest, h]

theorem State.takeOldest_nil (s : State) (p : Port) (h : (s.port p).releases = []) : s.takeOldest p = s := by
  simp only [State.takeOldest, h]

theorem State.takeRelease_setPort_releases (s : State) (p : Port) (n : Nat) (rel : List Byte) :
    (s.setPort p { s.port p with releases := rel }).takeRelease p n =
      (s.takeRelease p n).setPort p { (s.takeRelease p n).port p with releases := rel } := by
  unfold State.takeRelease
  cases p <;> (simp only [State.setPort_pub]; split <;> rfl)

theorem State.takeOldest_effect (s : State) (p : Port) :
    Effect [.ram, .board, .releases, .trail, .attn] [] s (s.takeOldest p) := by
  cases h : (s.port p).releases with
  | nil => exact Effect.of_eq (s.takeOldest_nil p h)
  | cons n rest =>
    rw [s.takeOldest_cons p n rest h, State.takeRelease_setPort_releases]
    exact (s.takeRelease_effect p n.toNat).seq ((s.takeRelease p n.toNat).wr_release_effect p 0 rest (.inl rfl))

theorem State.takeReleases_effect (s : State) (p : Port) (n : Nat) :
    Effect [.ram, .board, .releases, .trail, .attn] [] s (s.takeReleases p n) := by
  unfold State.takeReleases
  generalize (s.port p).releases.take n = l
  induction l generalizing s with
  | nil => exact Effect.refl s
  | cons x rest ih => exact (s.takeOldest_effect p).trans (ih (s.takeOldest p))

end Sys2Proof.Machine
end

