-- ==== Sys2Proof/Proofs/Engine.lean ====
section
/-!
PROOFS. The effects of qualification, record table, snapshot unit, accounting and clears: what the engine of chapters 2 to 5
can reach, and that it keeps every law but those of records and frames.
-/

-- Proofs in the order of the text: those that elaborate default tactic arguments at once wait for each other.
set_option Elab.async false

namespace Sys2Proof.Machine

/-- The fields the engine reaches: the trail, qualifiers, records and frames, the lamp demands, the declined count, and of the
store its queues and marks. -/
abbrev engineFields : List Field :=
  [.ram, .trail, .attn, .dirty, .quals, .records, .frames, .counts, .lamp, .declined, .logQueue, .retQueue, .program, .erase]

section

variable (s : State)

/-! ### The record table -/

theorem State.withdrawRedo_effect (i : Fin 48) : Effect [.program] [] s (s.withdrawRedo i) := by
  have upd : ∀ p, Effect [.program] [] s { s with store := { s.store with program := p } } := fun p =>
    Effect.setStore s _ (fun f hf => by cases f <;> simp_all [Field.onStore])
  unfold State.withdrawRedo
  split
  · split
    · split
      · exact upd _
      · exact Effect.refl s
    all_goals exact Effect.refl s
  all_goals exact Effect.refl s

/-- A change of a qualifier's unrecorded flag keeps its ranges. -/
theorem State.setUnrecorded_effect (i : Slot) (b : Bool) :
    Effect [.quals] [] s (s.setQual i { s.quals[i] with unrecorded := b }) :=
  Effect.setQual s i _ fun h => h

theorem State.allocate_effect (e : Fin 48) (i : Slot) (st : QState) :
    Effect [.records, .quals, .dirty, .erase] [] s (s.allocate e i st) := by
  unfold State.allocate
  simp only
  have h1 := Effect.setRecord s e (some (newRecord i st (s.classOf i) s.ride.number))
  generalize s.setRecord e _ = s1 at h1 ⊢
  have h2 : Effect [.records, .quals, .dirty, .erase] [] s (s1.setQual i { s1.quals[i] with unrecorded := false }).markView :=
    (h1.seq (s1.setUnrecorded_effect i false)).trans ((State.markView_effect _).mono)
  split
  · exact h2.trans ((State.markRecord_effect _ _ _).mono)
  · exact h2

theorem State.emptyEntry_effect (e : Fin 48) : Effect [.program, .records, .dirty] [] s (s.emptyEntry e) :=
  ((s.withdrawRedo_effect e).seq (Effect.setRecord _ e none)).trans ((State.markView_effect _).mono)

theorem State.evict_effect (e : Fin 48) (v : Record) :
    Effect [.logQueue, .erase, .quals, .ram, .trail, .attn, .program, .records, .dirty] [] s (s.evict e v) := by
  unfold State.evict
  simp only
  have h1 : Effect [.logQueue, .erase] [] s (if v.persisted then s.queueLog (.release v.slot) else s) := by
    split
    · exact s.queueLog_effect _
    · exact Effect.refl s
  generalize (if v.persisted then s.queueLog (.release v.slot) else s) = s1 at h1 ⊢
  have h2 := s1.setUnrecorded_effect v.slot true
  exact ((h1.seq h2 (l := [.logQueue, .erase, .quals, .ram, .trail, .attn, .program, .records, .dirty])).trans
    ((State.appendSlot_effect _ _ _ _ _).mono)).trans ((State.emptyEntry_effect _ _).mono)

theorem State.setDeclined_effect (p : Port) (n : Nat) :
    Effect [.declined] [] s (s.setPort p { s.port p with declined := n }) := by
  refine Effect.setPort s p _ [] (fun f hf => ?_) (fun k hk => by cases hk)
  cases f <;> simp_all [Field.onPort]

theorem State.decline_effect (i : Slot) (st : QState) :
    Effect [.quals, .declined, .ram, .trail, .attn, .dirty] [] s (s.decline i st) := by
  unfold State.decline
  simp only
  exact (((s.setUnrecorded_effect i true).seq (State.setDeclined_effect _ _ _)
    (l := [.quals, .declined, .ram, .trail, .attn, .dirty])).trans
    ((State.appendSlot_effect _ _ _ _ _).mono)).trans ((State.markView_effect _).mono)

theorem State.requestRecord_effect (i : Slot) (st : QState) : Effect
    [.logQueue, .erase, .quals, .ram, .trail, .attn, .program, .records, .dirty, .declined] [] s (s.requestRecord i st) := by
  unfold State.requestRecord
  split
  · exact (s.allocate_effect _ i st).mono
  · split
    · split
      · exact (s.evict_effect _ _).seq (State.allocate_effect _ _ i st)
      · exact (s.decline_effect i st).mono
    · exact (s.decline_effect i st).mono

theorem State.freeRecord_effect (e : Fin 48) (r : Record) (b : Bool) :
    Effect [.program, .records, .dirty, .logQueue, .erase] [] s (s.freeRecord e r b) := by
  unfold State.freeRecord
  simp only
  split
  · exact (s.emptyEntry_effect e).seq (State.queueLog_effect _ _)
  · exact (s.emptyEntry_effect e).mono

theorem State.notice_effect (e : Fin 48) (r : Record) (m : NoticeMark) :
    Effect [.records, .erase, .dirty] [] s (s.notice e r m) := by
  have h : Effect [.records, .erase, .dirty] [] s (s.setRecord e (some r)).markView :=
    (Effect.setRecord s e (some r)).seq (State.markView_effect _)
  unfold State.notice
  cases m with
  | none => exact h
  | ordinary => exact h.trans (State.markRecord_effect _ _ _)
  | byClass => exact h.trans (State.markRecord_effect _ _ _)

theorem State.updateClass_effect (i : Slot) (c : Fin 4) : Effect [.records, .erase, .dirty] [] s (s.updateClass i c) := by
  unfold State.updateClass
  split
  · exact Effect.refl s
  · next e r _ =>
    split
    · exact Effect.refl s
    · have h : Effect [.records, .erase, .dirty] [] s (s.setRecord e (some { r with cls := c })).markView :=
        (Effect.setRecord s e _).seq (State.markView_effect _)
      simp only
      split
      · exact h
      · exact h.trans (State.markRecord_effect _ _ _)

/-! ### The snapshot unit -/

theorem State.bindFrame_effect (e : Fin 48) (r : Record) (k : FrameKind) (f : Fin 64) (x : Frame) :
    Effect [.frames, .records, .dirty] [] s (s.bindFrame e r k f x) :=
  ((Effect.setFrames s _).seq (Effect.setRecord _ e _)).trans ((State.markView_effect _).mono)

theorem State.lend_effect (j : Fin 48) (l : Record) : Effect [.records, .erase, .dirty] [] s (s.lend j l) :=
  (Effect.setRecord s j _).seq (State.markRecord_effect _ _ _)

theorem State.captureFor_effect (e : Fin 48) (rec : Record) (r : Report) (k : FrameKind) :
    Effect [.frames, .records, .erase, .dirty] [] s (s.captureFor e rec r k) := by
  unfold State.captureFor
  simp only
  split
  · exact (Effect.setFrames s _).mono
  · split
    · exact (s.bindFrame_effect _ _ _ _ _).mono
    · split
      · split
        · exact (s.lend_effect _ _).seq (State.bindFrame_effect _ _ _ _ _ _)
        · exact Effect.refl s
      · exact Effect.refl s

theorem State.capture_effect (r : Report) (k : FrameKind) :
    Effect [.frames, .records, .erase, .dirty] [] s (s.capture r k) := by
  unfold State.capture
  split
  · exact s.captureFor_effect _ _ _ _
  · exact Effect.refl s

/-! ### Transitions -/

theorem State.requestRetained_effect (i : Slot) (n : Nat) (f : Option Frame) :
    Effect [.retQueue, .erase] [] s (s.requestRetained i n f) := by
  unfold State.requestRetained
  split
  · refine Effect.seq (l₁ := [.retQueue]) (b₁ := []) ?_ (State.urgentMarked_effect _)
    refine Effect.setStore s _ (fun f hf => ?_)
    cases f <;> simp_all [Field.onStore]
  · exact Effect.refl s

theorem State.enter_effect (i : Slot) (st : QState) : Effect [.quals, .dirty] [] s (s.enter i st) :=
  (Effect.setQual s i { s.quals[i] with state := st, fade := 0, forget := 0 }
    fun h => ⟨h.1, h.2.1, Nat.zero_le _, Nat.zero_le _⟩).seq (State.markView_effect _)

theorem State.announce_effect (i : Slot) (k : TrailKind) (d : Byte) (old new : QState) :
    Effect [.ram, .trail, .attn, .counts, .lamp, .dirty] [] s (s.announce i k d old new) :=
  ((s.appendSlot_effect k i d new).seq (State.handDemand_effect _ _ _ _)).trans ((State.markView_effect _).mono)

theorem State.toPending_effect (r : Report) : Effect engineFields [] s (s.toPending r) :=
  (((s.enter_effect _ _).seq (State.requestRecord_effect _ _ _)).trans ((State.capture_effect _ _ _).mono)).trans
    ((State.announce_effect _ _ _ _ _ _).mono)

theorem State.confirmRecord_effect (r : Report) (f : Record → Record) : Effect
    [.logQueue, .erase, .quals, .ram, .trail, .attn, .program, .records, .dirty, .declined, .frames] [] s
    (s.confirmRecord r f) := by
  unfold State.confirmRecord
  split
  · exact (s.notice_effect _ _ _).seq (State.capture_effect _ _ _)
  · exact ((s.requestRecord_effect _ _).seq (State.capture_effect _ _ _)).trans ((State.capture_effect _ _ _).mono)

theorem State.toConfirmed_effect (r : Report) : Effect engineFields [] s (s.toConfirmed r) := by
  unfold State.toConfirmed
  simp only
  have h1 : Effect engineFields [] s ((s.enter r.slot .confirmed).confirmRecord r (confirmNotice s.ride.number)) :=
    (s.enter_effect _ _).seq (State.confirmRecord_effect _ _ _)
  refine Effect.trans ?_ ((State.announce_effect _ _ _ _ _ _).mono)
  split
  · exact h1.trans ((State.requestRetained_effect _ _ _ _).mono)
  · exact h1

theorem State.dropPending_effect (r : Report) : Effect engineFields [] s (s.dropPending r) := by
  unfold State.dropPending
  simp only
  have h1 := s.enter_effect r.slot .idle
  generalize s.enter r.slot .idle = s1 at h1 ⊢
  have h2 : Effect engineFields [] s (s1.setQual r.slot { s1.quals[r.slot] with unrecorded := false }) :=
    h1.seq (s1.setUnrecorded_effect _ _)
  generalize s1.setQual r.slot _ = s2 at h2 ⊢
  refine Effect.trans ?_ ((State.announce_effect _ _ _ _ _ _).mono)
  split
  · exact h2.trans ((s2.freeRecord_effect _ _ _).mono)
  · exact h2

theorem State.toFading_effect (r : Report) : Effect engineFields [] s (s.toFading r) := by
  unfold State.toFading
  simp only
  have h1 := s.enter_effect r.slot .fading
  generalize s.enter r.slot .fading = s1 at h1 ⊢
  refine Effect.trans ?_ ((State.announce_effect _ _ _ _ _ _).mono)
  split
  · exact h1.seq (s1.notice_effect _ _ _)
  · exact h1.mono

theorem State.recur_effect (r : Report) (old : QState) : Effect engineFields [] s (s.recur r old) :=
  ((s.enter_effect _ _).seq (State.confirmRecord_effect _ _ _)).trans ((State.announce_effect _ _ _ _ _ _).mono)

theorem State.judge_effect (r : Report) : Effect engineFields [] s (s.judge r) := by
  unfold State.judge
  simp only
  split
  · split
    · exact s.toPending_effect r
    · exact Effect.refl s
  · split
    · exact s.toConfirmed_effect r
    · split
      · exact s.dropPending_effect r
      · exact Effect.refl s
  · split
    · exact s.toFading_effect r
    · exact Effect.refl s
  all_goals
    split
    · exact s.recur_effect r _
    · exact Effect.refl s

theorem Qualifier.InRange.matured {q : Qualifier} (h : q.InRange) (pr : Profile) (r : Report) :
    (matured pr r q).InRange := by
  refine ⟨?_, ?_, h.2.2.1, h.2.2.2⟩ <;>
  · rw [matured_m, newM, clampM_eq]
    omega

theorem State.applyReport_effect (r : Report) : Effect engineFields [] s (s.applyReport r) := by
  unfold State.applyReport
  split
  · exact Effect.refl s
  · next pr _ =>
    have h1 : Effect engineFields [] s (s.setQual r.slot (matured pr r s.quals[r.slot])) :=
      (Effect.setQual s _ _ fun h => h.matured pr r).mono
    exact ((h1.trans ((State.markViewIf_effect _ _).mono)).trans (State.judge_effect _ _)).trans (State.judge_effect _ _)

/-! ### Visits -/

theorem State.holdSample_effect (i : Slot) : Effect [.slots, .ram, .trail, .attn, .dirty] [] s (s.holdSample i) := by
  unfold State.holdSample
  simp only
  split
  · exact Effect.refl s
  · next hb =>
    split
    · next hh =>
      refine (Effect.setSlot s i _ fun h => ⟨?_, ?_⟩).mono
      · simp only; omega
      · exact ⟨fun h' => absurd h' hb, fun h' => by simp only at h'; omega⟩
    · refine Effect.trans (Effect.seq (Effect.setSlot s i _ fun h => ⟨by simp, by simp⟩) (State.appendSlot_effect _ _ _ _ _))
        ((State.markView_effect _).mono)

theorem State.setSlot_any_effect (i : Slot) (e : SlotEngine) : Effect [.slots] [.bar] s (s.setSlot i e) :=
  Effect.update s [] (fun k hk => by cases hk) (he := .inl (by decide))

/-- An accepted sample puts the slot's engine state right at once: the bar is lifted with the held count (R12, R13). -/
theorem State.liftBar_effect (s : State) (i : Slot) :
    Effect [.slots, .ram, .trail, .attn, .dirty] [.bar] s (s.liftBar i) := by
  unfold State.liftBar
  split
  · have h1 := s.setSlot_any_effect i { s.slots[i] with barred := false }
    exact ((h1.mono (l' := [.slots, .ram, .trail, .attn, .dirty])).trans ((State.appendSlot_effect _ _ _ _ _).mono)).trans
      ((State.markView_effect _).mono)
  · exact Effect.refl s

end

end Sys2Proof.Machine
end

