-- ==== Sys2Proof/Proofs/Clears.lean ====
section
/-!
PROOFS. The effects of accepted samples and passes, of rebases and clears, of the ride-end accounting, and of the work ADOPT
does on its slots.
-/

-- Proofs in the order of the text: those that elaborate default tactic arguments at once wait for each other.
set_option Elab.async false

namespace Sys2Proof.Machine

section

variable (s : State)

theorem State.liftBar_slots (i : Slot) :
    (s.liftBar i).slots = s.slots.set i { s.slots[i] with barred := false } := by
  unfold State.liftBar
  split
  · simp [State.appendSlot]
  · next h =>
    have e : ({ s.slots[i] with barred := false } : SlotEngine) = s.slots[i] := by
      cases hs : s.slots[i]
      simp_all
    rw [e, Fin.getElem_fin, Vector.set_getElem_self]

/-- The engine state an accepted sample leaves of its slot (R12, R13). -/
def acceptedEngine (x : Sample) : SlotEngine :=
  { touched := false, held := 0, barred := false, seenPass := x.pass, seenFail := x.fail }

/-- The first part of an accepted sample, in every band (R12, R13). -/
def State.bringForward (i : Slot) (x : Sample) (s : State) : State :=
  (s.setSlot i { s.slots[i] with seenFail := x.fail, seenPass := x.pass, held := 0, touched := false }).liftBar i

theorem State.bringForward_slots (i : Slot) (x : Sample) :
    (s.bringForward i x).slots = s.slots.set i (acceptedEngine x) := by
  rw [State.bringForward, State.liftBar_slots, State.setSlot_slots]
  simp [acceptedEngine]

theorem State.bringForward_effect (i : Slot) (x : Sample) :
    Effect [.slots, .ram, .trail, .attn, .dirty] [] s (s.bringForward i x) := by
  refine Effect.repair .bar (Effect.seq (s.setSlot_any_effect i _) (State.liftBar_effect _ i)) fun hs j => ?_
  rw [State.bringForward_slots, State.slots_set_get]
  split
  · exact ⟨Nat.zero_le _, by simp [acceptedEngine]⟩
  · exact hs j

/-- The report an accepted sample makes (R14, R17). -/
def State.reportOf (s : State) (i : Slot) (x : Sample) : Report :=
  { slot := i, f := tallyDelta x.fail s.slots[i].seenFail, p := tallyDelta x.pass s.slots[i].seenPass,
    band := x.band.toNat % 4, detail := x.detail, context := wordOf x.ctxLo x.ctxHi }

theorem State.acceptSample_eq (i : Slot) (x : Sample) :
    s.acceptSample i x =
      if x.band.toNat % 4 = 3 then s.bringForward i x else (s.bringForward i x).applyReport (s.reportOf i x) := rfl

theorem State.acceptSample_effect (i : Slot) (x : Sample) :
    Effect (.slots :: engineFields) [] s (s.acceptSample i x) := by
  rw [State.acceptSample_eq]
  split
  · exact (s.bringForward_effect i x).mono
  · exact (s.bringForward_effect i x).seq (State.applyReport_effect _ _)

theorem State.visit_effect (i : Slot) : Effect (.slots :: engineFields) [] s (s.visit i) := by
  unfold State.visit
  simp only
  split
  · split
    · exact s.acceptSample_effect i _
    · exact (s.holdSample_effect i).mono
  · exact (Effect.setSlot s i { s.slots[i] with touched := false } fun h => h).mono

theorem State.setPass_effect (p : Port) (x : Option Nat) (o : Bool) :
    Effect [.passes] [] s (s.setPort p { s.port p with passPos := x, owed := o }) := by
  refine Effect.setPort s p _ [] (fun f hf => ?_) (fun k hk => by cases hk)
  cases f <;> simp_all [Field.onPort]

theorem State.passFrom_effect (p : Port) (pos : Nat) : Effect [.passes] [] s (s.passFrom p pos) := by
  obtain ⟨x, o, h⟩ := s.passFrom_only p pos
  rw [h]
  exact s.setPass_effect p x o

theorem State.settlePass_effect (p : Port) : Effect [.passes] [] s (s.settlePass p) := by
  unfold State.settlePass
  split
  · exact s.passFrom_effect p _
  · exact Effect.refl s

/-! ### Rebase, clears and the accounting -/

theorem State.rebase_effect (i : Slot) : Effect [.slots, .dirty] [] s (s.rebase i) :=
  (Effect.setSlot s i (s.rebased i) fun _ => ⟨Nat.zero_le _, by simp [State.rebased]⟩).seq (State.markViewIf_effect _ _)

theorem Qualifier.inRange_reset : Qualifier.reset.InRange := ⟨by decide, by decide, by decide, by decide⟩

theorem State.clearQual_effect (i : Slot) (d : Pattern) : Effect
    [.quals, .program, .records, .dirty, .logQueue, .erase, .counts, .lamp] [] s (s.clearQual i d) := by
  unfold State.clearQual
  simp only
  have h1 := Effect.setQual s i Qualifier.reset fun _ => Qualifier.inRange_reset
  generalize s.setQual i Qualifier.reset = s1 at h1 ⊢
  refine Effect.trans (Effect.trans ?_ ((State.handDemand_effect _ _ _ _).mono)) ((State.markView_effect _).mono)
  split
  · exact h1.seq (s1.freeRecord_effect _ _ _)
  · exact h1.mono

theorem State.clearOne_effect (i : Slot) : Effect
    [.quals, .program, .records, .dirty, .logQueue, .erase, .counts, .lamp, .slots, .passes] [] s (s.clearOne i) :=
  ((s.clearQual_effect i _).seq (State.rebase_effect _ i)).trans ((State.settlePass_effect _ _).mono)

theorem State.tellClear_effect (i : Slot) (m : Int) :
    Effect [.ram, .trail, .attn, .logQueue, .erase] [] s (s.tellClear i m) :=
  (s.appendSlot_effect _ _ _ _).seq (State.queueLog_effect _ _)

theorem State.setCounts_effect (i : Slot) (a b : Nat) (h : s.quals[i].InRange → a ≤ 15 ∧ b ≤ 255) :
    Effect [.quals, .records, .erase, .dirty] [] s (s.setCounts i a b) := by
  unfold State.setCounts
  simp only
  split
  · exact Effect.refl s
  · have h1 := Effect.setQual s i { s.quals[i] with fade := a, forget := b }
      fun hr => ⟨hr.1, hr.2.1, (h hr).1, (h hr).2⟩
    generalize s.setQual i _ = s1 at h1 ⊢
    split
    · exact h1.seq (s1.notice_effect _ _ _)
    · exact h1.mono

theorem State.toHistoric_effect (i : Slot) (a : Nat) (h : a ≤ 15) : Effect engineFields [] s (s.toHistoric i a) := by
  unfold State.toHistoric
  simp only
  have h1 : Effect [.quals, .dirty] [] s
      (s.setQual i { s.quals[i] with state := .historic, fade := a, forget := 0 }).markView :=
    (Effect.setQual s i { s.quals[i] with state := .historic, fade := a, forget := 0 }
      fun hr => ⟨hr.1, hr.2.1, h, Nat.zero_le _⟩).seq (State.markView_effect _)
  generalize State.markView _ = s1 at h1 ⊢
  refine Effect.trans ?_ ((State.announce_effect _ _ _ _ _ _).mono)
  split
  · exact h1.seq (s1.notice_effect _ _ _)
  · exact h1.mono

theorem State.forget_effect (i : Slot) : Effect engineFields [] s (s.forget i) := by
  unfold State.forget
  simp only
  have h1 : Effect [.quals, .dirty] [] s
      (s.setQual i { s.quals[i] with state := .idle, m := 0, fade := 0, forget := 0, unrecorded := false }).markView :=
    (Effect.setQual s i { s.quals[i] with state := .idle, m := 0, fade := 0, forget := 0, unrecorded := false }
      fun _ => ⟨by simp, by simp, Nat.zero_le _, Nat.zero_le _⟩).seq (State.markView_effect _)
  generalize State.markView _ = s1 at h1 ⊢
  have h2 : Effect engineFields [] s (match s1.recordOf i with
      | some (e, r) => s1.freeRecord e r (decide (s.quals[i].state = .historic))
      | none => s1) := by
    split
    · exact h1.seq (s1.freeRecord_effect _ _ _)
    · exact h1.mono
  split
  · exact h2.trans ((State.announce_effect _ _ _ _ _ _).mono)
  · exact h2.trans ((State.announce_effect _ _ _ _ _ _).mono)

theorem forgetAfter_le (b : Bool) (n : Nat) : forgetAfter b n ≤ 255 := by
  unfold forgetAfter
  split <;> omega

theorem State.accountSlot_effect (i : Slot) : Effect engineFields [] s (s.accountSlot i) := by
  unfold State.accountSlot
  simp only
  split
  · exact Effect.refl s
  · split
    · exact Effect.refl s
    · exact (s.setCounts_effect i _ _ fun h => ⟨Nat.zero_le _, h.2.2.2⟩).mono
    · split
      · exact (s.setCounts_effect i _ _ fun h => ⟨Nat.zero_le _, h.2.2.2⟩).mono
      · split
        · split
          · exact s.toHistoric_effect i _ (Nat.min_le_left _ _)
          · exact (s.setCounts_effect i _ _ fun h => ⟨Nat.min_le_left _ _, h.2.2.2⟩).mono
        · exact Effect.refl s
    all_goals
      split
      · exact s.forget_effect i
      · exact (s.setCounts_effect i _ _ fun h => ⟨h.2.2.1, forgetAfter_le _ _⟩).mono

end

/-- What every step of a fold does, the fold does. -/
theorem Effect.foldl {l : List Field} {b : List Law} {α : Type} (f : State → α → State)
    (h : ∀ s a, Effect l b s (f s a)) (xs : List α) (s : State) : Effect l b s (xs.foldl f s) := by
  induction xs generalizing s with
  | nil => exact Effect.refl s
  | cons x xs ih => exact (h s x).trans (ih (f s x))

section

variable (s : State)

theorem State.accountAll_effect : Effect engineFields [] s s.accountAll :=
  Effect.foldl _ (fun t i => t.accountSlot_effect i) _ s

/-- Of ADOPT's new copy no law speaks: a lamp sees only whether its port has adopted (R104). -/
theorem State.replaceCopy_effect (p : Port) : Effect [.profiles, .adoption, .dirty] [] s (s.replaceCopy p) := by
  unfold State.replaceCopy
  simp only
  generalize Vector.ofFn _ = fresh
  let s1 : State := { s with profiles := fresh }
  have h1 : Effect [.profiles] [] s s1 := Effect.update s [] (fun k hk => by cases hk) (hprs := .inl (by decide))
  have h2 : Effect [.adoption] [] s1 (s1.setPort p { s.port p with copy := some (s.liveCopy p) }) := by
    refine Effect.repair .lamps (Effect.setPort s1 p _ [] (fun f hf => ?_) (fun k hk => by cases hk)) fun hs x => ?_
    · cases f <;> cases p <;> simp_all [Field.onPort, State.port, s1]
    · have e := hs x
      cases p <;> cases x <;> exact e
  exact (h1.seq h2 (l := [.profiles, .adoption, .dirty])).trans ((State.markViewIf_effect _ _).mono)

theorem State.adoptClear_effect (i : Slot) (d : Pattern) : Effect
    [.quals, .program, .records, .dirty, .logQueue, .erase, .counts, .lamp, .ram, .trail, .attn] [] s (s.adoptClear i d) :=
  ((s.clearQual_effect i d).seq (State.appendSlot_effect _ _ _ _ _)).trans ((State.queueLog_effect _ _).mono)

theorem State.adoptSlot_effect (old : State) (i : Slot) (acc : State × Nat) :
    Effect (.slots :: engineFields) [] acc.1 (old.adoptSlot i acc).1 := by
  unfold State.adoptSlot
  simp only
  have h1 := acc.1.rebase_effect i
  generalize acc.1.rebase i = s1 at h1 ⊢
  split
  · exact (h1.seq (s1.adoptClear_effect i _)).trans ((State.updateClass_effect _ _ _).mono)
  · exact h1.seq (s1.updateClass_effect i _)

theorem State.adoptSlots_effect (p : Port) :
    Effect (.slots :: .profiles :: .adoption :: .passes :: engineFields) [] s (s.adoptSlots p).1 := by
  have fold : ∀ (l : List Slot) (acc : State × Nat), Effect (.slots :: engineFields) [] acc.1
      (l.foldl (fun acc i => s.adoptSlot i acc) acc).1 := by
    intro l
    induction l with
    | nil => exact fun acc => Effect.refl _
    | cons i l ih => exact fun acc => (s.adoptSlot_effect i acc).trans (ih _)
  exact ((s.replaceCopy_effect p).seq (fold _ (s.replaceCopy p, 0))).trans ((State.settlePass_effect _ p).mono)

end

end Sys2Proof.Machine
end

