-- ==== Sys2Proof/Proofs/Blocks.lean ====
section
/-!
PROOFS. The effects of the blocks around the engine: executor and cells, the record store, the ride controller, the publisher
and the port interface.
-/

-- Proofs in the order of the text: those that elaborate default tactic arguments at once wait for each other.
set_option Elab.async false

namespace Sys2Proof.Machine

section

variable (s : State)

/-! ### The executor -/

/-- A completion frees the executor of the request it holds: no cell is TAKEN afterwards (R135, R139). -/
theorem State.complete_effect (p : Port) (st : Status) (a : List Byte) (h : s.exec.taken.map Taken.port = some p) :
    Effect [.ram, .board, .cells, .exec, .attn] [] s (s.complete p st a) := by
  have unwatched : ∀ x, Config.cellBase p + 2 ≤ x → x < Config.cellBase p + 64 → ¬Watched x := by
    rintro x h1 h2 (h | h | ⟨q, h⟩ | ⟨q, h⟩ | h)
    · cases p <;> simp only [Config.cellBase] at h1 h2 <;> omega
    · cases p <;> simp only [Config.cellBase] at h1 h2 <;> omega
    · cases p <;> cases q <;> simp only [Config.cellBase] at h h1 h2 <;> omega
    · cases p <;> cases q <;> simp only [Config.cellBase, Config.releaseAddr] at h h1 h2 <;> omega
    · cases p <;> simp only [Config.cellBase] at h1 h2 <;> omega
  unfold State.complete
  simp only
  have h1 : Effect [.ram, .board] [] s (((s.wr (Config.cellBase p + 2) (byteOf (statusCode st))).wr
      (Config.cellBase p + 3) (byteOf (answerFor st a).length)).wrBytes (Config.cellBase p + 16)
      (paddedAnswer (answerFor st a))) := by
    refine ((s.wr_effect _ _ (unwatched _ (by omega) (by omega))).trans
      (State.wr_effect _ _ _ (unwatched _ (by omega) (by omega)))).trans (State.wrBytes_effect _ _ _ fun x hx hx' => ?_)
    have hl : (paddedAnswer (answerFor st a)).length = 48 := by simp [paddedAnswer]
    exact unwatched x (by omega) (by omega)
  generalize State.wrBytes _ _ _ = s1 at h1 ⊢
  let s2 := s1.setCell p .answered
  let s3 : State := { s2 with exec := { s2.exec with taken := none } }
  have h2 : Effect [.ram, .board, .cells] [.attention, .taken] s1 s2 := s1.setCell_effect p .answered
  have h3 : Effect [.exec] [.taken] s2 s3 := Effect.update _ [] (fun k hk => by cases hk) (hx := .inl (by decide))
  have h13 : Effect [.ram, .board, .cells, .exec, .attn] [.attention, .taken] s s3 :=
    (h1.seq h2 (l := [.ram, .board, .cells, .exec, .attn]) (b := [.attention, .taken])).trans h3.mono
  have h4 : Effect [.ram, .board, .cells, .exec, .attn] [.taken] s s3.refreshAttn :=
    (h13.trans (s3.refreshAttn_effect.mono)).repair .attention fun _ => State.attentionCurrent_refreshAttn _
  refine (h4.repair .taken fun hs q => ?_).trans ((State.offer_effect _).mono)
  have hc : (s3.refreshAttn.port q).cell = if q = p then .answered else (s.port q).cell := by
    have e : (s2.port q).cell = if q = p then .answered else (s.port q).cell := by
      rw [State.setCell_port]
      split
      · rfl
      · exact h1.cell q
    rw [State.refreshAttn_port]
    cases q <;> exact e
  have hx : s3.refreshAttn.exec.taken = none := by simp [s3]
  rw [hc, hx]
  split
  · simp
  · next hq =>
    have := (hs q).not
    simp only [h, Option.some.injEq] at this
    simpa using this.mpr fun e => hq e.symm

/-- The fields ADOPT reaches when it takes effect (R145). -/
abbrev adoptFields : List Field :=
  [.adoption, .dirty, .counts, .lamp, .ram, .reader, .attn, .passTimer, .silenceDue]

theorem State.applyTrailSetup_effect (p : Port) : Effect [.ram, .reader, .attn] [] s (s.applyTrailSetup p) := by
  unfold State.applyTrailSetup
  split
  · exact s.setReader_effect _ _
  all_goals exact Effect.refl s

theorem State.startTimers_effect (p : Port) (b : Bool) : Effect [.passTimer, .silenceDue] [] s (s.startTimers p b) := by
  unfold State.startTimers
  split
  · exact (s.startPassTimer_effect p).step (State.startSilence_effect _ p)
  · exact Effect.refl s

theorem State.adoptTakesEffect_effect (p : Port) : Effect adoptFields [] s (s.adoptTakesEffect p) := by
  let s1 := s.setPort p { s.port p with adopted := true }
  have h1 : Effect [.adoption, .dirty, .counts, .lamp] [.lamps] s s1 := by
    refine Effect.mono (l := [.adoption]) (b := [.lamps]) (Effect.setPort s p _ [] (fun f hf => ?_) (fun k hk => by cases hk))
    cases f <;> simp_all [Field.onPort]
  have h2 : Effect [.adoption, .dirty, .counts, .lamp] [] s (s1.markView.recountLamp p) := by
    refine Effect.refreshing p ((h1.trans (s1.markView_effect.mono)).trans
      ((State.setPort_counts_effect s1.markView p _ _ _).mono)) fun x hx hs => ?_
    have e : s1.markView.LampCurrent x :=
      State.LampCurrent.of_effect (State.lamp_of_setPort (p := p) _ hx hs) s1.markView_effect
    have hp := State.setPort_port_ne s1.markView p x
      { s1.markView.port p with
        steady := s1.markView.demandCount p .steady, slow := s1.markView.demandCount p .slow,
        fast := s1.markView.demandCount p .fast } hx
    refine ⟨?_, ?_⟩
    · rw [hp, State.patternNow_congr (s := s1.markView) (by simp)] <;> first | exact e.1 | rw [hp]
    · rw [hp, State.setPort_now]; exact e.2
  exact (h2.step (State.applyTrailSetup_effect _ p) (l := adoptFields)).trans ((State.startTimers_effect _ p _).mono)

theorem State.completeAdopt_effect (p : Port) (b : Bool) (a : List Byte) (h : s.exec.taken.map Taken.port = some p) :
    Effect (.board :: .cells :: .exec :: adoptFields) [] s (s.completeAdopt p b a) := by
  have h1 := s.adoptTakesEffect_effect p
  exact h1.step (State.complete_effect _ p _ a (by rw [h1.exec]; exact h))

theorem State.finish_effect (p : Port) : Effect (.board :: .cells :: .exec :: adoptFields) [] s (s.finish p) := by
  rcases s.finish_cases p with ⟨st, a, h, e⟩ | ⟨b, a, h, e⟩ | e
  · rw [e]; exact (s.complete_effect p st a (by rw [h]; rfl)).mono
  · rw [e]; exact s.completeAdopt_effect p b a (by rw [h]; rfl)
  · exact Effect.of_eq e

/-- A request still waits, in the same port's name (R141). -/
theorem State.await_effect (w : Taken) (h : s.exec.taken.map Taken.port = some w.port) :
    Effect [.exec] [] s (s.await w) := by
  refine Effect.update s [.taken] ?_ (hx := .inl (by decide))
  simp only [List.mem_singleton, forall_eq]
  intro hs p
  have := hs p
  rw [h] at this
  cases p <;> exact this

theorem State.reportClear_effect (w : Bool) :
    Effect (.board :: .cells :: .exec :: adoptFields) [] s (s.reportClear w) := by
  unfold State.reportClear
  split
  · next p left a h =>
    have hp : s.exec.taken.map Taken.port = some p := by rw [h]; rfl
    split
    · split
      · exact s.completeAdopt_effect p _ a hp
      · exact (s.await_effect (.adopt p (left - 1) a) hp).mono
    · exact s.completeAdopt_effect p _ a hp
  · next p a h => exact (s.complete_effect p _ a (by rw [h]; rfl)).mono
  all_goals exact Effect.refl s

/-! ### The record store -/

/-- The fields that entry to FAILED reaches (R125, R126). -/
abbrev failFields : List Field := .board :: .cells :: .exec :: .trail :: .storeState :: .retErase :: adoptFields

theorem State.reportRetainedErase_effect (st : Status) :
    Effect [.ram, .board, .cells, .exec, .attn] [] s (s.reportRetainedErase st) := by
  unfold State.reportRetainedErase
  split
  · next p h => exact s.complete_effect p _ _ (by rw [h]; rfl)
  all_goals exact Effect.refl s

theorem State.setRetErase_effect (e : RetainedErase) :
    Effect [.retErase] [] s { s with store := { s.store with retErase := e } } :=
  Effect.setStore s _ fun f hf => by cases f <;> simp_all [Field.onStore]

theorem State.failStore_effect : Effect failFields [] s s.failStore := by
  have h1 : Effect [.storeState] [] s { s with store := { s.store with state := .failed } } :=
    Effect.setStore s _ fun f hf => by cases f <;> simp_all [Field.onStore]
  have h2 : Effect failFields [] s ((({ s with store := { s.store with state := .failed } } : State).appendPart
      .storeFailed (byteOf (s.sectorCount .retired))).markView.reportClear false) :=
    ((h1.step (State.appendPart_effect _ _ _) (l := failFields)).trans ((State.markView_effect _).mono)).trans
      ((State.reportClear_effect _ _).mono)
  unfold State.failStore
  simp only
  generalize State.reportClear _ _ = s1 at h2 ⊢
  split
  · exact h2.trans ((s1.setRetErase_effect _).step (State.reportRetainedErase_effect _ _))
  all_goals exact h2

theorem State.setSector_effect (k : Fin 16) (c : Sector) : Effect [.sectors] [] s (s.setSector k c) :=
  Effect.setStore s _ fun f hf => by cases f <;> simp_all [Field.onStore]

/-- Flash takes bytes, or loses them, and keeps its canonical form. -/
theorem Effect.setFlash (m : Memory) (h : Memory.wf flashDefault s.flash = true → Memory.wf flashDefault m = true) :
    Effect [.flash] [] s { s with flash := m } := by
  refine Effect.intro [.memories, .ram] (fun f hf => ⟨?_, f.onPub_refl _, f.onStore_refl _, fun x => ?_⟩) ?_
  · cases f
    case board => exact fun hm => ⟨⟨hm.1, h hm.2⟩, fun _ _ => rfl⟩
    all_goals simp_all [Field.onCore]
  · cases x <;> exact f.onPort_refl _
  · simp only [List.forall_mem_cons, List.not_mem_nil, IsEmpty.forall_iff, implies_true, and_true]
    refine ⟨fun hm => ⟨hm.1, h hm.2⟩, fun ⟨hm, hs⟩ => ⟨⟨hm.1, h hm.2⟩, ?_⟩⟩
    exact hs.of_watched (fun _ _ => rfl) rfl (fun p => by cases p <;> rfl) (fun p => by cases p <;> rfl)

theorem State.program_effect (a : Nat) (bs : List Byte) : Effect [.flash] [] s (s.program a bs) :=
  Effect.setFlash s _ fun h => Memory.wf_writeBytes _ _ _ _ h

theorem State.retire_effect (k : Fin 16) (m : Marred) :
    Effect (.flash :: .sectors :: failFields) [] s (s.retire k m) := by
  unfold State.retire
  simp only
  have h1 : Effect (.flash :: .sectors :: failFields) [] s
      ((s.program (sectorAddr k (8 * Config.retireLine)) (readBack (List.replicate 8 0x00) m)).setSector k
        { state := .retired, marked := false, firstSeq := none, used := 0 }) :=
    (s.program_effect _ _).step (State.setSector_effect _ _ _)
  generalize State.setSector _ _ _ = s1 at h1 ⊢
  have h2 := h1.trans (((State.markView_effect s1).step (State.appendPart_effect _ .storeDegraded
    (byteOf (s1.sectorCount .retired))) (l := failFields)).mono)
  split
  · exact h2.trans ((State.failStore_effect _).mono)
  · exact h2

theorem State.openAt_effect (k : Fin 16) : Effect [.sectors, .dirty] [] s (s.openAt k) := by
  have h1 := s.setSector_effect k { state := .opened, marked := false, firstSeq := none, used := 0 }
  have h2 : ∀ u : State, Effect [.sectors] [] u { u with store := { u.store with lastOpen := some k } } := fun u =>
    Effect.setStore u _ fun f hf => by cases f <;> simp_all [Field.onStore]
  exact ((h1.trans (h2 _)).step (State.markView_effect _))

theorem State.openNew_effect (b : Bool) : Effect (.sectors :: failFields) [] s (s.openNew b).1 := by
  unfold State.openNew
  split
  · split
    · exact (s.openAt_effect _).mono
    · exact Effect.refl s
  · split
    · exact s.failStore_effect.mono
    · exact Effect.refl s

theorem State.findRoom_effect (n : Nat) (b : Bool) : Effect (.sectors :: failFields) [] s (s.findRoom n b).1 := by
  unfold State.findRoom
  split
  · simp only
    split
    · exact Effect.refl s
    · exact (s.setSector_effect _ _).step (State.openNew_effect _ b)
  · exact s.openNew_effect b

theorem State.clearMarks_effect (j : Job) (c : JobClass) :
    Effect [.marks, .logQueue, .records, .dirty] [] s (s.clearMarks j c) := by
  have store : ∀ a b q, Effect [.marks, .logQueue] [] s
      { s with store := { s.store with rideMark := a, qualMark := b, logQueue := q } } := fun a b q =>
    Effect.setStore s _ fun f hf => by cases f <;> simp_all [Field.onStore]
  unfold State.clearMarks
  split
  · exact (store false _ _).mono
  · exact (store _ false _).mono
  · exact (Effect.setRecord s _ _).step (State.markViewIf_effect _ _)
  · split
    · exact (store _ _ _).mono
    · exact Effect.refl s

/-- The fields that the begin of an image reaches (R114, R116). -/
abbrev imageFields : List Field := .sectors :: .program :: .marks :: .logQueue :: .records :: failFields

theorem State.beginImage_effect (j : Job) (c : JobClass) : Effect imageFields [] s (s.beginImage j c) := by
  unfold State.beginImage
  split
  · exact s.failStore_effect.mono
  · have h1 := s.findRoom_effect (imageLines (jobKind j)) (decide (c ≠ .ordinary))
    split
    · next s1 e => rw [e] at h1; exact h1.mono
    · next s1 k e =>
      rw [e] at h1
      simp only
      have h2 := h1.step (s1.setSector_effect k { s1.store.sectors[k] with
        firstSeq := some (s1.store.sectors[k].firstSeq.getD s1.store.nextSeq) }) (l := imageFields)
      refine (h2.trans ?_).trans ((State.clearMarks_effect _ j c).mono)
      exact Effect.mono (l := [.sectors, .program])
        (Effect.setStore _ _ fun f hf => by cases f <;> simp_all [Field.onStore])

theorem State.remark_effect (r : Redo) : Effect [.marks, .logQueue, .erase, .records, .dirty] [] s (s.remark r) := by
  unfold State.remark
  split
  · exact Effect.refl s
  · exact s.markRide_effect.mono
  · exact s.markQualifier_effect.mono
  · exact (s.queueLog_effect _).mono
  · split
    · exact (s.markRecord_effect _ _).mono
    · exact Effect.refl s

theorem State.failImage_effect (p : ImageProgram) :
    Effect [.sectors, .marks, .logQueue, .erase, .records, .dirty] [] s (s.failImage p) := by
  unfold State.failImage
  simp only
  have h1 := (s.setSector_effect p.sector { s.store.sectors[p.sector] with state := .full, marked := true }).step
    (State.remark_effect _ p.redo) (l := [.sectors, .marks, .logQueue, .erase, .records, .dirty])
  generalize State.remark _ _ = s1 at h1 ⊢
  split
  · split
    · exact h1.trans ((s1.openAt_effect _).mono)
    · exact h1
  · exact h1

theorem State.setProgram_effect (p : Option Program) :
    Effect [.program] [] s { s with store := { s.store with program := p } } :=
  Effect.setStore s _ fun f hf => by cases f <;> simp_all [Field.onStore]

/-- The fields that the end of an image reaches (R114 to R116). -/
abbrev imageEndFields : List Field :=
  .flash :: .sectors :: .program :: .marks :: .logQueue :: .erase :: .records :: .board :: .cells :: .exec :: adoptFields

theorem State.endImage_effect (p : ImageProgram) (m : Marred) : Effect imageEndFields [] s (s.endImage p m) := by
  unfold State.endImage
  simp only
  have h1 := (s.program_effect (sectorAddr p.sector (8 * p.line)) ((readBack p.bytes m).take 8)).trans
    (State.program_effect _ (sectorAddr p.sector (8 * p.line) + 16) ((readBack p.bytes m).drop 16))
  generalize State.program _ _ _ = s1 at h1 ⊢
  have h2 : Effect [.flash] [] s (if bodyReadsBack p.bytes (readBack p.bytes m) = true then
      s1.program (sectorAddr p.sector (8 * p.line) + 8) (((readBack p.bytes m).take 16).drop 8) else s1) := by
    split
    · exact h1.trans (s1.program_effect _ _)
    · exact h1
  generalize (if bodyReadsBack p.bytes (readBack p.bytes m) = true then _ else s1) = s2 at h2 ⊢
  have h3 := (h2.step (s2.setSector_effect p.sector { s2.store.sectors[p.sector] with
    used := p.line + p.bytes.length / 8 }) (l := imageEndFields)).trans ((State.setProgram_effect _ none).mono)
  generalize State.mk _ _ _ _ _ _ _ _ _ _ _ _ _ _ _ _ _ _ _ _ = s4 at h3 ⊢
  split
  · split
    · exact h3.trans ((s4.reportClear_effect true).mono)
    · exact h3
  · exact h3.trans ((s4.failImage_effect p).mono)

theorem State.startErase_effect (k : Fin 16) : Effect [.sectors, .erase] [] s (s.startErase k) := by
  have h : ∀ (u : State) e, Effect [.erase] [] u { u with store := { u.store with erase := e } } := fun u e =>
    Effect.setStore u _ fun f hf => by cases f <;> simp_all [Field.onStore]
  exact (s.setSector_effect k _).step (h _ _)

theorem State.endErase_effect (k : Fin 16) (x y : Marred) :
    Effect (.flash :: .sectors :: .erase :: failFields) [] s (s.endErase k x y) := by
  unfold State.endErase
  simp only
  have hw : Memory.wf flashDefault s.flash = true → Memory.wf flashDefault (writeCells (Memory.clear s.flash
      (sectorAddr k 0) (sectorAddr k 0 + Config.sectorBytes)) (sectorAddr k 0) Config.sectorBytes x) = true :=
    fun h => wf_writeCells _ _ _ _ (Memory.wf_clear _ _ _ _ h)
  generalize writeCells _ _ _ _ = m at hw ⊢
  have h1 : Effect (.flash :: .sectors :: .erase :: failFields) [] s
      { s with flash := m, store := { s.store with erase := none, compaction := none } } :=
    (Effect.setFlash s m hw).step (l₂ := [.sectors, .erase])
      (Effect.setStore { s with flash := m } { s.store with erase := none, compaction := none }
        fun f hf => by cases f <;> simp_all [Field.onStore])
  split
  · exact h1.trans ((State.setSector_effect _ _ _).step (State.markView_effect _))
  · exact h1.trans ((State.retire_effect _ _ _).mono)

theorem State.setRetained_effect (k : Fin 16) (x : RetainedPos) : Effect [.retained] [] s (s.setRetained k x) :=
  Effect.setStore s _ fun f hf => by cases f <;> simp_all [Field.onStore]

theorem State.requeueRetained_effect (it : RetainedItem) : Effect [.retQueue] [] s (s.requeueRetained it) := by
  unfold State.requeueRetained
  split
  · exact Effect.setStore s _ fun f hf => by cases f <;> simp_all [Field.onStore]
  · exact Effect.refl s

theorem State.endRetained_effect (it : RetainedItem) (m : Marred) :
    Effect [.flash, .program, .retained, .retQueue, .dirty] [] s (s.endRetained it m) := by
  unfold State.endRetained
  simp only
  have h1 := s.program_effect (retainedAddr it.pos 0) ((readBack (retainedEntryBytes it) m).take 56)
  generalize State.program _ _ _ = s1 at h1 ⊢
  have h2 : ∀ (c : Prop) [Decidable c], Effect [.flash, .program, .retained, .retQueue, .dirty] [] s (if c then
      s1.program (retainedAddr it.pos 0 + 56) ((readBack (retainedEntryBytes it) m).drop 56) else s1) := by
    intro c _
    split
    · exact (h1.trans (s1.program_effect _ _)).mono
    · exact h1.mono
  have h3 := fun (c : Prop) [Decidable c] => (h2 c).trans ((State.setProgram_effect _ none).mono)
  split
  · exact (h3 _).trans ((State.setRetained_effect _ _ _).step (State.markView_effect _))
  · exact (h3 _).trans ((State.setRetained_effect _ _ _).step (State.requeueRetained_effect _ _))

theorem State.endRetainedErase_effect (x : Marred) :
    Effect [.flash, .retained, .retErase, .retQueue, .dirty, .ram, .board, .cells, .exec, .attn] [] s
      (s.endRetainedErase x) := by
  unfold State.endRetainedErase
  simp only
  have hw : Memory.wf flashDefault s.flash = true → Memory.wf flashDefault (erasedRetained s.flash x) = true :=
    fun h => wf_writeCells _ _ _ _ (Memory.wf_clear _ _ _ _ h)
  generalize erasedRetained _ _ = m at hw ⊢
  have h1 : Effect [.flash, .retained, .retErase, .retQueue, .dirty, .ram, .board, .cells, .exec, .attn] [] s
      { s with flash := m, store := { s.store with
        retPos := readPositions m, retErase := .nothing,
        retQueue := reserveAfresh (freePositions (readPositions m)) s.store.retQueue } } :=
    (Effect.setFlash s m hw).step (l₂ := [.retained, .retErase, .retQueue])
      (Effect.setStore { s with flash := m } _ fun f hf => by cases f <;> simp_all [Field.onStore])
  exact h1.trans (((State.markView_effect _).step (State.reportRetainedErase_effect _ _)))

end

end Sys2Proof.Machine
end

