-- ==== Sys2Proof/Proofs/Rides.lean ====
section
/-!
PROOFS. The effects of the ride controller (chapter 5) and of restore (7.7).
-/

-- Proofs in the order of the text: those that elaborate default tactic arguments at once wait for each other.
set_option Elab.async false

namespace Sys2Proof.Machine

section

variable (s : State)

/-! ### The ride controller -/

theorem State.clearRideFlags_get (i : Slot) : s.clearRideFlags.quals[i] =
    { s.quals[i] with tested := false, failed := false, passedMature := false } := by
  simp [State.clearRideFlags]

theorem State.clearRideFlags_effect : Effect [.quals] [] s s.clearRideFlags := by
  refine Effect.update s [.ranges] ?_ (hq := .inl (by decide))
  simp only [List.mem_singleton, forall_eq]
  intro hs i
  have := s.clearRideFlags_get i
  have hi := hs i
  show -128 ≤ s.clearRideFlags.quals[i].m ∧ _
  rw [show (s.quals.map fun q => ({ q with tested := false, failed := false, passedMature := false } : Qualifier)) =
    s.clearRideFlags.quals from rfl, this]
  exact hi

/-- A lamp sees of the ride controller the state and whether prove-out runs (R104, R105). -/
theorem Effect.setRide_lamps (r : RideCtl) (h : r.state = s.ride.state) (h' : r.proveOutDue = s.ride.proveOutDue) :
    Effect [.ride] [.ign] s { s with ride := r } := by
  refine (Effect.setRide s r).repair .lamps fun hs p => ?_
  have e := hs p
  have hp : State.patternNow { s with ride := r } p = s.patternNow p := by
    simp only [State.patternNow, h, h']
    cases p <;> rfl
  rw [hp]
  cases p <;> exact e

/-- With the debounced level the same, the law of R81 holds on too. -/
theorem Effect.setRide_kept (r : RideCtl) (h : r.state = s.ride.state) (h' : r.proveOutDue = s.ride.proveOutDue)
    (hd : r.debounced = s.ride.debounced) : Effect [.ride] [] s { s with ride := r } :=
  (Effect.setRide_lamps s r h h').repair .ign fun hs => by
    obtain ⟨h1, h2⟩ : s.IgnLaw := hs
    exact ⟨fun e => hd ▸ h1 (h ▸ e), fun e => hd ▸ h2 (h ▸ e)⟩

/-- The fields a ride begin reaches (R85). -/
abbrev rideBeginFields : List Field :=
  [.ride, .quals, .marks, .erase, .passTimer, .silenceDue, .ram, .trail, .attn, .dirty, .lamp]

/-- The ride controller as a ride begin sets it (R85). -/
def State.begunRide (s : State) : RideCtl :=
  { s.ride with
    state := .riding, number := min 65535 (s.ride.number + 1), time := 0, secondDue := some (s.now + Config.secondTime),
    proveOutDue := some (s.now + Config.proveOutTime), holdDue := none, pwrhold := true }

/-- What a ride begin does after the ride controller has been set (R85). -/
def State.rideSteps (s : State) : State :=
  ((((((s.clearRideFlags.markRide).startPassTimer .fp).startPassTimer .bp).startSilence .fp).startSilence .bp).appendPart
    .rideBegin 0).markView

theorem State.rideBegin_eq : s.rideBegin = (State.rideSteps { s with ride := s.begunRide }).refreshLamps := rfl

theorem State.rideSteps_effect : Effect
    [.quals, .marks, .erase, .passTimer, .silenceDue, .ram, .trail, .attn, .dirty] [] s s.rideSteps := by
  unfold State.rideSteps
  refine Effect.step (l₁ := [.quals, .marks, .erase, .passTimer, .silenceDue, .ram, .trail, .attn]) ?_
    (State.markView_effect _)
  refine Effect.step (l₁ := [.quals, .marks, .erase, .passTimer, .silenceDue]) ?_ (State.appendPart_effect _ _ _)
  refine Effect.step (l₁ := [.quals, .marks, .erase, .passTimer, .silenceDue]) ?_ (State.startSilence_effect _ _)
  refine Effect.step (l₁ := [.quals, .marks, .erase, .passTimer]) ?_ (State.startSilence_effect _ _)
  refine Effect.step (l₁ := [.quals, .marks, .erase, .passTimer]) ?_ (State.startPassTimer_effect _ _)
  refine Effect.step (l₁ := [.quals, .marks, .erase]) ?_ (State.startPassTimer_effect _ _)
  exact s.clearRideFlags_effect.step (State.markRide_effect _)

theorem State.rideBegin_ride : s.rideBegin.ride = s.begunRide := by
  rw [State.rideBegin_eq, (State.refreshLamps_frame _).1.1.2.2.2.2.2.2.2.2.2.2.2.1]
  exact (State.rideSteps_effect _).ride

theorem State.rideBegin_effect (h : s.ride.debounced = true) : Effect rideBeginFields [] s s.rideBegin := by
  have h1 : Effect rideBeginFields [.lamps, .ign] s s.rideBegin :=
    ((Effect.setRide s s.begunRide).seq (State.rideSteps_effect _)).trans ((State.refreshLamps_effect _).mono)
  refine (h1.repair .lamps fun _ => State.lampsCurrent_refreshLamps _).repair .ign fun _ => ?_
  show s.rideBegin.IgnLaw
  rw [State.IgnLaw, State.rideBegin_ride]
  exact ⟨fun _ => h, fun e => by cases e⟩

theorem State.stopPort_effect (p : Port) :
    Effect [.passTimer, .passes, .silenceDue, .silent] [.lamps] s (s.stopPort p) := by
  refine Effect.setPort s p _ [] (fun f hf => ?_) (fun k hk => by cases hk)
  cases f <;> simp_all [Field.onPort]

/-- The fields that entry to ENDING reaches (R89). -/
abbrev endingFields : List Field := [.ride, .passTimer, .passes, .silenceDue, .silent, .exec, .dirty, .lamp]

/-- The ride controller as entry to ENDING sets it (R89). -/
def State.endedRide (s : State) : RideCtl :=
  { s.ride with state := .ending, secondDue := none, proveOutDue := none, holdDue := some (s.now + Config.holdTime) }

/-- What entry to ENDING does after the ride controller has been set (R89). -/
def State.endingSteps (s : State) : State := (((s.stopPort .fp).stopPort .bp).unclaim).markView

theorem State.enterEnding_eq : s.enterEnding = (State.endingSteps { s with ride := s.endedRide }).refreshLamps := rfl

theorem State.endingSteps_effect : Effect [.passTimer, .passes, .silenceDue, .silent, .exec, .dirty] [.lamps] s
    s.endingSteps :=
  (((s.stopPort_effect .fp).trans (State.stopPort_effect _ .bp)).seq (State.unclaim_effect _)
    (l := [.passTimer, .passes, .silenceDue, .silent, .exec, .dirty]) (b := [.lamps])).trans
    ((State.markView_effect _).mono)

theorem State.enterEnding_ride : s.enterEnding.ride = s.endedRide := by
  rw [State.enterEnding_eq, (State.refreshLamps_frame _).1.1.2.2.2.2.2.2.2.2.2.2.2.1]
  exact (State.endingSteps_effect _).ride

theorem State.enterEnding_effect : Effect endingFields [] s s.enterEnding := by
  have h1 : Effect endingFields [.lamps, .ign] s s.enterEnding :=
    ((Effect.setRide s s.endedRide).seq (State.endingSteps_effect _)).trans ((State.refreshLamps_effect _).mono)
  refine (h1.repair .lamps fun _ => State.lampsCurrent_refreshLamps _).repair .ign fun _ => ?_
  show s.enterEnding.IgnLaw
  rw [State.IgnLaw, State.enterEnding_ride]
  exact ⟨fun e => (by cases e), fun e => (by cases e)⟩

/-- The fields that a change of the debounced level reaches (R81, R82). -/
abbrev ignFields : List Field :=
  [.ride, .quals, .marks, .erase, .passTimer, .silenceDue, .ram, .trail, .attn, .dirty, .lamp, .passes, .silent, .exec]

/-- A debounced level that changes makes the ride states follow, so that R81's law is kept (R81). -/
theorem State.takeIgn_ignActed_effect : Effect ignFields [] s s.takeIgn.ignActed := by
  have h1 : Effect [.ride] [.ign] s s.takeIgn := Effect.setRide_lamps s _ rfl rfl
  have hr : s.takeIgn.ride.state = s.ride.state := rfl
  have stay : (s.takeIgn.ride.state = .riding → s.takeIgn.ride.debounced = true) →
      (s.takeIgn.ride.state = .noRide → s.takeIgn.ride.debounced = false) → Effect ignFields [] s s.takeIgn :=
    fun h h' => (h1.repair .ign fun _ => ⟨h, h'⟩).mono
  unfold State.ignActed
  split
  · next e hd =>
    refine Effect.repair .ign (h1.seq (s.takeIgn.rideBegin_effect hd)) fun _ => ?_
    show s.takeIgn.rideBegin.IgnLaw
    rw [State.IgnLaw, State.rideBegin_ride]
    exact ⟨fun _ => hd, fun e => by cases e⟩
  · next e hd =>
    refine Effect.repair .ign (h1.seq s.takeIgn.enterEnding_effect) fun _ => ?_
    show s.takeIgn.enterEnding.IgnLaw
    rw [State.IgnLaw, State.enterEnding_ride]
    exact ⟨fun e => (by cases e), fun e => (by cases e)⟩
  · next e hd => exact stay (fun h => by simp [h] at e) fun _ => hd
  · next e hd => exact stay (fun _ => hd) fun h => by simp [h] at e
  · next e => exact stay (fun h => by simp [h] at e) fun h => by simp [h] at e
  · next e => exact stay (fun h => by simp [h] at e) fun h => by simp [h] at e

theorem State.setRideEnding_effect (b : Bool) :
    Effect [.rideEnding] [] s { s with store := { s.store with rideEnding := b } } :=
  Effect.setStore s _ fun f hf => by cases f <;> simp_all [Field.onStore]

theorem State.urgeRecords_effect : Effect [.records] [] s s.urgeRecords := Effect.setRecords s _

theorem State.closeRide_effect :
    Effect [.ram, .trail, .attn, .marks, .erase, .rideEnding, .records] [] s s.closeRide :=
  (((s.appendPart_effect .rideEnd 0).step (State.markQualifier_effect _)
    (l := [.ram, .trail, .attn, .marks, .erase, .rideEnding, .records])).trans
    ((State.setRideEnding_effect _ true).mono)).trans ((State.urgeRecords_effect _).mono)

/-- NO_RIDE is entered with the debounced level low (R81): the lamps take the new pattern (R105). -/
theorem State.enterNoRide_effect (h : s.ride.debounced = false) (d : Option Nat) : Effect [.ride, .dirty, .lamp] [] s
    (({ s with ride := { s.ride with state := .noRide, holdDue := d } } : State).markView.refreshLamps) := by
  have h1 : Effect [.ride, .dirty, .lamp] [.lamps, .ign] s
      (({ s with ride := { s.ride with state := .noRide, holdDue := d } } : State).markView.refreshLamps) :=
    ((Effect.setRide s _).seq (State.markView_effect _)).trans ((State.refreshLamps_effect _).mono)
  refine (h1.repair .lamps fun _ => State.lampsCurrent_refreshLamps _).repair .ign fun _ => ?_
  have hr : (State.refreshLamps (State.markView { s with ride := { s.ride with state := .noRide, holdDue := d } })).ride =
      { s.ride with state := .noRide, holdDue := d } := by simp
  refine ⟨fun e => ?_, fun _ => ?_⟩
  · rw [hr] at e; cases e
  · rw [hr]; exact h

/-- The fields that leaving WAITING or ENDING reaches (R81, R94). -/
abbrev leaveFields : List Field := .exec :: rideBeginFields

theorem State.completeEnding_effect : Effect (.rideEnding :: leaveFields) [] s s.completeEnding := by
  unfold State.completeEnding
  have h1 := s.setRideEnding_effect false
  generalize State.mk _ _ _ _ _ _ _ _ _ _ _ _ _ _ _ _ _ _ _ _ = s1 at h1 ⊢
  simp only
  split
  · next h =>
    have h2 : Effect leaveFields [] s1 s1.rideBegin.offer := (s1.rideBegin_effect h).step (State.offer_effect _)
    exact h1.step h2
  · next h =>
    have h2 : Effect leaveFields [] s1
        (({ s1 with ride := { s1.ride with state := .noRide } } : State).markView.refreshLamps).offer :=
      (s1.enterNoRide_effect (by simpa using h) s1.ride.holdDue).step (State.offer_effect _)
    exact h1.step h2

theorem State.leaveWaiting_effect : Effect leaveFields [] s s.leaveWaiting := by
  unfold State.leaveWaiting
  split
  · next h => exact (s.rideBegin_effect h).step (State.offer_effect _)
  · next h => exact (s.enterNoRide_effect (by simpa using h) _).step (State.offer_effect _)

/-! ### Restore -/

theorem Qualifier.inRange_qualifierFrom (q : Option Image) (n : Nat) : (qualifierFrom q n).InRange := by
  unfold qualifierFrom
  split
  · exact Qualifier.inRange_reset
  · next im =>
    have hm := BitVec.two_mul_toInt_lt (x := byteAt im.body (4 * n))
    have hm' := BitVec.le_two_mul_toInt (x := byteAt im.body (4 * n))
    have h1 := (byteAt im.body (4 * n + 1)).isLt
    have h2 := (byteAt im.body (4 * n + 2)).isLt
    refine ⟨?_, ?_, ?_, ?_⟩ <;> simp only <;> omega

/-- Restore gives every qualifier M and counts in their ranges (R131). -/
theorem Qualifier.inRange_rebuildSlot (l : List Image) (i : Slot) : (rebuildSlot l i).1.InRange := by
  unfold rebuildSlot
  simp only
  have hq := Qualifier.inRange_qualifierFrom (newestQualifier l) i.val
  split
  · exact hq
  · next im _ =>
    split
    · split
      · exact Qualifier.inRange_reset
      · exact hq
    · split
      · have h2 := (byteAt im.body 13).isLt
        refine ⟨?_, ?_, ?_, ?_⟩
        · show -128 ≤ restoredM _
          unfold restoredM
          split <;> decide
        · show restoredM _ ≤ 127
          unfold restoredM
          split <;> decide
        · show (byteAt im.body 12).toNat % 16 ≤ 15
          omega
        · show (byteAt im.body 13).toNat ≤ 255
          omega
      · split <;> exact hq
    · exact hq
    · exact hq
    · exact hq

theorem restoredQuals_get (l : List Image) (kept : List Rebuilt) (i : Slot) : (restoredQuals l kept)[i] =
    { (rebuildSlot l i).1 with
      unrecorded := decide ((rebuildSlot l i).1.state ≠ .idle) && !(kept.any fun x => decide (x.record.slot = i)) } := by
  rw [restoredQuals, Fin.getElem_fin, Vector.getElem_ofFn]

theorem Qualifier.inRange_restoredQuals (l : List Image) (kept : List Rebuilt) (i : Slot) :
    (restoredQuals l kept)[i].InRange := by
  rw [restoredQuals_get]
  exact Qualifier.inRange_rebuildSlot l i

/-- New qualifiers within their ranges, and new records, frames and store. -/
theorem Effect.setRebuilt (qs : Vector Qualifier 192) (rs : Vector (Option Record) 48) (fs : Vector Frame 64) (st : Store)
    (h : ∀ i : Slot, qs[i].InRange)
    (hst : ∀ f, f ∉ [Field.quals, .records, .frames, .sectors, .retained] → f.onStore s.store st) :
    Effect [.quals, .records, .frames, .sectors, .retained] [] s
      { s with quals := qs, records := rs, frames := fs, store := st } := by
  refine Effect.update s [.ranges] ?_ (hq := .inl (by decide)) (hrs := .inl (by decide)) (hfs := .inl (by decide))
    (hst := hst)
  simp only [List.mem_singleton, forall_eq]
  exact fun _ => h

theorem State.rebuild_effect : Effect [.quals, .records, .frames, .ride, .sectors, .retained] [] s s.rebuild := by
  have h1 : Effect [.ride] [] s { s with ride := { s.ride with number := restoredRide (parsedImages s.flash) } } :=
    Effect.setRide_kept s _ rfl rfl rfl
  refine h1.step (l₂ := [.quals, .records, .frames, .sectors, .retained])
    (Effect.setRebuilt _ _ _ _ _ (Qualifier.inRange_restoredQuals _ _) fun f hf => ?_)
  cases f <;> simp_all [Field.onStore]

theorem State.settleStore_effect : Effect failFields [] s s.settleStore := by
  unfold State.settleStore
  split
  · exact s.failStore_effect
  · exact Effect.mono (l := [.storeState])
      (Effect.setStore s _ fun f hf => by cases f <;> simp_all [Field.onStore])

end

end Sys2Proof.Machine
end

