-- ==== Sys2Proof/Proofs/Publishing.lean ====
section
/-!
PROOFS. The publisher (chapter 9): what the exchange RAM reads after the parts of a pass, and what its commands can do.
-/

-- Proofs in the order of the text: those that elaborate default tactic arguments at once wait for each other.
set_option Elab.async false

namespace Sys2Proof.Machine

section

variable (s : State)

/-! ### The copy of a pass -/

theorem length_mirrorBytes (r : Option Record) (m : Int) : (mirrorBytes r m).length = 16 := by cases r <;> rfl

theorem State.length_mirrorEntry (e : Fin 48) :
    (match s.records[e] with
      | some r => mirrorBytes (some r) s.quals[r.slot].m
      | none => mirrorBytes none 0).length = 16 := by
  split <;> exact length_mirrorBytes _ _

theorem State.length_headerCopy : s.headerCopy.length = 30 := rfl

theorem State.length_statusCopy : s.statusCopy.length = 192 := by simp [State.statusCopy]

theorem State.length_mirrorCopy : s.mirrorCopy.length = 768 := by
  unfold State.mirrorCopy
  rw [List.length_flatMap]
  exact congrArg List.sum (List.map_congr_left (g := fun _ => 16) fun e _ => s.length_mirrorEntry e)

/-- A copy of the view holds header bytes 2 to 31, 192 status bytes and 48 mirror entries (R159, R162 to R164). -/
theorem State.length_viewCopy : s.viewCopy.length = 990 := by
  rw [State.viewCopy, List.length_append, List.length_append, s.length_headerCopy, s.length_statusCopy, s.length_mirrorCopy]

/-! ### The generation -/

theorem State.MemoriesCanonical.stepGeneration {s : State} (h : s.MemoriesCanonical) :
    s.stepGeneration.MemoriesCanonical :=
  State.MemoriesCanonical.wrBytes (h.of_same rfl rfl) _ _

theorem State.rd_stepGeneration {s : State} (h : s.MemoriesCanonical) (x : Nat) : s.stepGeneration.rd x =
    if x = 0 then byteOf (s.pub.generation + 1).toNat
    else if x = 1 then byteOf ((s.pub.generation + 1).toNat / 256) else s.rd x := by
  let s1 : State := { s with pub := { s.pub with generation := s.pub.generation + 1 } }
  have h1 : s1.MemoriesCanonical := h.of_same rfl rfl
  show (s1.wrBytes 0 (bytes16 (s.pub.generation + 1).toNat)).rd x = _
  rw [State.rd_wrBytes h1, length_bytes16]
  by_cases e0 : x = 0
  · simp [e0, bytes16, byteAt]
  by_cases e1 : x = 1
  · simp [e1, bytes16, byteAt]
  rw [if_neg (by omega), if_neg e0, if_neg e1]
  rfl

/-- The generation changes its parity at every step (R159). -/
theorem generation_parity (g : Word) : (g + 1).toNat % 2 = 0 ↔ g.toNat % 2 ≠ 0 := by
  rw [BitVec.toNat_add]
  have := g.isLt
  simp only [BitVec.ofNat_eq_ofNat, BitVec.toNat_ofNat]
  omega

/-- What the exchange RAM shows holds on while the watched bytes but the generation stay, and the generation is shown. -/
theorem State.RamShows.of_generation {s t : State} (h : s.RamShows) (rd : ∀ a, 2 ≤ a → Watched a → t.rd a = s.rd a)
    (hg : natOf16 (t.rd 0) (t.rd 1) = t.pub.generation.toNat) (hw : t.pub.writeCount = s.pub.writeCount)
    (hr : t.pub.readMark = s.pub.readMark) (hu : t.pub.unread = s.pub.unread) (ho : t.pub.overrun = s.pub.overrun)
    (hc : ∀ p, (t.port p).cell = (s.port p).cell) (hl : ∀ p, (t.port p).releases = (s.port p).releases)
    (hp : ∀ copy, t.pub.pass = some copy → copy.length = 990) : t.RamShows := by
  have header : ∀ a, 32 ≤ a → a ≤ 37 → t.rd a = s.rd a := fun a h1 h2 => rd a (by omega) (.inr (.inl ⟨h1, h2⟩))
  have cell : ∀ p, 2 ≤ Config.cellBase p := by intro p; cases p <;> decide
  have rel : ∀ p, 2 ≤ Config.releaseAddr p := by intro p; cases p <;> decide
  refine ⟨hg, ?_, ?_, ?_, ?_, fun p => ?_, fun p => ?_, fun a ha => ?_, hp⟩
  · rw [header 32 (by omega) (by omega), header 33 (by omega) (by omega), hw]; exact h.writeCount
  · rw [header 34 (by omega) (by omega), header 35 (by omega) (by omega), hr]; exact h.readMark
  · rw [header 36 (by omega) (by omega), hu]; exact h.unread
  · rw [header 37 (by omega) (by omega), ho]; exact h.overrun
  · rw [rd _ (cell p) (.inr (.inr (.inl ⟨p, rfl⟩))), hc]; exact h.cells p
  · rw [rd _ (rel p) (.inr (.inr (.inr (.inl ⟨p, rfl⟩)))), hl]; exact h.releases p
  · rw [rd a (by omega) (.inr (.inr (.inr (.inr ha))))]; exact h.unassigned a ha

/-! ### The start of a pass -/

theorem State.startPublish_pub : s.startPublish.pub =
    { s.pub with generation := s.pub.generation + 1, dirty := false, pass := some s.viewCopy } := rfl

theorem State.startPublish_port (x : Port) : s.startPublish.port x = s.port x := by cases x <;> rfl

theorem State.MemoriesCanonical.startPublish {s : State} (h : s.MemoriesCanonical) : s.startPublish.MemoriesCanonical :=
  State.MemoriesCanonical.stepGeneration (h.of_same rfl rfl)

theorem State.rd_startPublish {s : State} (h : s.MemoriesCanonical) (x : Nat) : s.startPublish.rd x =
    if x = 0 then byteOf (s.pub.generation + 1).toNat
    else if x = 1 then byteOf ((s.pub.generation + 1).toNat / 256) else s.rd x :=
  State.rd_stepGeneration
    (s := { s with pub := { s.pub with dirty := false, pass := some s.viewCopy } }) (h.of_same rfl rfl) x

theorem State.startPublish_effect (hp : s.pub.pass = none) : Effect [.ram, .dirty, .pass] [.view] s s.startPublish := by
  refine Effect.intro [.memories, .ram, .generation] (fun f hf => ⟨?_, ?_, f.onStore_refl _, fun x => ?_⟩) ?_
  · cases f
    case board =>
      refine fun h => ⟨h.startPublish, fun a ha => ?_⟩
      rw [State.rd_startPublish h, if_neg (by omega), if_neg (by omega)]
    case ram => exact absurd (by decide) hf
    all_goals simp [Field.onCore, State.startPublish, State.stepGeneration]
  · rw [State.startPublish_pub]; cases f <;> simp_all [Field.onPub]
  · rw [State.startPublish_port]; exact f.onPort_refl _
  · simp only [List.forall_mem_cons, List.not_mem_nil, IsEmpty.forall_iff, implies_true, and_true]
    refine ⟨fun h => State.MemoriesCanonical.startPublish h, fun ⟨hm, h⟩ => ⟨hm.startPublish, ?_⟩, fun h => ?_⟩
    · refine h.of_generation (fun a ha _ => ?_) ?_ rfl rfl rfl rfl (fun p => ?_) (fun p => ?_) fun copy hc => ?_
      · rw [State.rd_startPublish hm, if_neg (by omega), if_neg (by omega)]
      · rw [State.rd_startPublish hm, State.rd_startPublish hm]
        exact natOf16_word (s.pub.generation + 1)
      · rw [State.startPublish_port]
      · rw [State.startPublish_port]
      · cases hc; exact s.length_viewCopy
    · have hg : s.pub.generation.toNat % 2 = 0 := (show s.GenerationLaw from h).mpr hp
      show (s.pub.generation + 1).toNat % 2 = 0 ↔ some s.viewCopy = none
      rw [generation_parity, hg]
      simp

/-! ### The end of a pass -/

theorem State.length_trailHeader : s.trailHeader.length = 32 := rfl

theorem State.MemoriesCanonical.writeView {s : State} (h : s.MemoriesCanonical) (copy : List Byte) :
    (s.writeView copy).MemoriesCanonical := by
  unfold State.writeView
  simp only
  split
  · exact ((h.wrBytes _ _).wrBytes _ _).wrBytes _ _
  · exact (h.wrBytes _ _).wrBytes _ _

/-- The view as a pass writes it: the header and the two arrays from the copy, and in the first pass the trail fields
with the reserved bytes behind them (R159, R172). -/
theorem State.rd_writeView {s : State} (h : s.MemoriesCanonical) {copy : List Byte} (hl : copy.length = 990) (x : Nat) :
    (s.writeView copy).rd x =
      if 2 ≤ x ∧ x < 32 then byteAt copy (x - 2)
      else if 32 ≤ x ∧ x < 64 then (if s.pub.firstPass = true then byteAt s.trailHeader (x - 32) else s.rd x)
      else if 64 ≤ x ∧ x < 1024 then byteAt copy (x - 34) else s.rd x := by
  have hd : byteAt copy (x - 34) = byteAt (copy.drop 30) (x - 64) ∨ x < 64 := by
    by_cases hx : x < 64
    · exact .inr hx
    · exact .inl (by rw [byteAt, byteAt, List.getD_eq_getElem?_getD, List.getD_eq_getElem?_getD,
        List.getElem?_drop, show 30 + (x - 64) = x - 34 by omega])
  have ht : x < 32 → byteAt (copy.take 30) (x - 2) = byteAt copy (x - 2) := fun hx => by
    simp only [byteAt, List.getD_eq_getElem?_getD, List.getElem?_take]
    rw [if_pos (by omega)]
  have h1 : ((s.wrBytes 2 (copy.take 30)).wrBytes Config.statusBase (copy.drop 30)).rd x =
      if 64 ≤ x ∧ x < 1024 then byteAt copy (x - 34) else if 2 ≤ x ∧ x < 32 then byteAt copy (x - 2) else s.rd x := by
    rw [State.rd_wrBytes (h.wrBytes _ _), State.rd_wrBytes h, List.length_take, List.length_drop, hl]
    simp only [show min 30 990 = 30 by omega, show Config.statusBase = 64 from rfl, show 64 + (990 - 30) = 1024 by omega,
      show 2 + 30 = 32 by omega]
    by_cases e : 64 ≤ x ∧ x < 1024
    · rw [if_pos e, if_pos e, hd.resolve_right (by omega)]
    · rw [if_neg e, if_neg e]
      by_cases e' : 2 ≤ x ∧ x < 32
      · rw [if_pos e', if_pos e', ht e'.2]
      · rw [if_neg e', if_neg e']
  unfold State.writeView
  simp only
  split
  · rw [State.rd_wrBytes ((h.wrBytes _ _).wrBytes _ _), h1]
    show (if 32 ≤ x ∧ x < 32 + 32 then byteAt s.trailHeader (x - 32) else _) = _
    split_ifs <;> first | rfl | omega
  · rw [h1]
    split_ifs <;> first | rfl | omega

/-- The contents of the view lie in the exchange RAM alone. -/
theorem State.writeView_only (copy : List Byte) : ∃ m, s.writeView copy = { s with ram := m } := by
  unfold State.writeView
  simp only
  split
  · exact ⟨_, rfl⟩
  · exact ⟨_, rfl⟩

theorem State.writeView_pub (copy : List Byte) : (s.writeView copy).pub = s.pub := by
  obtain ⟨m, h⟩ := s.writeView_only copy
  rw [h]

theorem State.endPublish_pub (copy : List Byte) : (s.endPublish copy).pub =
    { s.pub with
      generation := s.pub.generation + 1, pass := none, firstPass := false,
      spacingDue := some (s.now + Config.spacingTime) } := by
  unfold State.endPublish
  obtain ⟨m, h⟩ := s.writeView_only copy
  rw [h]
  rfl

/-- Beside the exchange RAM a pass's end changes the publisher alone. -/
theorem State.endPublish_only (copy : List Byte) :
    ∃ m pb, s.endPublish copy = { s with ram := m, pub := pb } := by
  unfold State.endPublish
  obtain ⟨m, h⟩ := s.writeView_only copy
  rw [h]
  exact ⟨_, _, rfl⟩

theorem State.endPublish_port (copy : List Byte) (x : Port) : (s.endPublish copy).port x = s.port x := by
  obtain ⟨m, pb, h⟩ := s.endPublish_only copy
  rw [h]
  cases x <;> rfl

theorem State.MemoriesCanonical.endPublish {s : State} (h : s.MemoriesCanonical) (copy : List Byte) :
    (s.endPublish copy).MemoriesCanonical :=
  (h.writeView copy).stepGeneration.of_same rfl rfl

theorem State.rd_endPublish {s : State} (h : s.MemoriesCanonical) (copy : List Byte) (x : Nat) :
    (s.endPublish copy).rd x =
      if x = 0 then byteOf (s.pub.generation + 1).toNat
      else if x = 1 then byteOf ((s.pub.generation + 1).toNat / 256) else (s.writeView copy).rd x := by
  have := State.rd_stepGeneration (h.writeView copy) x
  rw [s.writeView_pub copy] at this
  exact this

/-- The trail fields that the first pass writes are those the header shows already (R165, R172). -/
theorem State.trailHeader_shown {s : State} (h : s.RamShows) {x : Nat} (h1 : 32 ≤ x) (h2 : x ≤ 37) :
    byteAt s.trailHeader (x - 32) = s.rd x := by
  have word {lo hi : Byte} {w : Word} (e : natOf16 lo hi = w.toNat) :
      byteOf w.toNat = lo ∧ byteOf (w.toNat / 256) = hi := by
    have := lo.isLt
    have := hi.isLt
    simp only [natOf16] at e
    refine ⟨BitVec.eq_of_toNat_eq ?_, BitVec.eq_of_toNat_eq ?_⟩ <;> rw [byteOf_toNat] <;> omega
  obtain ⟨w0, w1⟩ := word h.writeCount
  obtain ⟨r0, r1⟩ := word h.readMark
  have cases : x = 32 ∨ x = 33 ∨ x = 34 ∨ x = 35 ∨ x = 36 ∨ x = 37 := by omega
  rcases cases with rfl | rfl | rfl | rfl | rfl | rfl
  · exact w0
  · exact w1
  · exact r0
  · exact r1
  · exact h.unread.symm
  · exact h.overrun.symm

theorem State.endPublish_effect (copy : List Byte) (hp : s.pub.pass = some copy) :
    Effect [.ram, .board, .pass, .spacing] [] s (s.endPublish copy) := by
  refine Effect.intro [.memories, .ram, .generation] (fun f hf => ⟨?_, ?_, ?_, fun x => ?_⟩) ?_
  · obtain ⟨m, pb, h⟩ := s.endPublish_only copy
    rw [h]
    cases f <;> simp_all [Field.onCore]
  · rw [State.endPublish_pub]; cases f <;> simp_all [Field.onPub]
  · obtain ⟨m, pb, h⟩ := s.endPublish_only copy
    rw [h]; exact f.onStore_refl _
  · rw [State.endPublish_port]; exact f.onPort_refl _
  · simp only [List.forall_mem_cons, List.not_mem_nil, IsEmpty.forall_iff, implies_true, and_true]
    refine ⟨fun h => State.MemoriesCanonical.endPublish h copy, fun ⟨hm, h⟩ => ⟨hm.endPublish copy, ?_⟩, fun h => ?_⟩
    · have hl := h.passCopy copy hp
      have pub := s.endPublish_pub copy
      refine h.of_generation (fun a ha hw => ?_) ?_ (by rw [pub]) (by rw [pub]) (by rw [pub]) (by rw [pub])
        (fun p => by rw [State.endPublish_port]) (fun p => by rw [State.endPublish_port]) fun c hc => ?_
      · rw [State.rd_endPublish hm, if_neg (by omega), if_neg (by omega), State.rd_writeView hm hl]
        have far : (32 ≤ a ∧ a ≤ 37) ∨ 1024 ≤ a := by
          rcases hw with h | h | ⟨p, rfl⟩ | ⟨p, rfl⟩ | h
          · omega
          · exact .inl h
          · exact .inr (by cases p <;> decide)
          · exact .inr (by cases p <;> decide)
          · exact .inr (by omega)
        rcases far with ⟨h1, h2⟩ | h1
        · rw [if_neg (by omega), if_pos (by omega)]
          split
          · exact State.trailHeader_shown h h1 h2
          · rfl
        · rw [if_neg (by omega), if_neg (by omega), if_neg (by omega)]
      · rw [State.rd_endPublish hm, State.rd_endPublish hm, pub]
        simpa using natOf16_word (s.pub.generation + 1)
      · rw [pub] at hc; cases hc
    · have hg : ¬s.pub.generation.toNat % 2 = 0 := fun e => by
        rw [(show s.GenerationLaw from h).mp e] at hp; cases hp
      show (s.endPublish copy).pub.generation.toNat % 2 = 0 ↔ (s.endPublish copy).pub.pass = none
      rw [State.endPublish_pub]
      exact iff_of_true ((generation_parity _).mpr hg) rfl

/-! ### The spacing -/

theorem State.setSpacing_effect (d : Option Nat) :
    Effect [.spacing] [] s { s with pub := { s.pub with spacingDue := d } } := by
  refine Effect.update s [] (fun k hk => by cases hk) (hpb := fun f hf => ?_)
  cases f <;> simp_all [Field.onPub]

theorem State.passMayStart_pass {s : State} (h : s.passMayStart = true) : s.pub.pass = none := by
  simp only [State.passMayStart, Bool.and_eq_true, Option.isNone_iff_eq_none] at h
  exact h.2

theorem State.spacingFired_effect : Effect [.ram, .dirty, .pass, .spacing] [.view] s s.spacingFired := by
  have h1 := s.setSpacing_effect none
  unfold State.spacingFired
  simp only
  split
  · next h => exact h1.seq (State.startPublish_effect _ (State.passMayStart_pass h))
  · exact h1.mono

end

end Sys2Proof.Machine
end

