-- ==== Sys2Proof/Proofs/Accesses.lean ====
section
/-!
PROOFS. The accesses of a port (chapter 10): what a judgement says of the address and the cell, and what reads and writes
can do.
-/

-- Proofs in the order of the text: those that elaborate default tactic arguments at once wait for each other.
set_option Elab.async false

namespace Sys2Proof.Machine

section

variable (s : State)

/-! ### Reads -/

theorem State.portRead_effect (p : Port) (a : Addr) : Effect [.iface] [] s (s.portRead p a) := by
  unfold State.portRead
  simp only
  split_ifs
  all_goals
    refine Effect.setPort s p _ [] (fun f hf => ?_) (fun k hk => by cases hk)
    cases f <;> simp_all [Field.onPort]

/-! ### Judgements -/

/-- The bytes an access names: one, or on a 16-bit port two (R177). -/
def State.Spans (s : State) (p : Port) (a : Addr) (y : Nat) : Prop :=
  accessAddr (s.port p).wide a ≤ y ∧ y ≤ accessAddr (s.port p).wide a + 1 ∧
    ((s.port p).wide = false → y = accessAddr (s.port p).wide a)

/-- The bytes of a port that no block watches and the part does not write: tallies, profiles, setup and lists. -/
def PlainAddr (y : Nat) : Prop := (0x0600 ≤ y ∧ y < 0x0F00) ∨ (0x0FC0 ≤ y ∧ y < 0x1040)

/-- What a judgement says of the address and of the cell. -/
def State.Judged (s : State) (p : Port) (a : Addr) (k : WriteKind) : Prop :=
  match k with
  | .check _ | .plain => ∀ y, s.Spans p a y → PlainAddr y
  | .param => ∀ y, s.Spans p a y → Config.cellBase p < y ∧ y < Config.cellBase p + 16
  | .post => (s.port p).cell = .idle
  | .withdraw => (s.port p).cell = .posted
  | .handBack => (s.port p).cell = .answered
  | .stateIgnored | .release _ | .stage _ | .commit _ _ _ | .unpaired | .stray => True

/-- A 16-bit access begins at an even address. -/
theorem accessAddr_even {wide : Bool} (a : Addr) (h : wide = true) : accessAddr wide a % 2 = 0 := by
  rw [accessAddr, if_pos h]
  omega

/-- The bytes of an access stay in an area with even bounds that holds its first one. -/
theorem State.Spans.within {s : State} {p : Port} {a : Addr} {y lo hi : Nat} (h : s.Spans p a y)
    (h1 : lo ≤ accessAddr (s.port p).wide a) (h2 : accessAddr (s.port p).wide a < hi) (he : hi % 2 = 0) :
    lo ≤ y ∧ y < hi := by
  obtain ⟨ha, hb, hc⟩ := h
  cases hw : (s.port p).wide with
  | false => rw [hc hw]; exact ⟨h1, h2⟩
  | true =>
    have := accessAddr_even a hw
    omega

theorem State.judged_judgeState (p : Port) (a : Addr) (v : Byte) : s.Judged p a (judgeState (s.port p).cell v) := by
  unfold judgeState
  split
  · next e => split <;> simp [State.Judged, e]
  · next e => split <;> simp [State.Judged, e]
  · trivial
  · next e => split <;> simp [State.Judged, e]

theorem State.judged_judgeCell (p : Port) (a : Addr) (v : Byte) (h : Config.cellBase p ≤ accessAddr (s.port p).wide a) :
    s.Judged p a
      (judgeCell (s.port p).wide (s.port p).cell (accessAddr (s.port p).wide a - Config.cellBase p) v) := by
  unfold judgeCell
  split_ifs with h0 h1 h2
  · exact s.judged_judgeState p a v
  · intro y hy
    have := hy.2.2 h1.2
    omega
  · intro y hy
    have he : Config.cellBase p % 2 = 0 := by cases p <;> decide
    have := hy.within (lo := Config.cellBase p + 4) (hi := Config.cellBase p + 16) (by omega) (by omega) (by omega)
    omega
  · trivial

theorem State.judged_judgeContext (p : Port) (a : Addr) (o : Nat) (b0 b1 : Byte) :
    s.Judged p a (judgeContext (s.port p) o b0 b1) := by
  unfold judgeContext
  split_ifs
  · trivial
  · trivial
  · split
    · split_ifs <;> trivial
    · trivial

/-- Every judgement of the port interface is right about the address and the cell (R175 to R180). -/
theorem State.judged_judgeWrite (p : Port) (a : Addr) (d : Word) : s.Judged p a (s.judgeWrite p a d) := by
  have plain : ∀ lo hi, lo ≤ accessAddr (s.port p).wide a → accessAddr (s.port p).wide a < hi → hi % 2 = 0 →
      (0x0600 ≤ lo ∧ hi ≤ 0x0F00) ∨ (0x0FC0 ≤ lo ∧ hi ≤ 0x1040) → ∀ y, s.Spans p a y → PlainAddr y := by
    intro lo hi h1 h2 he hb y hy
    have := hy.within h1 h2 he
    unfold PlainAddr
    omega
  unfold State.judgeWrite
  simp only
  split
  · next h =>
    have hy := plain _ _ h.1 h.2 (by decide) (.inl ⟨by decide, by decide⟩)
    split
    · split_ifs
      all_goals first | exact hy | trivial
    · trivial
  split
  · next h =>
    have hy := plain _ _ h.1 h.2 (by decide) (.inl ⟨by decide, by decide⟩)
    split
    · split
      · exact hy
      · trivial
    · trivial
  split
  · next h => exact s.judged_judgeCell p a _ h.1
  split
  · exact s.judged_judgeContext p a _ _ _
  split
  · next h => exact plain _ _ h.1 h.2 (by cases p <;> decide) (.inr (by cases p <;> decide))
  split
  · next h => exact plain _ _ h.1 h.2 (by cases p <;> decide) (.inr (by cases p <;> decide))
  split
  · trivial
  split
  · trivial
  · trivial

theorem not_watched_of_plain {y : Nat} (h : PlainAddr y) : ¬Watched y := by
  rintro (h' | h' | ⟨p, rfl⟩ | ⟨p, rfl⟩ | h')
  · unfold PlainAddr at h; omega
  · unfold PlainAddr at h; omega
  · exact absurd h (by cases p <;> simp [PlainAddr, Config.cellBase])
  · exact absurd h (by cases p <;> simp [PlainAddr, Config.releaseAddr])
  · unfold PlainAddr at h; omega

theorem not_watched_of_param {p : Port} {y : Nat} (h : Config.cellBase p < y) (h' : y < Config.cellBase p + 16) :
    ¬Watched y := by
  rintro (e | e | ⟨q, rfl⟩ | ⟨q, rfl⟩ | e)
  · cases p <;> simp only [Config.cellBase] at h <;> omega
  · cases p <;> simp only [Config.cellBase] at h <;> omega
  · cases p <;> cases q <;> simp only [Config.cellBase] at h h' <;> omega
  · cases p <;> cases q <;> simp only [Config.cellBase, Config.releaseAddr] at h h' <;> omega
  · cases p <;> simp only [Config.cellBase] at h' <;> omega

/-! ### What a write stores -/

theorem State.storeAccess_effect (p : Port) (a : Addr) (d : Word) (h : ∀ y, s.Spans p a y → ¬Watched y) :
    Effect [.ram, .board] [] s (s.storeAccess p a d) := by
  unfold State.storeAccess
  simp only
  split
  · next hw =>
    refine s.wrBytes_effect _ _ fun x h1 h2 => h x ⟨h1, ?_, fun e => by simp [e] at hw⟩
    simp only [List.length_cons, List.length_nil] at h2
    omega
  · exact s.wr_effect _ _ (h _ ⟨le_refl _, Nat.le_succ _, fun _ => rfl⟩)

theorem State.storeRequestCode_effect (p : Port) (d : Word) : Effect [.ram, .board] [] s (s.storeRequestCode p d) := by
  unfold State.storeRequestCode
  split
  · exact s.wr_effect _ _ (not_watched_of_param (p := p) (by omega) (by omega))
  · exact Effect.refl s

theorem State.touch_effect (i : Slot) : Effect [.slots] [] s (s.touch i) := Effect.setSlot s i _ fun h => h

theorem State.setChannels_effect (p : Port) (v : Vector (Option Nat) 16) :
    Effect [.channels] [] s (s.setPort p { s.port p with channels := v }) := by
  refine Effect.setPort s p _ [] (fun f hf => ?_) (fun k hk => by cases hk)
  cases f <;> simp_all [Field.onPort]

theorem not_watched_of_context {p : Port} {y : Nat} (h : Config.contextBase p ≤ y) (h' : y < Config.contextBase p + 32) :
    ¬Watched y := by
  rintro (e | e | ⟨q, rfl⟩ | ⟨q, rfl⟩ | e)
  · cases p <;> simp only [Config.contextBase] at h <;> omega
  · cases p <;> simp only [Config.contextBase] at h <;> omega
  · cases p <;> cases q <;> simp only [Config.contextBase, Config.cellBase] at h h' <;> omega
  · cases p <;> cases q <;> simp only [Config.contextBase, Config.releaseAddr] at h h' <;> omega
  · cases p <;> simp only [Config.contextBase] at h' <;> omega

theorem State.commitChannel_effect (p : Port) (c : Fin 16) (lo hi : Byte) :
    Effect [.ram, .board, .channels] [] s (s.commitChannel p c lo hi) := by
  have h1 : Effect [.ram, .board] [] s (s.wrBytes (Config.contextBase p + 2 * c.val) [lo, hi]) :=
    s.wrBytes_effect _ _ fun x h1 h2 => not_watched_of_context (p := p) (by omega)
      (by simp only [List.length_cons, List.length_nil] at h2; omega)
  have h2 := (s.wrBytes (Config.contextBase p + 2 * c.val) [lo, hi]).setChannels_effect p
    ((s.port p).channels.set c (some s.now))
  rw [State.wrBytes_port] at h2
  exact h1.step h2

theorem State.setStray_effect (p : Port) (b : Bool) :
    Effect [.iface] [] s (s.setPort p { s.port p with stray := b }) := by
  refine Effect.setPort s p _ [] (fun f hf => ?_) (fun k hk => by cases hk)
  cases f <;> simp_all [Field.onPort]

theorem State.flagStray_effect (p : Port) : Effect [.iface, .dirty] [] s (s.flagStray p) :=
  (s.setStray_effect p true).step (State.markViewIf_effect _ _)

theorem State.stageFor_effect (p : Port) (k : WriteKind) (d : Word) : Effect [.iface] [] s (s.stageFor p k d) := by
  refine Effect.setPort s p _ [] (fun f hf => ?_) (fun k hk => by cases hk)
  cases f <;> simp_all [Field.onPort]

/-! ### What a write does to the cell -/

/-- A cell that neither becomes TAKEN nor ceases to be keeps the law of the executor. -/
theorem State.setCell_untaken_effect (p : Port) (c : CellState) (h : c = .taken ↔ (s.port p).cell = .taken) :
    Effect [.ram, .board, .cells] [.attention] s (s.setCell p c) := by
  refine (s.setCell_effect p c).swap.repair .taken fun hs q => ?_
  have he : (s.setCell p c).exec = s.exec := (s.setCell_frame p c).1.2.2.2
  rw [he, State.setCell_port, ← hs q]
  split
  · next e => rw [e]; exact h
  · rfl

/-- A cell that neither becomes ANSWERED nor ceases to be leaves the attention lines right. -/
theorem State.setCell_quiet_effect (p : Port) (c : CellState) (h : c = .taken ↔ (s.port p).cell = .taken)
    (h' : c = .answered ↔ (s.port p).cell = .answered) : Effect [.ram, .board, .cells] [] s (s.setCell p c) := by
  refine (s.setCell_untaken_effect p c h).repair .attention fun hs q => ?_
  have hp : (s.setCell p c).pub = s.pub := (s.setCell_frame p c).2
  have := hs q
  rw [State.attnNow] at this ⊢
  rw [hp, State.setCell_port]
  split
  · next e => subst e; rw [this]; simp only [h']
  · exact this

theorem State.withdraw_effect (p : Port) (h : (s.port p).cell = .posted) :
    Effect [.ram, .board, .cells, .exec] [] s (s.withdraw p) := by
  have h1 := s.setCell_quiet_effect p .idle (by simp [h]) (by simp [h])
  unfold State.withdraw
  simp only
  split
  · exact (h1.step (State.unclaim_effect _) (l := [.ram, .board, .cells, .exec])).trans ((State.offer_effect _).mono)
  · exact h1.step (State.offer_effect _)

theorem State.handBack_effect (p : Port) (h : (s.port p).cell = .answered) :
    Effect [.ram, .board, .cells, .attn] [] s (s.setCell p .idle).refreshAttn :=
  ((s.setCell_untaken_effect p .idle (by simp [h])).seq (State.refreshAttn_effect _)).repair .attention
    fun _ => State.attentionCurrent_refreshAttn _

/-! ### The whole write -/

/-- The fields a judged write reaches, beside the silence watch. -/
abbrev writeFields : List Field :=
  [.ram, .board, .slots, .cells, .exec, .attn, .releases, .channels, .iface, .dirty]

theorem State.writeEffect_effect (p : Port) (a : Addr) (d : Word) (k : WriteKind) (h : s.Judged p a k) :
    Effect writeFields [] s (s.writeEffect p a d k) := by
  cases k with
  | check i => exact (s.storeAccess_effect p a d fun y hy => not_watched_of_plain (h y hy)).step (State.touch_effect _ i)
  | post =>
    have hc : ((s.storeRequestCode p d).port p).cell = .idle := ((s.storeRequestCode_effect p d).cell p).trans h
    have h2 := (s.storeRequestCode_effect p d).step
      ((s.storeRequestCode p d).setCell_quiet_effect p .posted (by simp [hc]) (by simp [hc]))
      (l := [.ram, .board, .cells])
    exact h2.step (State.offer_effect _)
  | withdraw => exact (s.withdraw_effect p h).mono
  | handBack => exact (s.handBack_effect p h).mono
  | stateIgnored => exact (s.storeRequestCode_effect p d).mono
  | param =>
    unfold State.writeEffect
    simp only
    split
    · exact (s.storeAccess_effect p a d fun y hy => not_watched_of_param (h y hy).1 (h y hy).2).mono
    · exact Effect.refl s
  | release n => exact (s.raiseRelease_effect p n).mono
  | stage c => exact Effect.refl s
  | commit c lo hi => exact (s.commitChannel_effect p c lo hi).mono
  | unpaired => exact Effect.refl s
  | plain => exact (s.storeAccess_effect p a d fun y hy => not_watched_of_plain (h y hy)).mono
  | stray => exact (s.flagStray_effect p).mono

/-- A judgement stays right while the port's width and cell stay. -/
theorem State.Judged.of_port {s t : State} {p : Port} {a : Addr} {k : WriteKind} (h : s.Judged p a k)
    (hw : (t.port p).wide = (s.port p).wide) (hc : (t.port p).cell = (s.port p).cell) : t.Judged p a k := by
  have hs : ∀ y, t.Spans p a y → s.Spans p a y := fun y hy => by rw [State.Spans, hw] at hy; exact hy
  cases k <;> simp only [State.Judged, hc] at h ⊢ <;> first | exact h | exact fun y hy => h y (hs y hy)

/-- The fields a port's write reaches. -/
abbrev accessFields : List Field := .trail :: .silent :: .silenceDue :: .lamp :: writeFields

theorem State.portWrite_effect (p : Port) (a : Addr) (d : Word) (n : Nat) :
    Effect accessFields [] s (s.portWrite p a d n) := by
  unfold State.portWrite
  simp only
  generalize hk : s.judgeWrite p a d = k
  have h1 := s.stageFor_effect p k d
  have hj : (s.stageFor p k d).Judged p a k :=
    (hk ▸ s.judged_judgeWrite p a d).of_port (h1.onPort p .widths (by decide)).1 (h1.cell p)
  exact (((h1.step ((s.stageFor p k d).writeEffect_effect p a d k hj) (l := accessFields)).trans
    ((State.takeReleases_effect _ p n).mono))).trans ((State.heard_effect _ p).mono)

theorem State.wholeWrite_effect (p : Port) (a : Addr) (d : Word) : Effect accessFields [] s (s.wholeWrite p a d) :=
  s.portWrite_effect p a d _

end

end Sys2Proof.Machine
end

