-- ==== Sys2Proof/Proofs/Requests.lean ====
section
/-!
PROOFS. The requests (chapter 8): each does its work and then says what its completion waits for, so that one argument
serves them all.
-/

-- Proofs in the order of the text: those that elaborate default tactic arguments at once wait for each other.
set_option Elab.async false

namespace Sys2Proof.Machine

section

variable (s : State)

/-! ### The take -/

/-- What stands where a request is taken (R139, R140). -/
theorem State.canTake_iff (p : Port) : s.canTake p = true ↔ s.inReset = false ∧ s.exec.taken = none ∧
    s.exec.claim = some p ∧ (s.port p).cell = .posted ∧ (s.ride.state = .noRide ∨ s.ride.state = .riding) := by
  simp [State.canTake, State.requestsTaken, and_assoc]

theorem State.take_exec (p : Port) : (s.take p).exec = { s.exec with claim := none, pref := p.other } :=
  (State.setCell_frame _ p .taken).1.2.2.2

theorem State.take_port (p q : Port) :
    (s.take p).port q = if q = p then { s.port p with cell := .taken } else s.port q := by
  rw [State.take, State.setCell_port]
  cases p <;> cases q <;> rfl

theorem State.take_effect (p : Port) (h : (s.port p).cell = .posted) :
    Effect [.ram, .board, .cells, .exec] [.taken] s (s.take p) := by
  let s1 : State := { s with exec := { s.exec with claim := none, pref := p.other } }
  have h1 : Effect [.exec] [] s s1 := Effect.setExec s _ rfl
  have hc : (s1.port p).cell = .posted := (h1.cell p).trans h
  refine Effect.repair .attention (h1.seq (s1.setCell_effect p .taken)) fun hs q => ?_
  have := hs q
  have hpub : (s.take p).pub = s.pub := (State.setCell_frame s1 p .taken).2
  rw [State.attnNow] at this ⊢
  rw [hpub, State.take_port]
  split
  · next e => subst e; rw [this, h]; rfl
  · exact this

/-- An executor that holds port `p`'s request, whose cell alone has become TAKEN, obeys the law of R135 and R139. -/
theorem State.takenLaw_of_take {t : State} (p : Port) (hs : s.TakenLaw) (hn : s.exec.taken = none)
    (hc : ∀ q, (t.port q).cell = ((s.take p).port q).cell) (hx : t.exec.taken.map Taken.port = some p) : t.TakenLaw := by
  intro q
  rw [hc, State.take_port, hx]
  split
  · next e => simp [e]
  · next e =>
    have := hs q
    rw [hn] at this
    have hq : (s.port q).cell ≠ .taken := fun h => by simpa using this.mp h
    simp only [Option.some.injEq]
    exact iff_of_false hq fun h => e h.symm

/-! ### The work of a request -/

/-- The fields the work of a request reaches before it waits for its completion. -/
abbrev workFields : List Field :=
  .slots :: .profiles :: .adoption :: .passes :: .iface :: .retErase :: engineFields

/-- From `t` to `u` port `p`'s request does its work, and then waits (R141). -/
def State.Works (t u : State) (p : Port) : Prop :=
  ∃ v w, u = v.await w ∧ w.port = p ∧ Effect workFields [] t v

theorem State.Works.reply (t : State) (p : Port) (st : Status) (a : List Byte) : t.Works (t.reply p st a) p :=
  ⟨t, .reply p st a, rfl, rfl, Effect.refl t⟩

theorem State.Works.of_reply {t v : State} {p : Port} (st : Status) (a : List Byte) (h : Effect workFields [] t v) :
    t.Works (v.reply p st a) p :=
  ⟨v, .reply p st a, rfl, rfl, h⟩

theorem State.adoptOutcome_await (p : Port) (n : Nat) (a : List Byte) :
    ∃ w, s.adoptOutcome p n a = s.await w ∧ w.port = p := by
  unfold State.adoptOutcome
  split_ifs
  · exact ⟨.adopted p false a, rfl, rfl⟩
  · exact ⟨.adopted p true a, rfl, rfl⟩
  · exact ⟨.adopt p n a, rfl, rfl⟩

theorem State.clearOutcome_await (p : Port) (a : List Byte) : ∃ w, s.clearOutcome p a = s.await w ∧ w.port = p := by
  unfold State.clearOutcome
  split_ifs
  · exact ⟨.reply p .storeFault a, rfl, rfl⟩
  · exact ⟨.clear p a, rfl, rfl⟩

theorem State.adopt_works (p : Port) : s.Works (s.adopt p) p := by
  unfold State.adopt
  split
  · exact .reply s p _ _
  · obtain ⟨w, h, hw⟩ := (s.adoptSlots p).1.adoptOutcome_await p (s.adoptSlots p).2
      (bytes16 (s.enabledCount p) ++ [byteOf (s.clampedCount p), byteOf (s.adoptSlots p).2])
    exact ⟨_, w, h, hw, (s.adoptSlots_effect p).mono⟩

theorem State.clearSlot_works (p : Port) (i : Slot) : s.Works (s.clearSlot p i) p := by
  obtain ⟨w, h, hw⟩ := ((s.clearOne i).tellClear i s.quals[i].m).clearOutcome_await p
    [byteOf i.val, byteOf (qstateCode s.quals[i].state)]
  exact ⟨_, w, h, hw, (s.clearOne_effect i).step (State.tellClear_effect _ i _)⟩

theorem State.clearIndex_works (p : Port) : s.Works (s.clearIndex p) p := by
  unfold State.clearIndex
  simp only
  split_ifs
  · exact s.clearSlot_works p _
  · exact .reply s p _ _
  · exact .reply s p _ _

theorem State.tellClearPort_effect (p : Port) :
    Effect [.declined, .dirty, .ram, .trail, .attn, .logQueue, .erase] [] s (s.tellClearPort p) := by
  have h1 := (s.setDeclined_effect p 0).step (State.markView_effect _) (l := [.declined, .dirty])
  have h2 := h1.step (State.appendPart_effect _ .cleared (byteOf (portCode p)))
    (l := [.declined, .dirty, .ram, .trail, .attn])
  exact h2.step (State.queueLog_effect _ _)

theorem State.clearPort_works (p : Port) : s.Works (s.clearPort p) p := by
  unfold State.clearPort
  split
  · have h1 := Effect.foldl _ (fun t i => State.clearOne_effect t i) (s.portSlots p) s
    obtain ⟨w, h, hw⟩ := (((s.portSlots p).foldl (fun t i => t.clearOne i) s).tellClearPort p).clearOutcome_await p
      (s.clearPortAnswer p)
    exact ⟨_, w, h, hw, h1.step (State.tellClearPort_effect _ p)⟩
  · exact .reply s p _ _

theorem State.fetchFrame_works (p : Port) : s.Works (s.fetchFrame p) p := by
  unfold State.fetchFrame
  split
  · split
    · exact .reply s p _ _
    · exact .reply s p _ _
  · exact .reply s p _ _

theorem State.fetchQualifier_works (p : Port) : s.Works (s.fetchQualifier p) p := by
  unfold State.fetchQualifier
  split
  · exact .reply s p _ _
  · exact .reply s p _ _

theorem State.readRetained_works (p : Port) : s.Works (s.readRetained p) p := by
  unfold State.readRetained
  split
  · exact ⟨s, .readRetained p _, rfl, rfl, Effect.refl s⟩
  · exact .reply s p _ _

theorem State.eraseRetained_works (p : Port) : s.Works (s.eraseRetained p) p := by
  unfold State.eraseRetained
  split_ifs
  · exact .reply s p _ _
  · exact .reply s p _ _
  · exact ⟨_, .eraseRetained p, rfl, rfl, (s.setRetErase_effect .waiting).mono⟩

theorem State.acknowledge_works (p : Port) : s.Works (s.acknowledge p) p := by
  have h1 : Effect [.iface, .declined] [] s (s.setPort p { s.port p with stray := false, declined := 0 }) := by
    refine Effect.setPort s p _ [] (fun f hf => ?_) (fun k hk => by cases hk)
    cases f <;> simp_all [Field.onPort]
  exact .of_reply _ _ (h1.step (State.markViewIf_effect _ _))

/-! ### The request commands -/

/-- The fields a request command reaches. -/
abbrev requestFields : List Field :=
  .board :: .cells :: .exec :: .reader :: .passTimer :: .silenceDue :: workFields

/-- The take of a request with its work: the cell is TAKEN and the executor holds the request (R137, R141). -/
theorem State.taken_effect (p : Port) (f : State → State) (hf : ∀ t, State.Works t (f t) p) (h : s.canTake p = true) :
    Effect requestFields [] s (f (s.take p)) := by
  obtain ⟨-, hn, -, hc, -⟩ := (s.canTake_iff p).mp h
  obtain ⟨v, w, hv, hw, he⟩ := hf (s.take p)
  rw [hv]
  have h3 : Effect [.exec] [.taken] v (v.await w) := Effect.update _ [] (fun k hk => by cases hk) (hx := .inl (by decide))
  have h12 := (s.take_effect p hc).seq he (l := requestFields) (b := [.taken])
  refine (h12.trans h3.mono).repair .taken fun hs => ?_
  refine s.takenLaw_of_take p hs hn (fun q => ?_) (congrArg some hw)
  have : ((v.await w).port q).cell = (v.port q).cell := h3.cell q
  rw [this]
  exact he.cell q

theorem arises_effect {l : List Field} {b : List Law} {c : Bool} {s t : State}
    (h : s.inReset = false → c = true → Effect l b s t) : ∃ u, arises c s t = .next u ∧ Effect l b s u := by
  unfold arises
  split
  · next e =>
    simp only [Bool.and_eq_true, Bool.not_eq_true'] at e
    exact ⟨t, rfl, h e.1 e.2⟩
  · exact ⟨s, rfl, Effect.refl s⟩

theorem State.request_effect (r : RequestStep) (mine : Bool) (f : State → State)
    (hf : ∀ t, State.Works t (f t) r.port) : ∃ u, s.request r mine f = .next u ∧ Effect requestFields [] s u := by
  unfold State.request
  split
  · refine arises_effect fun _ h => ?_
    have hc := (Bool.and_eq_true_iff.mp h).1
    exact (s.taken_effect r.port f hf hc).trans ((State.finish_effect _ r.port).mono)
  · exact arises_effect fun _ h => s.taken_effect r.port f hf (Bool.and_eq_true_iff.mp h).1
  · exact arises_effect fun _ _ => (s.finish_effect r.port).mono

theorem State.answerRetained_effect (p : Port) (k : Fin 16) (h : s.exec.taken = some (.readRetained p k)) :
    Effect [.ram, .board, .cells, .exec, .attn] [] s (s.answerRetained p k) := by
  have hp : s.exec.taken.map Taken.port = some p := by rw [h]; rfl
  unfold State.answerRetained
  split
  · exact s.complete_effect p _ _ hp
  · exact s.complete_effect p _ _ hp
  · exact s.complete_effect p _ _ hp

end

end Sys2Proof.Machine
end

