-- ==== Sys2Proof/Proofs/Commands.lean ====
section
/-!
PROOFS. What each command can do: the fields it reaches and the laws it may break, which are none, but that a pass's start
clears the publish-dirty mark. Every law a step keeps is read off one theorem, `exec_effect`.
-/

-- Proofs in the order of the text: those that elaborate default tactic arguments at once wait for each other.
set_option Elab.async false

namespace Sys2Proof.Machine

section

variable (s : State)

/-! ### Reset -/

/-- A reset reaches everything but the queue. -/
abbrev resetFields : List Field :=
  [.lines, .straps, .now, .ram, .board, .slots, .quals, .profiles, .records, .frames, .ride, .flash, .exec, .dirty,
    .trail, .reader, .pass, .spacing, .widths, .iface, .releases, .adoption, .passTimer, .passes, .declined, .silenceDue,
    .silent, .cells, .channels, .counts, .lamp, .attn, .storeState, .sectors, .marks, .logQueue, .retQueue, .program,
    .erase, .rideEnding, .inhibit, .retained, .retErase]

theorem State.released_slots (straps : Straps) (ign : Bool) (flash : Memory) (q : List Instr) (i : Slot) :
    (State.released straps ign flash q).slots[i] = SlotEngine.reset := by
  simp [State.released]

theorem State.released_quals (straps : Straps) (ign : Bool) (flash : Memory) (q : List Instr) (i : Slot) :
    (State.released straps ign flash q).quals[i] = Qualifier.reset := by
  simp [State.released]

theorem State.released_port (straps : Straps) (ign : Bool) (flash : Memory) (q : List Instr) (p : Port) :
    ∃ wide swapped, (State.released straps ign flash q).port p = PortState.reset wide swapped := by
  cases p <;> exact ⟨_, _, rfl⟩

theorem State.released_ramShows (straps : Straps) (ign : Bool) (flash : Memory) (q : List Instr) :
    (State.released straps ign flash q).RamShows := by
  refine ⟨rfl, rfl, rfl, rfl, rfl, fun p => ?_, fun p => .inl rfl, fun a _ => rfl, fun copy h => by cases h⟩
  cases p <;> rfl

/-- Reset release leaves every law in force (R182); of flash the laws ask that it be canonical, where they look at it. -/
theorem State.released_holds (straps : Straps) (ign : Bool) (flash : Memory) (q : List Instr) (k : Law)
    (h : Field.flash ∈ k.fields → Memory.wf flashDefault flash = true) : k.Holds (State.released straps ign flash q) := by
  cases k with
  | memories => exact ⟨rfl, h (by decide)⟩
  | ram => exact ⟨⟨rfl, h (by decide)⟩, State.released_ramShows _ _ _ _⟩
  | trail => exact ⟨Nat.zero_le 64, by simp [State.released, Publisher.reset]⟩
  | generation => exact ⟨fun _ => rfl, fun _ => rfl⟩
  | attention => intro p; cases p <;> rfl
  | ranges => intro i; rw [State.released_quals]; exact Qualifier.inRange_reset
  | bar => intro i; rw [State.released_slots]; exact ⟨by decide, by decide⟩
  | lamps => intro p; cases p <;> exact ⟨rfl, rfl⟩
  | taken => intro p; cases p <;> exact ⟨fun h => (by cases h), fun h => (by cases h)⟩
  | ign => exact ⟨fun h => (by cases h), fun h => (by cases h)⟩
  | view => rfl

theorem State.released_effect (straps : Straps) (ign : Bool) (flash : Memory)
    (h : Memory.wf flashDefault s.flash = true → Memory.wf flashDefault flash = true) :
    Effect resetFields [] s (State.released straps ign flash s.pending) := by
  refine ⟨fun f hf => ?_, fun k _ hs => State.released_holds _ _ _ _ k fun hk => h ?_⟩
  · cases f <;> first | exact absurd (by decide) hf | skip
    exact ⟨rfl, trivial, trivial, fun _ => trivial⟩
  · cases k <;> first | exact absurd hk (by decide) | skip
    · exact hs.2
    · exact hs.1.2

/-- The lines' levels alone. -/
theorem State.setLines_effect (a b c : Bool) :
    Effect [.lines] [] s { s with resetn := a, supgood := b, ign := c } := by
  refine Effect.intro [] (fun f hf => ⟨?_, f.onPub_refl _, f.onStore_refl _, fun x => ?_⟩) (fun k hk => by cases hk)
  · cases f <;> simp_all [Field.onCore]
    exact fun h => ⟨h.of_same rfl rfl, fun _ _ => rfl⟩
  · cases x <;> exact f.onPort_refl _

theorem State.dropLine_effect (cause : ResetCause) : Effect [.lines] [] s (s.dropLine cause) := by
  cases cause with
  | resetn n => exact s.setLines_effect false s.supgood s.ign
  | supgood => exact s.setLines_effect s.resetn false s.ign

theorem State.held_effect (cut : FlashCut) : Effect resetFields [] s (s.held cut) := by
  have h1 := s.released_effect s.latched s.ign (s.cutFlash cut) (s.wf_cutFlash cut)
  unfold State.held
  generalize State.released _ _ _ _ = s1 at h1 ⊢
  exact (h1.trans (Effect.mono (Effect.setRide_kept s1 { s1.ride with debounceDue := none } rfl rfl rfl))).trans
    ((State.setLines_effect _ s.resetn s.supgood s1.ign).mono)

theorem execResetEntry_effect (cause : ResetCause) (cut : FlashCut) :
    ∃ t, execResetEntry cause cut s = .next t ∧ Effect resetFields [] s t := by
  refine ⟨_, rfl, ?_⟩
  split_ifs
  · exact (s.dropLine_effect cause).mono
  · exact (s.held_effect cut).trans ((State.dropLine_effect _ cause).mono)
  · exact Effect.refl s

theorem execResetRelease_effect (straps : Straps) :
    ∃ t, execResetRelease straps s = .next t ∧ Effect resetFields [] s t := by
  refine ⟨_, rfl, ?_⟩
  split_ifs
  · exact s.released_effect straps s.ign s.flash fun h => h
  · exact Effect.refl s

theorem execIgnChange_effect (level : Bool) : ∃ t, execIgnChange level s = .next t ∧ Effect [.lines, .ride] [] s t := by
  refine ⟨_, rfl, ?_⟩
  split_ifs
  · exact Effect.refl s
  · exact (s.setLines_effect s.resetn s.supgood level).mono
  · exact (s.setLines_effect s.resetn s.supgood level).step
      (Effect.setRide_kept _ { s.ride with debounceDue := s.debounceAfter level } rfl rfl rfl)

/-! ### Rides -/

/-- The fields RESTORE_FINISH reaches. -/
abbrev restoreFields : List Field :=
  .records :: .frames :: .sectors :: .retained :: .quals :: .ride :: .marks :: .erase :: failFields

theorem execRestoreFinish_effect : ∃ t, execRestoreFinish s = .next t ∧ Effect restoreFields [] s t := by
  refine arises_effect fun _ _ => ?_
  have h1 := s.rebuild_effect.step (State.settleStore_effect _) (l := restoreFields)
  exact (h1.trans ((State.markView_effect _).mono)).trans ((State.leaveWaiting_effect _).mono)

theorem State.setRide_dirty_effect (r : RideCtl) (c : Bool) (h : r.state = s.ride.state)
    (h' : r.proveOutDue = s.ride.proveOutDue) (hd : r.debounced = s.ride.debounced) :
    Effect [.ride, .dirty] [] s (State.markViewIf c { s with ride := r }) :=
  (Effect.setRide_kept s r h h' hd).step (State.markViewIf_effect _ c)

theorem State.countSecond_effect (d : Nat) : Effect [.ride, .dirty] [] s (s.countSecond d) :=
  s.setRide_dirty_effect _ _ rfl rfl rfl

theorem State.releaseHold_effect : Effect [.ride] [] s s.releaseHold := Effect.setRide_kept s _ rfl rfl rfl

theorem State.endProveOut_effect : Effect [.ride, .dirty, .lamp] [] s s.endProveOut := by
  have h1 : Effect [.ride, .dirty, .lamp] [.lamps, .ign] s s.endProveOut :=
    ((Effect.setRide s { s.ride with proveOutDue := none }).seq (State.markView_effect _)).trans
      ((State.refreshLamps_effect _).mono)
  refine (h1.repair .lamps fun _ => State.lampsCurrent_refreshLamps _).repair .ign fun hs => ?_
  have hr : s.endProveOut.ride = { s.ride with proveOutDue := none } := by simp [State.endProveOut]
  show s.endProveOut.IgnLaw
  rw [State.IgnLaw, hr]
  exact hs

theorem State.fallSilent_effect (p : Port) :
    Effect [.silent, .silenceDue, .ram, .trail, .attn, .dirty, .lamp] [] s (s.fallSilent p) := by
  have h1 := s.setSilent_effect p true none
  have h2 := (h1.seq (State.appendPart_effect _ .portSilent (byteOf (portCode p)))
    (l := [.silent, .silenceDue, .ram, .trail, .attn, .dirty, .lamp]) (b := [.lamps])).trans
    ((State.markView_effect _).mono)
  refine Effect.refreshing p h2 fun x hx hs => ?_
  have e : State.LampCurrent (s.setPort p { s.port p with silent := true, silenceDue := none }) x :=
    State.lamp_of_setPort _ hx hs
  exact (e.of_effect (State.appendPart_effect _ .portSilent (byteOf (portCode p)))).of_effect (State.markView_effect _)

/-- A timer's expiry: the time base reaches its deadline, and its event follows (R101, R182). -/
theorem expiry_effect {l : List Field} {b : List Law} (d : Nat) (f : State → State)
    (hf : ∀ t, Effect l b t (f t)) (hn : Field.now ∈ l := by decide) (hl : Field.lamp ∈ l := by decide) :
    ∃ t, arises true s (f (s.advanceTo d)) = .next t ∧ Effect l b s t :=
  arises_effect fun _ _ => Effect.trans ((s.advanceTo_effect d).mono (by simp [hn, hl]) (by simp)) (hf _)

theorem execIgnDebounceExpiry_effect :
    ∃ t, execIgnDebounceExpiry s = .next t ∧ Effect (.now :: ignFields) [] s t := by
  unfold execIgnDebounceExpiry
  split
  · exact expiry_effect s _ (fun t => t.takeIgn.ignActed) fun t => t.takeIgn_ignActed_effect.mono
  · exact ⟨s, rfl, Effect.refl s⟩

theorem execRideEndAccounting_effect : ∃ t, execRideEndAccounting s = .next t ∧
    Effect (.marks :: .rideEnding :: engineFields) [] s t :=
  arises_effect fun _ _ => s.accountAll_effect.step (State.closeRide_effect _)

theorem execRideTimeSecond_effect :
    ∃ t, execRideTimeSecond s = .next t ∧ Effect [.now, .lamp, .ride, .dirty] [] s t := by
  unfold execRideTimeSecond
  split
  · exact expiry_effect s _ (fun t => t.countSecond _) fun t => (t.countSecond_effect _).mono
  · exact ⟨s, rfl, Effect.refl s⟩

theorem execProveOutExpiry_effect :
    ∃ t, execProveOutExpiry s = .next t ∧ Effect [.now, .lamp, .ride, .dirty] [] s t := by
  unfold execProveOutExpiry
  split
  · exact expiry_effect s _ (fun t => t.endProveOut) fun t => t.endProveOut_effect.mono
  · exact ⟨s, rfl, Effect.refl s⟩

theorem execHoldLimitExpiry_effect : ∃ t, execHoldLimitExpiry s = .next t ∧ Effect [.now, .lamp, .ride] [] s t := by
  unfold execHoldLimitExpiry
  split
  · exact expiry_effect s _ (fun t => t.releaseHold) fun t => t.releaseHold_effect.mono
  · exact ⟨s, rfl, Effect.refl s⟩

theorem execSilenceTimerExpiry_effect (p : Port) : ∃ t, execSilenceTimerExpiry p s = .next t ∧
    Effect [.now, .silent, .silenceDue, .ram, .trail, .attn, .dirty, .lamp] [] s t := by
  unfold execSilenceTimerExpiry
  split
  · exact expiry_effect s _ (fun t => t.fallSilent p) fun t => (t.fallSilent_effect p).mono
  · exact ⟨s, rfl, Effect.refl s⟩

/-! ### Qualification -/

theorem State.passTimerFired_effect (p : Port) (d : Nat) : Effect [.passTimer, .passes] [] s (s.passTimerFired p d) := by
  let s1 := s.setPort p { s.port p with passDue := some (d + s.passPeriodOf p) }
  have h1 : Effect [.passTimer] [] s s1 := by
    refine Effect.setPort s p _ [] (fun f hf => ?_) (fun k hk => by cases hk)
    cases f <;> simp_all [Field.onPort]
  unfold State.passTimerFired
  simp only
  split
  · exact h1.step (s1.setPass_effect p (s1.port p).passPos true)
  · exact h1.step (s1.passFrom_effect p 0)

theorem execPassTimerExpiry_effect (p : Port) :
    ∃ t, execPassTimerExpiry p s = .next t ∧ Effect [.now, .lamp, .passTimer, .passes] [] s t := by
  unfold execPassTimerExpiry
  split
  · exact expiry_effect s _ (fun t => t.passTimerFired p _) fun t => (t.passTimerFired_effect p _).mono
  · exact ⟨s, rfl, Effect.refl s⟩

theorem execSlotVisit_effect (p : Port) :
    ∃ t, execSlotVisit p s = .next t ∧ Effect (.slots :: .passes :: engineFields) [] s t := by
  unfold execSlotVisit
  split
  · split
    · exact arises_effect fun _ _ => (s.visit_effect _).step (State.passFrom_effect _ p _)
    · exact ⟨s, rfl, Effect.refl s⟩
  · exact ⟨s, rfl, Effect.refl s⟩

/-! ### Port writes -/

theorem wholeWrite_command_effect (p : Port) (a : Addr) (d : Word) :
    ∃ t, arises true s (s.wholeWrite p a d) = .next t ∧ Effect accessFields [] s t :=
  arises_effect fun _ _ => s.wholeWrite_effect p a d

theorem execRelease_effect (p : Port) (w : Option (Addr × Word)) (n : Nat) :
    ∃ t, execRelease p w n s = .next t ∧ Effect accessFields [] s t := by
  refine arises_effect fun _ _ => ?_
  split
  · exact s.portWrite_effect p _ _ n
  · exact (s.takeReleases_effect p n).mono

theorem execRetainedRead_effect :
    ∃ t, execRetainedRead s = .next t ∧ Effect [.ram, .board, .cells, .exec, .attn] [] s t := by
  unfold execRetainedRead
  split
  · next p k h => exact arises_effect fun _ _ => s.answerRetained_effect p k h
  all_goals exact ⟨s, rfl, Effect.refl s⟩

/-! ### Publication -/

theorem execPublishPassStart_effect :
    ∃ t, execPublishPassStart s = .next t ∧ Effect [.ram, .dirty, .pass] [.view] s t :=
  arises_effect fun _ h => s.startPublish_effect (State.passMayStart_pass h)

theorem execPublishPassEnd_effect :
    ∃ t, execPublishPassEnd s = .next t ∧ Effect [.ram, .board, .pass, .spacing] [] s t := by
  unfold execPublishPassEnd
  split
  · next copy h => exact arises_effect fun _ _ => s.endPublish_effect copy h
  · exact ⟨s, rfl, Effect.refl s⟩

theorem execPublishSpacingExpiry_effect : ∃ t, execPublishSpacingExpiry s = .next t ∧
    Effect [.now, .lamp, .ram, .dirty, .pass, .spacing] [.view] s t := by
  unfold execPublishSpacingExpiry
  split
  · exact expiry_effect s _ (fun t => t.spacingFired) fun t => t.spacingFired_effect.mono
  · exact ⟨s, rfl, Effect.refl s⟩

theorem execBlinkPhaseBoundary_effect : ∃ t, execBlinkPhaseBoundary s = .next t ∧ Effect [.now, .lamp] [] s t :=
  arises_effect fun _ _ => s.advanceTo_effect _

/-! ### The record store -/

theorem execWriteInhibitExpiry_effect :
    ∃ t, execWriteInhibitExpiry s = .next t ∧ Effect [.now, .lamp, .inhibit] [] s t := by
  unfold execWriteInhibitExpiry
  split
  · refine expiry_effect s _ (fun t => { t with store := { t.store with inhibitDue := none } }) fun t => ?_
    exact (Effect.setStore t _ fun f hf => by cases f <;> simp_all [Field.onStore] : Effect [.inhibit] [] t _).mono
  · exact ⟨s, rfl, Effect.refl s⟩

theorem execImageBegin_effect : ∃ t, execImageBegin s = .next t ∧ Effect imageFields [] s t := by
  unfold execImageBegin
  split
  · exact ⟨_, rfl, s.beginImage_effect _ _⟩
  · exact ⟨s, rfl, Effect.refl s⟩

theorem execImageCompletion_effect (m : Marred) :
    ∃ t, execImageCompletion m s = .next t ∧ Effect imageEndFields [] s t := by
  unfold execImageCompletion
  split
  · exact arises_effect fun _ _ => s.endImage_effect _ m
  · exact ⟨s, rfl, Effect.refl s⟩
  · exact ⟨s, rfl, Effect.refl s⟩

theorem State.setCompaction_effect (v : Option (Fin 16)) :
    Effect [.sectors] [] s { s with store := { s.store with compaction := v } } :=
  Effect.setStore s _ fun f hf => by cases f <;> simp_all [Field.onStore]

theorem execCompactionStart_effect : ∃ t, execCompactionStart s = .next t ∧ Effect [.sectors] [] s t :=
  arises_effect fun _ _ => s.setCompaction_effect _

theorem State.erasePhase_effect (v : Fin 16) (m : Marred) :
    Effect (.flash :: .sectors :: .erase :: failFields) [] s (s.erasePhase v m) := by
  unfold State.erasePhase
  split
  · exact (s.setCompaction_effect none).step (State.retire_effect _ v m)
  · exact (s.startErase_effect v).mono

theorem execErasePhaseStart_effect (m : Marred) : ∃ t, execErasePhaseStart m s = .next t ∧
    Effect (.flash :: .sectors :: .erase :: failFields) [] s t := by
  unfold execErasePhaseStart
  split
  · exact arises_effect fun _ _ => s.erasePhase_effect _ m
  · exact ⟨s, rfl, Effect.refl s⟩

theorem execSpoiledEraseStart_effect :
    ∃ t, execSpoiledEraseStart s = .next t ∧ Effect [.sectors, .erase] [] s t := by
  unfold execSpoiledEraseStart
  split
  · exact arises_effect fun _ _ => s.startErase_effect _
  · exact ⟨s, rfl, Effect.refl s⟩

theorem execEraseEnd_effect (x y : Marred) : ∃ t, execEraseEnd x y s = .next t ∧
    Effect (.flash :: .sectors :: .erase :: failFields) [] s t := by
  unfold execEraseEnd
  split
  · exact arises_effect fun _ _ => s.endErase_effect _ x y
  · exact ⟨s, rfl, Effect.refl s⟩

theorem State.setErase_effect (e : EraseOp) : Effect [.erase] [] s (s.setErase e) :=
  Effect.setStore s _ fun f hf => by cases f <;> simp_all [Field.onStore]

theorem execEraseSuspended_effect : ∃ t, execEraseSuspended s = .next t ∧ Effect [.erase] [] s t := by
  unfold execEraseSuspended
  split
  · exact arises_effect fun _ _ => s.setErase_effect _
  · exact ⟨s, rfl, Effect.refl s⟩

theorem execEraseResume_effect : ∃ t, execEraseResume s = .next t ∧ Effect [.erase] [] s t := by
  unfold execEraseResume
  split
  · exact arises_effect fun _ _ => s.setErase_effect _
  · exact ⟨s, rfl, Effect.refl s⟩

theorem execRetainedEntryBegin_effect :
    ∃ t, execRetainedEntryBegin s = .next t ∧ Effect [.retQueue, .program] [] s t := by
  unfold execRetainedEntryBegin
  split
  · exact ⟨_, rfl, Effect.setStore s _ fun f hf => by cases f <;> simp_all [Field.onStore]⟩
  · exact ⟨s, rfl, Effect.refl s⟩

theorem execRetainedEntryCompletion_effect (m : Marred) : ∃ t, execRetainedEntryCompletion m s = .next t ∧
    Effect [.flash, .program, .retained, .retQueue, .dirty] [] s t := by
  unfold execRetainedEntryCompletion
  split
  · exact arises_effect fun _ _ => s.endRetained_effect _ m
  · exact ⟨s, rfl, Effect.refl s⟩
  · exact ⟨s, rfl, Effect.refl s⟩

/-! ### All commands -/

/-- The fields a command reaches. -/
def commandFields (c : Instr) : List Field :=
  match c with
  | .resetEntry _ _ | .resetRelease _ => resetFields
  | .restoreFinish => restoreFields
  | .ignChange _ => [.lines, .ride]
  | .ignDebounceExpiry => .now :: ignFields
  | .rideEndAccounting => .marks :: .rideEnding :: engineFields
  | .endingCompletion => .rideEnding :: leaveFields
  | .rideTimeSecond | .proveOutExpiry => [.now, .lamp, .ride, .dirty]
  | .holdLimitExpiry => [.now, .lamp, .ride]
  | .releaseOnCompletion => [.ride]
  | .silenceTimerExpiry _ => [.now, .silent, .silenceDue, .ram, .trail, .attn, .dirty, .lamp]
  | .passTimerExpiry _ => [.now, .lamp, .passTimer, .passes]
  | .slotVisit _ => .slots :: .passes :: engineFields
  | .checkByteWrite _ _ _ | .post _ _ _ | .withdrawal _ _ _ | .handBack _ _ _ | .release _ _ _
  | .contextLowByteStage _ _ _ | .contextCommit _ _ _ | .strayWrite _ _ _ | .portWrite _ _ _ => accessFields
  | .readPairCapture _ _ | .capturedHighRead _ _ | .otherReadEmptiesCapture _ _ => [.iface]
  | .adopt _ | .clearSlot _ | .clearPort _ | .fetchFrame _ | .fetchQualifier _ | .readRetained _ | .eraseRetained _
  | .acknowledge _ | .badRequest _ => requestFields
  | .retainedRead => [.ram, .board, .cells, .exec, .attn]
  | .publishPassStart => [.ram, .dirty, .pass]
  | .publishPassEnd => [.ram, .board, .pass, .spacing]
  | .publishSpacingExpiry => [.now, .lamp, .ram, .dirty, .pass, .spacing]
  | .blinkPhaseBoundary => [.now, .lamp]
  | .writeInhibitExpiry => [.now, .lamp, .inhibit]
  | .imageBegin => imageFields
  | .imageCompletion _ => imageEndFields
  | .compactionStart => [.sectors]
  | .erasePhaseStart _ | .eraseEnd _ _ => .flash :: .sectors :: .erase :: failFields
  | .spoiledEraseStart => [.sectors, .erase]
  | .eraseSuspended | .eraseResume => [.erase]
  | .retainedEntryBegin => [.retQueue, .program]
  | .retainedEntryCompletion _ => [.flash, .program, .retained, .retQueue, .dirty]
  | .retainedEraseStart => [.retErase]
  | .retainedEraseEnd _ => [.flash, .retained, .retErase, .retQueue, .dirty, .ram, .board, .cells, .exec, .attn]

/-- Every command answers a next state, reaches its own fields alone, and keeps every law, but that the start of a pass
clears the publish-dirty mark (R159). -/
theorem exec_effect (c : Instr) : ∃ t, exec c s = .next t ∧ Effect (commandFields c) [.view] s t := by
  have kept {l : List Field} {o : Host.Outcome State Fault Refusal} (h : ∃ t, o = .next t ∧ Effect l [] s t) :
      ∃ t, o = .next t ∧ Effect l [.view] s t := by
    obtain ⟨t, e, h⟩ := h
    exact ⟨t, e, h.mono (fun _ h => h)⟩
  cases c with
  | resetEntry cause cut => exact kept (execResetEntry_effect s cause cut)
  | resetRelease straps => exact kept (execResetRelease_effect s straps)
  | restoreFinish => exact kept (execRestoreFinish_effect s)
  | ignChange level => exact kept (execIgnChange_effect s level)
  | ignDebounceExpiry => exact kept (execIgnDebounceExpiry_effect s)
  | rideEndAccounting => exact kept (execRideEndAccounting_effect s)
  | endingCompletion => exact kept (arises_effect fun _ _ => s.completeEnding_effect)
  | rideTimeSecond => exact kept (execRideTimeSecond_effect s)
  | proveOutExpiry => exact kept (execProveOutExpiry_effect s)
  | holdLimitExpiry => exact kept (execHoldLimitExpiry_effect s)
  | releaseOnCompletion => exact kept (arises_effect fun _ _ => s.releaseHold_effect)
  | silenceTimerExpiry p => exact kept (execSilenceTimerExpiry_effect s p)
  | passTimerExpiry p => exact kept (execPassTimerExpiry_effect s p)
  | slotVisit p => exact kept (execSlotVisit_effect s p)
  | checkByteWrite p a d => exact kept (wholeWrite_command_effect s p a d)
  | post p a d => exact kept (wholeWrite_command_effect s p a d)
  | withdrawal p a d => exact kept (wholeWrite_command_effect s p a d)
  | handBack p a d => exact kept (wholeWrite_command_effect s p a d)
  | release p w n => exact kept (execRelease_effect s p w n)
  | contextLowByteStage p a d => exact kept (wholeWrite_command_effect s p a d)
  | contextCommit p a d => exact kept (wholeWrite_command_effect s p a d)
  | strayWrite p a d => exact kept (wholeWrite_command_effect s p a d)
  | portWrite p a d => exact kept (wholeWrite_command_effect s p a d)
  | readPairCapture p a => exact kept ⟨_, rfl, s.portRead_effect p a⟩
  | capturedHighRead p a => exact kept ⟨_, rfl, s.portRead_effect p a⟩
  | adopt r => exact kept (s.request_effect r _ _ fun t => t.adopt_works r.port)
  | clearSlot r => exact kept (s.request_effect r _ _ fun t => t.clearIndex_works r.port)
  | clearPort r => exact kept (s.request_effect r _ _ fun t => t.clearPort_works r.port)
  | fetchFrame r => exact kept (s.request_effect r _ _ fun t => t.fetchFrame_works r.port)
  | fetchQualifier r => exact kept (s.request_effect r _ _ fun t => t.fetchQualifier_works r.port)
  | readRetained r => exact kept (s.request_effect r _ _ fun t => t.readRetained_works r.port)
  | retainedRead => exact kept (execRetainedRead_effect s)
  | eraseRetained r => exact kept (s.request_effect r _ _ fun t => t.eraseRetained_works r.port)
  | acknowledge r => exact kept (s.request_effect r _ _ fun t => t.acknowledge_works r.port)
  | badRequest r => exact kept (s.request_effect r _ _ fun t => State.Works.reply t r.port _ _)
  | publishPassStart => exact execPublishPassStart_effect s
  | publishPassEnd => exact kept (execPublishPassEnd_effect s)
  | publishSpacingExpiry => exact execPublishSpacingExpiry_effect s
  | blinkPhaseBoundary => exact kept (execBlinkPhaseBoundary_effect s)
  | writeInhibitExpiry => exact kept (execWriteInhibitExpiry_effect s)
  | imageBegin => exact kept (execImageBegin_effect s)
  | imageCompletion m => exact kept (execImageCompletion_effect s m)
  | compactionStart => exact kept (execCompactionStart_effect s)
  | erasePhaseStart m => exact kept (execErasePhaseStart_effect s m)
  | spoiledEraseStart => exact kept (execSpoiledEraseStart_effect s)
  | eraseEnd x y => exact kept (execEraseEnd_effect s x y)
  | eraseSuspended => exact kept (execEraseSuspended_effect s)
  | eraseResume => exact kept (execEraseResume_effect s)
  | retainedEntryBegin => exact kept (execRetainedEntryBegin_effect s)
  | retainedEntryCompletion m => exact kept (execRetainedEntryCompletion_effect s m)
  | retainedEraseStart => exact kept (arises_effect fun _ _ => s.setRetErase_effect .running)
  | retainedEraseEnd x => exact kept (arises_effect fun _ _ => s.endRetainedErase_effect x)
  | otherReadEmptiesCapture p a => exact kept ⟨_, rfl, s.portRead_effect p a⟩

theorem exec_effect_of {c : Instr} {s t : State} (h : exec c s = .next t) : Effect (commandFields c) [.view] s t := by
  obtain ⟨u, hu, he⟩ := exec_effect s c
  rw [h] at hu
  cases hu
  exact he

/-! ### The step -/

theorem State.popFront_effect : Effect [.queue] [] s s.popFront := by
  refine Effect.intro [] (fun f hf => ⟨?_, f.onPub_refl _, f.onStore_refl _, fun x => ?_⟩) (fun k hk => by cases hk)
  · cases f <;> simp_all [Field.onCore, State.popFront]
    exact fun h => ⟨h.of_same rfl rfl, fun _ _ => rfl⟩
  · cases x <;> exact f.onPort_refl _

theorem State.tick_effect : Effect [.now, .lamp] [] s s.tick := by
  unfold State.tick
  split
  · exact Effect.refl s
  · exact s.advanceTo_effect _

/-- A step keeps every law, but that the start of a pass clears the publish-dirty mark. -/
theorem step_keeps {s t : State} (h : step s = .next t) (k : Law) (hk : k ≠ .view) (hs : k.Holds s) : k.Holds t := by
  unfold step at h
  split at h
  · cases h
    exact s.tick_effect.keeps k (by simp) hs
  · exact (exec_effect_of h).keeps k (by simpa using hk) (s.popFront_effect.keeps k (by simp) hs)

end

/-! ### The laws a step keeps -/

/-- Settles O53: every command writes either memory through writes that keep the canonical form. -/
theorem stepKeepsTheMemoriesCanonical : Obligations.StepKeepsTheMemoriesCanonical :=
  fun _ _ hs h => step_keeps h .memories (by decide) hs

/-- Settles O54: an append, a release and the two ends of a pass are what moves the counts and the generation. -/
theorem stepKeepsTheTrailAndGenerationLaws : Obligations.StepKeepsTheTrailAndGenerationLaws :=
  fun _ _ hs hs' h => ⟨step_keeps h .trail (by decide) hs, step_keeps h .generation (by decide) hs'⟩

/-- Settles O55: the ride states follow the debounced level, and takes and completions move cell and executor together. -/
theorem stepKeepsTheIgnAndExecutorLaws : Obligations.StepKeepsTheIgnAndExecutorLaws :=
  fun _ _ h => ⟨step_keeps h .ign (by decide), step_keeps h .taken (by decide)⟩

/-- Settles O56: whatever changes an input of a lamp or of an attention line recomputes it. -/
theorem stepKeepsLampsAndAttentionCurrent : Obligations.StepKeepsLampsAndAttentionCurrent :=
  fun _ _ h => ⟨step_keeps h .lamps (by decide), step_keeps h .attention (by decide)⟩

/-- Settles O57: the maturity is clamped, the counts are bounded, and the third held sample bars. -/
theorem stepKeepsTheQualifierAndBarLaws : Obligations.StepKeepsTheQualifierAndBarLaws :=
  fun _ _ h => ⟨step_keeps h .ranges (by decide), step_keeps h .bar (by decide)⟩

/-- Settles O59: the part writes the bytes that show its own state together with that state, and no port's write reaches
them but the cell's and the release byte. -/
theorem stepKeepsTheExchangeRamCurrent : Obligations.StepKeepsTheExchangeRamCurrent :=
  fun _ _ hm hs h => (step_keeps h .ram (by decide) ⟨hm, hs⟩).2

/-! ### What no command, or only some, can reach -/

/-- Settles O2: no command ends but in a next state, and the queue is in no command's fields. -/
theorem everyCommandAnswersANextState : Obligations.EveryCommandAnswersANextState := by
  intro c s
  obtain ⟨t, h, he⟩ := exec_effect s c
  exact ⟨t, h, he.queue (by cases c <;> simp [commandFields])⟩

/-- A reset keeps the straps as latched (R174, R177, R181). -/
theorem execResetEntry_straps {cause : ResetCause} {cut : FlashCut} {s t : State}
    (h : execResetEntry cause cut s = .next t) : t.part = s.part ∧ t.svc = s.svc ∧
      ∀ p, (t.port p).wide = (s.port p).wide ∧ (t.port p).swapped = (s.port p).swapped := by
  have drop (u : State) : (u.dropLine cause).part = u.part ∧ (u.dropLine cause).svc = u.svc ∧
      ∀ p, ((u.dropLine cause).port p).wide = (u.port p).wide ∧ ((u.dropLine cause).port p).swapped = (u.port p).swapped :=
    have e := u.dropLine_effect cause
    ⟨e.straps.1, e.straps.2, fun p => e.onPort p .widths (by decide)⟩
  have held : (s.held cut).part = s.part ∧ (s.held cut).svc = s.svc ∧
      ∀ p, ((s.held cut).port p).wide = (s.port p).wide ∧ ((s.held cut).port p).swapped = (s.port p).swapped :=
    ⟨rfl, rfl, fun p => by cases p <;> exact ⟨rfl, rfl⟩⟩
  cases h
  split_ifs
  · exact drop s
  · obtain ⟨h1, h2, h3⟩ := drop (s.held cut)
    obtain ⟨k1, k2, k3⟩ := held
    exact ⟨h1.trans k1, h2.trans k2, fun p => ⟨(h3 p).1.trans (k3 p).1, (h3 p).2.trans (k3 p).2⟩⟩
  · exact ⟨rfl, rfl, fun _ => ⟨rfl, rfl⟩⟩

/-- The state after an expiry, or the one before it. -/
theorem expiry_cases {d : Option Nat} {f : Nat → State → State} {s t : State}
    (h : (match d with
      | some d => arises true s (f d (s.advanceTo d))
      | none => .next s) = Host.Outcome.next t) : t = s ∨ ∃ d', t = f d' (s.advanceTo d') := by
  split at h
  · rcases arises_cases _ _ _ _ h with ⟨-, -, e⟩ | ⟨-, e⟩
    · exact .inr ⟨_, e⟩
    · exact .inl e
  · cases h; exact .inl rfl

theorem State.advanceTo_ride (s : State) (d : Nat) : (s.advanceTo d).ride = s.ride := (s.advanceTo_effect d).ride

/-- Only a reset and a ride begin change the ride number (R86). -/
theorem rideNumber_kept {c : Instr} {s t : State} (h : exec c s = .next t) (h1 : ∀ cause cut, c ≠ .resetEntry cause cut)
    (h2 : ∀ straps, c ≠ .resetRelease straps) (h3 : c ≠ .restoreFinish) (h4 : c ≠ .ignDebounceExpiry)
    (h5 : c ≠ .endingCompletion) : t.ride.number = s.ride.number := by
  have he := exec_effect_of h
  by_cases hr : Field.ride ∈ commandFields c
  · cases c <;> simp [commandFields] at hr <;> simp at h1 h2 h3 h4 h5
    case ignChange level =>
      cases h
      split_ifs <;> rfl
    case rideTimeSecond =>
      rcases expiry_cases (f := fun d u => u.countSecond d) h with e | ⟨d, e⟩
      · rw [e]
      · rw [e, State.countSecond, State.markViewIf_eq]
        show (s.advanceTo d).ride.number = s.ride.number
        rw [State.advanceTo_ride]
    case proveOutExpiry =>
      rcases expiry_cases (f := fun _ u => u.endProveOut) h with e | ⟨d, e⟩
      · rw [e]
      · have hr : ((s.advanceTo d).endProveOut).ride = { (s.advanceTo d).ride with proveOutDue := none } := by
          simp [State.endProveOut]
        rw [e, hr]
        show (s.advanceTo d).ride.number = s.ride.number
        rw [State.advanceTo_ride]
    case holdLimitExpiry =>
      rcases expiry_cases (f := fun _ u => u.releaseHold) h with e | ⟨d, e⟩
      · rw [e]
      · rw [e]
        show (s.advanceTo d).ride.number = s.ride.number
        rw [State.advanceTo_ride]
    case releaseOnCompletion =>
      rcases arises_cases _ _ _ _ h with ⟨-, -, e⟩ | ⟨-, e⟩ <;> rw [e]
      rfl
  · exact congrArg RideCtl.number (he.ride hr)

theorem le_begunRide (s : State) (h : s.ride.number ≤ 65535) : s.ride.number ≤ s.begunRide.number := by
  show s.ride.number ≤ min 65535 (s.ride.number + 1)
  omega

/-- Between resets the ride number does not fall (R51). -/
theorem rideNumber_le {c : Instr} {s t : State} (h : exec c s = .next t) (hn : s.ride.number ≤ 65535)
    (h1 : ∀ cause cut, c ≠ .resetEntry cause cut) (h2 : ∀ straps, c ≠ .resetRelease straps) (h3 : c ≠ .restoreFinish) :
    s.ride.number ≤ t.ride.number := by
  by_cases h4 : c = .ignDebounceExpiry
  · subst h4
    rcases expiry_cases (f := fun _ u => u.takeIgn.ignActed) h with e | ⟨d, e⟩
    · rw [e]
    · have hr : (s.advanceTo d).takeIgn.ride.number = s.ride.number := by
        show (s.advanceTo d).ride.number = s.ride.number
        rw [State.advanceTo_ride]
      rw [e, ← hr]
      rw [← hr] at hn
      unfold State.ignActed
      split
      · rw [State.rideBegin_ride]; exact le_begunRide _ hn
      · rw [State.enterEnding_ride]; exact le_refl _
      all_goals exact le_refl _
  by_cases h5 : c = .endingCompletion
  · subst h5
    rcases arises_cases _ _ _ _ h with ⟨-, -, e⟩ | ⟨-, e⟩
    · rw [e]
      unfold State.completeEnding
      simp only
      split
      · rw [(State.offer_effect _).ride, State.rideBegin_ride]; exact le_begunRide _ hn
      · rw [(State.offer_effect _).ride]
        simp
    · rw [e]
  · exact le_of_eq (rideNumber_kept h h1 h2 h3 h4 h5).symm

/-- Settles O3: flash, straps and widths are in the fields of few commands, and the ride number moves at resets and ride
begins alone. -/
theorem onlyCertainCommandsChangeFlashStrapsAndRideNumber :
    Obligations.OnlyCertainCommandsChangeFlashStrapsAndRideNumber := by
  intro c s t h
  have he := exec_effect_of h
  refine ⟨?_, fun hc => ?_, ?_, fun hn h1 h2 h3 => rideNumber_le h hn h1 h2 h3⟩
  · cases c
    case resetRelease =>
      cases h
      split_ifs <;> rfl
    all_goals first | trivial | exact he.flash (by simp [commandFields])
  · by_cases hs : Field.straps ∈ commandFields c
    · cases c <;> simp [commandFields] at hs
      · exact execResetEntry_straps h
      · exact absurd rfl (hc _)
    · have hw : Field.widths ∉ commandFields c := by cases c <;> simp_all [commandFields]
      exact ⟨(he.straps hs).1, (he.straps hs).2, fun p => he.onPort p .widths hw⟩
  · cases c <;> first | trivial | exact rideNumber_kept h (by simp) (by simp) (by simp) (by simp) (by simp)

end Sys2Proof.Machine
end

