-- ==== Sys2Proof/Proofs/Entries.lean ====
section
/-!
PROOFS. The entries of the record table (chapter 3): which record a slot holds, and what puts, changes and empties entries.
-/

-- Proofs in the order of the text: those that elaborate default tactic arguments at once wait for each other.
set_option Elab.async false

namespace Sys2Proof.Machine

section

variable (s : State)

/-! ### Entries and slots -/

theorem State.mem_recordList (e : Fin 48) (r : Record) : (e, r) ∈ s.recordList ↔ s.Holds e r := by
  simp only [State.recordList, List.mem_filterMap, List.mem_finRange, true_and, Option.map_eq_some_iff, Prod.mk.injEq,
    State.Holds]
  constructor
  · rintro ⟨i, x, h, rfl, rfl⟩; exact h
  · exact fun h => ⟨e, r, h, rfl, rfl⟩

variable {s} in
/-- The record a slot holds stands in the table (R43). -/
theorem State.holds_of_recordOf {i : Slot} {e : Fin 48} {r : Record} (h : s.recordOf i = some (e, r)) :
    s.Holds e r ∧ r.slot = i :=
  ⟨(s.mem_recordList e r).mp (List.mem_of_find?_eq_some h), by simpa using List.find?_some h⟩

theorem State.recordOf_eq_none (i : Slot) : s.recordOf i = none ↔ ∀ e r, s.Holds e r → r.slot ≠ i := by
  simp only [State.recordOf, List.find?_eq_none, decide_eq_true_eq, Prod.forall, State.mem_recordList]

variable {s} in
/-- With at most one record for each slot, the one that stands for a slot is its record (R43). -/
theorem State.recordOf_of_holds {e : Fin 48} {r : Record}
    (one : ∀ e e' r r', s.Holds e r → s.Holds e' r' → r.slot = r'.slot → e = e') (h : s.Holds e r) :
    s.recordOf r.slot = some (e, r) := by
  cases hx : s.recordOf r.slot with
  | none => exact absurd rfl ((s.recordOf_eq_none _).mp hx e r h)
  | some x =>
    obtain ⟨e', r'⟩ := x
    obtain ⟨h', hs⟩ := State.holds_of_recordOf hx
    have he := one e' e r' r h' h hs
    subst he
    rw [State.Holds, h] at h'
    cases h'
    rfl

theorem State.holds_setRecord (e e' : Fin 48) (o : Option Record) (r : Record) :
    (s.setRecord e o).Holds e' r ↔ if e' = e then o = some r else s.Holds e' r := by
  simp only [State.Holds, State.setRecord_records, Fin.getElem_fin, Vector.getElem_set, Fin.ext_iff, eq_comm (a := e.val)]
  split <;> rfl

theorem State.holds_congr {t : State} (h : t.records = s.records) (e : Fin 48) (r : Record) :
    t.Holds e r ↔ s.Holds e r := by
  rw [State.Holds, h, State.Holds]

/-- The first of an ascending list that passes a test. -/
theorem find?_eq_some_of_sorted {n : Nat} {l : List (Fin n)} (h : l.Pairwise (· < ·)) (f : Fin n → Bool) (i : Fin n) :
    l.find? f = some i ↔ i ∈ l ∧ f i = true ∧ ∀ j ∈ l, j < i → f j = false := by
  induction l with
  | nil => simp
  | cons a l ih =>
    obtain ⟨ha, hl⟩ := List.pairwise_cons.mp h
    rw [List.find?_cons]
    split
    · next hfa =>
      constructor
      · intro e
        cases e
        refine ⟨List.mem_cons_self, hfa, fun j hj hlt => ?_⟩
        rcases List.mem_cons.mp hj with rfl | hj
        · exact absurd hlt (lt_irrefl _)
        · exact absurd (hlt.trans (ha j hj)) (lt_irrefl _)
      · rintro ⟨hi, hfi, hmin⟩
        rcases List.mem_cons.mp hi with rfl | hi
        · rfl
        · rw [hmin a List.mem_cons_self (ha i hi)] at hfa
          cases hfa
    · next hfa =>
      rw [ih hl]
      constructor
      · rintro ⟨hi, hfi, hmin⟩
        refine ⟨List.mem_cons_of_mem _ hi, hfi, fun j hj hlt => ?_⟩
        rcases List.mem_cons.mp hj with rfl | hj
        · simpa using hfa
        · exact hmin j hj hlt
      · rintro ⟨hi, hfi, hmin⟩
        refine ⟨?_, hfi, fun j hj hlt => hmin j (List.mem_cons_of_mem _ hj) hlt⟩
        rcases List.mem_cons.mp hi with rfl | hi
        · rw [hfa] at hfi
          cases hfi
        · exact hi

/-- The free entry of lowest index (R45). -/
theorem State.freeEntry_eq_some (e : Fin 48) :
    s.freeEntry = some e ↔ s.records[e] = none ∧ ∀ j < e, s.records[j] ≠ none := by
  rw [State.freeEntry, find?_eq_some_of_sorted (List.pairwise_lt_finRange 48)]
  simp [← Option.ne_none_iff_isSome]

theorem State.freeEntry_eq_none : s.freeEntry = none ↔ ∀ e : Fin 48, s.records[e] ≠ none := by
  simp [State.freeEntry, List.find?_eq_none]

theorem chooseVictim_mem {l : List (Fin 48 × Record)} {x : Fin 48 × Record} (h : chooseVictim l = some x) : x ∈ l := by
  have step : ∀ (l : List (Fin 48 × Record)) (best : Option (Fin 48 × Record)),
      l.foldl (fun best e => match best with
        | none => some e
        | some b => if chosenBefore e.2 b.2 then some e else some b) best = some x → x ∈ l ∨ best = some x := by
    intro l
    induction l with
    | nil => exact fun _ h => .inr h
    | cons e l ih =>
      intro best h
      rcases ih _ h with h | h
      · exact .inl (List.mem_cons_of_mem _ h)
      · cases best with
        | none => cases h; exact .inl List.mem_cons_self
        | some b =>
          simp only at h
          split at h
          · cases h; exact .inl List.mem_cons_self
          · exact .inr h
  rcases step l none h with h | h
  · exact h
  · cases h

/-! ### What the laws see of a record -/

/-- What the laws of R42, R43 and R51 see of a record. -/
def Record.core (r : Record) : Slot × QState × Nat × Nat × Nat :=
  (r.slot, r.state, r.occurrence, r.firstConf, r.latestConf)

/-- What the law of R70 sees of a record. -/
def Record.refs (r : Record) : Option (Fin 64) × Option (Fin 64) := (r.first, r.latest)

theorem Record.core_eq {r r' : Record} (h : r'.core = r.core) : r'.slot = r.slot ∧ r'.state = r.state ∧
    r'.occurrence = r.occurrence ∧ r'.firstConf = r.firstConf ∧ r'.latestConf = r.latestConf := by
  simpa [Record.core] using h

theorem Record.CountsRight.of_core {r r' : Record} {n : Nat} (h : r.CountsRight n) (e : r'.core = r.core) :
    r'.CountsRight n := by
  obtain ⟨-, hst, ho, hf, hl⟩ := Record.core_eq e
  obtain ⟨hp, hq, hr⟩ := h
  exact ⟨by rwa [hst, ho], by rwa [hst, ho], by rwa [hf, hl]⟩

theorem Record.frameRef_of_refs {r r' : Record} (e : r'.refs = r.refs) (k : FrameKind) : r'.frameRef k = r.frameRef k := by
  obtain ⟨h1, h2⟩ : r'.first = r.first ∧ r'.latest = r.latest := by simpa [Record.refs] using e
  cases k
  · exact h1
  · exact h2

/-- What the laws of R42, R43 and R51 see is the same in two states: the states and unrecorded flags of the qualifiers,
the ride number, and of each entry all but its frames. -/
structure State.AlikeButFrames (s t : State) : Prop where
  quals : ∀ i : Slot, t.quals[i].state = s.quals[i].state ∧ t.quals[i].unrecorded = s.quals[i].unrecorded
  ride  : t.ride.number = s.ride.number
  cores : ∀ e : Fin 48, (t.records[e]).map Record.core = (s.records[e]).map Record.core

/-- Two states alike to the laws of records and frames: the frame references of each entry are the same too. -/
structure State.Alike (s t : State) : Prop extends State.AlikeButFrames s t where
  refs  : ∀ e : Fin 48, (t.records[e]).map Record.refs = (s.records[e]).map Record.refs

theorem State.AlikeButFrames.trans {s t u : State} (h : s.AlikeButFrames t) (h' : t.AlikeButFrames u) :
    s.AlikeButFrames u :=
  ⟨fun i => ⟨(h'.quals i).1.trans (h.quals i).1, (h'.quals i).2.trans (h.quals i).2⟩, h'.ride.trans h.ride,
    fun e => (h'.cores e).trans (h.cores e)⟩

theorem State.AlikeButFrames.symm {s t : State} (h : s.AlikeButFrames t) : t.AlikeButFrames s :=
  ⟨fun i => ⟨(h.quals i).1.symm, (h.quals i).2.symm⟩, h.ride.symm, fun e => (h.cores e).symm⟩

theorem State.Alike.refl : s.Alike s := ⟨⟨fun _ => ⟨rfl, rfl⟩, rfl, fun _ => rfl⟩, fun _ => rfl⟩

theorem State.Alike.trans {s t u : State} (h : s.Alike t) (h' : t.Alike u) : s.Alike u :=
  ⟨h.toAlikeButFrames.trans h'.toAlikeButFrames, fun e => (h'.refs e).trans (h.refs e)⟩

theorem State.Alike.of_same {s t : State} (hq : t.quals = s.quals) (hr : t.records = s.records)
    (hn : t.ride.number = s.ride.number) : s.Alike t :=
  ⟨⟨fun i => by rw [hq]; exact ⟨rfl, rfl⟩, hn, fun e => by rw [hr]⟩, fun e => by rw [hr]⟩

theorem Effect.alike {l : List Field} {b : List Law} {s t : State} (h : Effect l b s t)
    (hf : ∀ f ∈ [Field.quals, .records, .ride], f ∉ l := by decide) : s.Alike t :=
  .of_same (h.quals (hf _ (by decide))) (h.records (hf _ (by decide)))
    (congrArg RideCtl.number (h.ride (hf _ (by decide))))

/-- The entries of a state, as seen from one alike. -/
theorem State.AlikeButFrames.holds {s t : State} (h : s.AlikeButFrames t) {e : Fin 48} {r' : Record}
    (hr : t.Holds e r') : ∃ r, s.Holds e r ∧ r'.core = r.core := by
  have h1 := h.cores e
  rw [State.Holds] at hr
  rw [hr] at h1
  cases hx : s.records[e] with
  | none => rw [hx] at h1; cases h1
  | some r =>
    rw [hx] at h1
    exact ⟨r, hx, by simpa using h1⟩

theorem State.Alike.refs_of_holds {s t : State} (h : s.Alike t) {e : Fin 48} {r' : Record} (hr : t.Holds e r') :
    ∃ r, s.Holds e r ∧ r'.refs = r.refs := by
  have h1 := h.refs e
  rw [State.Holds] at hr
  rw [hr] at h1
  cases hx : s.records[e] with
  | none => rw [hx] at h1; cases h1
  | some r =>
    rw [hx] at h1
    exact ⟨r, hx, by simpa using h1⟩

/-- An entry changed in what no law sees. -/
theorem State.setRecord_alike (e : Fin 48) (r r' : Record) (h : s.Holds e r) (hc : r'.core = r.core)
    (hr : r'.refs = r.refs) : s.Alike (s.setRecord e (some r')) := by
  rw [State.Holds] at h
  refine ⟨⟨fun _ => ⟨rfl, rfl⟩, rfl, fun e' => ?_⟩, fun e' => ?_⟩ <;>
    (rw [State.setRecord_records, Fin.getElem_fin, Vector.getElem_set]
     split
     · next he =>
        have : e = e' := Fin.ext he
        subst this
        first
          | rw [h]; exact congrArg some hc
          | rw [h]; exact congrArg some hr
     · rfl)

theorem State.markRecord_alike (e : Fin 48) (u : Bool) : s.Alike (s.markRecord e u) := by
  cases h : s.records[e] with
  | none => rw [s.markRecord_none e u h]; exact .refl s
  | some r =>
    unfold State.markRecord
    rw [h]
    have h1 := s.setRecord_alike e r
      { r with dirty := true, urgent := r.urgent || (u || s.store.rideEnding) } h rfl rfl
    have h2 := h1.trans ((State.markViewIf_effect _ (!r.dirty)).alike)
    simp only
    split
    · exact h2.trans ((State.urgentMarked_effect _).alike)
    · exact h2

/-- A qualifier changed in what no law of records sees. -/
theorem State.setQual_alike (i : Slot) (q : Qualifier) (h : q.state = s.quals[i].state)
    (h' : q.unrecorded = s.quals[i].unrecorded) : s.Alike (s.setQual i q) := by
  refine ⟨⟨fun j => ?_, rfl, fun _ => rfl⟩, fun _ => rfl⟩
  rw [State.setQual_quals, State.quals_set_get]
  split
  · next e => rw [← e]; exact ⟨h, h'⟩
  · exact ⟨rfl, rfl⟩

end

end Sys2Proof.Machine
end

