-- ==== Sys2Proof/Proofs/TableLaws.lean ====
section
/-!
PROOFS. The laws of records and frames (R42, R43, R51, R70). A transition of slot i breaks the agreement of i's own
qualifier and record between its steps and nothing else, so the laws are cut in two: what holds beside slot i all along,
and what holds of slot i at the end.
-/

-- Proofs in the order of the text: those that elaborate default tactic arguments at once wait for each other.
set_option Elab.async false

namespace Sys2Proof.Machine

/-- The laws of records and frames, and where `c` those of the counts. -/
structure State.Lawful (s : State) (c : Prop) : Prop where
  records : s.RecordLaw
  frames  : s.FrameLaw
  counts  : c → s.CountLaw

/-- The laws of records and frames, but for the agreement of slot `i`'s qualifier with its record. -/
structure State.LawfulBut (s : State) (i : Slot) (c : Prop) : Prop where
  inStep     : ∀ e r, s.Holds e r → r.slot ≠ i → r.state = s.quals[r.slot].state ∧ r.state ≠ .idle
  oneEach    : ∀ e e' r r', s.Holds e r → s.Holds e' r' → r.slot = r'.slot → e = e'
  unrecorded : ∀ j : Slot, j ≠ i → (s.quals[j].unrecorded = true ↔
    s.quals[j].state ≠ .idle ∧ ∀ e r, s.Holds e r → r.slot ≠ j)
  frames     : s.FrameLaw
  counts     : c → s.CountLaw

/-- Slot `i`'s qualifier agrees with its record, and with there being none. -/
structure State.Agrees (s : State) (i : Slot) : Prop where
  inStep     : ∀ e r, s.Holds e r → r.slot = i → r.state = s.quals[i].state ∧ r.state ≠ .idle
  unrecorded : s.quals[i].unrecorded = true ↔ s.quals[i].state ≠ .idle ∧ ∀ e r, s.Holds e r → r.slot ≠ i

variable {s t : State} {i : Slot} {c : Prop}

theorem State.Lawful.but (h : s.Lawful c) (i : Slot) : s.LawfulBut i c :=
  ⟨fun e r hr _ => h.records.inStep e r hr, h.records.oneEach, fun j _ => h.records.unrecorded j, h.frames, h.counts⟩

theorem State.Lawful.agrees (h : s.Lawful c) (i : Slot) : s.Agrees i :=
  ⟨fun e r hr hs => hs ▸ h.records.inStep e r hr, h.records.unrecorded i⟩

/-- Both parts make the whole. -/
theorem State.LawfulBut.lawful (h : s.LawfulBut i c) (ha : s.Agrees i) : s.Lawful c := by
  refine ⟨⟨fun e r hr => ?_, h.oneEach, fun j => ?_⟩, h.frames, h.counts⟩
  · by_cases hs : r.slot = i
    · subst hs; exact ha.inStep e r hr rfl
    · exact h.inStep e r hr hs
  · by_cases hj : j = i
    · rw [hj]; exact ha.unrecorded
    · exact h.unrecorded j hj

/-! ### States that the laws do not tell apart -/

theorem State.AlikeButFrames.noRecord (h : s.AlikeButFrames t) {j : Slot} :
    (∀ e r, t.Holds e r → r.slot ≠ j) ↔ ∀ e r, s.Holds e r → r.slot ≠ j := by
  constructor
  · intro hn e r hr
    obtain ⟨r', hr', hc⟩ := h.symm.holds hr
    rw [(Record.core_eq hc).1]
    exact hn e r' hr'
  · intro hn e r hr
    obtain ⟨r', hr', hc⟩ := h.holds hr
    rw [(Record.core_eq hc).1]
    exact hn e r' hr'

theorem State.AlikeButFrames.countLaw (h : s.AlikeButFrames t) (hs : s.CountLaw) : t.CountLaw := by
  refine ⟨h.ride ▸ hs.ride, fun e r hr => ?_⟩
  obtain ⟨x, hx, hc⟩ := h.holds hr
  rw [h.ride]
  exact (hs.records e x hx).of_core hc

theorem State.Alike.frameLaw (h : s.Alike t) (hs : s.FrameLaw) : t.FrameLaw := by
  intro e e' r r' k k' f hr hr' hk hk'
  obtain ⟨x, hx, hf⟩ := h.refs_of_holds hr
  obtain ⟨x', hx', hf'⟩ := h.refs_of_holds hr'
  rw [Record.frameRef_of_refs hf] at hk
  rw [Record.frameRef_of_refs hf'] at hk'
  exact hs e e' x x' k k' f hx hx' hk hk'

/-- Frames apart, the laws do not tell two alike states from each other. -/
theorem State.LawfulBut.of_butFrames (h : s.LawfulBut i c) (ha : s.AlikeButFrames t) (hf : t.FrameLaw) :
    t.LawfulBut i c := by
  refine ⟨fun e r hr hi => ?_, fun e e' r r' hr hr' he => ?_, fun j hj => ?_, hf, fun hc => ha.countLaw (h.counts hc)⟩
  · obtain ⟨x, hx, hc⟩ := ha.holds hr
    obtain ⟨hs, hst, -⟩ := Record.core_eq hc
    simp only [hst, hs, (ha.quals x.slot).1]
    exact h.inStep e x hx (hs ▸ hi)
  · obtain ⟨x, hx, hc⟩ := ha.holds hr
    obtain ⟨x', hx', hc'⟩ := ha.holds hr'
    rw [(Record.core_eq hc).1, (Record.core_eq hc').1] at he
    exact h.oneEach e e' x x' hx hx' he
  · rw [(ha.quals j).1, (ha.quals j).2, ha.noRecord]
    exact h.unrecorded j hj

theorem State.Agrees.of_butFrames (h : s.Agrees i) (ha : s.AlikeButFrames t) : t.Agrees i := by
  refine ⟨fun e r hr hs => ?_, ?_⟩
  · obtain ⟨x, hx, hc⟩ := ha.holds hr
    obtain ⟨hsl, hst, -⟩ := Record.core_eq hc
    rw [hst, (ha.quals i).1]
    exact h.inStep e x hx (hsl ▸ hs)
  · rw [(ha.quals i).1, (ha.quals i).2, ha.noRecord]
    exact h.unrecorded

theorem State.LawfulBut.alike (h : s.LawfulBut i c) (ha : s.Alike t) : t.LawfulBut i c :=
  h.of_butFrames ha.toAlikeButFrames (ha.frameLaw h.frames)

theorem State.Agrees.alike (h : s.Agrees i) (ha : s.Alike t) : t.Agrees i := h.of_butFrames ha.toAlikeButFrames

theorem State.Lawful.of_butFrames (h : s.Lawful c) (ha : s.AlikeButFrames t) (hf : t.FrameLaw) : t.Lawful c :=
  ((h.but 0).of_butFrames ha hf).lawful ((h.agrees 0).of_butFrames ha)

theorem State.Lawful.alike (h : s.Lawful c) (ha : s.Alike t) : t.Lawful c :=
  h.of_butFrames ha.toAlikeButFrames (ha.frameLaw h.frames)

/-! ### Changes of slot i -/

/-- Slot `i`'s qualifier may be anything while `i` is left out. -/
theorem State.LawfulBut.setQual (h : s.LawfulBut i c) (q : Qualifier) : (s.setQual i q).LawfulBut i c := by
  refine ⟨fun e r hr hi => ?_, h.oneEach, fun j hj => ?_, h.frames,
    fun x => ⟨(h.counts x).ride, (h.counts x).records⟩⟩
  · rw [State.setQual_quals, State.quals_set_get, if_neg fun x => hi x.symm]
    exact h.inStep e r hr hi
  · rw [State.setQual_quals, State.quals_set_get, if_neg fun x => hj x.symm]
    exact h.unrecorded j hj

/-- Slot `i`'s record may be any other that counts right. -/
theorem State.LawfulBut.setRecord (h : s.LawfulBut i c) {e : Fin 48} {r r' : Record} (hr : s.Holds e r)
    (hi : r.slot = i) (hi' : r'.slot = i) (hf : r'.refs = r.refs)
    (hn : s.CountLaw → r.CountsRight s.ride.number → r'.CountsRight s.ride.number) :
    (s.setRecord e (some r')).LawfulBut i c := by
  have back : ∀ {e₁ r₁}, (s.setRecord e (some r')).Holds e₁ r₁ → (e₁ = e ∧ r₁ = r') ∨ (e₁ ≠ e ∧ s.Holds e₁ r₁) := by
    intro e₁ r₁ h₁
    rw [State.holds_setRecord] at h₁
    split at h₁
    · next he => cases h₁; exact .inl ⟨he, rfl⟩
    · next he => exact .inr ⟨he, h₁⟩
  have fore : ∀ {e₁ r₁}, e₁ ≠ e → s.Holds e₁ r₁ → (s.setRecord e (some r')).Holds e₁ r₁ := fun he h₁ => by
    rw [State.holds_setRecord, if_neg he]; exact h₁
  refine ⟨fun e₁ r₁ h₁ hne => ?_, fun e₁ e₂ r₁ r₂ h₁ h₂ hs => ?_, fun j hj => ?_, ?_, fun hc => ⟨(h.counts hc).ride, ?_⟩⟩
  · rcases back h₁ with ⟨-, rfl⟩ | ⟨-, h₁⟩
    · exact absurd hi' hne
    · exact h.inStep e₁ r₁ h₁ hne
  · rcases back h₁ with ⟨rfl, rfl⟩ | ⟨-, g₁⟩ <;> rcases back h₂ with ⟨rfl, rfl⟩ | ⟨-, g₂⟩
    · rfl
    · exact h.oneEach _ _ r r₂ hr g₂ (hi.trans (hi'.symm.trans hs))
    · exact h.oneEach _ _ r₁ r g₁ hr (hs.trans (hi'.trans hi.symm))
    · exact h.oneEach _ _ r₁ r₂ g₁ g₂ hs
  · have hr : (∀ e₁ r₁, (s.setRecord e (some r')).Holds e₁ r₁ → r₁.slot ≠ j) ↔ ∀ e₁ r₁, s.Holds e₁ r₁ → r₁.slot ≠ j := by
      refine ⟨fun hn e₁ r₁ h₁ => ?_, fun hn e₁ r₁ h₁ => ?_⟩
      · by_cases he : e₁ = e
        · subst he
          rw [State.Holds, hr] at h₁
          cases h₁
          rw [hi]; exact fun x => hj x.symm
        · exact hn e₁ r₁ (fore he h₁)
      · rcases back h₁ with ⟨-, rfl⟩ | ⟨-, h₁⟩
        · rw [hi']; exact fun x => hj x.symm
        · exact hn e₁ r₁ h₁
    rw [hr]
    exact h.unrecorded j hj
  · intro e₁ e₂ r₁ r₂ k k' f h₁ h₂ hk hk'
    have ref : ∀ {e₁ r₁ k}, (s.setRecord e (some r')).Holds e₁ r₁ → r₁.frameRef k = some f →
        ∃ r₀, s.Holds e₁ r₀ ∧ r₀.frameRef k = some f := by
      intro e₁ r₁ k h₁ hk
      rcases back h₁ with ⟨rfl, rfl⟩ | ⟨-, h₁⟩
      · exact ⟨r, hr, (Record.frameRef_of_refs hf k).symm.trans hk⟩
      · exact ⟨r₁, h₁, hk⟩
    obtain ⟨x₁, y₁, z₁⟩ := ref h₁ hk
    obtain ⟨x₂, y₂, z₂⟩ := ref h₂ hk'
    exact h.frames e₁ e₂ x₁ x₂ k k' f y₁ y₂ z₁ z₂
  · intro e₁ r₁ h₁
    rcases back h₁ with ⟨rfl, rfl⟩ | ⟨-, h₁⟩
    · exact hn (h.counts hc) ((h.counts hc).records _ r hr)
    · exact (h.counts hc).records e₁ r₁ h₁

/-- A new record of slot `i`, which holds none, in a free entry. -/
theorem State.LawfulBut.newRecord (h : s.LawfulBut i c) {e : Fin 48} {r' : Record}
    (hn : ∀ e r, s.Holds e r → r.slot ≠ i) (he : s.records[e] = none) (hi' : r'.slot = i) (hf : r'.refs = (none, none))
    (hc : s.CountLaw → r'.CountsRight s.ride.number) : (s.setRecord e (some r')).LawfulBut i c := by
  have back : ∀ {e₁ r₁}, (s.setRecord e (some r')).Holds e₁ r₁ → (e₁ = e ∧ r₁ = r') ∨ s.Holds e₁ r₁ := by
    intro e₁ r₁ h₁
    rw [State.holds_setRecord] at h₁
    split at h₁
    · next he => cases h₁; exact .inl ⟨he, rfl⟩
    · exact .inr h₁
  have fore : ∀ {e₁ r₁}, s.Holds e₁ r₁ → (s.setRecord e (some r')).Holds e₁ r₁ := fun {e₁ _} h₁ => by
    have : e₁ ≠ e := fun x => by subst x; rw [State.Holds, he] at h₁; cases h₁
    rw [State.holds_setRecord, if_neg this]; exact h₁
  have noRef : ∀ k, r'.frameRef k = none := fun k => by
    obtain ⟨h1, h2⟩ : r'.first = none ∧ r'.latest = none := by simpa [Record.refs] using hf
    cases k
    · exact h1
    · exact h2
  refine ⟨fun e₁ r₁ h₁ hne => ?_, fun e₁ e₂ r₁ r₂ h₁ h₂ hs => ?_, fun j hj => ?_, ?_, fun x => ⟨(h.counts x).ride, ?_⟩⟩
  · rcases back h₁ with ⟨-, rfl⟩ | h₁
    · exact absurd hi' hne
    · exact h.inStep e₁ r₁ h₁ hne
  · rcases back h₁ with ⟨rfl, rfl⟩ | g₁ <;> rcases back h₂ with ⟨rfl, rfl⟩ | g₂
    · rfl
    · exact absurd (hs.symm.trans hi') (hn e₂ r₂ g₂)
    · exact absurd (hs.trans hi') (hn e₁ r₁ g₁)
    · exact h.oneEach _ _ r₁ r₂ g₁ g₂ hs
  · have hr : (∀ e₁ r₁, (s.setRecord e (some r')).Holds e₁ r₁ → r₁.slot ≠ j) ↔ ∀ e₁ r₁, s.Holds e₁ r₁ → r₁.slot ≠ j := by
      refine ⟨fun hn e₁ r₁ h₁ => hn e₁ r₁ (fore h₁), fun hn e₁ r₁ h₁ => ?_⟩
      rcases back h₁ with ⟨-, rfl⟩ | h₁
      · rw [hi']; exact fun x => hj x.symm
      · exact hn e₁ r₁ h₁
    rw [hr]
    exact h.unrecorded j hj
  · intro e₁ e₂ r₁ r₂ k k' f h₁ h₂ hk hk'
    rcases back h₁ with ⟨-, rfl⟩ | h₁
    · rw [noRef] at hk; cases hk
    rcases back h₂ with ⟨-, rfl⟩ | h₂
    · rw [noRef] at hk'; cases hk'
    exact h.frames e₁ e₂ r₁ r₂ k k' f h₁ h₂ hk hk'
  · intro e₁ r₁ h₁
    rcases back h₁ with ⟨-, rfl⟩ | h₁
    · exact hc (h.counts x)
    · exact (h.counts x).records e₁ r₁ h₁

theorem State.holds_emptied {e e₁ : Fin 48} {r₁ : Record} :
    (s.setRecord e none).Holds e₁ r₁ ↔ e₁ ≠ e ∧ s.Holds e₁ r₁ := by
  rw [State.holds_setRecord]
  split
  · next h => simp [h]
  · next h => simp [h]

/-- Slot `i`'s record may leave the table. -/
theorem State.LawfulBut.emptied (h : s.LawfulBut i c) {e : Fin 48} {r : Record} (hr : s.Holds e r) (hi : r.slot = i) :
    (s.setRecord e none).LawfulBut i c := by
  refine ⟨fun e₁ r₁ h₁ hne => h.inStep e₁ r₁ (State.holds_emptied.mp h₁).2 hne,
    fun e₁ e₂ r₁ r₂ h₁ h₂ => h.oneEach e₁ e₂ r₁ r₂ (State.holds_emptied.mp h₁).2 (State.holds_emptied.mp h₂).2,
    fun j hj => ?_,
    fun e₁ e₂ r₁ r₂ k k' f h₁ h₂ => h.frames e₁ e₂ r₁ r₂ k k' f (State.holds_emptied.mp h₁).2 (State.holds_emptied.mp h₂).2,
    fun x => ⟨(h.counts x).ride, fun e₁ r₁ h₁ => (h.counts x).records e₁ r₁ (State.holds_emptied.mp h₁).2⟩⟩
  have hn : (∀ e₁ r₁, (s.setRecord e none).Holds e₁ r₁ → r₁.slot ≠ j) ↔ ∀ e₁ r₁, s.Holds e₁ r₁ → r₁.slot ≠ j := by
    refine ⟨fun hn e₁ r₁ h₁ => ?_, fun hn e₁ r₁ h₁ => hn e₁ r₁ (State.holds_emptied.mp h₁).2⟩
    by_cases he : e₁ = e
    · subst he
      rw [State.Holds, hr] at h₁
      cases h₁
      rw [hi]; exact fun x => hj x.symm
    · exact hn e₁ r₁ (State.holds_emptied.mpr ⟨he, h₁⟩)
  rw [hn]
  exact h.unrecorded j hj

/-- With its record gone, no record stands for slot `i` (R43). -/
theorem State.LawfulBut.noRecord_emptied (h : s.LawfulBut i c) {e : Fin 48} {r : Record} (hr : s.Holds e r)
    (hi : r.slot = i) : ∀ e₁ r₁, (s.setRecord e none).Holds e₁ r₁ → r₁.slot ≠ i := fun e₁ r₁ h₁ hs =>
  (State.holds_emptied.mp h₁).1 (h.oneEach e₁ e r₁ r (State.holds_emptied.mp h₁).2 hr (hs.trans hi.symm))

/-! ### Records of other slots that leave the table -/

/-- The record of another slot leaves the table, and its qualifier is unrecorded from then on (R47). -/
theorem State.LawfulBut.evicted (h : s.LawfulBut i c) {e : Fin 48} {v : Record} (hv : s.Holds e v) (hi : v.slot ≠ i) :
    ((s.setQual v.slot { s.quals[v.slot] with unrecorded := true }).setRecord e none).LawfulBut i c := by
  have quals : ∀ j : Slot, (((s.setQual v.slot { s.quals[v.slot] with unrecorded := true }).setRecord e none).quals[j]).state
      = s.quals[j].state := fun j => by
    rw [State.setRecord_quals, State.setQual_quals, State.quals_set_get]
    split
    · next x => rw [← x]
    · rfl
  have out : ∀ {e₁ r₁}, ((s.setQual v.slot { s.quals[v.slot] with unrecorded := true }).setRecord e none).Holds e₁ r₁ →
      e₁ ≠ e ∧ s.Holds e₁ r₁ := fun h₁ => State.holds_emptied.mp h₁
  refine ⟨fun e₁ r₁ h₁ hne => ?_, fun e₁ e₂ r₁ r₂ h₁ h₂ => h.oneEach e₁ e₂ r₁ r₂ (out h₁).2 (out h₂).2, fun j hj => ?_,
    fun e₁ e₂ r₁ r₂ k k' f h₁ h₂ => h.frames e₁ e₂ r₁ r₂ k k' f (out h₁).2 (out h₂).2,
    fun x => ⟨(h.counts x).ride, fun e₁ r₁ h₁ => (h.counts x).records e₁ r₁ (out h₁).2⟩⟩
  · rw [quals]
    exact h.inStep e₁ r₁ (out h₁).2 hne
  · rw [quals]
    by_cases hv' : j = v.slot
    · subst hv'
      obtain ⟨hst, hid⟩ := h.inStep e v hv hi
      rw [State.setRecord_quals, State.setQual_quals, State.quals_set_get, if_pos rfl]
      refine iff_of_true rfl ⟨hst ▸ hid, fun e₁ r₁ h₁ hs => ?_⟩
      exact (out h₁).1 (h.oneEach e₁ e r₁ v (out h₁).2 hv hs)
    · rw [State.setRecord_quals, State.setQual_quals, State.quals_set_get, if_neg fun x => hv' x.symm, h.unrecorded j hj]
      refine and_congr_right fun _ => ⟨fun hn e₁ r₁ h₁ => hn e₁ r₁ (out h₁).2, fun hn e₁ r₁ h₁ => ?_⟩
      by_cases he : e₁ = e
      · subst he
        rw [State.Holds, hv] at h₁
        cases h₁
        exact fun x => hv' x.symm
      · exact hn e₁ r₁ (State.holds_emptied.mpr ⟨he, h₁⟩)

/-! ### Frames -/

theorem State.frameUsed_iff (s : State) (f : Fin 64) :
    s.frameUsed f = true ↔ ∃ e r k, s.Holds e r ∧ r.frameRef k = some f := by
  simp only [State.frameUsed, List.any_eq_true, Bool.or_eq_true, decide_eq_true_eq, Prod.exists, State.mem_recordList]
  constructor
  · rintro ⟨e, r, h, hf | hf⟩
    · exact ⟨e, r, .first, h, hf⟩
    · exact ⟨e, r, .latest, h, hf⟩
  · rintro ⟨e, r, k, h, hf⟩
    cases k
    · exact ⟨e, r, h, .inl hf⟩
    · exact ⟨e, r, h, .inr hf⟩

/-- The first of the free frames is no record's (R70). -/
theorem State.unused_of_freeFrames (s : State) {f : Fin 64} {l : List (Fin 64)} (h : s.freeFrames = f :: l) :
    ∀ e r k, s.Holds e r → r.frameRef k ≠ some f := by
  have hm : f ∈ s.freeFrames := h ▸ List.mem_cons_self
  simp only [State.freeFrames, List.mem_filter, Bool.not_eq_true'] at hm
  intro e r k hr hk
  have := (s.frameUsed_iff f).mpr ⟨e, r, k, hr, hk⟩
  rw [hm.2] at this
  cases this

theorem Record.frameRef_withFrame (r : Record) (k k' : FrameKind) (f : Fin 64) :
    (r.withFrame k f).frameRef k' = if k' = k then some f else r.frameRef k' := by
  cases k <;> cases k' <;> rfl

theorem Record.core_withFrame (r : Record) (k : FrameKind) (f : Fin 64) : (r.withFrame k f).core = r.core := by
  cases k <;> rfl

end Sys2Proof.Machine
end

