-- ==== Sys2Proof/Proofs/TableSteps.lean ====
section
/-!
PROOFS. The operations of record table and snapshot unit, and the transitions made of them, keep the laws of records and
frames.
-/

-- Proofs in the order of the text: those that elaborate default tactic arguments at once wait for each other.
set_option Elab.async false

namespace Sys2Proof.Machine

variable {s t : State} {i : Slot} {c : Prop}

/-! ### When slot i agrees -/

/-- A record in step with its qualifier, which is not unrecorded (R42, R43). -/
theorem State.LawfulBut.agrees_of_record (h : s.LawfulBut i c) {e : Fin 48} {r : Record} (hr : s.Holds e r)
    (hi : r.slot = i) (hst : r.state = s.quals[i].state) (hid : r.state ≠ .idle) (hu : s.quals[i].unrecorded = false) :
    s.Agrees i := by
  refine ⟨fun e' r' hr' hs => ?_, ?_⟩
  · have he := h.oneEach e' e r' r hr' hr (hs.trans hi.symm)
    subst he
    rw [State.Holds, hr] at hr'
    cases hr'
    exact ⟨hst, hid⟩
  · rw [hu]
    exact iff_of_false (by simp) fun hn => hn.2 e r hr hi

theorem State.agrees_of_none (hn : ∀ e r, s.Holds e r → r.slot ≠ i)
    (hu : s.quals[i].unrecorded = true ↔ s.quals[i].state ≠ .idle) : s.Agrees i :=
  ⟨fun e r hr hs => absurd hs (hn e r hr), hu.trans ⟨fun h => ⟨h, hn⟩, fun h => h.1⟩⟩

/-- A slot in IDLE holds no record (R42). -/
theorem State.Agrees.noRecord_of_idle (h : s.Agrees i) (hq : s.quals[i].state = .idle) :
    ∀ e r, s.Holds e r → r.slot ≠ i := fun e r hr hs => by
  obtain ⟨h1, h2⟩ := h.inStep e r hr hs
  exact h2 (h1.trans hq)

/-- Outside IDLE the unrecorded flag says whether the slot holds a record (R43). -/
theorem State.Agrees.unrecorded_iff (h : s.Agrees i) (hq : s.quals[i].state ≠ .idle) :
    s.quals[i].unrecorded = true ↔ s.recordOf i = none := by
  rw [h.unrecorded, s.recordOf_eq_none]
  exact and_iff_right hq

/-! ### Entries that leave the table, and notices -/

theorem State.emptyEntry_alike (s : State) (e : Fin 48) : (s.setRecord e none).Alike (s.emptyEntry e) := by
  have h := s.withdrawRedo_effect e
  refine .of_same h.quals ?_ (congrArg RideCtl.number h.ride)
  rw [State.emptyEntry, State.markView_records, State.setRecord_records, State.setRecord_records, h.records]

theorem State.freeRecord_alike (s : State) (e : Fin 48) (r : Record) (b : Bool) :
    (s.setRecord e none).Alike (s.freeRecord e r b) := by
  unfold State.freeRecord
  simp only
  split
  · exact (s.emptyEntry_alike e).trans ((State.queueLog_effect _ _).alike)
  · exact s.emptyEntry_alike e

theorem State.notice_alike (s : State) (e : Fin 48) (r : Record) (m : NoticeMark) :
    (s.setRecord e (some r)).Alike (s.notice e r m) := by
  have h := (s.setRecord e (some r)).markView_effect.alike
  unfold State.notice
  cases m with
  | none => exact h
  | ordinary => exact h.trans (State.markRecord_alike _ _ _)
  | byClass => exact h.trans (State.markRecord_alike _ _ _)

/-- A qualifier that has entered IDLE, its record freed with it (R32, R41, R52). -/
theorem State.LawfulBut.freed (h : s.LawfulBut i c) (hq : s.quals[i].state = .idle)
    (hu : s.quals[i].unrecorded = false) (b : Bool) :
    (match s.recordOf i with
      | some (e, r) => s.freeRecord e r b
      | none => s).Lawful c := by
  have flags : s.quals[i].unrecorded = true ↔ s.quals[i].state ≠ .idle := by
    rw [hu, hq]
    exact iff_of_false (by simp) (by simp)
  cases hr : s.recordOf i with
  | none => exact h.lawful (State.agrees_of_none ((s.recordOf_eq_none i).mp hr) flags)
  | some x =>
    obtain ⟨e, r⟩ := x
    obtain ⟨hh, hi⟩ := State.holds_of_recordOf hr
    have ha : (s.setRecord e none).Agrees i := State.agrees_of_none (h.noRecord_emptied hh hi) flags
    exact ((h.emptied hh hi).lawful ha).alike (s.freeRecord_alike e r b)

/-- A qualifier that moves outside IDLE and keeps its unrecorded flag; `t` is the state after, in what the laws see. -/
structure State.Moves (s : State) (i : Slot) (q : Qualifier) (t : State) : Prop where
  before     : s.quals[i].state ≠ .idle
  after      : q.state ≠ .idle
  unrecorded : q.unrecorded = s.quals[i].unrecorded
  alike      : (s.setQual i q).Alike t

theorem State.Moves.qual {q : Qualifier} (m : s.Moves i q t) : t.quals[i].state = q.state ∧ t.quals[i].unrecorded = q.unrecorded := by
  have h := m.alike.quals i
  rw [State.setQual_quals, State.quals_set_get, if_pos rfl] at h
  exact h

theorem State.Moves.but {q : Qualifier} (m : s.Moves i q t) (h : s.Lawful c) : t.LawfulBut i c :=
  ((h.but i).setQual q).alike m.alike

/-- Such a move of a slot that holds no record keeps the laws. -/
theorem State.Moves.lawful_of_none {q : Qualifier} (m : s.Moves i q t) (h : s.Lawful c) (hr : t.recordOf i = none) : t.Lawful c := by
  refine (m.but h).lawful (State.agrees_of_none ((t.recordOf_eq_none i).mp hr) ?_)
  rw [m.qual.1, m.qual.2, m.unrecorded, (h.agrees i).unrecorded]
  exact iff_of_true ⟨m.before, m.alike.noRecord.mp ((t.recordOf_eq_none i).mp hr)⟩ m.after

/-- Such a move of a slot that holds a record, told by a notice (R50). -/
theorem State.Moves.noticed {q : Qualifier} (m : s.Moves i q t) (h : s.Lawful c) {e : Fin 48} {r r' : Record}
    (hr : t.recordOf i = some (e, r)) (mark : NoticeMark) (hsl : r'.slot = r.slot) (hst : r'.state = q.state)
    (hre : r'.refs = r.refs)
    (hn : r.state = s.quals[i].state → r.CountsRight t.ride.number → r'.CountsRight t.ride.number) :
    (t.notice e r' mark).Lawful c := by
  obtain ⟨hh, hi⟩ := State.holds_of_recordOf hr
  obtain ⟨r₀, hh₀, hc⟩ := m.alike.holds hh
  obtain ⟨hs₀, hst₀, -⟩ := Record.core_eq hc
  have held : s.Holds e r₀ := hh₀
  have hu : q.unrecorded = false := by
    rw [m.unrecorded, ← Bool.not_eq_true, (h.agrees i).unrecorded]
    exact fun x => x.2 e r₀ held (hs₀.symm.trans hi)
  have step := ((h.agrees i).inStep e r₀ held (hs₀.symm.trans hi)).1
  have h1 := (m.but h).setRecord hh hi (hsl.trans hi) hre fun _ => hn (hst₀.trans step)
  have ha : (t.setRecord e (some r')).Agrees i := by
    refine h1.agrees_of_record ((t.holds_setRecord e e _ _).mpr (by rw [if_pos rfl])) (hsl.trans hi) ?_ (hst ▸ m.after) ?_
    · exact hst.trans m.qual.1.symm
    · exact m.qual.2.trans hu
  exact (h1.lawful ha).alike (t.notice_alike e r' mark)

/-! ### Record requests -/

theorem newRecord_countsRight (i : Slot) {st : QState} (h : st = .pending ∨ st = .confirmed) (cls : Fin 4) (n : Nat) :
    (newRecord i st cls n).CountsRight n := by
  rcases h with rfl | rfl
  · exact ⟨fun _ => rfl, fun h => absurd rfl h, le_refl _, Nat.zero_le n⟩
  · exact ⟨fun h => (by cases h), fun _ => ⟨le_refl 1, Nat.le_of_ble_eq_true rfl⟩, le_refl _, le_refl _⟩

/-- A slot without a record is given a free entry (R45, R49). -/
theorem State.LawfulBut.allocate (h : s.LawfulBut i c) {st : QState} (hp : st = .pending ∨ st = .confirmed)
    (hq : s.quals[i].state = st) (hn : ∀ e r, s.Holds e r → r.slot ≠ i) {e : Fin 48} (he : s.records[e] = none) :
    (s.allocate e i st).Lawful c := by
  let s1 := s.setRecord e (some (Sys2Proof.Machine.newRecord i st (s.classOf i) s.ride.number))
  let s2 := s1.setQual i { s1.quals[i] with unrecorded := false }
  have h1 : s1.LawfulBut i c := h.newRecord hn he rfl rfl fun _ => newRecord_countsRight i hp _ _
  have h2 : s2.LawfulBut i c := h1.setQual _
  have hq2 : s2.quals[i] = { s.quals[i] with unrecorded := false } := by
    rw [State.setQual_quals, State.quals_set_get, if_pos rfl]
    rfl
  have ha : s2.Agrees i := by
    refine h2.agrees_of_record (e := e) (r := Sys2Proof.Machine.newRecord i st (s.classOf i) s.ride.number) ?_ rfl ?_ ?_ ?_
    · exact (s.holds_setRecord e e _ _).mpr (by rw [if_pos rfl])
    · rw [hq2]; exact hq.symm
    · rcases hp with rfl | rfl <;> exact fun x => (by cases x)
    · rw [hq2]
  have h3 : s2.markView.Lawful c := (h2.lawful ha).alike s2.markView_effect.alike
  unfold State.allocate
  simp only
  split
  · exact h3.alike (State.markRecord_alike _ _ _)
  · exact h3

theorem State.evict_alike (s : State) (e : Fin 48) (v : Record) :
    ((s.setQual v.slot { s.quals[v.slot] with unrecorded := true }).setRecord e none).Alike (s.evict e v) := by
  unfold State.evict
  simp only
  have h1 : Effect [.logQueue, .erase] [] s (if v.persisted = true then s.queueLog (.release v.slot) else s) := by
    split
    · exact s.queueLog_effect _
    · exact Effect.refl s
  generalize (if v.persisted = true then s.queueLog (.release v.slot) else s) = s1 at h1 ⊢
  let s2 := s1.setQual v.slot { s1.quals[v.slot] with unrecorded := true }
  have h3 := s2.appendSlot_effect .evicted v.slot (byteOf v.occurrence) s2.quals[v.slot].state
  refine State.Alike.trans ?_ (State.emptyEntry_alike _ e)
  refine .of_same ?_ ?_ ?_
  · rw [State.setRecord_quals, State.setRecord_quals, h3.quals, State.setQual_quals, State.setQual_quals, h1.quals]
  · rw [State.setRecord_records, State.setRecord_records, h3.records, State.setQual_records, State.setQual_records,
      h1.records]
  · rw [State.setRecord_ride, State.setRecord_ride, h3.ride, State.setQual_ride, State.setQual_ride, h1.ride]

/-- What a decline leaves: the requester is unrecorded (R48). -/
theorem State.decline_alike (s : State) (i : Slot) (st : QState) :
    (s.setQual i { s.quals[i] with unrecorded := true }).Alike (s.decline i st) := by
  unfold State.decline
  simp only
  exact ((State.setDeclined_effect _ _ _).alike.trans (State.appendSlot_effect _ _ _ _ _).alike).trans
    (State.markView_effect _).alike

/-- A record request: an entry, an eviction for it, or a decline (R45 to R48). -/
theorem State.LawfulBut.requestRecord (h : s.LawfulBut i c) {st : QState} (hp : st = .pending ∨ st = .confirmed)
    (hq : s.quals[i].state = st) (hn : ∀ e r, s.Holds e r → r.slot ≠ i) : (s.requestRecord i st).Lawful c := by
  have declined : (s.decline i st).Lawful c := by
    refine ((h.setQual { s.quals[i] with unrecorded := true }).lawful (State.agrees_of_none hn ?_)).alike
      (s.decline_alike i st)
    rw [State.setQual_quals, State.quals_set_get, if_pos rfl]
    refine iff_of_true rfl ?_
    rw [show ({ s.quals[i] with unrecorded := true } : Qualifier).state = st from hq]
    rcases hp with rfl | rfl <;> exact fun x => (by cases x)
  unfold State.requestRecord
  split
  · next e he => exact h.allocate hp hq hn ((s.freeEntry_eq_some e).mp he).1
  · split
    · next e v hv =>
      split
      · have hv' : s.Holds e v := (s.mem_recordList e v).mp (chooseVictim_mem hv)
        have ha := s.evict_alike e v
        have hvi : v.slot ≠ i := hn e v hv'
        have none1 : ∀ e' r', (s.evict e v).Holds e' r' → r'.slot ≠ i := by
          refine ha.noRecord.mpr fun e' r' hr' => hn e' r' ?_
          exact (State.holds_emptied.mp hr').2
        have q1 : (s.evict e v).quals[i].state = st := by
          rw [(ha.quals i).1, State.setRecord_quals, State.setQual_quals, State.quals_set_get, if_neg hvi, hq]
        have free : (s.evict e v).records[e] = none := by
          have emptied : ∀ u : State, (u.setRecord e none).records[e] = none := fun u => by
            rw [State.setRecord_records, Fin.getElem_fin, Vector.getElem_set_self]
          have := ha.cores e
          rw [emptied] at this
          exact Option.map_eq_none_iff.mp this
        exact ((h.evicted hv' hvi).alike ha).allocate hp q1 none1 free
      · exact declined
    · exact declined

/-! ### Captures -/

theorem State.setRecord_butFrames (s : State) (e : Fin 48) (r r' : Record) (h : s.Holds e r) (hc : r'.core = r.core) :
    s.AlikeButFrames (s.setRecord e (some r')) := by
  refine ⟨fun _ => ⟨rfl, rfl⟩, rfl, fun e' => ?_⟩
  rw [State.setRecord_records, Fin.getElem_fin, Vector.getElem_set]
  split
  · next he =>
    have : e = e' := Fin.ext he
    subst this
    rw [State.Holds] at h
    rw [h]
    exact congrArg some hc
  · rfl

/-- A frame that no record refers to becomes a record's frame of a kind it has none of (R70). -/
theorem State.FrameLaw.withFrame (h : s.FrameLaw) {e : Fin 48} {r : Record} {k : FrameKind} {f : Fin 64}
    (hu : ∀ e r k, s.Holds e r → r.frameRef k ≠ some f) (hr : s.Holds e r) :
    (s.setRecord e (some (r.withFrame k f))).FrameLaw := by
  have back : ∀ {e₁ r₁ k₁ g}, (s.setRecord e (some (r.withFrame k f))).Holds e₁ r₁ → r₁.frameRef k₁ = some g →
      (e₁ = e ∧ k₁ = k ∧ g = f) ∨ (∃ r₀, s.Holds e₁ r₀ ∧ r₀.frameRef k₁ = some g) := by
    intro e₁ r₁ k₁ g h₁ hk
    rw [State.holds_setRecord] at h₁
    split at h₁
    · next he =>
      cases h₁
      subst he
      rw [Record.frameRef_withFrame] at hk
      split at hk
      · next hk' => cases hk; exact .inl ⟨rfl, hk', rfl⟩
      · exact .inr ⟨r, hr, hk⟩
    · exact .inr ⟨r₁, h₁, hk⟩
  intro e₁ e₂ r₁ r₂ k₁ k₂ g h₁ h₂ hk₁ hk₂
  rcases back h₁ hk₁ with ⟨rfl, rfl, rfl⟩ | ⟨x₁, y₁, z₁⟩ <;> rcases back h₂ hk₂ with ⟨he, hk, hg⟩ | ⟨x₂, y₂, z₂⟩
  · exact ⟨he.symm, hk.symm⟩
  · exact absurd z₂ (hu _ _ _ y₂)
  · exact absurd (hg ▸ z₁) (hu _ _ _ y₁)
  · exact h e₁ e₂ x₁ x₂ k₁ k₂ g y₁ y₂ z₁ z₂

/-- A lender gives up its LATEST frame, which is no record's from then on (R72). -/
theorem State.FrameLaw.lent (h : s.FrameLaw) {j : Fin 48} {l : Record} {f : Fin 64} (hl : s.Holds j l)
    (hf : l.latest = some f) : (s.setRecord j (some { l with latest := none })).FrameLaw ∧
      ∀ e r k, (s.setRecord j (some { l with latest := none })).Holds e r → r.frameRef k ≠ some f := by
  have back : ∀ {e r k g}, (s.setRecord j (some { l with latest := none })).Holds e r → r.frameRef k = some g →
      (∃ r₀, s.Holds e r₀ ∧ r₀.frameRef k = some g) ∧ ¬(e = j ∧ k = .latest) := by
    intro e r k g hr hk
    rw [State.holds_setRecord] at hr
    split at hr
    · next he =>
      cases hr
      subst he
      cases k with
      | first => exact ⟨⟨l, hl, hk⟩, fun x => (by cases x.2)⟩
      | latest => cases hk
    · next he => exact ⟨⟨r, hr, hk⟩, fun x => he x.1⟩
  refine ⟨fun e₁ e₂ r₁ r₂ k₁ k₂ g h₁ h₂ hk₁ hk₂ => ?_, fun e r k hr hk => ?_⟩
  · obtain ⟨⟨x₁, y₁, z₁⟩, -⟩ := back h₁ hk₁
    obtain ⟨⟨x₂, y₂, z₂⟩, -⟩ := back h₂ hk₂
    exact h e₁ e₂ x₁ x₂ k₁ k₂ g y₁ y₂ z₁ z₂
  · obtain ⟨⟨x, y, z⟩, hne⟩ := back hr hk
    exact hne (h e j x l k .latest f y hl z hf)

theorem State.lend_alike (s : State) (j : Fin 48) (l : Record) :
    (s.setRecord j (some { l with latest := none })).Alike (s.lend j l) := State.markRecord_alike _ _ _

theorem State.bindFrame_alike (s : State) (e : Fin 48) (r : Record) (k : FrameKind) (f : Fin 64) (x : Frame) :
    (s.setRecord e (some (r.withFrame k f))).Alike (s.bindFrame e r k f x) := .of_same rfl rfl rfl

/-- A record bound to a frame that no record refers to. -/
theorem State.bindFrame_frameLaw (h : s.FrameLaw) {e : Fin 48} {r : Record} (k : FrameKind) {f : Fin 64} (x : Frame)
    (hu : ∀ e r k, s.Holds e r → r.frameRef k ≠ some f) (hr : s.Holds e r) : (s.bindFrame e r k f x).FrameLaw :=
  (s.bindFrame_alike e r k f x).frameLaw (h.withFrame hu hr)

theorem State.bindFrame_butFrames {e : Fin 48} {r : Record} (k : FrameKind) (f : Fin 64) (x : Frame)
    (hr : s.Holds e r) : s.AlikeButFrames (s.bindFrame e r k f x) :=
  (s.setRecord_butFrames e r _ hr (r.core_withFrame k f)).trans (s.bindFrame_alike e r k f x).toAlikeButFrames

/-- A capture finds its frame in place, free, borrowed or nowhere, and no frame is shared (R70 to R73). -/
theorem State.captureFor_lawful (h : s.FrameLaw) {e : Fin 48} {rec : Record} (hr : s.Holds e rec) (r : Report)
    (k : FrameKind) : s.AlikeButFrames (s.captureFor e rec r k) ∧ (s.captureFor e rec r k).FrameLaw := by
  have same : s.AlikeButFrames s ∧ s.FrameLaw := ⟨(State.Alike.refl s).toAlikeButFrames, h⟩
  unfold State.captureFor
  simp only
  split
  · have ha (x : Vector Frame 64) : s.Alike { s with frames := x } := .of_same rfl rfl rfl
    exact ⟨(ha _).toAlikeButFrames, (ha _).frameLaw h⟩
  · split
    · next f l hf => exact ⟨State.bindFrame_butFrames k f _ hr, State.bindFrame_frameLaw h k _ (s.unused_of_freeFrames hf) hr⟩
    · split
      · next j l hv =>
        split
        · next f hf =>
          have hm := chooseVictim_mem hv
          simp only [State.lenders, List.mem_filter, Bool.and_eq_true, decide_eq_true_eq, State.mem_recordList] at hm
          obtain ⟨hl, ⟨hne, -⟩, -⟩ := hm
          obtain ⟨h1, hu⟩ := h.lent hl hf
          have ha := s.lend_alike j l
          obtain ⟨hr1, hr2⟩ : (s.lend j l).Holds e rec ∧ ∀ e r k, (s.lend j l).Holds e r → r.frameRef k ≠ some f := by
            constructor
            · unfold State.lend
              have : ((s.setRecord j (some { l with latest := none })).markRecord j false).records[e] = s.records[e] := by
                cases hx : (s.setRecord j (some { l with latest := none })).records[j] with
                | none => rw [State.markRecord_none _ _ _ hx, State.setRecord_records, Fin.getElem_fin,
                    Vector.getElem_set_ne _ _ (fun x => hne (Fin.ext x))]; rfl
                | some y =>
                  rw [State.markRecord_some _ _ _ _ hx]
                  simp only [State.setRecord_records, Fin.getElem_fin]
                  rw [Vector.getElem_set_ne _ _ (fun x => hne (Fin.ext x)),
                    Vector.getElem_set_ne _ _ (fun x => hne (Fin.ext x))]
              rw [State.Holds, this]
              exact hr
            · intro e₁ r₁ k₁ h₁ hk
              obtain ⟨x, hx, hf'⟩ := ha.refs_of_holds h₁
              exact hu e₁ x k₁ hx ((Record.frameRef_of_refs hf' k₁).symm.trans hk)
          have hb : s.AlikeButFrames (s.lend j l) :=
            (s.setRecord_butFrames j l { l with latest := none } hl rfl).trans ha.toAlikeButFrames
          exact ⟨hb.trans (State.bindFrame_butFrames k f _ hr1), State.bindFrame_frameLaw (ha.frameLaw h1) k _ hr2 hr1⟩
        · exact same
      · exact same

theorem State.Lawful.capture (h : s.Lawful c) (r : Report) (k : FrameKind) : (s.capture r k).Lawful c := by
  unfold State.capture
  split
  · next e rec hr =>
    obtain ⟨h1, h2⟩ := State.captureFor_lawful h.frames (State.holds_of_recordOf hr).1 r k
    exact h.of_butFrames h1 h2
  · exact h

end Sys2Proof.Machine
end

