-- ==== Sys2Proof/Proofs/TableMoves.lean ====
section
/-!
PROOFS. The transitions of R28, the ride-end accounting, clears and ADOPT keep the laws of records and frames.
-/

-- Proofs in the order of the text: those that elaborate default tactic arguments at once wait for each other.
set_option Elab.async false

namespace Sys2Proof.Machine

variable {s t : State} {i : Slot} {c : Prop}

/-! ### The engine's transitions (R28 to R35) -/

theorem State.enter_moves (i : Slot) {st : QState} (hs : s.quals[i].state ≠ .idle) (h : st ≠ .idle) :
    s.Moves i { s.quals[i] with state := st, fade := 0, forget := 0 } (s.enter i st) :=
  ⟨hs, h, rfl, (State.markView_effect _).alike⟩

theorem State.enter_alike (s : State) (i : Slot) (st : QState) :
    (s.setQual i { s.quals[i] with state := st, fade := 0, forget := 0 }).Alike (s.enter i st) :=
  (State.markView_effect _).alike

theorem State.enter_state (s : State) (i : Slot) (st : QState) :
    (s.enter i st).quals[i].state = st ∧ (s.enter i st).quals[i].unrecorded = s.quals[i].unrecorded := by
  have h := (s.enter_alike i st).quals i
  rw [State.setQual_quals, State.quals_set_get, if_pos rfl] at h
  exact h

theorem State.enter_noRecord (s : State) (i : Slot) (st : QState) (h : (s.enter i st).recordOf i = none) :
    ∀ e r, s.Holds e r → r.slot ≠ i :=
  (s.enter_alike i st).noRecord.mp ((State.recordOf_eq_none (s := s.enter i st) i).mp h)

theorem State.Lawful.announce (h : s.Lawful c) (i : Slot) (k : TrailKind) (d : Byte) (old new : QState) :
    (s.announce i k d old new).Lawful c := h.alike (s.announce_effect i k d old new).alike

theorem State.Lawful.toPending (h : s.Lawful c) (r : Report) (hq : s.quals[r.slot].state = .idle) :
    (s.toPending r).Lawful c := by
  have hn := (s.enter_alike r.slot .pending).noRecord.mpr ((h.agrees r.slot).noRecord_of_idle hq)
  have h1 : (s.enter r.slot .pending).LawfulBut r.slot c := ((h.but r.slot).setQual _).alike (s.enter_alike r.slot .pending)
  have h2 := h1.requestRecord (.inl rfl) (s.enter_state r.slot .pending).1 hn
  exact (h2.capture r .first).announce _ _ _ _ _

/-- Entry to CONFIRMED, its record told or asked for (R31, R34, R35). -/
theorem State.Lawful.confirmRecord (h : s.Lawful c) (r : Report) (change : Record → Record)
    (hq : s.quals[r.slot].state ≠ .idle)
    (hc : ∀ x, (change x).slot = x.slot ∧ (change x).state = .confirmed ∧ (change x).refs = x.refs)
    (hn : ∀ x, x.CountsRight s.ride.number → (change x).CountsRight s.ride.number) :
    ((s.enter r.slot .confirmed).confirmRecord r change).Lawful c := by
  have m := State.enter_moves (st := .confirmed) r.slot hq (by decide)
  unfold State.confirmRecord
  split
  · next e x hx =>
    obtain ⟨hsl, hst, hre⟩ := hc x
    exact (m.noticed h hx .byClass hsl hst hre fun _ => hn x).capture r .latest
  · next hx =>
    exact (((m.but h).requestRecord (.inr rfl) (s.enter_state r.slot .confirmed).1
      ((State.recordOf_eq_none (s := s.enter r.slot .confirmed) r.slot).mp hx)).capture r .first).capture r .latest

theorem confirmNotice_countsRight {n : Nat} (x : Record) : (confirmNotice n x).CountsRight n :=
  ⟨fun h => (by cases h), fun _ => ⟨le_refl 1, Nat.le_of_ble_eq_true rfl⟩, le_refl n, le_refl n⟩

theorem recurNotice_countsRight {n : Nat} {x : Record} (h : x.CountsRight n) : (recurNotice n x).CountsRight n :=
  ⟨fun h => (by cases h), fun _ => ⟨le_min (by decide) (Nat.le_add_left 1 _), min_le_left _ _⟩,
    h.rides.1.trans h.rides.2, le_refl n⟩

/-- A record that moves between states other than PENDING keeps its counts. -/
theorem Record.CountsRight.of_moved {n : Nat} {x y : Record} (h : x.CountsRight n) (hx : x.state ≠ .pending)
    (hy : y.state ≠ .pending) (ho : y.occurrence = x.occurrence) (hf : y.firstConf = x.firstConf)
    (hl : y.latestConf = x.latestConf) : y.CountsRight n := by
  refine ⟨fun e => absurd e hy, fun _ => ?_, ?_⟩
  · rw [ho]; exact h.others hx
  · rw [hf, hl]; exact h.rides

theorem State.Lawful.toConfirmed (h : s.Lawful c) (r : Report) (hq : s.quals[r.slot].state = .pending) :
    (s.toConfirmed r).Lawful c := by
  have h1 := h.confirmRecord r (confirmNotice s.ride.number) (by rw [hq]; decide) (fun _ => ⟨rfl, rfl, rfl⟩)
    (fun x _ => confirmNotice_countsRight x)
  unfold State.toConfirmed
  refine State.Lawful.announce ?_ _ _ _ _ _
  split
  · exact h1.alike (State.requestRetained_effect _ _ _ _).alike
  · exact h1

theorem State.Lawful.recur (h : s.Lawful c) (r : Report) (old : QState) (hq : s.quals[r.slot].state ≠ .idle) :
    (s.recur r old).Lawful c :=
  (h.confirmRecord r (recurNotice s.ride.number) hq (fun _ => ⟨rfl, rfl, rfl⟩)
    fun _ hx => recurNotice_countsRight hx).announce _ _ _ _ _

theorem State.Lawful.toFading (h : s.Lawful c) (r : Report) (hq : s.quals[r.slot].state = .confirmed) :
    (s.toFading r).Lawful c := by
  have m := State.enter_moves (st := .fading) r.slot (by rw [hq]; decide) (by decide)
  unfold State.toFading
  refine State.Lawful.announce ?_ _ _ _ _ _
  split
  · next e x hx =>
    refine m.noticed h hx .ordinary rfl rfl rfl fun hst hcr => hcr.of_moved ?_ nofun rfl rfl rfl
    rw [hst, hq]; decide
  · next hx => exact m.lawful_of_none h hx

/-- A qualifier back in IDLE, recorded by none (R32, R41, R92): its record is freed. -/
theorem State.Lawful.freed (h : s.Lawful c) {q : Qualifier} (hq : q.state = .idle) (hu : q.unrecorded = false)
    (ha : (s.setQual i q).Alike t) (b : Bool) :
    (match t.recordOf i with
      | some (e, r) => t.freeRecord e r b
      | none => t).Lawful c := by
  have hqs := ha.quals i
  rw [State.setQual_quals, State.quals_set_get, if_pos rfl] at hqs
  exact (((h.but i).setQual q).alike ha).freed (hqs.1.trans hq) (hqs.2.trans hu) b

theorem State.dropPending_alike (s : State) (r : Report) :
    (s.setQual r.slot { s.quals[r.slot] with state := .idle, fade := 0, forget := 0, unrecorded := false }).Alike
      ((s.enter r.slot .idle).setQual r.slot { (s.enter r.slot .idle).quals[r.slot] with unrecorded := false }) := by
  refine ⟨⟨fun j => ?_, rfl, fun _ => rfl⟩, fun _ => rfl⟩
  rw [State.setQual_quals, State.setQual_quals, State.quals_set_get, State.quals_set_get]
  split
  · exact ⟨(s.enter_state r.slot .idle).1, rfl⟩
  · next hj =>
    have h := (s.enter_alike r.slot .idle).quals j
    rw [State.setQual_quals, State.quals_set_get, if_neg hj] at h
    exact h

theorem State.Lawful.dropPending (h : s.Lawful c) (r : Report) : (s.dropPending r).Lawful c :=
  (h.freed rfl rfl (s.dropPending_alike r) false).announce _ _ _ _ _

theorem State.Lawful.judge (h : s.Lawful c) (r : Report) : (s.judge r).Lawful c := by
  unfold State.judge
  simp only
  split
  case h_1 hq => split; exacts [h.toPending r hq, h]
  case h_2 hq =>
    split
    · exact h.toConfirmed r hq
    · split; exacts [h.dropPending r, h]
  case h_3 hq => split; exacts [h.toFading r hq, h]
  case h_4 hq => split; exacts [h.recur r _ (by rw [hq]; decide), h]
  case h_5 hq => split; exacts [h.recur r _ (by rw [hq]; decide), h]

theorem State.Lawful.applyReport (h : s.Lawful c) (r : Report) : (s.applyReport r).Lawful c := by
  unfold State.applyReport
  split
  · exact h
  · next pr _ =>
    have h1 : (s.setQual r.slot (matured pr r s.quals[r.slot])).Lawful c := h.alike (s.setQual_alike _ _ rfl rfl)
    exact ((h1.alike (State.markViewIf_effect _ _).alike).judge r).judge r

theorem State.Lawful.visit (h : s.Lawful c) (i : Slot) : (s.visit i).Lawful c := by
  unfold State.visit
  split
  · simp only
    split
    · rw [State.acceptSample_eq]
      have h1 := h.alike (s.bringForward_effect i (s.sample i)).alike
      split
      · exact h1
      · exact h1.applyReport _
    · exact h.alike (s.holdSample_effect i).alike
  · exact h.alike (State.setSlot_any_effect _ _ _).alike

/-! ### The ride-end accounting (R90 to R93) -/

theorem State.Lawful.setCounts (h : s.Lawful c) (i : Slot) (a b : Nat) : (s.setCounts i a b).Lawful c := by
  unfold State.setCounts
  simp only
  split
  · exact h
  · have h1 : (s.setQual i { s.quals[i] with fade := a, forget := b }).Lawful c := h.alike (s.setQual_alike _ _ rfl rfl)
    split
    · next e r hr =>
      have hh := (State.holds_of_recordOf hr).1
      exact h1.alike ((State.setRecord_alike _ e r (countNotice a b r) hh rfl rfl).trans (State.notice_alike _ e _ .none))
    · exact h1

theorem State.Lawful.toHistoric (h : s.Lawful c) (i : Slot) (a : Nat) (hq : s.quals[i].state = .fading) :
    (s.toHistoric i a).Lawful c := by
  have m : s.Moves i { s.quals[i] with state := .historic, fade := a, forget := 0 }
      (s.setQual i { s.quals[i] with state := .historic, fade := a, forget := 0 }).markView :=
    ⟨by rw [hq]; decide, nofun, rfl, (State.markView_effect _).alike⟩
  unfold State.toHistoric
  refine State.Lawful.announce ?_ _ _ _ _ _
  split
  · next e r hr =>
    refine m.noticed h hr .ordinary rfl rfl rfl fun hst hcr => hcr.of_moved ?_ nofun rfl rfl rfl
    rw [hst, hq]; decide
  · next hr => exact m.lawful_of_none h hr

theorem State.Lawful.forget (h : s.Lawful c) (i : Slot) : (s.forget i).Lawful c := by
  have h1 := h.freed (i := i) (q := { s.quals[i] with state := .idle, m := 0, fade := 0, forget := 0, unrecorded := false }) rfl rfl
    (State.markView_effect (s.setQual i _)).alike (decide (s.quals[i].state = .historic))
  unfold State.forget
  simp only
  split
  · exact h1.announce _ _ _ _ _
  · exact h1.announce _ _ _ _ _

theorem State.Lawful.accountSlot (h : s.Lawful c) (i : Slot) : (s.accountSlot i).Lawful c := by
  unfold State.accountSlot
  split
  · exact h
  · simp only
    split
    case h_1 => exact h
    case h_2 => exact h.setCounts i _ _
    case h_3 hq =>
      split
      · exact h.setCounts i _ _
      · split
        · split; exacts [h.toHistoric i _ hq, h.setCounts i _ _]
        · exact h
    case h_4 => split; exacts [h.forget i, h.setCounts i _ _]
    case h_5 => split; exacts [h.forget i, h.setCounts i _ _]

/-- A law that every step of a fold keeps. -/
theorem foldl_keeps {α β : Type} {p : β → Prop} (f : β → α → β) (hf : ∀ b a, p b → p (f b a)) (l : List α) :
    ∀ b, p b → p (l.foldl f b) := by
  induction l with
  | nil => exact fun _ h => h
  | cons a l ih => exact fun b h => ih _ (hf b a h)

theorem State.Lawful.accountAll (h : s.Lawful c) : s.accountAll.Lawful c :=
  foldl_keeps (p := fun t : State => t.Lawful c) _ (fun _ i ht => ht.accountSlot i) _ s h

theorem State.urgeRecords_alike (s : State) : s.Alike s.urgeRecords := by
  refine ⟨⟨fun _ => ⟨rfl, rfl⟩, rfl, fun e => ?_⟩, fun e => ?_⟩ <;>
    (simp [State.urgeRecords, Function.comp_def]; rfl)

theorem State.Alike.with_store (s : State) (x : Store) : s.Alike { s with store := x } := .of_same rfl rfl rfl

theorem State.closeRide_alike (s : State) : s.Alike s.closeRide :=
  (((s.appendPart_effect .rideEnd 0).alike.trans (State.markQualifier_effect _).alike).trans
    (.with_store _ _)).trans (State.urgeRecords_alike _)

/-! ### Clears and ADOPT -/

theorem State.Lawful.clearQual (h : s.Lawful c) (i : Slot) (d : Pattern) : (s.clearQual i d).Lawful c := by
  have h1 := h.freed (q := Qualifier.reset) (i := i) rfl rfl (State.Alike.refl (s := s.setQual i Qualifier.reset)) false
  unfold State.clearQual
  exact (h1.alike (State.handDemand_effect _ _ _ _).alike).alike (State.markView_effect _).alike

theorem State.Lawful.clearOne (h : s.Lawful c) (i : Slot) : (s.clearOne i).Lawful c :=
  ((h.clearQual i _).alike (State.rebase_effect _ i).alike).alike (State.settlePass_effect _ _).alike

theorem State.Lawful.adoptClear (h : s.Lawful c) (i : Slot) (d : Pattern) : (s.adoptClear i d).Lawful c :=
  ((h.clearQual i d).alike (State.appendSlot_effect _ _ _ _ _).alike).alike (State.queueLog_effect _ _).alike

theorem State.updateClass_alike (s : State) (i : Slot) (cls : Fin 4) : s.Alike (s.updateClass i cls) := by
  unfold State.updateClass
  split
  · exact .refl s
  · next e r hr =>
    split
    · exact .refl s
    · have h1 := (s.setRecord_alike e r { r with cls := cls } (State.holds_of_recordOf hr).1 rfl rfl).trans
        (State.markView_effect _).alike
      simp only
      split
      · exact h1
      · exact h1.trans (State.markRecord_alike _ _ _)

theorem State.Lawful.adoptSlot {acc : State × Nat} (h : acc.1.Lawful c) (old : State) (i : Slot) :
    (old.adoptSlot i acc).1.Lawful c := by
  have h1 := h.alike (acc.1.rebase_effect i).alike
  unfold State.adoptSlot
  simp only
  split
  · exact (h1.adoptClear i _).alike (State.updateClass_alike _ _ _)
  · exact h1.alike (State.updateClass_alike _ _ _)

theorem State.Lawful.adoptSlots (h : s.Lawful c) (p : Port) : (s.adoptSlots p).1.Lawful c := by
  have h1 : (s.replaceCopy p).Lawful c := h.alike (s.replaceCopy_effect p).alike
  have h2 := foldl_keeps (p := fun acc : State × Nat => acc.1.Lawful c) (fun acc i => s.adoptSlot i acc)
    (fun _ i hb => hb.adoptSlot s i) (s.portSlots p) (s.replaceCopy p, 0) h1
  exact h2.alike (State.settlePass_effect _ p).alike

/-! ### Requests -/

theorem State.Alike.with_exec (s : State) (x : Executor) : s.Alike { s with exec := x } := .of_same rfl rfl rfl

theorem State.Lawful.await (h : s.Lawful c) (w : Taken) : (s.await w).Lawful c := h.alike (.with_exec _ _)

theorem State.Lawful.reply (h : s.Lawful c) (p : Port) (st : Status) (a : List Byte) : (s.reply p st a).Lawful c :=
  h.await _

theorem State.Lawful.adopt (h : s.Lawful c) (p : Port) : (s.adopt p).Lawful c := by
  unfold State.adopt
  split
  · exact h.reply _ _ _
  · obtain ⟨w, hw, -⟩ := (s.adoptSlots p).1.adoptOutcome_await p (s.adoptSlots p).2
      (bytes16 (s.enabledCount p) ++ [byteOf (s.clampedCount p), byteOf (s.adoptSlots p).2])
    simp only
    rw [hw]
    exact (h.adoptSlots p).await w

theorem State.Lawful.clearOutcome (h : s.Lawful c) (p : Port) (a : List Byte) : (s.clearOutcome p a).Lawful c := by
  obtain ⟨w, hw, -⟩ := s.clearOutcome_await p a
  rw [hw]
  exact h.await w

theorem State.Lawful.clearIndex (h : s.Lawful c) (p : Port) : (s.clearIndex p).Lawful c := by
  unfold State.clearIndex
  simp only
  split_ifs
  · exact ((h.clearOne _).alike (State.tellClear_effect _ _ _).alike).clearOutcome _ _
  · exact h.reply _ _ _
  · exact h.reply _ _ _

theorem State.Lawful.fetchFrame (h : s.Lawful c) (p : Port) : (s.fetchFrame p).Lawful c := by
  unfold State.fetchFrame
  split
  · split
    · exact h.reply _ _ _
    · exact h.reply _ _ _
  · exact h.reply _ _ _

theorem State.Lawful.fetchQualifier (h : s.Lawful c) (p : Port) : (s.fetchQualifier p).Lawful c := by
  unfold State.fetchQualifier
  split
  · exact h.reply _ _ _
  · exact h.reply _ _ _

theorem State.Lawful.readRetained (h : s.Lawful c) (p : Port) : (s.readRetained p).Lawful c := by
  unfold State.readRetained
  split
  · exact h.await _
  · exact h.reply _ _ _

theorem State.Lawful.eraseRetained (h : s.Lawful c) (p : Port) : (s.eraseRetained p).Lawful c := by
  unfold State.eraseRetained
  split_ifs
  · exact h.reply _ _ _
  · exact h.reply _ _ _
  · exact (h.alike (.with_store _ _)).await _

theorem State.Lawful.acknowledge (h : s.Lawful c) (p : Port) : (s.acknowledge p).Lawful c := by
  have h1 : s.Alike (s.setPort p { s.port p with stray := false, declined := 0 }) := by
    cases p <;> exact .of_same rfl rfl rfl
  exact (h.alike (h1.trans (State.markViewIf_effect _ _).alike)).reply _ _ _

theorem State.Lawful.clearPort (h : s.Lawful c) (p : Port) : (s.clearPort p).Lawful c := by
  unfold State.clearPort
  split
  · exact ((foldl_keeps (p := fun t : State => t.Lawful c) _ (fun _ i ht => ht.clearOne i) _ s h).alike
      (State.tellClearPort_effect _ p).alike).clearOutcome _ _
  · exact h.reply _ _ _

/-- A request's command keeps the laws where its work does. -/
theorem State.Lawful.request (h : s.Lawful c) {r : RequestStep} {mine : Bool} {f : State → State}
    (hf : ∀ u : State, u.Lawful c → (f u).Lawful c) (ht : s.request r mine f = .next t) : t.Lawful c := by
  have taken (hc : s.canTake r.port = true) : (f (s.take r.port)).Lawful c :=
    hf _ (h.alike (s.take_effect r.port ((s.canTake_iff r.port).mp hc).2.2.2.1).alike)
  unfold State.request at ht
  split at ht <;> rcases arises_cases _ _ _ _ ht with ⟨-, hc, e⟩ | ⟨-, e⟩
  · rw [e]; exact (taken (Bool.and_eq_true_iff.mp hc).1).alike (State.finish_effect _ _).alike
  · rw [e]; exact h
  · rw [e]; exact taken (Bool.and_eq_true_iff.mp hc).1
  · rw [e]; exact h
  · rw [e]; exact h.alike (State.finish_effect _ _).alike
  · rw [e]; exact h

/-! ### The writer -/

/-- A record's job is for the record its entry holds. -/
theorem State.freshForSlot_holds {l : List Image} {im : Image} {e : Fin 48} {r : Record}
    (h : s.freshForSlot l i im = some (.record e r)) : s.Holds e r := by
  have none_of {o : Option Job} (ho : o = State.freshForSlot.freshWithout l i im) : o ≠ some (.record e r) := by
    rw [ho]
    unfold State.freshForSlot.freshWithout
    split_ifs <;> simp
  unfold State.freshForSlot at h
  split at h
  · next e' r' hr =>
    split_ifs at h
    · cases h; exact (State.holds_of_recordOf hr).1
    · exact absurd h (none_of rfl)
  · exact absurd h (none_of rfl)

theorem State.nextFresh_holds {v : Fin 16} {e : Fin 48} {r : Record} (h : s.nextFresh v = some (.record e r)) :
    s.Holds e r := by
  unfold State.nextFresh at h
  simp only at h
  split_ifs at h
  · cases h
  · cases h
  · obtain ⟨i, -, hi⟩ := List.exists_of_findSome?_eq_some h
    split at hi
    · split_ifs at hi
      exact s.freshForSlot_holds hi
    · cases hi

theorem State.nextImage_holds {e : Fin 48} {r : Record} {k : JobClass} (h : s.nextImage = some (.record e r, k)) :
    s.Holds e r := by
  have found {p : Fin 48 × Record → Bool} {x : Fin 48 × Record} (hx : s.recordList.find? p = some x) : s.Holds x.1 x.2 :=
    (s.mem_recordList x.1 x.2).mp (List.mem_of_find?_eq_some hx)
  unfold State.nextImage at h
  split_ifs at h
  split at h
  · next j hj =>
    cases h
    unfold State.urgentWork at hj
    split at hj
    · cases hj
    · split at hj
      · cases hj
      · cases hj
      · split at hj
        · next hx => cases hj; exact found hx
        · split at hj <;> cases hj
  · cases h
  · unfold State.laterJob at h
    split at h
    · cases h
    split at h
    · obtain ⟨j, hj, hk⟩ := Option.map_eq_some_iff.mp h
      cases hk
      exact s.nextFresh_holds hj
    · split at h
      · cases h
      obtain ⟨x, hx, hk⟩ := Option.map_eq_some_iff.mp h
      cases hk
      exact found hx

theorem State.clearMarks_alike (s : State) (j : Job) (k : JobClass) (h : ∀ e r, j = .record e r → s.Holds e r) :
    s.Alike (s.clearMarks j k) := by
  unfold State.clearMarks
  split
  · exact .with_store _ _
  · exact .with_store _ _
  · next e r =>
    exact (s.setRecord_alike e r { r with dirty := false, urgent := false, persisted := true } (h e r rfl) rfl rfl).trans (State.markViewIf_effect _ _).alike
  · split
    · exact .with_store _ _
    · exact .refl s

theorem State.beginImage_alike {j : Job} {k : JobClass} (h : s.nextImage = some (j, k)) : s.Alike (s.beginImage j k) := by
  unfold State.beginImage
  split
  · exact (s.failStore_effect).alike
  · have hf := s.findRoom_effect (imageLines (jobKind j)) (decide (k ≠ .ordinary))
    split
    · next s1 e => rw [e] at hf; exact hf.alike
    · next s1 m e =>
      rw [e] at hf
      refine (hf.alike.trans (.with_store s1 _)).trans (State.clearMarks_alike _ j k fun e' r hj => ?_)
      subst hj
      exact (s.holds_congr hf.records e' r).mpr (State.nextImage_holds h)

theorem State.remark_alike (s : State) (r : Redo) : s.Alike (s.remark r) := by
  unfold State.remark
  split
  · exact .refl s
  · exact s.markRide_effect.alike
  · exact s.markQualifier_effect.alike
  · exact (s.queueLog_effect _).alike
  · split
    · exact s.markRecord_alike _ _
    · exact .refl s

theorem State.failImage_alike (s : State) (p : ImageProgram) : s.Alike (s.failImage p) := by
  have h1 : s.Alike ((s.setSector p.sector { s.store.sectors[p.sector] with state := .full, marked := true }).remark p.redo) :=
    (State.Alike.with_store s _).trans (State.remark_alike _ _)
  unfold State.failImage
  simp only
  split
  · split
    · exact h1.trans (State.openAt_effect _ _).alike
    · exact h1
  · exact h1

theorem State.Alike.with_flash (s : State) (x : Memory) : s.Alike { s with flash := x } := .of_same rfl rfl rfl

theorem State.endImage_alike (s : State) (p : ImageProgram) (m : Marred) : s.Alike (s.endImage p m) := by
  unfold State.endImage
  simp only
  have h1 : s.Alike ((s.program (sectorAddr p.sector (8 * p.line)) ((readBack p.bytes m).take 8)).program
      (sectorAddr p.sector (8 * p.line) + 16) ((readBack p.bytes m).drop 16)) :=
    (State.Alike.with_flash s _).trans (.with_flash _ _)
  generalize State.program _ _ (State.program _ _ s) = s1 at h1 ⊢
  have h2 : s.Alike (if bodyReadsBack p.bytes (readBack p.bytes m) = true then
      s1.program (sectorAddr p.sector (8 * p.line) + 8) (((readBack p.bytes m).take 16).drop 8) else s1) := by
    split
    · exact h1.trans (.with_flash _ _)
    · exact h1
  generalize (if bodyReadsBack p.bytes (readBack p.bytes m) = true then _ else s1) = s2 at h2 ⊢
  have h3 : s.Alike { s2.setSector p.sector { s2.store.sectors[p.sector] with used := p.line + p.bytes.length / 8 } with
      store := { (s2.setSector p.sector { s2.store.sectors[p.sector] with used := p.line + p.bytes.length / 8 }).store with
        program := none } } := h2.trans (.with_store _ _)
  generalize State.mk _ _ _ _ _ _ _ _ _ _ _ _ _ _ _ _ _ _ _ _ = s4 at h3 ⊢
  split
  · split
    · exact h3.trans (s4.reportClear_effect true).alike
    · exact h3
  · exact h3.trans (s4.failImage_alike p)

/-! ### Rides -/

/-- A ride begin moves the ride number up, and no qualifier's state (R85, R86). -/
theorem State.Lawful.rideBegin (h : s.Lawful c) : s.rideBegin.Lawful c := by
  have hn : s.ride.number ≤ 65535 → s.ride.number ≤ min 65535 (s.ride.number + 1) := by omega
  have h1 : State.Lawful { s with ride := s.begunRide } c := by
    refine ⟨⟨h.records.inStep, h.records.oneEach, h.records.unrecorded⟩, h.frames, fun x => ⟨?_, fun e r hr => ?_⟩⟩
    · exact Nat.min_le_left _ _
    · obtain ⟨hp, ho, hf, hl⟩ := (h.counts x).records e r hr
      exact ⟨hp, ho, hf, hl.trans (hn (h.counts x).ride)⟩
  have h2 : State.Lawful (State.clearRideFlags { s with ride := s.begunRide }) c := by
    refine h1.alike ⟨⟨fun j => ?_, rfl, fun _ => rfl⟩, fun _ => rfl⟩
    simp [State.clearRideFlags]
  have h3 := (State.clearRideFlags { s with ride := s.begunRide }).markRide_effect.alike
  rw [State.rideBegin_eq]
  refine (h2.alike h3).alike ?_
  unfold State.rideSteps
  exact (((((State.startPassTimer_effect _ _).alike.trans (State.startPassTimer_effect _ _).alike).trans
    (State.startSilence_effect _ _).alike).trans (State.startSilence_effect _ _).alike).trans
    ((State.appendPart_effect _ _ _).alike.trans (State.markView_effect _).alike)).trans (State.refreshLamps_effect _).alike

end Sys2Proof.Machine
end

