-- ==== Sys2Proof/Proofs/Restored.lean ====
section
/-!
PROOFS. What restore makes of the images (R121, R131, R132): the newest image of a key, the rows of one slot, the records
kept in order, and the frames handed out.
-/

-- Proofs in the order of the text: those that elaborate default tactic arguments at once wait for each other.
set_option Elab.async false

namespace Sys2Proof.Machine

/-! ### The newest image -/

/-- The fold of `newestOf`: the best so far, or a later image of higher sequence. -/
theorem newest_fold (l : List Image) : ∀ b : Image, ∃ im,
    l.foldl (fun best x =>
      match best with
      | none => some x
      | some b => if b.seq < x.seq then some x else some b) (some b) = some im ∧
    (im = b ∨ im ∈ l) ∧ b.seq ≤ im.seq ∧ ∀ x ∈ l, x.seq ≤ im.seq := by
  induction l with
  | nil => exact fun b => ⟨b, rfl, .inl rfl, le_refl _, fun x hx => (by cases hx)⟩
  | cons a l ih =>
    intro b
    rw [List.foldl_cons]
    simp only
    split
    · next hlt =>
      obtain ⟨im, he, hm, hle, hall⟩ := ih a
      refine ⟨im, he, .inr ?_, by omega, ?_⟩
      · rcases hm with rfl | hm
        · exact List.mem_cons_self
        · exact List.mem_cons_of_mem _ hm
      · simp only [List.mem_cons, forall_eq_or_imp]
        exact ⟨hle, hall⟩
    · next hlt =>
      obtain ⟨im, he, hm, hle, hall⟩ := ih b
      refine ⟨im, he, hm.imp_right (List.mem_cons_of_mem _), hle, ?_⟩
      simp only [List.mem_cons, forall_eq_or_imp]
      exact ⟨by omega, hall⟩

theorem newestOf_cons (a : Image) (l : List Image) : ∃ im, newestOf (a :: l) = some im ∧ im ∈ a :: l ∧
    ∀ x ∈ a :: l, x.seq ≤ im.seq := by
  obtain ⟨im, he, hm, hle, hall⟩ := newest_fold l a
  refine ⟨im, he, ?_, ?_⟩
  · rcases hm with rfl | hm
    · exact List.mem_cons_self
    · exact List.mem_cons_of_mem _ hm
  · simp only [List.mem_cons, forall_eq_or_imp]
    exact ⟨hle, hall⟩

theorem newestOf_eq_none {l : List Image} (h : newestOf l = none) : l = [] := by
  cases l with
  | nil => rfl
  | cons a l =>
    obtain ⟨im, he, -⟩ := newestOf_cons a l
    rw [he] at h
    cases h

theorem newestOf_eq_some {l : List Image} {im : Image} (h : newestOf l = some im) :
    im ∈ l ∧ ∀ x ∈ l, x.seq ≤ im.seq := by
  cases l with
  | nil => cases h
  | cons a l =>
    obtain ⟨im', he, hm, hall⟩ := newestOf_cons a l
    rw [he] at h
    cases h
    exact ⟨hm, hall⟩

/-- The newest of the images that pass a test. -/
theorem newestOf_filter (l : List Image) (p : Image → Bool) :
    (newestOf (l.filter p) = none → ∀ x ∈ l, ¬p x = true) ∧
    ∀ im, newestOf (l.filter p) = some im → im ∈ l ∧ p im = true ∧ ∀ x ∈ l, p x = true → x.seq ≤ im.seq := by
  refine ⟨fun h => List.filter_eq_nil_iff.mp (newestOf_eq_none h), fun im h => ?_⟩
  obtain ⟨hm, hall⟩ := newestOf_eq_some h
  obtain ⟨h1, h2⟩ := List.mem_filter.mp hm
  exact ⟨h1, h2, fun x hx hp => hall x (List.mem_filter.mpr ⟨hx, hp⟩)⟩

/-! ### One slot (R131) -/

/-- What the rows of R131 give, by the newest image of the record key. -/
theorem rebuildSlot_eq (l : List Image) (i : Slot) (im : Image) (h : newestRecordKey l i.val = some im) :
    (im.kind = .release → rebuildSlot l i = (qualifierFrom (newestQualifier l) i.val, none)) ∧
    (im.kind = .clear → rebuildSlot l i = if newerThanQualifier (newestQualifier l) im = true then (Qualifier.reset, none)
      else (qualifierFrom (newestQualifier l) i.val, none)) ∧
    (im.kind = .record → rebuildSlot l i =
      let b := rebuiltFrom i im.body
      let base := qualifierFrom (newestQualifier l) i.val
      if newerThanQualifier (newestQualifier l) im = true then
        ({ Qualifier.reset with state := b.record.state, m := restoredM b.record.state, fade := b.record.fade,
                                forget := b.record.forget }, recordable b)
      else
        match base.state with
        | .confirmed | .fading | .historic =>
          (base, some { b with record := { b.record with state := base.state, fade := base.fade, forget := base.forget } })
        | .idle | .pending => (base, none)) := by
  unfold rebuildSlot
  rw [h]
  refine ⟨fun hk => ?_, fun hk => ?_, fun hk => ?_⟩
  · simp only [hk]
  · simp only [hk]
  · simp only [hk] <;> rfl

/-- A record a slot is rebuilt with is that slot's, in a state a record is kept in, which its qualifier shares. -/
theorem rebuildSlot_record {l : List Image} {i : Slot} {x : Rebuilt} (h : (rebuildSlot l i).2 = some x) :
    x.record.slot = i ∧ x.record.state = (rebuildSlot l i).1.state ∧ x.record.state ≠ .idle := by
  have recorded {b y : Rebuilt} (hy : recordable b = some y) : y = b ∧ b.record.state ≠ .idle := by
    unfold recordable at hy
    split at hy <;> cases hy <;> next hs => exact ⟨rfl, by rw [hs]; decide⟩
  have noOther {q : Qualifier} (e : rebuildSlot l i = (q, none)) : False := by
    rw [e] at h
    cases h
  cases him : newestRecordKey l i.val with
  | none =>
    refine (noOther (q := qualifierFrom (newestQualifier l) i.val) ?_).elim
    unfold rebuildSlot
    rw [him]
  | some im =>
    obtain ⟨hrel, hclr, hrec⟩ := rebuildSlot_eq l i im him
    cases hk : im.kind with
    | release => exact (noOther (hrel hk)).elim
    | clear =>
      have := hclr hk
      split at this <;> exact (noOther this).elim
    | record =>
      rw [hrec hk] at h ⊢
      simp only at h ⊢
      split at h
      · next hn =>
        rw [if_pos hn]
        obtain ⟨rfl, hs⟩ := recorded h
        exact ⟨rfl, rfl, hs⟩
      · next hn =>
        rw [if_neg hn]
        split at h <;> cases h <;> next hs => rw [hs]; exact ⟨rfl, rfl, nofun⟩
    | ride | qualifier =>
      refine (noOther (q := qualifierFrom (newestQualifier l) i.val) ?_).elim
      unfold rebuildSlot
      rw [him]
      simp only [hk]

/-! ### The records kept (R132) -/

/-- R132's order: higher rank, then higher activity ride, then lower slot number. -/
def Rebuilt.Before (x y : Rebuilt) : Prop :=
  y.record.rank < x.record.rank ∨ (x.record.rank = y.record.rank ∧
    (y.record.activity < x.record.activity ∨ (x.record.activity = y.record.activity ∧ x.record.slot < y.record.slot)))

theorem keptBefore_iff (x y : Rebuilt) : keptBefore x.record y.record = true ↔ x.Before y := by
  simp [keptBefore, Rebuilt.Before]

theorem Rebuilt.Before.trans {x y z : Rebuilt} (h : x.Before y) (h' : y.Before z) : x.Before z := by
  simp only [Rebuilt.Before, Fin.lt_def] at h h' ⊢
  omega

theorem Rebuilt.before_of_not {x y : Rebuilt} (h : ¬x.Before y) (hs : y.record.slot ≠ x.record.slot) : y.Before x := by
  simp only [Rebuilt.Before, Fin.lt_def] at h ⊢
  have := Fin.val_ne_of_ne hs
  omega

theorem insertKept_perm (x : Rebuilt) (l : List Rebuilt) : (insertKept x l).Perm (x :: l) := by
  induction l with
  | nil => exact .refl _
  | cons y l ih =>
    unfold insertKept
    split
    · exact .refl _
    · exact (ih.cons y).trans (.swap x y l)

theorem insertKept_pairwise {x : Rebuilt} {l : List Rebuilt} (h : l.Pairwise Rebuilt.Before)
    (hx : ∀ y ∈ l, y.record.slot ≠ x.record.slot) : (insertKept x l).Pairwise Rebuilt.Before := by
  induction l with
  | nil => exact List.pairwise_singleton _ _
  | cons y l ih =>
    obtain ⟨hy, hl⟩ := List.pairwise_cons.mp h
    obtain ⟨hxy, hxl⟩ := List.forall_mem_cons.mp hx
    unfold insertKept
    split
    · next hb =>
      rw [keptBefore_iff] at hb
      refine List.pairwise_cons.mpr ⟨List.forall_mem_cons.mpr ⟨hb, fun z hz => hb.trans (hy z hz)⟩, h⟩
    · next hb =>
      rw [keptBefore_iff] at hb
      refine List.pairwise_cons.mpr ⟨fun z hz => ?_, ih hl hxl⟩
      rcases List.mem_cons.mp ((insertKept_perm x l).mem_iff.mp hz) with rfl | hz
      · exact Rebuilt.before_of_not hb hxy
      · exact hy z hz

/-- The insertions make an ordered rearrangement, where no two records are of one slot. -/
theorem foldl_insertKept (l : List Rebuilt) : ∀ acc : List Rebuilt,
    acc.Pairwise Rebuilt.Before → (l ++ acc).Pairwise (fun x y => x.record.slot ≠ y.record.slot) →
    (l.foldl (fun acc x => insertKept x acc) acc).Perm (l ++ acc) ∧
      (l.foldl (fun acc x => insertKept x acc) acc).Pairwise Rebuilt.Before := by
  induction l with
  | nil => exact fun acc h _ => ⟨.refl _, h⟩
  | cons x l ih =>
    intro acc h hd
    rw [List.cons_append] at hd
    obtain ⟨hx, hl⟩ := List.pairwise_cons.mp hd
    have hp : (l ++ insertKept x acc).Perm (x :: (l ++ acc)) :=
      ((insertKept_perm x acc).append_left l).trans List.perm_middle
    have h1 := insertKept_pairwise (x := x) h fun y hy => (hx y (List.mem_append_right _ hy)).symm
    obtain ⟨g1, g2⟩ := ih _ h1 ((hp.pairwise_iff fun h => h.symm).mpr hd)
    exact ⟨g1.trans hp, g2⟩

/-- Every record that restore rebuilds, by slot (R131). -/
def rebuiltRecords (l : List Image) : List Rebuilt := (List.finRange 192).filterMap (fun i => (rebuildSlot l i).2)

theorem rebuiltRecords_slots (l : List Image) :
    (rebuiltRecords l).Pairwise (fun x y => x.record.slot ≠ y.record.slot) := by
  rw [rebuiltRecords, List.pairwise_filterMap]
  refine (List.nodup_finRange 192).imp fun {i j} hij x hx y hy he => hij ?_
  rw [← (rebuildSlot_record hx).1, he, (rebuildSlot_record hy).1]

theorem mem_rebuiltRecords {l : List Image} {x : Rebuilt} :
    x ∈ rebuiltRecords l ↔ ∃ i, (rebuildSlot l i).2 = some x := by
  simp [rebuiltRecords]

/-- All rebuilt records in R132's order. -/
def rankedRecords (l : List Image) : List Rebuilt := (rebuiltRecords l).foldl (fun acc x => insertKept x acc) []

theorem keptRecords_eq (l : List Image) : keptRecords l = (rankedRecords l).take 48 := rfl

theorem rankedRecords_perm (l : List Image) : (rankedRecords l).Perm (rebuiltRecords l) := by
  have h := (foldl_insertKept (rebuiltRecords l) [] List.Pairwise.nil (by simpa using rebuiltRecords_slots l)).1
  rwa [List.append_nil] at h

theorem rankedRecords_pairwise (l : List Image) : (rankedRecords l).Pairwise Rebuilt.Before :=
  (foldl_insertKept (rebuiltRecords l) [] List.Pairwise.nil (by simpa using rebuiltRecords_slots l)).2

theorem mem_rebuilt_of_kept {l : List Image} {x : Rebuilt} (h : x ∈ keptRecords l) : x ∈ rebuiltRecords l :=
  (rankedRecords_perm l).mem_iff.mp (List.mem_of_mem_take h)

theorem length_keptRecords (l : List Image) : (keptRecords l).length = min 48 (rebuiltRecords l).length := by
  rw [keptRecords_eq, List.length_take, (rankedRecords_perm l).length_eq]

theorem keptRecords_slots (l : List Image) :
    (keptRecords l).Pairwise (fun x y => x.record.slot ≠ y.record.slot) := by
  have h := ((rankedRecords_perm l).pairwise_iff fun h => Ne.symm h).mpr (rebuiltRecords_slots l)
  exact h.sublist (List.take_sublist 48 _)

/-- A record that is not kept comes behind all that are (R132). -/
theorem before_of_not_kept {l : List Image} {x y : Rebuilt} (hx : x ∈ rebuiltRecords l) (hn : x ∉ keptRecords l)
    (hy : y ∈ keptRecords l) : y.Before x := by
  have h := rankedRecords_pairwise l
  rw [← List.take_append_drop 48 (rankedRecords l), List.pairwise_append] at h
  refine h.2.2 y hy x ?_
  have hm := (rankedRecords_perm l).mem_iff.mpr hx
  rw [← List.take_append_drop 48 (rankedRecords l), List.mem_append] at hm
  exact hm.resolve_left hn

/-! ### The frames handed out (R132) -/

/-- 1 for a copy that is there. -/
def copies (f : Option Frame) : Nat := if f.isSome then 1 else 0

/-- The copies the first records of a list carry. -/
def copiesOf (l : List Rebuilt) : Nat := (l.map (fun y => copies y.first + copies y.latest)).sum

/-- One copy handed the next of `n` frames already given, if one of the 64 is left. -/
def handOne (copy : Option Frame) (g : List Frame) : Option (Fin 64) × List Frame :=
  match copy with
  | some f => if h : g.length < 64 then (some ⟨g.length, h⟩, g ++ [f]) else (none, g)
  | none => (none, g)

theorem handFrames_eq (x : Rebuilt) (g : List Frame) : handFrames x g =
    ({ x.record with first := (handOne x.first g).1, latest := (handOne x.latest (handOne x.first g).2).1 },
      (handOne x.latest (handOne x.first g).2).2) := rfl

theorem handOne_length (copy : Option Frame) (g : List Frame) (n : Nat) (h : g.length = min 64 n) :
    (handOne copy g).2.length = min 64 (n + copies copy) := by
  unfold handOne copies
  split
  · split
    · simp; omega
    · simp; omega
  · simpa using h

theorem handOne_prefix (copy : Option Frame) (g : List Frame) : g <+: (handOne copy g).2 := by
  unfold handOne
  split
  · split
    · exact List.prefix_append _ _
    · exact List.prefix_refl g
  · exact List.prefix_refl g

/-- What a copy is given: frame `n` while fewer than 64 are given, and none else (R132). -/
def Given (frames : List Frame) (copy : Option Frame) (n : Nat) (ref : Option (Fin 64)) : Prop :=
  (∀ f, copy = some f → n < 64 → ∃ g, ref = some g ∧ g.val = n ∧ frames[n]? = some f) ∧
  (copy = none ∨ 64 ≤ n → ref = none)

theorem given_handOne (copy : Option Frame) (g : List Frame) (n : Nat) (h : g.length = min 64 n) :
    Given (handOne copy g).2 copy n (handOne copy g).1 := by
  cases copy with
  | none => exact ⟨fun f hf => (by cases hf), fun _ => rfl⟩
  | some f =>
    unfold handOne
    by_cases hg : g.length < 64
    · have hn : g.length = n := by omega
      subst hn
      simp only [hg, dif_pos]
      refine ⟨fun f' hf _ => ⟨_, rfl, rfl, ?_⟩, fun hc => ?_⟩
      · cases hf; simp
      · rcases hc with hc | hc
        · cases hc
        · omega
    · simp only [hg, dif_neg, not_false_eq_true]
      exact ⟨fun f' _ hn => absurd hn (by omega), fun _ => rfl⟩

theorem Given.of_prefix {g g' : List Frame} {copy : Option Frame} {n : Nat} {ref : Option (Fin 64)}
    (h : Given g copy n ref) (hp : g <+: g') : Given g' copy n ref := by
  refine ⟨fun f hf hn => ?_, h.2⟩
  obtain ⟨x, hx, hxn, hg⟩ := h.1 f hf hn
  refine ⟨x, hx, hxn, ?_⟩
  obtain ⟨t, rfl⟩ := hp
  rw [List.getElem?_append_left (List.getElem?_eq_some_iff.mp hg).1]
  exact hg

theorem placeRecords_concat (l : List Rebuilt) (x : Rebuilt) : placeRecords (l ++ [x]) =
    ((placeRecords l).1 ++ [(handFrames x (placeRecords l).2).1], (handFrames x (placeRecords l).2).2) := by
  simp [placeRecords]

theorem placeRecords_length (l : List Rebuilt) :
    (placeRecords l).1.length = l.length ∧ (placeRecords l).2.length = min 64 (copiesOf l) := by
  induction l using List.reverseRecOn with
  | nil => exact ⟨rfl, rfl⟩
  | append_singleton l x ih =>
    obtain ⟨h1, h2⟩ := ih
    rw [placeRecords_concat]
    refine ⟨by simp [h1], ?_⟩
    have h3 := handOne_length x.latest _ _ (handOne_length x.first _ _ h2)
    simp only [handFrames_eq, h3, copiesOf, List.map_append, List.sum_append, List.map_cons, List.map_nil, List.sum_cons,
      List.sum_nil]
    omega

/-- What is placed stays where it is while more is placed. -/
theorem placeRecords_prefix (l m : List Rebuilt) :
    (placeRecords l).1 <+: (placeRecords (l ++ m)).1 ∧ (placeRecords l).2 <+: (placeRecords (l ++ m)).2 := by
  induction m using List.reverseRecOn with
  | nil => rw [List.append_nil]; exact ⟨List.prefix_refl _, List.prefix_refl _⟩
  | append_singleton m x ih =>
    rw [← List.append_assoc, placeRecords_concat]
    refine ⟨ih.1.trans (List.prefix_append _ _), ih.2.trans ?_⟩
    rw [handFrames_eq]
    exact (handOne_prefix _ _).trans (handOne_prefix _ _)

/-- The record in one place, and the frames it is given (R132). -/
theorem placeRecords_get (kept : List Rebuilt) (e : Nat) (x : Rebuilt) (h : kept[e]? = some x) :
    ∃ r, (placeRecords kept).1[e]? = some r ∧
      { r with first := none, latest := none } = { x.record with first := none, latest := none } ∧
      Given (placeRecords kept).2 x.first (copiesOf (kept.take e)) r.first ∧
      Given (placeRecords kept).2 x.latest (copiesOf (kept.take e) + copies x.first) r.latest := by
  obtain ⟨he, hx⟩ := List.getElem?_eq_some_iff.mp h
  have hk : kept = (kept.take e ++ [x]) ++ kept.drop (e + 1) := by
    rw [← hx, List.append_assoc, List.singleton_append, ← List.drop_eq_getElem_cons he, List.take_append_drop]
  obtain ⟨hl1, hl2⟩ := placeRecords_length (kept.take e)
  obtain ⟨hp1, hp2⟩ := placeRecords_prefix (kept.take e ++ [x]) (kept.drop (e + 1))
  rw [← hk] at hp1 hp2
  rw [placeRecords_concat] at hp1 hp2
  have hte : (kept.take e).length = e := by rw [List.length_take]; omega
  refine ⟨(handFrames x (placeRecords (kept.take e)).2).1, ?_, rfl, ?_, ?_⟩
  · obtain ⟨t, ht⟩ := hp1
    rw [← ht, List.getElem?_append_left (by simp [hl1, hte]), List.getElem?_append_right (by omega), hl1, hte]
    simp
  · rw [handFrames_eq] at hp2 ⊢
    exact ((given_handOne x.first _ _ hl2).of_prefix (handOne_prefix _ _)).of_prefix hp2
  · rw [handFrames_eq] at hp2 ⊢
    exact (given_handOne x.latest _ _ (handOne_length x.first _ _ hl2)).of_prefix hp2

/-! ### The rows of R131 -/

theorem ofRecordKey_iff (n : Nat) (x : Image) : (x.valid && ofRecordKey n x) = true ↔
    x.valid = true ∧ (((x.kind = .record ∨ x.kind = .release) ∧ (byteAt x.body 0).toNat = n) ∨
      (x.kind = .clear ∧ (byteAt x.body 0).toNat ≤ n ∧ n ≤ (byteAt x.body 1).toNat)) := by
  rw [Bool.and_eq_true]
  refine and_congr_right fun _ => ?_
  unfold ofRecordKey
  split <;> next hk => simp [hk]

theorem newerThanQualifier_iff (l : List Image) (im : Image) : newerThanQualifier (newestQualifier l) im = true ↔
    ∀ q, newestQualifier l = some q → q.seq < im.seq := by
  unfold newerThanQualifier
  cases newestQualifier l <;> simp

theorem recordable_of_stored {b : Rebuilt}
    (h : b.record.state = .confirmed ∨ b.record.state = .fading ∨ b.record.state = .historic) : recordable b = some b := by
  unfold recordable
  rcases h with h | h | h <;> rw [h]

/-- Settles O10: the newest image of a key decides, the records are ranked by insertion, and the copies of each take the
next frames. -/
theorem restoreFollowsTheNewestImages : Obligations.RestoreFollowsTheNewestImages := by
  refine ⟨fun l n => ?_, fun l i => ⟨fun h => ?_, fun im h => ?_⟩, fun l => ?_, fun kept e x h => ?_⟩
  · have key := newestOf_filter l (fun im => im.valid && ofRecordKey n im)
    have qual := newestOf_filter l (fun im => im.valid && decide (im.kind = .qualifier))
    simp only [ofRecordKey_iff] at key
    simp only [Bool.and_eq_true, decide_eq_true_eq] at qual
    exact ⟨key.1, key.2, qual.1, qual.2⟩
  · unfold rebuildSlot
    rw [h]
  · obtain ⟨hrel, hclr, hrec⟩ := rebuildSlot_eq l i im h
    refine ⟨hrel, fun hk hn => ?_, fun hk hn => ?_, fun q hq hlt => ?_⟩
    · rw [hclr hk, if_pos ((newerThanQualifier_iff l im).mpr hn)]
    · have := hrec hk
      simp only [if_pos ((newerThanQualifier_iff l im).mpr hn)] at this
      rw [this]
      exact ⟨rfl, recordable_of_stored⟩
    · have older : ¬newerThanQualifier (newestQualifier l) im = true := fun hn =>
        absurd ((newerThanQualifier_iff l im).mp hn q hq) (by omega)
      refine ⟨fun hk => by rw [hclr hk, if_neg older], fun hk hs => ?_, fun hk hs => ?_⟩ <;>
        (have := hrec hk
         simp only [if_neg older] at this
         rw [this])
      · rcases hs with hs | hs | hs <;> simp only [hs]
      · split <;> next hb => simp_all
  · exact ⟨length_keptRecords l, fun x hx => mem_rebuilt_of_kept hx,
      (rankedRecords_pairwise l).sublist (List.take_sublist 48 _), fun x hx hn y hy => before_of_not_kept hx hn hy⟩
  · exact ⟨(placeRecords_length kept).1, placeRecords_get kept e x h⟩

end Sys2Proof.Machine
end

