-- ==== Sys2Proof/Proofs/TableKept.lean ====
section
/-!
PROOFS. Restore and resets leave the laws of records and frames in force, and every command keeps them (R42, R43, R51,
R70).
-/

-- Proofs in the order of the text: those that elaborate default tactic arguments at once wait for each other.
set_option Elab.async false

namespace Sys2Proof.Machine

/-! ### Restore -/

/-- Records alike but for their frames. -/
theorem Record.core_of_unframed {r x : Record}
    (h : ({ r with first := none, latest := none } : Record) = { x with first := none, latest := none }) :
    r.core = x.core := by
  have := congrArg Record.core h
  exact this

theorem State.rebuild_records (s : State) (e : Fin 48) :
    s.rebuild.records[e] = (placeRecords (keptRecords (parsedImages s.flash))).1[e.val]? := by
  simp only [State.rebuild, Fin.getElem_fin, Vector.getElem_ofFn]

theorem State.rebuild_number (s : State) : s.rebuild.ride.number = restoredRide (parsedImages s.flash) := by
  simp only [State.rebuild]

/-- What a record in a restored entry comes from: a kept record in that place, but for its frames. -/
theorem State.rebuild_holds {s : State} {e : Fin 48} {r : Record} (h : s.rebuild.Holds e r) :
    ∃ x, (keptRecords (parsedImages s.flash))[e.val]? = some x ∧ r.core = x.record.core ∧
      Given (placeRecords (keptRecords (parsedImages s.flash))).2 x.first
        (copiesOf ((keptRecords (parsedImages s.flash)).take e.val)) r.first ∧
      Given (placeRecords (keptRecords (parsedImages s.flash))).2 x.latest
        (copiesOf ((keptRecords (parsedImages s.flash)).take e.val) + copies x.first) r.latest := by
  have hr : (placeRecords (keptRecords (parsedImages s.flash))).1[e.val]? = some r := by
    rw [← s.rebuild_records e]
    exact h
  have hlt := (List.getElem?_eq_some_iff.mp hr).1
  rw [(placeRecords_length _).1] at hlt
  obtain ⟨x, hx⟩ : ∃ x, (keptRecords (parsedImages s.flash))[e.val]? = some x := ⟨_, List.getElem?_eq_getElem hlt⟩
  obtain ⟨r', hr', hc, h1, h2⟩ := placeRecords_get _ _ _ hx
  obtain rfl : r = r' := Option.some.inj (hr.symm.trans hr')
  exact ⟨x, hx, Record.core_of_unframed hc, h1, h2⟩

/-- Two kept records of one slot stand in one place. -/
theorem keptRecords_oneEach {l : List Image} {n n' : Nat} {x x' : Rebuilt} (h : (keptRecords l)[n]? = some x)
    (h' : (keptRecords l)[n']? = some x') (hs : x.record.slot = x'.record.slot) : n = n' := by
  obtain ⟨hn, rfl⟩ := List.getElem?_eq_some_iff.mp h
  obtain ⟨hn', rfl⟩ := List.getElem?_eq_some_iff.mp h'
  have hd := List.pairwise_iff_getElem.mp (keptRecords_slots l)
  rcases Nat.lt_trichotomy n n' with hlt | he | hgt
  · exact absurd hs (hd n n' hn hn' hlt)
  · exact he
  · exact absurd hs.symm (hd n' n hn' hn hgt)

/-- What a frame that a record has been given says of its number. -/
theorem Given.number {g : List Frame} {copy : Option Frame} {n : Nat} {ref : Option (Fin 64)} {f : Fin 64}
    (h : Given g copy n ref) (hf : ref = some f) : f.val = n ∧ copies copy = 1 := by
  by_cases hn : 64 ≤ n
  · rw [h.2 (.inr hn)] at hf
    cases hf
  · cases hc : copy with
    | none => rw [h.2 (.inl hc)] at hf; cases hf
    | some x =>
      obtain ⟨f', hf', hv, -⟩ := h.1 x hc (by omega)
      rw [hf] at hf'
      cases hf'
      exact ⟨hv, rfl⟩

theorem copiesOf_take_succ (l : List Rebuilt) {n : Nat} {x : Rebuilt} (h : l[n]? = some x) :
    copiesOf (l.take (n + 1)) = copiesOf (l.take n) + (copies x.first + copies x.latest) := by
  obtain ⟨hn, hx⟩ := List.getElem?_eq_some_iff.mp h
  rw [List.take_succ_eq_append_getElem hn, hx]
  simp [copiesOf]

theorem copiesOf_take_mono (l : List Rebuilt) {n m : Nat} (h : n ≤ m) : copiesOf (l.take n) ≤ copiesOf (l.take m) := by
  have e : l.take m = l.take n ++ (l.drop n).take (m - n) := by
    conv_lhs => rw [show m = n + (m - n) by omega, List.take_add]
  rw [e, copiesOf, copiesOf, List.map_append, List.sum_append]
  exact Nat.le_add_right _ _

/-- The frames handed to the record of a place lie from the copies given before it on, below those of the next place. -/
theorem State.rebuild_frameRef {s : State} {e : Fin 48} {r : Record} {k : FrameKind} {f : Fin 64}
    (h : s.rebuild.Holds e r) (hf : r.frameRef k = some f) :
    copiesOf ((keptRecords (parsedImages s.flash)).take e.val) ≤ f.val ∧
    f.val < copiesOf ((keptRecords (parsedImages s.flash)).take (e.val + 1)) := by
  obtain ⟨x, hx, -, h1, h2⟩ := s.rebuild_holds h
  have hs := copiesOf_take_succ _ hx
  cases k with
  | first =>
    obtain ⟨hv, hc⟩ := h1.number hf
    omega
  | latest =>
    obtain ⟨hv, hc⟩ := h2.number hf
    omega

theorem State.rebuild_frameLaw (s : State) : s.rebuild.FrameLaw := by
  intro e e' r r' k k' f h h' hk hk'
  obtain ⟨lo, hi⟩ := s.rebuild_frameRef h hk
  obtain ⟨lo', hi'⟩ := s.rebuild_frameRef h' hk'
  have he : e = e' := by
    have up := copiesOf_take_mono (keptRecords (parsedImages s.flash)) (n := e.val + 1) (m := e'.val)
    have down := copiesOf_take_mono (keptRecords (parsedImages s.flash)) (n := e'.val + 1) (m := e.val)
    apply Fin.ext
    omega
  subst he
  obtain rfl : r = r' := Option.some.inj (h.symm.trans h')
  refine ⟨rfl, ?_⟩
  obtain ⟨x, -, -, h1, h2⟩ := s.rebuild_holds h
  have apart (hf : r.first = some f) (hl : r.latest = some f) : False := by
    obtain ⟨v1, c1⟩ := h1.number hf
    obtain ⟨v2, -⟩ := h2.number hl
    omega
  cases k <;> cases k'
  · rfl
  · exact (apart hk hk').elim
  · exact (apart hk' hk).elim
  · rfl

theorem State.rebuild_quals (s : State) (i : Slot) : s.rebuild.quals[i] =
    { (rebuildSlot (parsedImages s.flash) i).1 with
      unrecorded := decide ((rebuildSlot (parsedImages s.flash) i).1.state ≠ .idle) &&
        !((keptRecords (parsedImages s.flash)).any fun x => decide (x.record.slot = i)) } :=
  restoredQuals_get _ _ i

theorem State.rebuild_state (s : State) (i : Slot) :
    s.rebuild.quals[i].state = (rebuildSlot (parsedImages s.flash) i).1.state := by
  rw [s.rebuild_quals i]

/-- Every kept record stands in an entry (R132). -/
theorem State.rebuild_entry {s : State} {x : Rebuilt} (h : x ∈ keptRecords (parsedImages s.flash)) :
    ∃ e r, s.rebuild.Holds e r ∧ r.core = x.record.core := by
  obtain ⟨n, hn, rfl⟩ := List.getElem_of_mem h
  have h48 : n < 48 := by
    have := length_keptRecords (parsedImages s.flash)
    omega
  obtain ⟨r, hr, hc, -⟩ := placeRecords_get _ n _ (List.getElem?_eq_getElem hn)
  exact ⟨⟨n, h48⟩, r, (s.rebuild_records ⟨n, h48⟩).trans hr, Record.core_of_unframed hc⟩

theorem State.rebuild_recordLaw (s : State) : s.rebuild.RecordLaw := by
  refine ⟨fun e r h => ?_, fun e e' r r' h h' hs => ?_, fun i => ?_⟩
  · obtain ⟨x, hx, hc, -⟩ := s.rebuild_holds h
    obtain ⟨hsl, hst, -⟩ := Record.core_eq hc
    obtain ⟨i, hi⟩ := mem_rebuiltRecords.mp (mem_rebuilt_of_kept (List.mem_of_getElem? hx))
    obtain ⟨h1, h2, h3⟩ := rebuildSlot_record hi
    rw [← h1, ← hsl] at h2
    refine ⟨?_, hst ▸ h3⟩
    rw [hst, h2]
    exact (s.rebuild_state r.slot).symm
  · obtain ⟨x, hx, hc, -⟩ := s.rebuild_holds h
    obtain ⟨x', hx', hc', -⟩ := s.rebuild_holds h'
    rw [(Record.core_eq hc).1, (Record.core_eq hc').1] at hs
    exact Fin.ext (keptRecords_oneEach hx hx' hs)
  · rw [s.rebuild_quals i]
    simp only [Bool.and_eq_true, decide_eq_true_eq, Bool.not_eq_true', List.any_eq_false]
    refine and_congr_right fun _ => ⟨fun hn e r h hs => ?_, fun hn x hx hs => ?_⟩
    · obtain ⟨x, hx, hc, -⟩ := s.rebuild_holds h
      exact hn x (List.mem_of_getElem? hx) ((Record.core_eq hc).1.symm.trans hs)
    · obtain ⟨e, r, h, hc⟩ := s.rebuild_entry hx
      exact hn e r h ((Record.core_eq hc).1.trans hs)

/-- A ride number that flash gives fits 16 bits, as an image's does (R113). -/
theorem parseImage_ride {k : Fin 16} {line : Nat} {bs : List Byte} {im : Image} (h : parseImage k line bs = some im) :
    im.ride ≤ 65535 := by
  unfold parseImage at h
  split at h
  · cases h
  · split at h
    · cases h
      have h1 := (byteAt bs 6).isLt
      have h2 := (byteAt bs 7).isLt
      simp only [natOf16]
      omega
    · cases h

theorem walk_ride (k : Fin 16) (fuel : Nat) : ∀ (line : Nat) (bs : List Byte),
    ∀ im ∈ (walk k fuel line bs).1, im.ride ≤ 65535 := by
  induction fuel with
  | zero => exact fun line bs im h => (by cases h)
  | succ fuel ih =>
    intro line bs im h
    unfold walk at h
    split at h
    · cases h
    · split at h
      · cases h
      · split at h
        · cases h
        · next im' hp =>
          rcases List.mem_cons.mp h with rfl | h
          · exact parseImage_ride hp
          · exact ih _ _ im h

theorem parsedImages_ride {flash : Memory} : ∀ im ∈ parsedImages flash, im.ride ≤ 65535 := by
  intro im h
  simp only [parsedImages, classifyAll, List.mem_flatMap, List.mem_map] at h
  obtain ⟨y, ⟨k, -, rfl⟩, h⟩ := h
  simp only [classifySector] at h
  split at h
  · cases h
  · split at h
    · cases h
    · split at h
      · cases h
      · next im' rest e hw =>
        refine walk_ride k 129 0 (sectorBytes flash k) im ?_
        rw [hw]
        exact h

theorem restoredRide_le (flash : Memory) : restoredRide (parsedImages flash) ≤ 65535 := by
  have fold : ∀ (l : List Image) (n : Nat), n ≤ 65535 → (∀ im ∈ l, im.ride ≤ 65535) →
      l.foldl (fun n im => max n im.ride) n ≤ 65535 := by
    intro l
    induction l with
    | nil => exact fun n hn _ => hn
    | cons a l ih =>
      intro n hn h
      obtain ⟨ha, hl⟩ := List.forall_mem_cons.mp h
      exact ih _ (max_le hn ha) hl
  exact fold _ 0 (by omega) fun im hm => parsedImages_ride im (List.mem_filter.mp hm).1

/-- Restore leaves the laws in force, those of the counts where flash's own records obey them. -/
theorem State.rebuild_lawful {s : State} {c : Prop} (h : c → ∀ x ∈ keptRecords (parsedImages s.flash),
    x.record.CountsRight (restoredRide (parsedImages s.flash))) : s.rebuild.Lawful c := by
  refine ⟨s.rebuild_recordLaw, s.rebuild_frameLaw, fun hc => ⟨?_, fun e r hr => ?_⟩⟩ <;>
    rw [s.rebuild_number]
  · exact restoredRide_le s.flash
  · obtain ⟨x, hx, hcore, -⟩ := s.rebuild_holds hr
    exact (h hc x (List.mem_of_getElem? hx)).of_core hcore

/-! ### Commands -/

variable {s t : State} {c : Prop}

/-- Steps that reach no qualifier and no record, and keep the ride number. -/
theorem Effect.alike_number {l : List Field} {b : List Law} (h : Effect l b s t) (hn : t.ride.number = s.ride.number)
    (hq : Field.quals ∉ l := by decide) (hr : Field.records ∉ l := by decide) : s.Alike t :=
  .of_same (h.quals hq) (h.records hr) hn

theorem State.takeIgn_alike (s : State) : s.Alike s.takeIgn := .of_same rfl rfl rfl

theorem State.Lawful.ignActed (h : s.Lawful c) : s.ignActed.Lawful c := by
  unfold State.ignActed
  split
  · exact h.rideBegin
  · exact h.alike (s.enterEnding_effect.alike_number (by rw [State.enterEnding_ride]; rfl))
  all_goals exact h

theorem State.Lawful.offer (h : s.Lawful c) : s.offer.Lawful c := h.alike s.offer_effect.alike

/-- NO_RIDE entered: the ride number stays. -/
theorem State.Lawful.noRide (h : s.Lawful c) (x : RideCtl) (hx : x.number = s.ride.number) :
    ((({ s with ride := x } : State).markView).refreshLamps).Lawful c := by
  have h1 : State.Alike s { s with ride := x } := .of_same rfl rfl hx
  exact h.alike ((h1.trans (State.markView_effect _).alike).trans (State.refreshLamps_effect _).alike)

theorem State.Lawful.completeEnding (h : s.Lawful c) : s.completeEnding.Lawful c := by
  unfold State.completeEnding
  simp only
  have h1 := h.alike (s.setRideEnding_effect false).alike
  split
  · exact h1.rideBegin.offer
  · exact (h1.noRide { s.ride with state := .noRide } rfl).offer

theorem State.Lawful.leaveWaiting (h : s.Lawful c) : s.leaveWaiting.Lawful c := by
  unfold State.leaveWaiting
  split
  · exact h.rideBegin.offer
  · exact (h.noRide { s.ride with state := .noRide, holdDue := some (s.now + Config.holdTime) } rfl).offer

/-- A part after reset holds no record, and every qualifier is IDLE. -/
theorem State.released_lawful (straps : Straps) (ign : Bool) (flash : Memory) (q : List Instr) :
    (State.released straps ign flash q).Lawful c := by
  have none (e : Fin 48) (r : Record) : ¬(State.released straps ign flash q).Holds e r := by
    intro h
    simp [State.Holds, State.released] at h
  refine ⟨⟨fun e r h => absurd h (none e r), fun e _ r _ h => absurd h (none e r), fun i => ?_⟩,
    fun e _ r _ _ _ _ h => absurd h (none e r), fun _ => ⟨?_, fun e r h => absurd h (none e r)⟩⟩
  · simp [State.released, Qualifier.reset]
  · simp [State.released, RideCtl.reset]

theorem State.dropLine_alike (s : State) (cause : ResetCause) : s.Alike (s.dropLine cause) :=
  (s.dropLine_effect cause).alike

theorem State.held_lawful (s : State) (cut : FlashCut) : (s.held cut).Lawful c :=
  (State.released_lawful s.latched s.ign (s.cutFlash cut) s.pending).alike (.of_same rfl rfl rfl)

/-- A command that keeps the ride number and reaches no qualifier and no record keeps the laws. -/
theorem lawful_of_fields {i : Instr} (h : s.Lawful c) (ht : exec i s = .next t)
    (hn : t.ride.number = s.ride.number) (hq : Field.quals ∉ commandFields i) (hr : Field.records ∉ commandFields i) :
    t.Lawful c :=
  h.alike ((exec_effect_of ht).alike_number hn hq hr)

/-- Every command keeps the laws of records and frames; restore those of the counts where flash's own records obey
them (R42, R43, R51, R70). -/
theorem exec_lawful {i : Instr} (h : s.Lawful c) (ht : exec i s = .next t)
    (hk : c → s.ride.state = .waiting → i = .restoreFinish → ∀ x ∈ keptRecords (parsedImages s.flash),
      x.record.CountsRight (restoredRide (parsedImages s.flash))) : t.Lawful c := by
  cases i
  case resetEntry cause cut =>
    cases ht
    split_ifs
    · exact h.alike (s.dropLine_alike cause)
    · exact (s.held_lawful cut).alike (State.dropLine_alike _ cause)
    · exact h
  case resetRelease straps =>
    cases ht
    split
    · exact State.released_lawful _ _ _ _
    · exact h
  case restoreFinish =>
    rcases arises_cases _ _ _ _ ht with ⟨-, hw, e⟩ | ⟨-, e⟩
    · rw [e]
      have h1 : s.rebuild.Lawful c := State.rebuild_lawful fun hc => hk hc (of_decide_eq_true hw) rfl
      exact ((h1.alike (State.settleStore_effect _).alike).alike (State.markView_effect _).alike).leaveWaiting
    · rw [e]; exact h
  case ignDebounceExpiry =>
    rcases expiry_cases (f := fun _ u => u.takeIgn.ignActed) ht with e | ⟨d, e⟩
    · rw [e]; exact h
    · rw [e]
      exact ((h.alike (s.advanceTo_effect d).alike).alike (State.takeIgn_alike _)).ignActed
  case rideEndAccounting =>
    rcases arises_cases _ _ _ _ ht with ⟨-, -, e⟩ | ⟨-, e⟩
    · rw [e]; exact h.accountAll.alike (State.closeRide_alike _)
    · rw [e]; exact h
  case endingCompletion =>
    rcases arises_cases _ _ _ _ ht with ⟨-, -, e⟩ | ⟨-, e⟩
    · rw [e]; exact h.completeEnding
    · rw [e]; exact h
  case slotVisit p =>
    change execSlotVisit p s = _ at ht
    unfold execSlotVisit at ht
    split at ht
    · split at ht
      · rcases arises_cases _ _ _ _ ht with ⟨-, -, e⟩ | ⟨-, e⟩
        · rw [e]; exact (h.visit _).alike (State.passFrom_effect _ _ _).alike
        · rw [e]; exact h
      · cases ht; exact h
    · cases ht; exact h
  case adopt r => exact h.request (fun u hu => hu.adopt r.port) ht
  case clearSlot r => exact h.request (fun u hu => hu.clearIndex r.port) ht
  case clearPort r => exact h.request (fun u hu => hu.clearPort r.port) ht
  case fetchFrame r => exact h.request (fun u hu => hu.fetchFrame r.port) ht
  case fetchQualifier r => exact h.request (fun u hu => hu.fetchQualifier r.port) ht
  case readRetained r => exact h.request (fun u hu => hu.readRetained r.port) ht
  case eraseRetained r => exact h.request (fun u hu => hu.eraseRetained r.port) ht
  case acknowledge r => exact h.request (fun u hu => hu.acknowledge r.port) ht
  case badRequest r => exact h.request (fun u hu => hu.reply r.port _ _) ht
  case imageBegin =>
    change execImageBegin s = _ at ht
    unfold execImageBegin at ht
    split at ht
    · next j k hj => cases ht; exact h.alike (State.beginImage_alike hj)
    · cases ht; exact h
  case imageCompletion m =>
    change execImageCompletion m s = _ at ht
    unfold execImageCompletion at ht
    split at ht
    · rcases arises_cases _ _ _ _ ht with ⟨-, -, e⟩ | ⟨-, e⟩
      · rw [e]; exact h.alike (State.endImage_alike _ _ _)
      · rw [e]; exact h
    all_goals (cases ht; exact h)
  all_goals
    refine lawful_of_fields h ht ?_ ?_ ?_
    · exact rideNumber_kept ht (by simp) (by simp) (by simp) (by simp) (by simp)
    · simp [commandFields]
    · simp [commandFields]

theorem State.popFront_alike (s : State) : s.Alike s.popFront := s.popFront_effect.alike

/-- A step keeps the laws of records and frames. -/
theorem step_lawful (h : s.Lawful c) (ht : step s = .next t)
    (hk : c → s.ride.state = .waiting → s.pending.head? = some .restoreFinish →
      ∀ x ∈ keptRecords (parsedImages s.flash), x.record.CountsRight (restoredRide (parsedImages s.flash))) :
    t.Lawful c := by
  unfold step at ht
  split at ht
  · cases ht
    exact h.alike s.tick_effect.alike
  · next i rest hp =>
    refine exec_lawful (h.alike s.popFront_alike) ht fun hc hw hi => ?_
    exact hk hc hw (by rw [hp, hi]; rfl)

/-- Settles O58: a transition breaks the agreement of one slot's qualifier and record between its steps alone. -/
theorem stepKeepsTheRecordAndFrameLaws : Obligations.StepKeepsTheRecordAndFrameLaws := by
  intro s t hr hf ht
  have h := step_lawful (c := False) ⟨hr, hf, False.elim⟩ ht (fun x => x.elim)
  refine ⟨h.records, h.frames, fun hc hk => ?_⟩
  exact (step_lawful (c := True) ⟨hr, hf, fun _ => hc⟩ ht fun _ => hk).counts trivial

end Sys2Proof.Machine
end

