-- ==== Sys2Proof/Proofs/Moments.lean ====
section
/-!
PROOFS. The step, resets and the timers of ride controller and engine: the statements that an effect and an equation for the
fields it names give at once.
-/

-- Proofs in the order of the text: those that elaborate default tactic arguments at once wait for each other.
set_option Elab.async false

namespace Sys2Proof.Machine

variable {s t : State}

/-! ### The step -/

theorem State.advanceTo_of_lt {n : Nat} (h : s.now < n) : s.advanceTo n = { s with
    now := n, fp := { s.fp with lamp := litAt s.fp.shown n }, bp := { s.bp with lamp := litAt s.bp.shown n } } := by
  rw [State.advanceTo, if_pos h]
  rfl

/-- Settles O1: by the cases of the queue. -/
theorem stepRunsTheFrontCommand : Obligations.StepRunsTheFrontCommand := by
  refine ⟨fun c rest s h => ?_, fun s h => ?_⟩
  · unfold step
    rw [h]
    show exec c s.popFront = _
    rw [State.popFront, h, List.tail_cons]
  · have hs : step s = .next s.tick := by
      unfold step
      rw [h]
    rw [hs, State.tick]
    refine ⟨fun hr => by rw [if_pos hr], fun hr => ?_⟩
    rw [hr, if_neg Bool.false_ne_true, State.advanceTo_of_lt (Nat.lt_succ_self _)]

/-! ### Reset -/

/-- Settles O52: the reset state is the released one with every strap low and blank flash. -/
theorem resetMeetsEveryLaw : Obligations.ResetMeetsEveryLaw := by
  have holds (k : Law) : k.Holds State.reset := State.released_holds strapsLow false [] [] k fun _ => rfl
  have table : State.reset.Lawful True := State.released_lawful strapsLow false [] []
  exact ⟨holds .memories, holds .trail, holds .generation, holds .ign, holds .lamps, holds .attention, holds .taken,
    holds .ranges, holds .bar, table.records, table.counts trivial, table.frames, (holds .ram).2⟩

theorem State.released_noRecords (straps : Straps) (ign : Bool) (flash : Memory) (q : List Instr) (e : Fin 48) :
    (State.released straps ign flash q).records[e] = none := by
  simp [State.released]

/-- A part after reset holds no item of work (R111). -/
theorem State.released_anyMarked (straps : Straps) (ign : Bool) (flash : Memory) (q : List Instr) :
    (State.released straps ign flash q).anyMarked = false := by
  have none : (State.released straps ign flash q).recordList = [] := by
    refine List.eq_nil_iff_forall_not_mem.mpr fun x hx => ?_
    have := (State.mem_recordList _ x.1 x.2).mp hx
    rw [State.Holds, State.released_noRecords] at this
    cases this
  unfold State.anyMarked
  rw [none]
  rfl

/-- Settles O5: every block takes the reset values that its chapter gives. -/
theorem resetReleaseSetsEveryBlock : Obligations.ResetReleaseSetsEveryBlock := by
  intro straps s hr
  refine ⟨State.released straps s.ign s.flash s.pending, ?_, rfl, rfl, rfl, rfl, rfl, rfl, rfl, rfl, fun _ => rfl, rfl,
    rfl, rfl, fun i => State.released_slots _ _ _ _ i, fun i => State.released_quals _ _ _ _ i,
    fun e => State.released_noRecords _ _ _ _ e, fun p => ?_, rfl, rfl, rfl, State.released_anyMarked _ _ _ _, rfl, rfl,
    rfl, ?_, rfl, rfl⟩
  · show execResetRelease straps s = _
    rw [execResetRelease, if_pos hr]
  · obtain ⟨w, b, hp⟩ := State.released_port straps s.ign s.flash s.pending p
    rw [hp]
    refine ⟨rfl, rfl, rfl, rfl, rfl, rfl, rfl, rfl, rfl, rfl, rfl, fun c => ?_, rfl, rfl, rfl, rfl, rfl, rfl⟩
    simp [PortState.reset]
  · simp [State.retainedCount, State.released, Store.reset]

/-! ### The ignition -/

/-- Settles O6: by the guards of the two commands. -/
theorem ignIsDebounced : Obligations.IgnIsDebounced := by
  refine ⟨fun level s => ⟨fun h => ?_, fun h hr => ?_, fun h hr => ?_⟩, fun d s hr hd hs => ?_⟩
  · show execIgnChange level s = _
    rw [execIgnChange, if_pos h]
  · show execIgnChange level s = _
    rw [execIgnChange, if_neg h, if_pos hr]
  · show execIgnChange level s = _
    rw [execIgnChange, if_neg h, if_neg (by simp [hr])]
    rfl
  · show execIgnDebounceExpiry s = _
    simp only [execIgnDebounceExpiry, hd]
    rw [arises_pos _ _ _ hr rfl]
    have hride : (s.advanceTo d).takeIgn.ride.state = s.ride.state := by
      rw [← s.advanceTo_ride d]
      rfl
    have htake : (s.advanceTo d).takeIgn =
        { s.advanceTo d with ride := { s.ride with debounced := s.ign, debounceDue := none } } := by
      unfold State.takeIgn
      simp
    rw [← htake]
    unfold State.ignActed
    rw [hride]
    rcases hs with hs | hs <;> rw [hs]

/-! ### Ride timers -/

theorem State.advanceTo_sameFaults (d : Nat) : SameFaults s (s.advanceTo d) := (s.advanceTo_effect d).sameFaults

theorem State.anyMarked_iff (s : State) : s.anyMarked = true ↔ s.store.rideMark = true ∨ s.store.qualMark = true ∨
    s.store.logQueue ≠ [] ∨ s.store.retQueue ≠ [] ∨ ∃ e r, s.Holds e r ∧ r.dirty = true := by
  simp only [State.anyMarked, Bool.or_eq_true, Bool.not_eq_true', List.isEmpty_eq_false_iff, List.any_eq_true, or_assoc,
    Prod.exists, State.mem_recordList]

theorem State.spoiledWaiting_eq_none (s : State) :
    s.spoiledWaiting = none ↔ ∀ k : Fin 16, s.store.sectors[k].state ≠ .spoiled := by
  simp [State.spoiledWaiting]

theorem State.noEraseInFlight_iff (s : State) :
    s.noEraseInFlight = true ↔ s.store.erase = none ∧ s.store.retErase ≠ .running := by
  simp [State.noEraseInFlight]

theorem State.holdDone_iff (s : State) : s.holdDone = true ↔ s.ride.pwrhold = true ∧ s.ride.state = .noRide ∧
    s.ride.debounced = false ∧ s.store.state ≠ .starting ∧ s.anyMarked = false ∧ s.store.program = none ∧
    s.store.erase = none ∧ s.store.retErase ≠ .running ∧ s.store.compaction = none ∧
    ∀ k : Fin 16, s.store.sectors[k].state ≠ .spoiled := by
  simp only [State.holdDone, Bool.and_eq_true, decide_eq_true_eq, Bool.not_eq_true', Option.isNone_iff_eq_none,
    State.noEraseInFlight_iff, State.spoiledWaiting_eq_none]
  tauto

/-- Settles O14: the second's count saturates, and the two releases of PWRHOLD differ in their guard alone. -/
theorem rideTimeAndPowerHold : Obligations.RideTimeAndPowerHold := by
  refine ⟨fun d s hr hd => ?_, fun d s hr hd => ?_, fun s hr hp => ?_⟩
  · have he := (s.advanceTo_effect d).step ((s.advanceTo d).countSecond_effect d) (l := [.now, .lamp, .ride, .dirty])
    refine ⟨(s.advanceTo d).countSecond d, ?_, ?_, ?_, fun ht => ?_, he.ram, he.sameFaults, ⟨he.store_eq, he.flash⟩,
      he.slots, he.profiles, he.exec⟩
    · show execRideTimeSecond s = _
      simp only [execRideTimeSecond, hd]
      exact arises_pos _ _ _ hr rfl
    · rw [((s.advanceTo d).countSecond_effect d).now, State.advanceTo_now]
    · simp [State.countSecond, Config.secondTime]
    · simp [State.countSecond, ht]
  · show execHoldLimitExpiry s = _
    simp only [execHoldLimitExpiry, hd]
    rw [arises_pos _ _ _ hr rfl, State.releaseHold, State.advanceTo_ride]
  · have hi := s.holdDone_iff
    refine ⟨fun all => ?_, fun all => ?_⟩
    · exact arises_pos _ _ _ hr (hi.mpr ⟨hp, all⟩)
    · refine arises_neg _ _ _ (.inr ?_)
      rw [← Bool.not_eq_true, hi]
      exact fun h => all h.2

/-! ### Lamps and silence -/

theorem litAt_cases (n : Nat) : litAt .off n = false ∧ litAt .steady n = true ∧
    (litAt .slow n = true ↔ n % 1000000 < 500000) ∧ (litAt .fast n = true ↔ n % 250000 < 125000) := by
  refine ⟨rfl, rfl, decide_eq_true_iff, ?_⟩
  show decide (n % 1000000 % 250000 < 125000) = true ↔ _
  rw [decide_eq_true_iff, Nat.mod_mod_of_dvd _ (by decide)]

/-- The highest pattern demanded in RIDING, prove-out ended (R104, R105). -/
theorem State.patternNow_riding (p : Port) (hs : s.ride.state = .riding) (hp : s.ride.proveOutDue = none) :
    s.patternNow p = if (s.port p).silent = true ∨ 0 < (s.port p).fast then .fast
      else if 0 < (s.port p).slow then .slow
      else if 0 < (s.port p).steady ∨ (s.port p).adopted = false then .steady else .off := by
  simp only [State.patternNow, hs, hp, ne_eq, not_true, if_false, Option.isSome_none, Bool.false_eq_true, classDemand]
  cases (s.port p).silent <;> cases (s.port p).adopted <;> by_cases h1 : 0 < (s.port p).fast <;>
    by_cases h2 : 0 < (s.port p).slow <;> by_cases h3 : 0 < (s.port p).steady <;> simp [h1, h2, h3, maxPattern, patternCode]

/-- Settles O15: the end of prove-out recomputes both lamps, and the blink boundary is the next multiple of its step. -/
theorem lampsFollowDemandAndPhase : Obligations.LampsFollowDemandAndPhase := by
  refine ⟨fun d s hr hs hd => ?_, fun cls st => ⟨fun h1 h2 => ?_, fun h => ?_⟩, litAt_cases, fun s hr => ⟨?_, litAt_cases _⟩⟩
  · have he := (s.advanceTo_effect d).step (s.advanceTo d).endProveOut_effect (l := [.now, .lamp, .ride, .dirty])
    refine ⟨(s.advanceTo d).endProveOut, ?_, ?_, ?_, fun p => ?_, ?_, he.ram, he.sameFaults, ⟨he.store_eq, he.flash⟩,
      he.slots, he.exec⟩
    · show execProveOutExpiry s = _
      simp only [execProveOutExpiry, hd]
      exact arises_pos _ _ _ hr rfl
    · rw [(s.advanceTo d).endProveOut_effect.now, State.advanceTo_now]
    · simp [State.endProveOut]
    · rw [State.endProveOut, State.refreshLamps_port]
      show State.patternNow _ p = _
      have hp : State.port (State.markView { s.advanceTo d with ride := { (s.advanceTo d).ride with proveOutDue := none } })
          p = (s.advanceTo d).port p := by cases p <;> rfl
      rw [State.patternNow_riding p (by simp [hs]) (by simp), hp]
      simp
    · exact State.refreshLamps_dirty _ rfl
  · cases st <;> first | rfl | contradiction
  · rcases h with rfl | rfl <;> refine ⟨?_, ?_, ?_, ?_⟩ <;> rintro rfl <;> rfl
  · rw [show exec .blinkPhaseBoundary s = _ from arises_pos _ _ _ hr rfl]
    have hn : s.now < (s.now / Config.blinkStep + 1) * Config.blinkStep := by
      have := Nat.div_add_mod s.now Config.blinkStep
      have := Nat.mod_lt s.now (show 0 < Config.blinkStep by decide)
      rw [Nat.add_mul, Nat.mul_comm]
      omega
    rw [State.advanceTo_of_lt hn]
    rfl

/-- An entry just appended stands in the ring (R166). -/
theorem State.append_trailEntry (h : s.MemoriesCanonical) (k : TrailKind) (a b c : Byte) :
    (s.append k a b c).TrailEntry s.pub.writeCount (trailBytes s.ride.number s.ride.time a k b c) := by
  intro j hj
  have hb := s.ringAddr_bounds
  have ha : Config.trailBase + 8 * (s.pub.writeCount.toNat % 64) + j = s.ringAddr + j := rfl
  rw [ha, State.rd_append h]
  rw [if_neg (by omega), if_neg (by omega), if_neg (by omega), if_pos (by omega), Nat.add_sub_cancel_left]

theorem State.TrailEntry.of_ram {n : Word} {bytes : List Byte} (h : s.TrailEntry n bytes) (hr : t.ram = s.ram) :
    t.TrailEntry n bytes := fun k hk => (State.rd_of_ram hr _).trans (h k hk)

/-- Settles O16: the expiry flags the port, and tells it. -/
theorem silenceExpiryFlagsThePort : Obligations.SilenceExpiryFlagsThePort := by
  intro p d s hr hc hd
  let u := (s.advanceTo d).setPort p { (s.advanceTo d).port p with silent := true, silenceDue := none }
  have hu : u.MemoriesCanonical := hc.of_same (by simp [u]) (by simp [u])
  have he := (s.advanceTo_effect d).step ((s.advanceTo d).fallSilent_effect p)
    (l := [.now, .lamp, .silent, .silenceDue, .ram, .trail, .attn, .dirty])
  refine ⟨(s.advanceTo d).fallSilent p, ?_, ?_, ?_, ?_, ?_, ?_, ?_, (he.board hc).2, he.ride, he.slots, he.sameFaults,
    ⟨he.store_eq, he.flash⟩, he.exec⟩
  · show execSilenceTimerExpiry p s = _
    simp only [execSilenceTimerExpiry, hd]
    exact arises_pos _ _ _ hr rfl
  · rw [((s.advanceTo d).fallSilent_effect p).now, State.advanceTo_now]
  · simp [State.fallSilent, State.refreshLamp_port, State.appendPart]
  · simp [State.fallSilent, State.refreshLamp_port, State.appendPart]
  · have := u.append_trailEntry hu .portSilent 0xFF (byteOf (portCode p)) 0
    have hw : u.pub.writeCount = s.pub.writeCount := by simp [u]
    have hride : u.ride = s.ride := by simp [u]
    rw [hw, hride] at this
    exact this.of_ram (by simp [State.fallSilent, u, State.appendPart])
  · simp [State.fallSilent, State.appendPart]
  · simp [State.fallSilent]

end Sys2Proof.Machine
end

