-- ==== Sys2Proof/Proofs/Passes.lean ====
section
/-!
PROOFS. Passes and visits (R5 to R16): which slot a visit meets, where the pass stands after it, held and accepted samples.
-/

-- Proofs in the order of the text: those that elaborate default tactic arguments at once wait for each other.
set_option Elab.async false

namespace Sys2Proof.Machine

variable {s t : State}

/-! ### Whole blocks that an effect leaves -/

/-- A port's state is its fields. -/
theorem PortState.eq_of_fields {a b : PortState} (h : ∀ f : Field, f.onPort a b) : b = a := by
  have hw := h .widths
  have hi := h .iface
  have hr := h .releases
  have ha := h .adoption
  have ht := h .passTimer
  have hp := h .passes
  have hd := h .declined
  have hs := h .silenceDue
  have hq := h .silent
  have hc := h .cells
  have hch := h .channels
  have hn := h .counts
  have hl := h .lamp
  have hat := h .attn
  cases a
  cases b
  simp_all [Field.onPort]

/-- A port that an effect does not reach. -/
theorem Effect.port_eq {l : List Field} {b : List Law} (h : Effect l b s t) (p : Port)
    (hf : ∀ f ∈ [Field.widths, .iface, .releases, .adoption, .passTimer, .passes, .declined, .silenceDue, .silent, .cells,
      .channels, .counts, .lamp, .attn], f ∉ l := by decide) : t.port p = s.port p := by
  refine PortState.eq_of_fields fun f => ?_
  by_cases hm : f ∈ [Field.widths, .iface, .releases, .adoption, .passTimer, .passes, .declined, .silenceDue, .silent,
      .cells, .channels, .counts, .lamp, .attn]
  · exact h.onPort p f (hf f hm)
  · cases f <;> trivial

/-- A port of which an effect reaches some fields alone, those fields put back. -/
theorem Effect.port_restored {l : List Field} {b : List Law} (h : Effect l b s t) (q : Port) (c : PortState)
    (kept : ∀ f, f ∉ l → f.onPort (t.port q) c) (back : ∀ f ∈ l, f.onPort (s.port q) c) : c = s.port q := by
  refine PortState.eq_of_fields fun f => ?_
  by_cases hf : f ∈ l
  · exact back f hf
  · exact Field.onPort_trans (h.onPort q f hf) (kept f hf)

/-- A publisher that an effect does not reach. -/
theorem Effect.pub_eq {l : List Field} {b : List Law} (h : Effect l b s t)
    (hf : ∀ f ∈ [Field.dirty, .trail, .reader, .pass, .spacing], f ∉ l := by decide) : t.pub = s.pub := by
  have h1 := h.dirty (hf _ (by decide))
  have h2 := h.trail (hf _ (by decide))
  have h3 := h.reader (hf _ (by decide))
  have h4 := h.pass (hf _ (by decide))
  have h5 := h.spacing (hf _ (by decide))
  cases hs : s.pub
  cases ht : t.pub
  simp_all

theorem Effect.sameStore {l : List Field} {b : List Law} (h : Effect l b s t)
    (hf : ∀ f ∈ [Field.storeState, .sectors, .marks, .logQueue, .retQueue, .program, .erase, .rideEnding,
    .inhibit, .retained, .retErase], f ∉ l := by decide) (hfl : Field.flash ∉ l := by decide) : SameStore s t :=
  ⟨h.store_eq hf, h.flash hfl⟩

/-! ### The slot a visit meets (R6) -/

theorem State.mem_portSlots (p : Port) (i : Slot) : i ∈ s.portSlots p ↔ s.owner i = p := by simp [State.portSlots]

theorem State.portSlots_sorted (s : State) (p : Port) : (s.portSlots p).Pairwise (· < ·) :=
  (List.pairwise_lt_finRange 192).filter _

theorem State.nextTouched_eq_some (p : Port) (pos : Nat) (i : Slot) : s.nextTouched p pos = some i ↔
    s.owner i = p ∧ pos ≤ i.val ∧ s.slots[i].touched = true ∧
      ∀ j : Slot, j < i → s.owner j = p → pos ≤ j.val → s.slots[j].touched = false := by
  rw [State.nextTouched, find?_eq_some_of_sorted (s.portSlots_sorted p)]
  simp only [State.mem_portSlots, Bool.and_eq_true, decide_eq_true_eq, Bool.and_eq_false_iff, decide_eq_false_iff_not]
  constructor
  · rintro ⟨ho, ⟨hp, ht⟩, hmin⟩
    exact ⟨ho, hp, ht, fun j hj hoj hpj => (hmin j hoj hj).resolve_left (not_not_intro hpj)⟩
  · rintro ⟨ho, hp, ht, hmin⟩
    exact ⟨ho, ⟨hp, ht⟩, fun j hoj hj => or_iff_not_imp_left.mpr fun hpj => hmin j hj hoj (not_not.mp hpj)⟩

theorem State.nextTouched_eq_none (p : Port) (pos : Nat) : s.nextTouched p pos = none ↔
    ∀ j : Slot, s.owner j = p → pos ≤ j.val → s.slots[j].touched = false := by
  simp [State.nextTouched, State.mem_portSlots]

/-! ### Where the pass stands -/

/-- A pass goes on while a touched slot lies ahead; else it ends, and an owed one begins (R6). -/
theorem State.passFrom_port (p : Port) (pos : Nat) : ((s.passFrom p pos).port p).passPos =
      (if (s.nextTouched p pos).isSome then some pos
        else if (s.port p).owed = true then (s.nextTouched p 0).map (fun _ => 0) else none) ∧
    ((s.passFrom p pos).port p).owed = ((s.nextTouched p pos).isSome && (s.port p).owed) := by
  unfold State.passFrom
  simp only
  split
  · next h => simp [h]
  · next h =>
    split
    · next ho => simp [h, ho]
    · next ho => simp [h, ho]

theorem State.passFrom_other (p : Port) (pos : Nat) : (s.passFrom p pos).port p.other = s.port p.other := by
  obtain ⟨x, o, h⟩ := s.passFrom_only p pos
  rw [h, State.setPort_port_ne _ _ _ _ (Port.other_ne p)]

/-- The pass of a visit goes on behind its slot, where the visit has touched no pass and no mark ahead (R6). -/
theorem passGoesOn {u : State} {p : Port} {i : Slot}
    (hp : ∀ q, (u.port q).passPos = (s.port q).passPos ∧ (u.port q).owed = (s.port q).owed)
    (ho : ∀ j, u.owner j = s.owner j) (ht : ∀ j : Slot, i < j → u.slots[j].touched = s.slots[j].touched) :
    PassGoesOn s (u.passFrom p (i.val + 1)) p i := by
  obtain ⟨hpos, howed⟩ := u.passFrom_port p (i.val + 1)
  have slots : (u.passFrom p (i.val + 1)).slots = u.slots := (u.passFrom_effect p _).slots
  have none_ahead (h : ∀ j : Slot, i < j → s.owner j = p → s.slots[j].touched = false) :
      u.nextTouched p (i.val + 1) = none := by
    rw [State.nextTouched_eq_none]
    intro j hj hle
    have hlt : i < j := Fin.lt_def.mpr hle
    rw [ht j hlt]
    exact h j hlt (ho j ▸ hj)
  rw [(hp p).2] at hpos howed
  refine ⟨fun ⟨j, hij, hoj, htj⟩ => ?_, fun h hn => ?_, fun h hy => ?_, ?_⟩
  · have some_ahead : (u.nextTouched p (i.val + 1)).isSome = true := by
      rw [← Bool.not_eq_false, Bool.eq_false_iff, ne_eq, not_not, Option.isSome_iff_ne_none, ne_eq,
        State.nextTouched_eq_none]
      intro h
      have := h j ((ho j).trans hoj) hij
      rw [ht j hij, htj] at this
      cases this
    rw [hpos, howed, some_ahead]
    simp
  · rw [hpos, howed, none_ahead h, hn]
    simp
  · rw [hpos, howed, none_ahead h, hy, slots]
    refine ⟨rfl, fun ⟨j, hoj, htj⟩ => ?_, fun h0 => ?_⟩
    · cases hx : u.nextTouched p 0 with
      | some x => rfl
      | none =>
        have := (State.nextTouched_eq_none p 0).mp hx j ((ho j).trans hoj) (Nat.zero_le _)
        rw [htj] at this
        cases this
    · rw [(State.nextTouched_eq_none p 0).mpr fun j hj _ => h0 j (ho j ▸ hj)]
      rfl
  · rw [State.passFrom_other]
    exact hp p.other

/-- Settles O17: the period runs on, and a pass in progress makes the next one owed. -/
theorem passTimerBeginsOrOwesAPass : Obligations.PassTimerBeginsOrOwesAPass := by
  intro p d c s hr hd hc
  let u := s.advanceTo d
  let v := u.setPort p { u.port p with passDue := some (d + u.passPeriodOf p) }
  have hv : v.port p = { u.port p with passDue := some (d + u.passPeriodOf p) } := State.setPort_port _ _ _
  have hcu : u.adoptedCopy p = some c := ((s.advanceTo_effect d).adoptedCopy (by decide) p).trans hc
  have hper : u.passPeriodOf p = Config.passPeriod c.passCode := by rw [State.passPeriodOf, hcu]
  have he := (s.advanceTo_effect d).step (u.passTimerFired_effect p d) (l := [.now, .lamp, .passTimer, .passes])
  have hpos : (v.port p).passPos = (s.port p).passPos := by rw [hv]; simp [u]
  have howed : (v.port p).owed = (s.port p).owed := by rw [hv]; simp [u]
  have hown (j : Slot) : v.owner j = s.owner j := by
    rw [State.owner, State.setPort_part, ((s.advanceTo_effect d).straps (by decide)).1, State.owner]
  have hslots : v.slots = s.slots := by simp [v, u]
  refine ⟨u.passTimerFired p d, ?_, ?_, ?_, fun pos h => ?_, fun h ⟨j, hoj, htj⟩ => ?_, fun h h0 => ?_, he.ram, he.pub_eq,
    he.ride, he.slots, he.sameFaults, he.sameStore, he.exec⟩
  · show execPassTimerExpiry p s = _
    simp only [execPassTimerExpiry, hd]
    exact arises_pos _ _ _ hr rfl
  · rw [(u.passTimerFired_effect p d).now, State.advanceTo_now]
  · have hdue : (v.port p).passDue = some (d + Config.passPeriod c.passCode) := by rw [hv, ← hper]
    show (State.port _ p).passDue = _
    unfold State.passTimerFired
    simp only
    split
    · rw [State.setPort_port]; exact hdue
    · rw [((State.passFrom_effect _ p 0).onPort p .passTimer (by decide) : _ = _)]
      exact hdue
  · rw [h] at hpos
    unfold State.passTimerFired
    simp only
    rw [hpos]
    simp
  · rw [h] at hpos
    have fired : u.passTimerFired p d = v.passFrom p 0 := by
      unfold State.passTimerFired
      simp only
      rw [hpos]
    have some0 : (v.nextTouched p 0).isSome = true := by
      cases hx : v.nextTouched p 0 with
      | some x => rfl
      | none =>
        have := (State.nextTouched_eq_none p 0).mp hx j ((hown j).trans hoj) (Nat.zero_le _)
        rw [hslots, htj] at this
        cases this
    obtain ⟨h1, h2⟩ := v.passFrom_port p 0
    rw [fired, h1, h2, some0, howed]
    simp
  · rw [h] at hpos
    have fired : u.passTimerFired p d = v.passFrom p 0 := by
      unfold State.passTimerFired
      simp only
      rw [hpos]
    have none0 : v.nextTouched p 0 = none := by
      rw [State.nextTouched_eq_none, hslots]
      exact fun j hj _ => h0 j ((hown j).symm.trans hj)
    obtain ⟨h1, h2⟩ := v.passFrom_port p 0
    rw [fired, h1, h2, none0]
    simp

/-! ### A visit -/

theorem execSlotVisit_eq {p : Port} {pos : Nat} {i : Slot} (hr : s.inReset = false) (hp : (s.port p).passPos = some pos)
    (hi : s.nextTouched p pos = some i) : exec (.slotVisit p) s = .next ((s.visit i).passFrom p (i.val + 1)) := by
  show execSlotVisit p s = _
  simp only [execSlotVisit, hp, hi]
  exact arises_pos _ _ _ hr rfl

theorem State.enabled_iff (i : Slot) :
    s.enabled i = true ↔ (s.port (s.owner i)).adopted = true ∧ s.profiles[i].enable = true := by
  unfold State.enabled State.adoptedProfile
  split <;> next h => simp_all

theorem State.visit_disabled {i : Slot} (h : s.enabled i = false) :
    s.visit i = s.setSlot i { s.slots[i] with touched := false } := by
  unfold State.visit
  rw [if_neg (by simp [h])]

theorem State.visit_mismatch {p : Port} {i : Slot} (h : s.enabled i = true) (ho : s.owner i = p)
    (hc : expectedCheck (s.checkInverted p) (s.sample i) ≠ (s.sample i).check) : s.visit i = s.holdSample i := by
  subst ho
  unfold State.visit
  rw [if_pos h, if_neg hc]

theorem State.visit_match {p : Port} {i : Slot} (h : s.enabled i = true) (ho : s.owner i = p)
    (hc : expectedCheck (s.checkInverted p) (s.sample i) = (s.sample i).check) :
    s.visit i = s.acceptSample i (s.sample i) := by
  subst ho
  unfold State.visit
  rw [if_pos h, if_pos hc]

theorem State.holdSample_barred {i : Slot} (h : s.slots[i].barred = true) : s.holdSample i = s := by
  unfold State.holdSample
  simp only
  rw [if_pos h]

theorem State.holdSample_held {i : Slot} (h : s.slots[i].barred = false) (hh : s.slots[i].held < 2) :
    s.holdSample i = s.setSlot i { s.slots[i] with held := s.slots[i].held + 1 } := by
  unfold State.holdSample
  simp only
  rw [if_neg (by simpa using h), if_pos (by omega)]

theorem State.holdSample_third {i : Slot} (h : s.slots[i].barred = false) (hh : s.slots[i].held = 2) :
    s.holdSample i = ((s.setSlot i { s.slots[i] with held := 3, barred := true }).appendSlot .barred i
      (byteOfInt s.quals[i].m) s.quals[i].state).markView := by
  unfold State.holdSample
  simp only
  rw [if_neg (by simpa using h), if_neg (by omega)]

/-- A held sample leaves every touched mark (R10). -/
theorem State.holdSample_slots (i : Slot) :
    ∃ e, (s.holdSample i).slots = s.slots.set i e ∧ e.touched = s.slots[i].touched := by
  unfold State.holdSample
  simp only
  split
  · exact ⟨s.slots[i], by simp, rfl⟩
  · split
    · exact ⟨_, State.setSlot_slots _ _ _, rfl⟩
    · exact ⟨{ s.slots[i] with held := 3, barred := true }, by simp [State.appendSlot], rfl⟩

theorem State.holdSample_touched (i j : Slot) : (s.holdSample i).slots[j].touched = s.slots[j].touched := by
  obtain ⟨e, hs, he⟩ := s.holdSample_slots i
  rw [hs, State.slots_set_get]
  split
  · next h => rw [he, h]
  · rfl

/-- Settles O18: a visit that accepts nothing moves one slot's engine state, and the third held sample tells it. -/
theorem visitThatAcceptsNothing : Obligations.VisitThatAcceptsNothing := by
  refine ⟨fun p pos i s => ⟨State.nextTouched_eq_some p pos i, s.enabled_iff i, fun c hc => ?_, rfl, fun inv => ?_,
    fun hp => ?_⟩, fun p pos i s hr hp hi => ?_⟩
  · rw [State.checkInverted, hc]
  · cases inv
    · exact (BitVec.xor_zero).symm
    · rfl
  · show execSlotVisit p s = _
    simp only [execSlotVisit, hp]
  · obtain ⟨ho, -, -, -⟩ := (State.nextTouched_eq_some p pos i).mp hi
    refine ⟨fun hd => ?_, fun hen hc hm => ?_⟩
    · let u := s.setSlot i { s.slots[i] with touched := false }
      have h1 : Effect [.slots] [.bar] s u := s.setSlot_any_effect i _
      have he : Effect [.slots, .passes] [.bar] s (u.passFrom p (i.val + 1)) :=
        h1.seq (u.passFrom_effect p (i.val + 1))
      refine ⟨u.passFrom p (i.val + 1), ?_, ?_, ?_, fun q => ?_, he.ram, he.pub_eq, he.exec, he.ride, he.sameFaults,
        he.sameStore, he.sameWorld⟩
      · rw [execSlotVisit_eq hr hp hi, State.visit_disabled hd]
      · exact (u.passFrom_effect p (i.val + 1)).slots.trans (State.setSlot_slots _ _ _)
      · refine passGoesOn (fun q => h1.onPort q .passes (by decide)) (fun j => h1.owner (by decide) j) fun j hj => ?_
        rw [State.setSlot_slots, State.slots_set_get, if_neg (ne_of_lt hj)]
      · refine he.port_restored q _ (fun f hf => ?_) (by simp [Field.onPort])
        cases f <;> simp_all [Field.onPort]
    · have h1 := s.holdSample_effect i
      have he : Effect [.slots, .ram, .trail, .attn, .dirty, .passes] [] s ((s.holdSample i).passFrom p (i.val + 1)) :=
        h1.step (State.passFrom_effect _ p (i.val + 1))
      have h2 := (s.holdSample i).passFrom_effect p (i.val + 1)
      refine ⟨(s.holdSample i).passFrom p (i.val + 1), ?_, ?_, fun hb hh => ?_, fun hb hh => ?_, fun hb => ?_,
        fun h q => ?_, fun q => ?_, (he.board hc).2, he.exec, he.ride, he.sameFaults, he.sameStore, he.sameWorld⟩
      · rw [execSlotVisit_eq hr hp hi, State.visit_mismatch hen ho hm]
      · exact passGoesOn (fun q => h1.onPort q .passes (by decide)) (fun j => h1.owner (by decide) j)
          fun j _ => s.holdSample_touched i j
      · rw [h2.slots, h2.pub_eq, h2.ram, State.holdSample_held hb hh]
        simp
      · let w := s.setSlot i { s.slots[i] with held := 3, barred := true }
        have hw := State.append_trailEntry (s := w) (hc.of_same (by simp [w]) (by simp [w])) .barred (byteOf i.val)
          (byteOfInt s.quals[i].m) (byteOf (qstateCode s.quals[i].state))
        have eq : s.holdSample i = (w.appendSlot .barred i (byteOfInt s.quals[i].m) s.quals[i].state).markView :=
          State.holdSample_third hb hh
        refine ⟨?_, ?_, ?_, fun q => ?_, ?_⟩
        · rw [h2.slots, eq]; simp [w, State.appendSlot]
        · rw [h2.pub_eq, eq]; rfl
        · rw [h2.pub_eq, eq]; simp [w, State.appendSlot]
        · rw [(h2.onPort q .attn (by decide) : _ = _), State.attnNow_congr (h2.cell q) (h2.reader).1 (h2.reader).2
            (h2.trail).2.2.1, eq]
          rw [State.markView_port, State.appendSlot, State.append_port]
          exact (State.attnNow_congr (by simp) rfl rfl rfl).symm
        · rw [show w.pub.writeCount = s.pub.writeCount by simp [w], show w.ride = s.ride by simp [w]] at hw
          exact hw.of_ram (by rw [h2.ram, eq]; simp [State.appendSlot])
      · rw [h2.slots, h2.pub_eq, h2.ram, State.holdSample_barred hb]
        simp
      · rw [(h2.onPort q .attn (by decide) : _ = _)]
        by_cases hb : s.slots[i].barred = true
        · rw [State.holdSample_barred hb]
        · rw [State.holdSample_held (by simpa using hb) (h.resolve_left hb)]
          simp
      · refine he.port_restored q _ (fun f hf => ?_) (by simp [Field.onPort])
        cases f <;> simp_all [Field.onPort]

end Sys2Proof.Machine
end

