-- ==== Sys2Proof/Proofs/Placing.lean ====
section
/-!
PROOFS. Where a record request and a capture find their place (R45 to R49, R69 to R73).
-/

-- Proofs in the order of the text: those that elaborate default tactic arguments at once wait for each other.
set_option Elab.async false

namespace Sys2Proof.Machine

variable {s t : State}

/-! ### The victim (R46, R71) -/

/-- R46's order: lower rank, then lower activity ride, then higher slot number. -/
def Record.Before (a b : Record) : Prop :=
  a.rank < b.rank ∨ (a.rank = b.rank ∧ (a.activity < b.activity ∨ (a.activity = b.activity ∧ b.slot < a.slot)))

theorem chosenBefore_iff (a b : Record) : chosenBefore a b = true ↔ a.Before b := by
  simp [chosenBefore, Record.Before]

theorem Record.Before.asymm {a b : Record} (h : a.Before b) : ¬b.Before a := by
  simp only [Record.Before, Fin.lt_def] at h ⊢
  omega

theorem victim_fold (l : List (Fin 48 × Record)) : ∀ b : Fin 48 × Record, ∃ x,
    l.foldl (fun best e =>
      match best with
      | none => some e
      | some b => if chosenBefore e.2 b.2 then some e else some b) (some b) = some x ∧
    ¬b.2.Before x.2 ∧ ∀ y ∈ l, ¬y.2.Before x.2 := by
  induction l with
  | nil => exact fun b => ⟨b, rfl, fun h => h.asymm h, fun y hy => (by cases hy)⟩
  | cons a l ih =>
    intro b
    rw [List.foldl_cons]
    simp only
    split
    · next hab =>
      rw [chosenBefore_iff] at hab
      obtain ⟨x, he, hax, hall⟩ := ih a
      refine ⟨x, he, fun hb => ?_, List.forall_mem_cons.mpr ⟨hax, hall⟩⟩
      have hxa : ¬a.2.Before x.2 := hax
      simp only [Record.Before, Fin.lt_def] at hab hb hxa
      omega
    · next hab =>
      rw [chosenBefore_iff] at hab
      obtain ⟨x, he, hbx, hall⟩ := ih b
      refine ⟨x, he, hbx, List.forall_mem_cons.mpr ⟨fun ha => ?_, hall⟩⟩
      simp only [Record.Before, Fin.lt_def] at hab ha hbx
      omega

/-- The victim is the entry that all others come behind. -/
theorem chooseVictim_eq {l : List (Fin 48 × Record)} {x : Fin 48 × Record} (hx : x ∈ l)
    (h : ∀ y ∈ l, y ≠ x → x.2.Before y.2) : chooseVictim l = some x := by
  cases l with
  | nil => cases hx
  | cons a l =>
    obtain ⟨z, he, haz, hall⟩ := victim_fold l a
    have hc : chooseVictim (a :: l) = some z := he
    have hm := chooseVictim_mem hc
    rw [hc]
    by_contra hne
    have hzx : z ≠ x := fun e => hne (congrArg some e)
    have hb := h z hm hzx
    rcases List.mem_cons.mp hx with rfl | hx
    · exact haz hb
    · exact hall x hx hb

/-! ### Record requests -/

/-- The record an allocation writes (R49): a confirmation is marked at once (R53). -/
def State.allocated (s : State) (i : Slot) (st : QState) : Record :=
  let conf := decide (st = .confirmed)
  { slot := i, state := st, cls := s.classOf i, occurrence := if conf then 1 else 0, onset := s.ride.number,
    firstConf := if conf then s.ride.number else 0, latestConf := if conf then s.ride.number else 0,
    activity := s.ride.number, fade := 0, forget := 0, first := none, latest := none, persisted := false,
    dirty := conf, urgent := conf && (decide (s.classOf i = 3) || s.store.rideEnding) }

theorem State.allocate_records (e : Fin 48) (i : Slot) (st : QState) :
    (s.allocate e i st).records = s.records.set e (some (s.allocated i st)) := by
  have h3 : decide ((s.classOf i).val = 3) = decide (s.classOf i = 3) := decide_eq_decide.mpr (by rw [Fin.ext_iff]; rfl)
  unfold State.allocate State.allocated
  simp only
  split
  · next hc =>
    subst hc
    let u := ((s.setRecord e (some (newRecord i .confirmed (s.classOf i) s.ride.number))).setQual i
      { (s.setRecord e (some (newRecord i .confirmed (s.classOf i) s.ride.number))).quals[i] with
        unrecorded := false }).markView
    have hu : u.records = s.records.set e (some (newRecord i .confirmed (s.classOf i) s.ride.number)) := by simp [u]
    have hue : u.records[e] = some (newRecord i .confirmed (s.classOf i) s.ride.number) := by
      rw [hu, Fin.getElem_fin, Vector.getElem_set_self]
    have hst : u.store = s.store := by simp [u]
    rw [State.markRecord_some u e _ _ hue]
    simp only [hu, Vector.set_set, hst, h3]
    rfl
  · next hc =>
    simp [newRecord, hc]

theorem State.allocate_holds (e : Fin 48) (i : Slot) (st : QState) : (s.allocate e i st).Holds e (s.allocated i st) := by
  rw [State.Holds, State.allocate_records, Fin.getElem_fin, Vector.getElem_set_self]

theorem State.allocate_records_ne {e e' : Fin 48} (i : Slot) (st : QState) (h : e' ≠ e) :
    (s.allocate e i st).records[e'] = s.records[e'] := by
  rw [State.allocate_records, Fin.getElem_fin, Vector.getElem_set_ne _ _ fun x => h (Fin.ext x).symm]
  rfl

theorem State.markRecord_quals (e : Fin 48) (u : Bool) : (s.markRecord e u).quals = s.quals :=
  (s.markRecord_effect e u).quals

theorem State.allocate_quals (e : Fin 48) (i : Slot) (st : QState) :
    (s.allocate e i st).quals = s.quals.set i { s.quals[i] with unrecorded := false } := by
  unfold State.allocate
  simp only
  split
  · rw [State.markRecord_quals]; simp
  · simp

theorem State.allocate_dirty (e : Fin 48) (i : Slot) (st : QState) : (s.allocate e i st).pub.dirty = true := by
  unfold State.allocate
  simp only
  split
  · exact (State.markRecord_effect _ _ _).keeps .view (by decide) rfl
  · rfl

theorem State.requestRecord_free {e : Fin 48} (i : Slot) (st : QState) (he : s.records[e] = none)
    (hl : ∀ e' < e, s.records[e'] ≠ none) : s.requestRecord i st = s.allocate e i st := by
  have hf : s.freeEntry = some e := (s.freeEntry_eq_some e).mpr ⟨he, hl⟩
  simp only [State.requestRecord, hf]

/-- The state in which an eviction tells the trail (R47): the RELEASE item queued, the victim unrecorded. -/
def State.outranked (s : State) (v : Record) : State :=
  let s1 := if v.persisted then s.queueLog (.release v.slot) else s
  s1.setQual v.slot { s1.quals[v.slot] with unrecorded := true }

theorem State.outranked_effect (v : Record) : Effect [.quals, .logQueue, .erase] [] s (s.outranked v) := by
  unfold State.outranked
  split
  · exact (s.queueLog_effect _).step (State.setUnrecorded_effect _ v.slot true)
  · exact (s.setUnrecorded_effect v.slot true).mono

theorem State.outranked_quals (v : Record) :
    (s.outranked v).quals = s.quals.set v.slot { s.quals[v.slot] with unrecorded := true } := by
  unfold State.outranked
  split
  · simp only [State.setQual_quals, (s.queueLog_effect (.release v.slot)).quals]
  · rfl

theorem State.outranked_logQueue (v : Record) : (s.outranked v).store.logQueue =
    if v.persisted = true then s.store.logQueue ++ [.release v.slot] else s.store.logQueue := by
  unfold State.outranked
  split
  · simp [State.queueLog_eq]
  · simp

theorem State.evict_eq (e : Fin 48) (v : Record) : s.evict e v = ((s.outranked v).appendSlot .evicted v.slot
    (byteOf v.occurrence) (s.outranked v).quals[v.slot].state).emptyEntry e := rfl

theorem State.emptyEntry_records (e : Fin 48) : (s.emptyEntry e).records = s.records.set e none := by
  rw [State.emptyEntry, State.markView_records, State.setRecord_records, (s.withdrawRedo_effect e).records]

theorem State.evict_records (e : Fin 48) (v : Record) : (s.evict e v).records = s.records.set e none := by
  rw [State.evict_eq, State.emptyEntry_records, (State.appendSlot_effect _ _ _ _ _).records,
    (s.outranked_effect v).records]

theorem State.evict_quals (e : Fin 48) (v : Record) :
    (s.evict e v).quals = s.quals.set v.slot { s.quals[v.slot] with unrecorded := true } := by
  rw [State.evict_eq, (State.emptyEntry_effect _ e).quals, (State.appendSlot_effect _ _ _ _ _).quals,
    State.outranked_quals]

theorem State.evict_trailEntry (hc : s.MemoriesCanonical) (e : Fin 48) (v : Record) :
    (s.evict e v).TrailEntry s.pub.writeCount (trailBytes s.ride.number s.ride.time (byteOf v.slot.val) .evicted
      (byteOf v.occurrence) (byteOf (qstateCode s.quals[v.slot].state))) := by
  have ho := s.outranked_effect v
  have hq : (s.outranked v).quals[v.slot].state = s.quals[v.slot].state := by
    simp only [State.outranked_quals, Fin.getElem_fin, Vector.getElem_set_self]
  have h := State.append_trailEntry (hc.of_same ho.ram ho.flash) .evicted (byteOf v.slot.val) (byteOf v.occurrence)
    (byteOf (qstateCode (s.outranked v).quals[v.slot].state))
  rw [ho.trail.1, ho.ride, hq] at h
  refine h.of_ram ?_
  rw [State.evict_eq, (State.emptyEntry_effect _ e).ram, hq]
  rfl

theorem State.evict_writeCount (e : Fin 48) (v : Record) : (s.evict e v).pub.writeCount = s.pub.writeCount + 1 := by
  rw [State.evict_eq, (State.emptyEntry_effect _ e).trail.1, State.appendSlot, (State.append_publisher _ _ _ _ _).1,
    (s.outranked_effect v).trail.1]

theorem State.evict_logQueue (e : Fin 48) (v : Record) : (s.evict e v).store.logQueue =
    if v.persisted = true then s.store.logQueue ++ [.release v.slot] else s.store.logQueue := by
  rw [State.evict_eq, (State.emptyEntry_effect _ e).logQueue, (State.appendSlot_effect _ _ _ _ _).logQueue,
    State.outranked_logQueue]

/-- A request that finds no free entry looks for the victim (R46). -/
theorem State.requestRecord_full {e : Fin 48} {v : Record} (i : Slot) (st : QState)
    (hf : ∀ e' : Fin 48, s.records[e'] ≠ none) (hv : s.Holds e v)
    (hmin : ∀ e' v', s.Holds e' v' → e' ≠ e → v.Before v') : s.requestRecord i st =
      if v.rank < rankVal st (s.classOf i) then (s.evict e v).allocate e i st else s.decline i st := by
  have victim : chooseVictim s.recordList = some (e, v) := by
    refine chooseVictim_eq ((s.mem_recordList e v).mpr hv) fun y hy hne => hmin y.1 y.2 ((s.mem_recordList _ _).mp hy) ?_
    intro he
    have hy' := (s.mem_recordList y.1 y.2).mp hy
    rw [he, State.Holds, hv] at hy'
    exact hne (Prod.ext he (Option.some.inj hy').symm)
  simp only [State.requestRecord, (s.freeEntry_eq_none).mpr hf, victim]

/-- The state in which a decline tells the trail (R48): the requester unrecorded, its port's count one higher. -/
def State.turnedAway (s : State) (i : Slot) : State :=
  let s1 := s.setQual i { s.quals[i] with unrecorded := true }
  s1.setPort (s.owner i) { s1.port (s.owner i) with declined := min 255 ((s1.port (s.owner i)).declined + 1) }

theorem State.turnedAway_effect (i : Slot) : Effect [.quals, .declined] [] s (s.turnedAway i) :=
  (s.setUnrecorded_effect i true).step (State.setDeclined_effect _ _ _)

theorem State.turnedAway_quals (i : Slot) :
    (s.turnedAway i).quals = s.quals.set i { s.quals[i] with unrecorded := true } := by
  simp [State.turnedAway]

theorem State.decline_eq (i : Slot) (st : QState) : s.decline i st = ((s.turnedAway i).appendSlot .declined i
    (byteOfInt (s.turnedAway i).quals[i].m) st).markView := rfl

theorem State.decline_declined (i : Slot) (st : QState) :
    ((s.decline i st).port (s.owner i)).declined = min 255 ((s.port (s.owner i)).declined + 1) := by
  rw [State.decline_eq, State.markView_port, State.appendSlot, (State.append_portFields _ _ _ _ _ _).2.2.2.2.2.2.2.2.2.2.2.2.1,
    State.turnedAway, State.setPort_port]
  simp

theorem State.decline_trailEntry (hc : s.MemoriesCanonical) (i : Slot) (st : QState) :
    (s.decline i st).TrailEntry s.pub.writeCount (trailBytes s.ride.number s.ride.time (byteOf i.val) .declined
      (byteOfInt s.quals[i].m) (byteOf (qstateCode st))) := by
  have ho := s.turnedAway_effect i
  have hq : (s.turnedAway i).quals[i].m = s.quals[i].m := by
    simp only [State.turnedAway_quals, Fin.getElem_fin, Vector.getElem_set_self]
  have h := State.append_trailEntry (hc.of_same ho.ram ho.flash) .declined (byteOf i.val)
    (byteOfInt (s.turnedAway i).quals[i].m) (byteOf (qstateCode st))
  rw [ho.trail.1, ho.ride, hq] at h
  refine h.of_ram ?_
  rw [State.decline_eq, hq]
  rfl

/-- Settles O23: the lowest free entry, the victim and the decline, each by the equation of the operation it runs. -/
theorem recordRequestIsPlacedOrDeclined : Obligations.RecordRequestIsPlacedOrDeclined := by
  refine ⟨fun s i st e he hl _ => ?_, fun s i st e v hf hv hmin hvi => ⟨fun hr => ?_, fun hr => ?_⟩⟩
  · have ha := s.allocate_effect e i st
    simp only [State.requestRecord_free i st he hl]
    exact ⟨fun e' hne => State.allocate_records_ne i st hne, State.allocate_holds e i st, State.allocate_quals e i st, ha.ram,
      ha.frames, State.allocate_dirty e i st⟩
  · have hreq := State.requestRecord_full i st hf hv hmin
    rw [if_pos hr] at hreq
    simp only [hreq]
    have hev := s.evict_effect e v
    have ha := (s.evict e v).allocate_effect e i st
    have same : (s.evict e v).allocated i st = s.allocated i st := by
      have hcls : (s.evict e v).classOf i = s.classOf i := by rw [State.classOf, hev.adoptedProfile, State.classOf]
      simp only [State.allocated, hcls, hev.ride, hev.rideEnding]
    have holds := (s.evict e v).allocate_holds e i st
    rw [same] at holds
    have hvi' : i.val ≠ v.slot.val := fun x => hvi (Fin.ext x.symm)
    refine ⟨⟨_, holds, rfl, rfl, rfl, rfl, rfl⟩, fun _ => holds, fun hc => (s.evict_trailEntry hc e v).of_ram ha.ram,
      State.allocate_dirty e i st, ha.frames.trans hev.frames, fun e' hne => ?_, ?_, ?_, ?_, ?_⟩
    · rw [State.allocate_records_ne i st hne, State.evict_records, Fin.getElem_fin,
        Vector.getElem_set_ne _ _ fun x => hne (Fin.ext x).symm]
      rfl
    · simp only [State.allocate_quals, State.evict_quals, Fin.getElem_fin]
      rw [Vector.getElem_set_ne _ _ hvi', Vector.getElem_set_self]
    · simp only [State.allocate_quals, Fin.getElem_fin, Vector.getElem_set_self]
    · rw [ha.logQueue, State.evict_logQueue]
    · rw [ha.trail.1, State.evict_writeCount]
  · have hreq := State.requestRecord_full i st hf hv hmin
    rw [if_neg hr] at hreq
    simp only [hreq]
    have hd := s.decline_effect i st
    refine ⟨hd.records, ?_, State.decline_declined i st, hd.sameStore, fun hc => State.decline_trailEntry hc i st, rfl,
      hd.frames, ?_⟩
    · rw [State.decline_eq]
      show (State.markView _).quals = _
      rw [State.markView_quals, (State.appendSlot_effect _ _ _ _ _).quals, State.turnedAway_quals]
    · rw [State.decline_eq]
      show (State.markView _).pub.writeCount = _
      simp [State.appendSlot, (s.turnedAway_effect i).trail.1]

/-! ### Captures -/

theorem State.freeFrames_eq_nil (h : ∀ g, s.frameUsed g = true) : s.freeFrames = [] := by
  simp [State.freeFrames, h]

/-- The first of the free frames is the lowest (R70). -/
theorem State.freeFrames_cons {f : Fin 64} (h : s.frameUsed f = false) (hl : ∀ g < f, s.frameUsed g = true) :
    ∃ l, s.freeFrames = f :: l := by
  have hf : (List.finRange 64).find? (fun f => !s.frameUsed f) = some f := by
    rw [find?_eq_some_of_sorted (List.pairwise_lt_finRange 64)]
    exact ⟨List.mem_finRange f, by simp [h], fun g _ hg => by simp [hl g hg]⟩
  rw [← List.head?_filter] at hf
  exact List.head?_eq_some_iff.mp hf

theorem State.captureFor_present {e : Fin 48} {rec : Record} {f : Fin 64} (r : Report) {k : FrameKind}
    (h : rec.frameRef k = some f) : s.captureFor e rec r k = { s with frames := s.frames.set f (s.frameNow r k) } := by
  unfold State.captureFor
  simp only [h]

theorem State.captureFor_free {e : Fin 48} {rec : Record} {f : Fin 64} (r : Report) {k : FrameKind}
    (h : rec.frameRef k = none) (hf : s.frameUsed f = false) (hl : ∀ g < f, s.frameUsed g = true) :
    s.captureFor e rec r k = s.bindFrame e rec k f (s.frameNow r k) := by
  obtain ⟨l, hfree⟩ := State.freeFrames_cons hf hl
  unfold State.captureFor
  simp only [h, hfree]

theorem State.mem_lenders (e : Fin 48) (n : Nat) (x : Fin 48 × Record) : x ∈ s.lenders e n ↔
    s.Holds x.1 x.2 ∧ x.1 ≠ e ∧ x.2.latest ≠ none ∧ x.2.rank < n := by
  rw [State.lenders, List.mem_filter, s.mem_recordList x.1 x.2]
  simp only [Bool.and_eq_true, decide_eq_true_eq, Option.isSome_iff_ne_none, and_assoc]

theorem State.bindFrame_records (e : Fin 48) (rec : Record) (k : FrameKind) (f : Fin 64) (x : Frame) :
    (s.bindFrame e rec k f x).records = s.records.set e (some (rec.withFrame k f)) := rfl

theorem State.bindFrame_frames (e : Fin 48) (rec : Record) (k : FrameKind) (f : Fin 64) (x : Frame) :
    (s.bindFrame e rec k f x).frames = s.frames.set f x := rfl

/-- A loan: the lender loses its LATEST frame and is marked, not urgent (R72). -/
theorem State.lend_records {j : Fin 48} (lender : Record) : (s.lend j lender).records =
    s.records.set j (some { lender with latest := none, dirty := true, urgent := lender.urgent || s.store.rideEnding }) := by
  have h : (s.setRecord j (some { lender with latest := none })).records[j] = some { lender with latest := none } := by
    rw [State.setRecord_records, Fin.getElem_fin, Vector.getElem_set_self]
  rw [State.lend, State.markRecord_some _ j _ _ h]
  simp [Record.marked]

/-- Settles O24: a present frame, the lowest free one, the borrowed one, or none. -/
theorem captureFindsItsFrame : Obligations.CaptureFindsItsFrame := by
  intro s e rec r k hrec
  refine ⟨fun f h => ?_, fun f h hf hl => ?_, fun h hall hno => ?_, fun j lender f h hall hj hmin hf => ?_⟩
  · simp only [State.captureFor_present r h, and_self]
  · simp only [State.captureFor_free r h hf hl]
    exact ⟨rfl, rfl⟩
  · have noLender : s.lenders e rec.rank = [] :=
      List.eq_nil_iff_forall_not_mem.mpr fun x hx => hno x.1 x.2 ((s.mem_lenders e rec.rank x).mp hx)
    simp only [State.captureFor, h, State.freeFrames_eq_nil hall, noLender]
    rfl
  · have victim : chooseVictim (s.lenders e rec.rank) = some (j, lender) := by
      refine chooseVictim_eq ((s.mem_lenders e rec.rank (j, lender)).mpr hj) fun y hy hne => ?_
      have hy' := (s.mem_lenders e rec.rank y).mp hy
      refine hmin y.1 y.2 hy' fun he => hne (Prod.ext he ?_)
      have h1 := hy'.1
      rw [he, State.Holds, hj.1] at h1
      exact (Option.some.inj h1).symm
    have hu : s.captureFor e rec r k = (s.lend j lender).bindFrame e rec k f (s.frameNow r k) := by
      simp only [State.captureFor, h, State.freeFrames_eq_nil hall, victim, hf]
    have hje : j ≠ e := hj.2.1
    have records : (s.captureFor e rec r k).records = (s.records.set j (some { lender with
        latest := none, dirty := true, urgent := lender.urgent || s.store.rideEnding })).set e
          (some (rec.withFrame k f)) := by
      rw [hu, State.bindFrame_records, State.lend_records]
    refine ⟨?_, ?_, ?_, fun x hxe hxj => ?_⟩
    · rw [hu, State.bindFrame_frames, (s.lend_effect j lender).frames]
    · rw [State.Holds, records, Fin.getElem_fin, Vector.getElem_set_self]
    · rw [State.Holds, records, Fin.getElem_fin, Vector.getElem_set_ne _ _ fun x => hje (Fin.ext x).symm,
        Vector.getElem_set_self]
    · rw [records, Fin.getElem_fin, Vector.getElem_set_ne _ _ fun y => hxe (Fin.ext y).symm,
        Vector.getElem_set_ne _ _ fun y => hxj (Fin.ext y).symm]
      rfl

end Sys2Proof.Machine
end

