-- ==== Sys2Proof/Proofs/View.lean ====
section
/-!
PROOFS. What the publisher shows: an appended trail entry, the copy a pass takes and its end (R158 to R167, R172).
-/

-- Proofs in the order of the text: those that elaborate default tactic arguments at once wait for each other.
set_option Elab.async false

namespace Sys2Proof.Machine

variable {s t : State}

theorem Effect.sameInside {l : List Field} {b : List Law} (h : Effect l b s t)
    (hf : ∀ f ∈ [Field.quals, .records, .frames, .flash, .queue, .lines, .straps, .now, .profiles, .slots, .ride,
      .storeState, .sectors, .marks, .logQueue, .retQueue, .program, .erase, .rideEnding, .inhibit, .retained,
      .retErase], f ∉ l := by decide) : SameInside s t where
  toSameFaults := h.sameFaults fun f hm => hf f (by revert f; decide)
  toSameStore := h.sameStore (fun f hm => hf f (by revert f; decide)) (hf _ (by decide))
  toSameWorld := h.sameWorld fun f hm => hf f (by revert f; decide)
  slots := h.slots (hf _ (by decide))
  ride := h.ride (hf _ (by decide))

/-! ### An appended entry -/

/-- Settles O41: the entry, the counts and the header's fields by the equation of an append. -/
theorem appendWritesOneEntry : Obligations.AppendWritesOneEntry := by
  intro s kind slot detail new hc hl
  have pub := s.append_pub kind slot detail new
  have rd := State.rd_append hc kind slot detail new
  have he := s.append_effect kind slot detail new
  obtain ⟨lo, hi⟩ := s.ringAddr_bounds
  have small (x : Nat) (h1 : x ≠ 36) (h2 : x ≠ 32) (h3 : x ≠ 33) (h4 : x < 0x0400) :
      (s.append kind slot detail new).rd x = s.makeRoom.rd x := by
    rw [rd, if_neg h1, if_neg h2, if_neg h3, if_neg (by omega)]
  refine ⟨State.append_trailEntry hc kind slot detail new, fun h => ?_, fun h => ?_, hl.append kind slot detail new, ?_, ?_,
    fun h => ⟨?_, ?_⟩, fun y hy hp => ?_, fun p => ?_, he.exec, he.sameInside⟩
  · rw [pub]
    simp [Publisher.appended, Nat.ne_of_lt h]
  · rw [pub]
    simp [Publisher.appended, h]
  · rw [pub, rd, rd]
    exact natOf16_word (s.pub.writeCount + 1)
  · rw [rd, pub]
    rfl
  · rw [small 34 (by decide) (by decide) (by decide) (by decide), small 35 (by decide) (by decide) (by decide) (by decide),
      State.rd_makeRoom hc, State.rd_makeRoom hc, if_pos h, if_pos h, pub]
    simp only [Publisher.appended, h, if_true]
    exact natOf16_word (s.pub.readMark + 1)
  · rw [small 37 (by decide) (by decide) (by decide) (by decide), State.rd_makeRoom hc, if_pos h]
    rfl
  · have ring : ¬(s.ringAddr ≤ y ∧ y < s.ringAddr + 8) := fun h => by
      have : s.ringAddr = Config.trailBase + 8 * (s.pub.writeCount.toNat % 64) := rfl
      omega
    rw [rd, if_neg (by omega), if_neg (by omega), if_neg (by omega), if_neg ring, State.rd_makeRoom hc]
    split
    · rw [if_neg (by omega), if_neg (by omega), if_neg (by omega), if_neg (by omega)]
    · rfl
  · rw [State.append_port]
    show State.attnNow _ p = _
    unfold State.attnNow
    rw [State.append_port, pub]
    rfl

/-! ### The end of a pass -/

/-- Settles O40: the bytes a pass's end writes, by the areas of the view. -/
theorem passEndWritesTheWholeView : Obligations.PassEndWritesTheWholeView := by
  intro copy s hr hc hp hl
  have he := s.endPublish_effect copy hp
  have far (x : Nat) (h : 2 ≤ x) : (s.endPublish copy).rd x = (s.writeView copy).rd x := by
    rw [State.rd_endPublish hc, if_neg (by omega), if_neg (by omega)]
  have view := State.rd_writeView hc hl
  have head (h : s.pub.firstPass = true) (x : Nat) (h1 : 32 ≤ x) (h2 : x < 64) :
      (s.endPublish copy).rd x = byteAt s.trailHeader (x - 32) := by
    rw [far x (by omega), view, if_neg (by omega), if_pos ⟨h1, h2⟩, if_pos h]
  refine ⟨s.endPublish copy, ?_, s.endPublish_pub copy, ?_, fun k hk => ?_, fun k hk => ?_, fun h y h1 h2 => ?_,
    fun h => ⟨?_, ?_, ?_, ?_, ?_, ?_, fun y h1 h2 => ?_⟩, fun y hy => ?_, s.endPublish_port copy .fp,
    s.endPublish_port copy .bp, he.exec, he.sameInside⟩
  · show execPublishPassEnd s = _
    simp only [execPublishPassEnd, hp]
    exact arises_pos _ _ _ hr rfl
  · rw [State.endPublish_pub, State.rd_endPublish hc, State.rd_endPublish hc]
    exact natOf16_word (s.pub.generation + 1)
  · rw [far _ (by omega), view, if_pos (by omega), Nat.add_sub_cancel_left]
  · rw [far _ (by omega), view, if_neg (by omega), if_neg (by omega), if_pos (by omega)]
    congr 1
    omega
  · rw [far _ (by omega), view, if_neg (by omega), if_pos ⟨h1, h2⟩, h]
    rfl
  · rw [head h _ (by decide) (by decide), head h _ (by decide) (by decide)]
    exact natOf16_word s.pub.writeCount
  · rw [head h _ (by decide) (by decide), head h _ (by decide) (by decide)]
    exact natOf16_word s.pub.readMark
  · rw [head h _ (by decide) (by decide)]; rfl
  · rw [head h _ (by decide) (by decide)]; rfl
  · rw [head h _ (by decide) (by decide)]; rfl
  · rw [head h _ (by decide) (by decide)]; rfl
  · rw [head h _ (by omega) h2, State.trailHeader, byteAt_append, if_neg (by simp; omega)]
    rw [byteAt, List.getD_eq_getElem?_getD, List.getElem?_replicate]
    split <;> rfl
  · rw [far _ (by omega), view, if_neg (by omega), if_neg (by omega), if_neg (by omega)]

/-! ### The copy of a pass -/

theorem length_recordBytes (r : Record) (d p : Bool) (m u : Byte) : (recordBytes r d p m u).length = 16 := rfl

theorem State.length_recordList_le (s : State) : s.recordList.length ≤ 48 :=
  (List.length_filterMap_le _ _).trans (by simp)

theorem State.length_freeFrames_le (s : State) : s.freeFrames.length ≤ 64 :=
  (List.length_filter_le _ _).trans (by simp)

theorem State.barredCount_le (s : State) (p : Port) : s.barredCount p ≤ 192 :=
  List.countP_le_length.trans ((List.length_filter_le _ _).trans (by simp))

theorem State.sectorCount_le (s : State) (st : SectorState) : s.sectorCount st ≤ 16 :=
  List.countP_le_length.trans (by simp)

theorem State.retainedCount_le (s : State) : s.retainedCount ≤ 16 :=
  List.countP_le_length.trans (by simp)

theorem byteOf_toNat_of_lt {n : Nat} (h : n < 256) : (byteOf n).toNat = n := by rw [byteOf_toNat, Nat.mod_eq_of_lt h]

/-- The header's bytes stand first in the copy, at their offset less 2 (R159). -/
theorem State.byteAt_header (s : State) (k : Nat) (h : k < 30) : byteAt s.viewCopy k = byteAt s.headerCopy k := by
  rw [State.viewCopy, byteAt_append, if_pos (by rw [List.length_append, s.length_headerCopy]; omega), byteAt_append,
    if_pos (by rw [s.length_headerCopy]; exact h)]

/-- The status bytes stand behind the header (R163). -/
theorem State.byteAt_status (s : State) (i : Slot) :
    byteAt s.viewCopy (30 + i.val) = statusByte s.quals[i] s.slots[i].barred (s.enabled i) := by
  rw [State.viewCopy, byteAt_append,
    if_pos (by rw [List.length_append, s.length_headerCopy, s.length_statusCopy]; omega), byteAt_append,
    if_neg (by rw [s.length_headerCopy]; omega), s.length_headerCopy, Nat.add_sub_cancel_left,
    byteAt_of_lt (by rw [s.length_statusCopy]; exact i.isLt)]
  simp [State.statusCopy]

/-- In a list of blocks of one length, block `e` begins at `n * e`. -/
theorem byteAt_flatMap_finRange {m n : Nat} (f : Fin m → List Byte) (hf : ∀ e, (f e).length = n) (e : Fin m) (k : Nat)
    (hk : k < n) : byteAt ((List.finRange m).flatMap f) (n * e.val + k) = byteAt (f e) k := by
  induction m with
  | zero => exact e.elim0
  | succ m ih =>
    rw [List.finRange_succ, List.flatMap_cons, byteAt_append, hf]
    induction e using Fin.cases with
    | zero => simp [hk]
    | succ e =>
      have : n * e.succ.val + k = n + (n * e.val + k) := by simp [Nat.mul_add]; omega
      rw [if_neg (by omega), this, Nat.add_sub_cancel_left, List.flatMap_map]
      exact ih (fun e => f e.succ) (fun e => hf e.succ) e

/-- The mirror entries stand behind the status bytes, 16 bytes each (R164). -/
theorem State.byteAt_mirror (s : State) (e : Fin 48) (k : Nat) (hk : k < 16) :
    byteAt s.viewCopy (222 + 16 * e.val + k) = byteAt (match s.records[e] with
      | some r => mirrorBytes (some r) s.quals[r.slot].m
      | none => mirrorBytes none 0) k := by
  rw [State.viewCopy, byteAt_append, List.length_append, s.length_headerCopy, s.length_statusCopy, if_neg (by omega),
    show 222 + 16 * e.val + k - (30 + 192) = 16 * e.val + k by omega, State.mirrorCopy]
  exact byteAt_flatMap_finRange _ s.length_mirrorEntry e k hk

theorem portFlags_bits (ps : PortState) : (portFlags ps).getLsbD 0 = ps.adopted ∧ (portFlags ps).getLsbD 1 = ps.silent ∧
    (portFlags ps).getLsbD 2 = ps.stray ∧ (portFlags ps).toNat < 8 := by
  unfold portFlags
  generalize ps.adopted = a
  generalize ps.silent = b
  generalize ps.stray = c
  revert a b c
  decide

theorem statusByte_bits (q : Qualifier) (barred enabled : Bool) :
    (statusByte q barred enabled).toNat % 8 = qstateCode q.state ∧ (statusByte q barred enabled).getLsbD 3 = barred ∧
    (statusByte q barred enabled).getLsbD 4 = q.unrecorded ∧ (statusByte q barred enabled).getLsbD 5 = q.failed ∧
    (statusByte q barred enabled).getLsbD 6 = q.tested ∧ (statusByte q barred enabled).getLsbD 7 = enabled := by
  unfold statusByte
  generalize q.unrecorded = a
  generalize q.failed = b
  generalize q.tested = c
  cases q.state <;> revert barred enabled a b c <;> decide

/-- Byte 2 of a record's layout: class, frames present, persisted, dirty (11.5). -/
theorem recordFlags_bits (cls : Fin 4) (a b c d : Bool) :
    let x := byteOf (cls.val + flagBit a 2 + flagBit b 3 + flagBit c 4 + flagBit d 5)
    x.toNat % 4 = cls.val ∧ x.getLsbD 2 = a ∧ x.getLsbD 3 = b ∧ x.getLsbD 4 = c ∧ x.getLsbD 5 = d ∧ x.toNat < 64 := by
  revert cls a b c d
  decide

theorem byteOfInt_toInt {n : Int} (h1 : -128 ≤ n) (h2 : n ≤ 127) : (byteOfInt n).toInt = n := by
  rw [byteOfInt, BitVec.toInt_ofInt]
  exact Int.bmod_eq_of_le (by omega) (by omega)

theorem rideCode_lt (x : RideState) : rideCode x < 256 := by cases x <;> decide

theorem State.passMayStart_iff (s : State) :
    s.passMayStart = true ↔ s.pub.dirty = true ∧ s.pub.spacingDue = none ∧ s.pub.pass = none := by
  simp [State.passMayStart, State.spacingExpired, and_assoc]

/-- What a pass begins with: the copy, the mark cleared, an odd generation (R159). -/
theorem State.startPublish_begun (hc : s.MemoriesCanonical) : s.startPublish.pub =
      { s.pub with dirty := false, pass := some s.viewCopy, generation := s.pub.generation + 1 } ∧
    natOf16 (s.startPublish.rd 0) (s.startPublish.rd 1) = s.startPublish.pub.generation.toNat ∧
    ∀ y, 2 ≤ y → s.startPublish.rd y = s.rd y := by
  refine ⟨s.startPublish_pub, ?_, fun y hy => ?_⟩
  · rw [State.rd_startPublish hc, State.rd_startPublish hc, State.startPublish_pub]
    exact natOf16_word (s.pub.generation + 1)
  · rw [State.rd_startPublish hc, if_neg (by omega), if_neg (by omega)]

/-- The copy shows the same to two states that differ in the time base, the outputs and the spacing alone. -/
theorem State.viewCopy_congr {s t : State} (part : t.part = s.part) (svc : t.svc = s.svc) (ride : t.ride = s.ride)
    (ports : ∀ p, (t.port p).shown = (s.port p).shown ∧ portFlags (t.port p) = portFlags (s.port p) ∧
      (t.port p).declined = (s.port p).declined ∧ (t.port p).adopted = (s.port p).adopted)
    (slots : t.slots = s.slots) (faults : SameFaults s t) (profiles : t.profiles = s.profiles)
    (store : t.store = s.store) : t.viewCopy = s.viewCopy := by
  have owner (i : Slot) : t.owner i = s.owner i := by rw [State.owner, part, State.owner]
  have list : t.recordList = s.recordList := by rw [State.recordList, faults.records, State.recordList]
  have used (f : Fin 64) : t.frameUsed f = s.frameUsed f := by rw [State.frameUsed, list, State.frameUsed]
  have enabled (i : Slot) : t.enabled i = s.enabled i := by
    rw [Bool.eq_iff_iff, t.enabled_iff, s.enabled_iff, owner, (ports _).2.2.2, profiles]
  have barred (p : Port) : t.barredCount p = s.barredCount p := by
    simp only [State.barredCount, State.portSlots, owner, slots]
  obtain ⟨f1, f2, f3, -⟩ := ports .fp
  obtain ⟨b1, b2, b3, -⟩ := ports .bp
  simp only [State.port_fp, State.port_bp] at f1 f2 f3 b1 b2 b3
  simp only [State.viewCopy, State.headerCopy, State.statusCopy, State.mirrorCopy, State.freeFrames, State.sectorCount,
    State.retainedCount, part, svc, ride, slots, faults.quals, faults.records, store, list, used, enabled, barred, f1, f2,
    f3, b1, b2, b3]
  rfl

/-- The header's bytes field by field (R162, 11.5). -/
theorem State.header_fields (s : State) :
    let head (offset : Nat) : Byte := byteAt s.viewCopy (offset - 2)
    let flags (b : Byte) (ps : PortState) : Prop := b.getLsbD 0 = ps.adopted ∧ b.getLsbD 1 = ps.silent ∧
      b.getLsbD 2 = ps.stray ∧ b.toNat < 8
    head 2 = 1 ∧ (head 3).toNat = s.part.toNat ∧ head 4 = (if s.svc then 1 else 0) ∧
    head 5 = byteOf (rideCode s.ride.state) ∧
    (s.ride.number < 65536 → natOf16 (head 6) (head 7) = s.ride.number) ∧
    (s.ride.time < 65536 → natOf16 (head 8) (head 9) = s.ride.time) ∧
    head 10 = byteOf (patternCode s.fp.shown) ∧ head 11 = byteOf (patternCode s.bp.shown) ∧
    flags (head 12) s.fp ∧ (head 13).toNat = s.barredCount .fp ∧ (s.fp.declined < 256 → (head 14).toNat = s.fp.declined) ∧
    flags (head 15) s.bp ∧ (head 16).toNat = s.barredCount .bp ∧ (s.bp.declined < 256 → (head 17).toNat = s.bp.declined) ∧
    (head 18).toNat = s.recordList.length ∧ (head 19).toNat = s.freeFrames.length ∧
    head 20 = byteOf (storeCode s.store.state) ∧ (head 21).toNat = s.sectorCount .erased ∧
    (head 22).toNat = s.sectorCount .retired ∧ head 23 = (if 0 < s.sectorCount .retired then 1 else 0) ∧
    (head 24).toNat = s.retainedCount ∧ ∀ offset, 25 ≤ offset → offset < 32 → head offset = 0 := by
  intro head flags
  have at' (k : Nat) (h : k < 32) : head k = byteAt s.headerCopy (k - 2) := s.byteAt_header (k - 2) (by omega)
  have eq (k : Nat) (h : k < 32) (b : Byte) (e : byteAt s.headerCopy (k - 2) = b) : head k = b := (at' k h).trans e
  have number (k : Nat) (h : k < 32) (n : Nat) (hn : n < 256) (e : byteAt s.headerCopy (k - 2) = byteOf n) :
      (head k).toNat = n := by rw [at' k h, e, byteOf_toNat_of_lt hn]
  have lr := s.length_recordList_le
  have lf := s.length_freeFrames_le
  have le := s.sectorCount_le .erased
  have lt := s.sectorCount_le .retired
  have lv := s.retainedCount_le
  have bf := s.barredCount_le .fp
  have bb := s.barredCount_le .bp
  refine ⟨eq 2 (by decide) _ rfl, number 3 (by decide) _ (by omega) rfl, ?_, eq 5 (by decide) _ rfl, fun h => ?_, fun h => ?_,
    eq 10 (by decide) _ rfl, eq 11 (by decide) _ rfl, ?_, number 13 (by decide) _ (by omega) rfl,
    fun h => number 14 (by decide) _ h rfl, ?_, number 16 (by decide) _ (by omega) rfl,
    fun h => number 17 (by decide) _ h rfl, number 18 (by decide) _ (by omega) rfl, number 19 (by decide) _ (by omega) rfl,
    eq 20 (by decide) _ rfl, number 21 (by decide) _ (by omega) rfl, number 22 (by decide) _ (by omega) rfl, ?_,
    number 24 (by decide) _ (by omega) rfl, fun k h1 h2 => ?_⟩
  · rw [eq 4 (by decide) (byteOf (flagBit s.svc 0)) rfl]
    cases s.svc <;> rfl
  · rw [eq 6 (by decide) (byteOf s.ride.number) rfl, eq 7 (by decide) (byteOf (s.ride.number / 256)) rfl]
    exact natOf16_bytes16 h
  · rw [eq 8 (by decide) (byteOf s.ride.time) rfl, eq 9 (by decide) (byteOf (s.ride.time / 256)) rfl]
    exact natOf16_bytes16 h
  · rw [eq 12 (by decide) (portFlags s.fp) rfl]
    exact portFlags_bits s.fp
  · rw [eq 15 (by decide) (portFlags s.bp) rfl]
    exact portFlags_bits s.bp
  · rw [eq 23 (by decide) (byteOf (flagBit (decide (0 < s.sectorCount .retired)) 0)) rfl]
    by_cases h : 0 < s.sectorCount .retired <;> simp [h, flagBit, byteOf]
  · rw [at' k h2, State.headerCopy, byteAt_append, if_neg (by simp; omega)]
    rw [byteAt, List.getD_eq_getElem?_getD, List.getElem?_replicate]
    split <;> rfl

/-- A mirror entry field by field (R164, 11.5). -/
theorem mirrorBytes_fields (r : Record) (m : Int) :
    let at' (k : Nat) : Byte := byteAt (mirrorBytes (some r) m) k
    (at' 0).toNat = r.slot.val ∧ (at' 1).toNat = qstateCode r.state ∧ (at' 2).toNat % 4 = r.cls.val ∧
    (at' 2).getLsbD 2 = r.first.isSome ∧ (at' 2).getLsbD 3 = r.latest.isSome ∧ (at' 2).getLsbD 4 = r.persisted ∧
    (at' 2).getLsbD 5 = r.dirty ∧ (at' 2).toNat < 64 ∧ (r.occurrence < 256 → (at' 3).toNat = r.occurrence) ∧
    (r.onset < 65536 → natOf16 (at' 4) (at' 5) = r.onset) ∧
    (r.firstConf < 65536 → natOf16 (at' 6) (at' 7) = r.firstConf) ∧
    (r.latestConf < 65536 → natOf16 (at' 8) (at' 9) = r.latestConf) ∧
    (r.activity < 65536 → natOf16 (at' 10) (at' 11) = r.activity) ∧
    (r.fade < 256 → (at' 12).toNat = r.fade) ∧ (r.forget < 256 → (at' 13).toNat = r.forget) ∧
    (-128 ≤ m → m ≤ 127 → (at' 14).toInt = m) ∧ at' 15 = 1 := by
  obtain ⟨c0, c1, c2, c3, c4, c5⟩ := recordFlags_bits r.cls r.first.isSome r.latest.isSome r.persisted r.dirty
  refine ⟨byteOf_toNat_of_lt (Nat.lt_trans r.slot.isLt (by decide)), ?_, c0, c1, c2, c3, c4, c5, byteOf_toNat_of_lt,
    natOf16_bytes16, natOf16_bytes16, natOf16_bytes16, natOf16_bytes16, byteOf_toNat_of_lt, byteOf_toNat_of_lt,
    byteOfInt_toInt, rfl⟩
  show (byteOf (qstateCode r.state)).toNat = _
  cases r.state <;> rfl

/-- What a pass has begun with, as R159's first two steps say. -/
def State.Begun (s t : State) : Prop :=
  t.pub = { s.pub with dirty := false, spacingDue := none, pass := some s.viewCopy, generation := s.pub.generation + 1 } ∧
  natOf16 (t.rd 0) (t.rd 1) = t.pub.generation.toNat ∧ ∀ y, 2 ≤ y → t.rd y = s.rd y

theorem State.spacingFired_begun {u : State} (hc : u.MemoriesCanonical) (ram : u.ram = s.ram) (pub : u.pub = s.pub)
    (copy : u.viewCopy = s.viewCopy) (hd : s.pub.dirty = true) (hp : s.pub.pass = none) : s.Begun u.spacingFired := by
  let v : State := { u with pub := { u.pub with spacingDue := none } }
  have hv : v.MemoriesCanonical := hc.of_same rfl rfl
  have may : v.passMayStart = true := by rw [State.passMayStart_iff]; simp [v, pub, hd, hp]
  have fired : u.spacingFired = v.startPublish := by
    unfold State.spacingFired
    simp only
    rw [if_pos may]
  have vcopy : v.viewCopy = s.viewCopy := by
    rw [← copy]
    exact State.viewCopy_congr rfl rfl rfl (fun p => by cases p <;> exact ⟨rfl, rfl, rfl, rfl⟩) rfl ⟨rfl, rfl, rfl⟩ rfl rfl
  obtain ⟨h1, h2, h3⟩ := State.startPublish_begun hv
  rw [State.Begun, fired]
  refine ⟨?_, h2, fun y hy => (h3 y hy).trans (State.rd_of_ram ram y)⟩
  rw [h1, vcopy]
  simp only [v, pub]

/-- Settles O39: the copy by its areas, and when a pass starts. -/
theorem passStartsWithOneCopy : Obligations.PassStartsWithOneCopy := by
  intro s hr hc
  refine ⟨s.length_viewCopy, s.header_fields, ⟨fun i => ?_, fun e => ⟨fun h k hk => ?_, fun r h => ?_⟩⟩, s.byteAt_status,
    fun e k hk => s.byteAt_mirror e k hk, fun h => ?_, fun hd hs hp => ?_, fun d hd => ?_⟩
  · rw [s.byteAt_status]
    obtain ⟨h0, h3, h4, h5, h6, h7⟩ := statusByte_bits s.quals[i] s.slots[i].barred (s.enabled i)
    refine ⟨h0.trans ?_, h3, h4, h5, h6, h7⟩
    cases s.quals[i].state <;> rfl
  · show byteAt s.viewCopy _ = 0
    rw [s.byteAt_mirror e k hk, h, mirrorBytes, byteAt, List.getD_eq_getElem?_getD, List.getElem?_replicate]
    split <;> rfl
  · have field (k : Nat) (hk : k < 16) : byteAt s.viewCopy (222 + 16 * e.val + k) =
        byteAt (mirrorBytes (some r) s.quals[r.slot].m) k := by
      rw [s.byteAt_mirror e k hk, (show s.records[e] = some r from h)]
    obtain ⟨h0, h1, h2⟩ := mirrorBytes_fields r s.quals[r.slot].m
    have code : qstateCode r.state = (match r.state with
        | .idle => 0
        | .pending => 1
        | .confirmed => 2
        | .fading => 3
        | .historic => 4) := by cases r.state <;> rfl
    rw [code] at h1
    simp only [field _ (show 0 < 16 by decide), field _ (show 1 < 16 by decide), field _ (show 2 < 16 by decide),
      field _ (show 3 < 16 by decide), field _ (show 4 < 16 by decide), field _ (show 5 < 16 by decide),
      field _ (show 6 < 16 by decide), field _ (show 7 < 16 by decide), field _ (show 8 < 16 by decide),
      field _ (show 9 < 16 by decide), field _ (show 10 < 16 by decide), field _ (show 11 < 16 by decide),
      field _ (show 12 < 16 by decide), field _ (show 13 < 16 by decide), field _ (show 14 < 16 by decide),
      field _ (show 15 < 16 by decide)]
    exact ⟨h0, h1, h2⟩
  · show arises s.passMayStart s s.startPublish = _
    refine arises_neg _ _ _ (.inr ?_)
    rw [← Bool.not_eq_true, State.passMayStart_iff]
    rintro ⟨h1, h2, h3⟩
    rcases h with h | h | h
    · rw [h1] at h; cases h
    · exact h h2
    · exact h h3
  · have he := s.startPublish_effect hp
    obtain ⟨h1, h2, h3⟩ := State.startPublish_begun hc
    refine ⟨s.startPublish, ?_, ⟨?_, h2, h3⟩, s.startPublish_port .fp, s.startPublish_port .bp, he.exec, he.sameInside⟩
    · exact arises_pos _ _ _ hr ((s.passMayStart_iff).mpr ⟨hd, hs, hp⟩)
    · rw [h1, ← hs]
  · let u := s.advanceTo d
    have hu := s.advanceTo_effect d
    have hf := u.spacingFired_effect
    have he := hu.mono.trans (hf.mono (l' := [.now, .lamp, .ram, .dirty, .pass, .spacing]) (b' := [.view]))
    have copy : u.viewCopy = s.viewCopy := by
      refine State.viewCopy_congr hu.straps.1 hu.straps.2 hu.ride (fun p => ?_) hu.slots hu.sameFaults hu.profiles
        hu.store_eq
      obtain ⟨l, hl⟩ := s.advanceTo_port d p
      rw [hl]
      exact ⟨rfl, rfl, rfl, rfl⟩
    refine ⟨u.spacingFired, ?_, ?_, fun h1 h2 => ?_, fun h => ?_, he.exec, he.ride, he.slots, he.sameFaults, he.sameStore⟩
    · show execPublishSpacingExpiry s = _
      simp only [execPublishSpacingExpiry, hd]
      exact arises_pos _ _ _ hr rfl
    · rw [hf.now]
      exact State.advanceTo_now _ _
    · exact State.spacingFired_begun (hc.of_same hu.ram hu.flash) hu.ram hu.pub_eq copy h1 h2
    · have none : u.spacingFired = { u with pub := { u.pub with spacingDue := none } } := by
        unfold State.spacingFired
        simp only
        rw [if_neg]
        rw [State.passMayStart_iff]
        show ¬(u.pub.dirty = true ∧ _ ∧ u.pub.pass = none)
        rw [hu.pub_eq]
        rintro ⟨h1, -, h3⟩
        rcases h with h | h
        · rw [h1] at h; cases h
        · exact h h3
      rw [none]
      have pub : u.pub = s.pub := hu.pub_eq
      exact ⟨by simp only [pub], hu.ram⟩

end Sys2Proof.Machine
end

