-- ==== Sys2Proof/Proofs/Writing.lean ====
section
/-!
PROOFS. The writer's moments and the order of its work (R118, R121), compaction and erase starts (R120, R122), suspended
erases (R123).
-/

-- Proofs in the order of the text: those that elaborate default tactic arguments at once wait for each other.
set_option Elab.async false

namespace Sys2Proof.Machine

variable {s t : State}

/-! ### First of a list -/

/-- The first record that meets a test is that of lowest index (R118). -/
theorem State.find_recordList (s : State) (f : Fin 48 × Record → Bool) (e : Fin 48) (r : Record) :
    s.recordList.find? f = some (e, r) ↔
      s.Holds e r ∧ f (e, r) = true ∧ ∀ e' r', e' < e → s.Holds e' r' → f (e', r') = false := by
  have entry (i : Fin 48) : (s.records[i].map (fun r => (i, r))) = some (e, r) ↔ i = e ∧ s.Holds e r := by
    rw [Option.map_eq_some_iff]
    constructor
    · rintro ⟨x, hx, h⟩
      cases h
      exact ⟨rfl, hx⟩
    · rintro ⟨rfl, h⟩
      exact ⟨r, h, rfl⟩
  have found (i : Fin 48) : (s.records[i].map (fun r => (i, r))).any f = true ↔ ∃ x, s.Holds i x ∧ f (i, x) = true := by
    rw [Option.any_eq_true]
    simp [State.Holds]
  have missed (i : Fin 48) : (s.records[i].map (fun r => (i, r))).any f = false ↔ ∀ x, s.Holds i x → f (i, x) = false := by
    rw [← Bool.not_eq_true, found]
    simp
  rw [State.recordList, List.find?_filterMap, Option.bind_eq_some_iff]
  constructor
  · rintro ⟨i, hi, h⟩
    obtain ⟨rfl, hold⟩ := (entry i).mp h
    obtain ⟨-, hf, hmin⟩ := (find?_eq_some_of_sorted (List.pairwise_lt_finRange 48) _ _).mp hi
    obtain ⟨x, hx, hfx⟩ := (found i).mp hf
    have : x = r := Option.some.inj (hx.symm.trans hold)
    subst this
    exact ⟨hold, hfx, fun e' r' hlt h' => (missed e').mp (hmin e' (List.mem_finRange e') hlt) r' h'⟩
  · rintro ⟨hold, hf, hmin⟩
    refine ⟨e, (find?_eq_some_of_sorted (List.pairwise_lt_finRange 48) _ _).mpr ⟨List.mem_finRange e,
      (found e).mpr ⟨r, hold, hf⟩, fun j _ hj => (missed j).mpr fun x hx => hmin j x hj hx⟩, (entry e).mpr ⟨rfl, hold⟩⟩

theorem State.find_recordList_none (s : State) (f : Fin 48 × Record → Bool) :
    s.recordList.find? f = none ↔ ∀ e r, s.Holds e r → f (e, r) = false := by
  rw [List.find?_eq_none]
  exact ⟨fun h e r hr => Bool.eq_false_iff.mpr (h (e, r) ((s.mem_recordList e r).mpr hr)),
    fun h x hx => Bool.eq_false_iff.mp (h x.1 x.2 ((s.mem_recordList _ _).mp hx))⟩

theorem findSome?_of_first {n : Nat} {α : Type} {l : List (Fin n)} (hl : l.Pairwise (· < ·)) {f : Fin n → Option α}
    {i : Fin n} {a : α} (hi : i ∈ l) (h : f i = some a) (hmin : ∀ j ∈ l, j < i → f j = none) : l.findSome? f = some a := by
  induction l with
  | nil => cases hi
  | cons x l ih =>
    obtain ⟨hx, hl⟩ := List.pairwise_cons.mp hl
    rw [List.findSome?_cons]
    rcases List.mem_cons.mp hi with rfl | hi
    · rw [h]
    · rw [hmin x List.mem_cons_self (hx i hi)]
      exact ih hl hi fun j hj => hmin j (List.mem_cons_of_mem x hj)

/-! ### The writer's moments (R118) -/

theorem State.writerReady_iff (s : State) : s.writerReady = true ↔ s.inReset = false ∧ s.store.state = .ready ∧
    s.store.inhibitDue = none ∧ s.store.program = none ∧ (∀ e, s.store.erase = some e → e.suspended = true) ∧
    s.store.retErase ≠ .running := by
  unfold State.writerReady
  cases h : s.store.erase <;> simp [and_assoc]

theorem State.noErase_iff (s : State) : s.noErase = true ↔ s.store.erase = none ∧ s.store.retErase = .nothing := by
  simp [State.noErase]

theorem State.compactionDue_iff (s : State) : s.compactionDue = true ↔ s.writerReady = true ∧ s.urgentWork = none ∧
    s.sectorCount .erased < 2 ∧ (s.store.erase = none ∧ s.store.retErase = .nothing) ∧ s.spoiledWaiting = none ∧
    s.store.compaction = none ∧ 0 < s.sectorCount .full := by
  rw [← s.noErase_iff]
  simp [State.compactionDue, and_assoc]

theorem State.erasePhaseDue_iff (s : State) (v : Fin 16) : s.erasePhaseDue v = true ↔ s.writerReady = true ∧
    s.urgentWork = none ∧ s.store.erase = none ∧ s.store.retErase = .nothing ∧ s.nextFresh v = none := by
  simp [State.erasePhaseDue, State.noErase, and_assoc]

theorem State.spoiledWaiting_eq_some (s : State) (k : Fin 16) : s.spoiledWaiting = some k ↔
    s.store.sectors[k].state = .spoiled ∧ ∀ j : Fin 16, j < k → s.store.sectors[j].state ≠ .spoiled := by
  rw [State.spoiledWaiting, find?_eq_some_of_sorted (List.pairwise_lt_finRange 16)]
  simp [List.mem_finRange]

theorem State.spoiledWaiting_isSome (s : State) :
    s.spoiledWaiting.isSome = true ↔ ∃ k : Fin 16, s.store.sectors[k].state = .spoiled := by
  simp [State.spoiledWaiting]

theorem arises_of_not {c : Bool} (h : ¬c = true) : arises c s t = .next s := arises_neg _ _ _ (.inr (Bool.eq_false_iff.mpr h))

/-- At no moment of the writer's, none of its commands does anything (assumption log 1). -/
theorem writer_waits (h : s.writerReady = false) : exec .imageBegin s = .next s ∧ exec .retainedEntryBegin s = .next s ∧
    exec .compactionStart s = .next s ∧ exec .spoiledEraseStart s = .next s ∧
    ∀ line, exec (.erasePhaseStart line) s = .next s := by
  have no : ¬s.writerReady = true := by rw [h]; decide
  have noImage : s.nextImage = none := by rw [State.nextImage, if_neg no]
  have noRetained : s.nextRetained = none := by rw [State.nextRetained, if_neg fun x => no x.1]
  refine ⟨?_, ?_, ?_, ?_, fun line => ?_⟩
  · show execImageBegin s = _
    simp only [execImageBegin, noImage]
  · show execRetainedEntryBegin s = _
    simp only [execRetainedEntryBegin, noRetained]
  · exact arises_of_not fun x => no ((s.compactionDue_iff).mp x).1
  · show execSpoiledEraseStart s = _
    unfold execSpoiledEraseStart
    split
    · exact arises_of_not (by simp [h])
    · rfl
  · show execErasePhaseStart line s = _
    unfold execErasePhaseStart
    split
    · next v _ => exact arises_of_not fun x => no ((s.erasePhaseDue_iff v).mp x).1
    · rfl

/-! ### Urgent work and later work (R118) -/

theorem State.urgentWork_ride (h : s.store.rideMark = true) : s.urgentWork = some (.image .ride) := by
  rw [State.urgentWork, if_pos h]

theorem State.urgentWork_log {it : LogItem} {rest : List LogItem} (h : s.store.rideMark = false)
    (hq : s.store.logQueue = it :: rest) : s.urgentWork = some (.image (.log it)) := by
  rw [State.urgentWork, if_neg (by simp [h])]
  simp only [hq]

theorem State.urgentWork_retained (h : s.store.rideMark = false) (hq : s.store.logQueue = []) (hr : s.store.retQueue ≠ []) :
    s.urgentWork = some .retained := by
  obtain ⟨x, l, hx⟩ := List.exists_cons_of_ne_nil hr
  rw [State.urgentWork, if_neg (by simp [h])]
  simp only [hq, hx]

/-- With no RIDE, no CLEAR or RELEASE item and no retained entry: urgent records, then the QUALIFIER. -/
theorem State.urgentWork_plain (h : s.store.rideMark = false) (hq : s.store.logQueue = []) (hr : s.store.retQueue = []) :
    s.urgentWork = match s.recordList.find? (fun e => e.2.dirty && e.2.urgent) with
      | some (e, r) => some (.image (.record e r))
      | none => if s.store.qualMark then some (.image .qualifier) else none := by
  rw [State.urgentWork, if_neg (by simp [h])]
  simp only [hq, hr] <;> rfl

theorem State.nextImage_later (h : s.writerReady = true) (hu : s.urgentWork = none) : s.nextImage = s.laterJob := by
  rw [State.nextImage, if_pos h]
  simp only [hu]

/-! ### The fresh image of a compaction (R121) -/

/-- What a slot's key needs in a compaction of `v`. -/
def State.slotFresh (s : State) (v : Fin 16) (i : Slot) : Option Job :=
  match newestRecordKey s.logImages i.val with
  | some im => if im.sector = v then s.freshForSlot s.logImages i im else none
  | none => none

theorem any_sector {o : Option Image} {v : Fin 16} :
    o.any (fun im => decide (im.sector = v)) = true ↔ ∃ x, o = some x ∧ x.sector = v := by
  rw [Option.any_eq_true]
  simp

theorem State.nextFresh_ride {v : Fin 16} (h : ∃ x, newestRide s.logImages = some x ∧ x.sector = v) :
    s.nextFresh v = some .ride := by
  simp only [State.nextFresh]
  rw [if_pos (any_sector.mpr h)]

theorem State.nextFresh_qualifier {v : Fin 16} (hr : ¬∃ x, newestRide s.logImages = some x ∧ x.sector = v)
    (h : ∃ x, newestQualifier s.logImages = some x ∧ x.sector = v) : s.nextFresh v = some .qualifier := by
  simp only [State.nextFresh]
  rw [if_neg (any_sector.not.mpr hr), if_pos (any_sector.mpr h)]

theorem State.nextFresh_slots {v : Fin 16} (hr : ¬∃ x, newestRide s.logImages = some x ∧ x.sector = v)
    (hq : ¬∃ x, newestQualifier s.logImages = some x ∧ x.sector = v) :
    s.nextFresh v = (List.finRange 192).findSome? (s.slotFresh v) := by
  simp only [State.nextFresh]
  rw [if_neg (any_sector.not.mpr hr), if_neg (any_sector.not.mpr hq)]
  rfl

/-- The table of R121 for one slot whose newest image is `im`. -/
theorem State.freshForSlot_eq_some (l : List Image) (i : Slot) (im : Image) (j : Job) :
    let current := ∃ e r, s.recordOf i = some (e, r) ∧ (r.state = .confirmed ∨ r.state = .fading ∨ r.state = .historic)
    let newClear := im.kind = .clear ∧ ∀ q, newestQualifier l = some q → q.seq < im.seq
    let remains := ∃ x ∈ l, x.valid = true ∧ x.kind = .record ∧ (byteAt x.body 0).toNat = i.val
    s.freshForSlot l i im = some j ↔
      (current ∧ ∃ e r, s.recordOf i = some (e, r) ∧ j = .record e r) ∨ (¬current ∧ newClear ∧ j = .log (.clear i i)) ∨
        (¬current ∧ ¬newClear ∧ remains ∧ j = .log (.release i)) := by
  intro current newClear remains
  have clear : (im.kind = .clear ∧ newerThanQualifier (newestQualifier l) im = true) ↔ newClear := by
    rw [newerThanQualifier_iff]
  have remain : l.any (fun x => x.valid && decide (x.kind = .record) && decide ((byteAt x.body 0).toNat = i.val)) = true ↔
      remains := by
    simp [remains, and_assoc]
  have without (hn : ¬current) : State.freshForSlot.freshWithout l i im = some j ↔
      (current ∧ ∃ e r, s.recordOf i = some (e, r) ∧ j = .record e r) ∨ (¬current ∧ newClear ∧ j = .log (.clear i i)) ∨
        (¬current ∧ ¬newClear ∧ remains ∧ j = .log (.release i)) := by
    unfold State.freshForSlot.freshWithout
    by_cases hc : newClear
    · rw [if_pos (clear.mpr hc)]
      simp [hn, hc, eq_comm]
    · rw [if_neg (clear.not.mpr hc)]
      by_cases hr : remains
      · rw [if_pos (remain.mpr hr)]
        simp [hn, hc, hr, eq_comm]
      · rw [if_neg (remain.not.mpr hr)]
        simp [hn, hc, hr]
  unfold State.freshForSlot
  split
  · next e r h =>
    split
    · next hs =>
      have hc : current := ⟨e, r, h, hs⟩
      simp [hc, h, eq_comm]
    · next hs =>
      refine without ?_
      rintro ⟨e', r', h', hs'⟩
      rw [h] at h'
      cases h'
      exact hs hs'
  · next h =>
    refine without ?_
    rintro ⟨e', r', h', -⟩
    rw [h] at h'
    cases h'

/-- Settles O42: the writer's moment, its urgent work, its later work and the fresh image, each by its equation. -/
theorem writerTakesWorkInOrder : Obligations.WriterTakesWorkInOrder := by
  intro s plain lowest urgent noUrgent
  refine ⟨s.writerReady_iff, writer_waits, State.urgentWork_ride, fun it rest => State.urgentWork_log,
    State.urgentWork_retained, fun e r hp hl => ?_, fun hp hn hm => ?_, fun hp hn hm => ?_, fun h => ?_,
    fun h => ⟨fun j hj => ?_, fun hj => ?_, fun hu he => ?_, fun hu he hr => ⟨fun v hv => ?_, fun hc => ⟨fun hw => ?_,
      fun e r hs hd hl => ?_⟩⟩⟩, fun v => ⟨State.nextFresh_ride, State.nextFresh_qualifier, fun i j hr hf hmin => ?_,
      fun hr hf => ?_⟩⟩
  · rw [State.urgentWork_plain hp.1 hp.2.1 hp.2.2, (s.find_recordList _ e r).mpr ⟨hl.1, by simpa using hl.2.1,
      fun e' r' he hr => by simpa [urgent] using hl.2.2 e' r' he hr⟩]
  · rw [State.urgentWork_plain hp.1 hp.2.1 hp.2.2, (s.find_recordList_none _).mpr fun e r hr => by
      simpa [urgent] using hn e r hr]
    simp [hm]
  · rw [State.urgentWork_plain hp.1 hp.2.1 hp.2.2, (s.find_recordList_none _).mpr fun e r hr => by
      simpa [urgent] using hn e r hr]
    simp [hm]
  · rw [State.nextImage, if_neg (by simp [h])]
  · rw [State.nextImage, if_pos h]
    simp only [hj]
  · rw [State.nextImage, if_pos h]
    simp only [hj]
  · rw [State.nextImage_later h hu, State.laterJob, if_pos]
    rw [← Bool.not_eq_true, s.noErase_iff]
    exact fun x => he.elim (fun y => y x.1) (fun y => y x.2)
  · rw [State.nextImage_later h hu, State.laterJob, if_neg (by rw [(s.noErase_iff).mpr ⟨he, hr⟩]; decide)]
    simp only [hv]
  · rw [State.nextImage_later h hu, State.laterJob, if_neg (by rw [(s.noErase_iff).mpr ⟨he, hr⟩]; decide)]
    simp only [hc]
    split
    · rfl
    · next hno =>
      obtain ⟨h1, h2⟩ := not_or.mp hno
      rw [s.spoiledWaiting_isSome] at h1
      have h3 : s.spoiledWaiting = none := by rw [s.spoiledWaiting_eq_none]; exact fun k hk => h1 ⟨k, hk⟩
      have h4 : ∀ e r, s.Holds e r → r.dirty = false := by
        rcases hw with hw | hw | hw
        · exact absurd hw h1
        · exact absurd ((s.compactionDue_iff).mpr ⟨h, hu, hw.1, ⟨he, hr⟩, h3, hc, hw.2⟩) h2
        · exact hw
      rw [(s.find_recordList_none _).mpr h4]
      rfl
  · rw [State.nextImage_later h hu, State.laterJob, if_neg (by rw [(s.noErase_iff).mpr ⟨he, hr⟩]; decide)]
    simp only [hc]
    rw [if_neg, (s.find_recordList _ e r).mpr ⟨hl.1, hl.2.1, fun e' r' hlt hr' => by simpa using hl.2.2 e' r' hlt hr'⟩]
    · rfl
    · rintro (hx | hx)
      · exact hs ((s.spoiledWaiting_isSome).mp hx)
      · obtain ⟨-, -, h1, -, -, -, h2⟩ := (s.compactionDue_iff).mp hx
        exact hd ⟨h1, h2⟩
  all_goals
    have slotFresh_iff (i : Slot) (j : Job) : s.slotFresh v i = some j ↔ ∃ im, newestRecordKey s.logImages i.val = some im ∧
        im.sector = v ∧ s.freshForSlot s.logImages i im = some j := by
      unfold State.slotFresh
      split
      · next im h => simp [h]
      · next h => simp [h]
    rw [State.nextFresh_slots hr.1 hr.2]
  · refine findSome?_of_first (List.pairwise_lt_finRange 192) (List.mem_finRange i) ?_ fun i' _ hi' => ?_
    · obtain ⟨im, h1, h2, h3⟩ := hf
      exact (slotFresh_iff i j).mpr ⟨im, h1, h2, (State.freshForSlot_eq_some _ i im j).mpr h3⟩
    · rw [Option.eq_none_iff_forall_ne_some]
      intro j' h'
      obtain ⟨im, h1, h2, h3⟩ := (slotFresh_iff i' j').mp h'
      exact hmin i' hi' j' ⟨im, h1, h2, (State.freshForSlot_eq_some _ i' im j').mp h3⟩
  · rw [List.findSome?_eq_none_iff]
    intro i _
    rw [Option.eq_none_iff_forall_ne_some]
    intro j' h'
    obtain ⟨im, h1, h2, h3⟩ := (slotFresh_iff i j').mp h'
    exact hf i j' ⟨im, h1, h2, (State.freshForSlot_eq_some _ i im j').mp h3⟩

/-! ### Compaction and erases -/

theorem Vector.toList_eq_map {α : Type} {n : Nat} (v : Vector α n) : v.toList = (List.finRange n).map (fun k => v[k]) := by
  refine List.ext_getElem (by simp) fun i h1 h2 => ?_
  simp

/-- A count of sectors is a count of their numbers. -/
theorem State.sectorCount_eq (s : State) (st : SectorState) :
    s.sectorCount st = ((List.finRange 16).filter (fun k => decide (s.store.sectors[k].state = st))).length := by
  rw [State.sectorCount, Vector.toList_eq_map, List.countP_map, List.countP_eq_length_filter]
  rfl

theorem State.sectorCount_pos (s : State) (st : SectorState) :
    0 < s.sectorCount st ↔ ∃ k : Fin 16, s.store.sectors[k].state = st := by
  rw [s.sectorCount_eq, List.length_pos_iff_exists_mem]
  simp

/-- One step of the search for the victim (R120). -/
def State.olderFull (s : State) (best : Option (Fin 16)) (k : Fin 16) : Option (Fin 16) :=
  if s.store.sectors[k].state = .full then
    match best with
    | none => some k
    | some b => if sectorAge s.store.sectors[k] < sectorAge s.store.sectors[b] then some k else some b
  else best

theorem State.compactionVictim_eq (s : State) : s.compactionVictim = (List.finRange 16).foldl s.olderFull none := rfl

/-- From a FULL sector on, the search ends at one that is no younger than it and any FULL one of the list. -/
theorem State.olderFull_foldl (s : State) (l : List (Fin 16)) (b : Fin 16) (hb : s.store.sectors[b].state = .full) :
    ∃ v, l.foldl s.olderFull (some b) = some v ∧ s.store.sectors[v].state = .full ∧
      sectorAge s.store.sectors[v] ≤ sectorAge s.store.sectors[b] ∧
      ∀ k ∈ l, s.store.sectors[k].state = .full → sectorAge s.store.sectors[v] ≤ sectorAge s.store.sectors[k] := by
  induction l generalizing b with
  | nil => exact ⟨b, rfl, hb, Nat.le_refl _, fun k hk => by cases hk⟩
  | cons x l ih =>
    by_cases hx : s.store.sectors[x].state = .full
    · by_cases ha : sectorAge s.store.sectors[x] < sectorAge s.store.sectors[b]
      · obtain ⟨v, h1, h2, h3, h4⟩ := ih x hx
        refine ⟨v, ?_, h2, by omega, fun k hk hf => ?_⟩
        · rw [List.foldl_cons, State.olderFull, if_pos hx]
          simp only [ha, if_true]
          exact h1
        · rcases List.mem_cons.mp hk with rfl | hk
          · exact h3
          · exact h4 k hk hf
      · obtain ⟨v, h1, h2, h3, h4⟩ := ih b hb
        refine ⟨v, ?_, h2, h3, fun k hk hf => ?_⟩
        · rw [List.foldl_cons, State.olderFull, if_pos hx]
          simp only [ha, if_false]
          exact h1
        · rcases List.mem_cons.mp hk with rfl | hk
          · omega
          · exact h4 k hk hf
    · obtain ⟨v, h1, h2, h3, h4⟩ := ih b hb
      refine ⟨v, ?_, h2, h3, fun k hk hf => ?_⟩
      · rw [List.foldl_cons, State.olderFull, if_neg hx]
        exact h1
      · rcases List.mem_cons.mp hk with rfl | hk
        · exact absurd hf hx
        · exact h4 k hk hf

theorem State.olderFull_foldl_none (s : State) (l : List (Fin 16)) (h : ∃ k ∈ l, s.store.sectors[k].state = .full) :
    ∃ v, l.foldl s.olderFull none = some v ∧ s.store.sectors[v].state = .full ∧
      ∀ k ∈ l, s.store.sectors[k].state = .full → sectorAge s.store.sectors[v] ≤ sectorAge s.store.sectors[k] := by
  induction l with
  | nil => obtain ⟨k, hk, -⟩ := h; cases hk
  | cons x l ih =>
    by_cases hx : s.store.sectors[x].state = .full
    · obtain ⟨v, h1, h2, h3, h4⟩ := s.olderFull_foldl l x hx
      refine ⟨v, ?_, h2, fun k hk hf => ?_⟩
      · rw [List.foldl_cons, State.olderFull, if_pos hx]
        exact h1
      · rcases List.mem_cons.mp hk with rfl | hk
        · exact h3
        · exact h4 k hk hf
    · obtain ⟨k, hk, hf⟩ := h
      have hkl : k ∈ l := (List.mem_cons.mp hk).resolve_left fun e => hx (e ▸ hf)
      obtain ⟨v, h1, h2, h3⟩ := ih ⟨k, hkl, hf⟩
      refine ⟨v, ?_, h2, fun k hk hf => ?_⟩
      · rw [List.foldl_cons, State.olderFull, if_neg hx]
        exact h1
      · rcases List.mem_cons.mp hk with rfl | hk
        · exact absurd hf hx
        · exact h3 k hk hf

/-- The victim is a FULL sector, and none is older (R120). -/
theorem State.compactionVictim_spec (h : 0 < s.sectorCount .full) : ∃ v, s.compactionVictim = some v ∧
    s.store.sectors[v].state = .full ∧
    ∀ k : Fin 16, s.store.sectors[k].state = .full → sectorAge s.store.sectors[v] ≤ sectorAge s.store.sectors[k] := by
  obtain ⟨k, hk⟩ := (s.sectorCount_pos .full).mp h
  obtain ⟨v, h1, h2, h3⟩ := s.olderFull_foldl_none (List.finRange 16) ⟨k, List.mem_finRange k, hk⟩
  exact ⟨v, (s.compactionVictim_eq).trans h1, h2, fun k hk => h3 k (List.mem_finRange k) hk⟩

/-- Settles O45: the conditions, and the victim of a fold over the sectors. -/
theorem compactionAndSpoiledEraseStart : Obligations.CompactionAndSpoiledEraseStart := by
  refine ⟨fun s => ⟨fun h => ?_, fun h => ?_⟩, fun s hw hu he hr => ⟨fun h2 hs hc hf => ?_, fun k hk hl => ?_⟩⟩
  · refine arises_of_not fun x => ?_
    obtain ⟨h1, h2, h3, h4, h5, h6, h7⟩ := (s.compactionDue_iff).mp x
    rcases h with h | h | h | h | h
    · exact h ⟨h1, h2, h4⟩
    · omega
    · rw [s.spoiledWaiting_eq_none] at h5
      exact h.elim fun k hk => h5 k hk
    · exact h h6
    · omega
  · show execSpoiledEraseStart s = _
    unfold execSpoiledEraseStart
    split
    · next k hk =>
      refine arises_of_not fun x => ?_
      simp only [Bool.and_eq_true, Option.isNone_iff_eq_none, s.noErase_iff] at x
      rcases h with h | h
      · exact h ⟨x.1.1, x.1.2, x.2⟩
      · exact h ⟨k, ((s.spoiledWaiting_eq_some k).mp hk).1⟩
    · rfl
  · obtain ⟨v, hv, hfull, hmin⟩ := State.compactionVictim_spec hf
    refine ⟨v, ?_, hfull, hmin⟩
    rw [← hv]
    exact arises_pos _ _ _ ((s.writerReady_iff).mp hw).1
      ((s.compactionDue_iff).mpr ⟨hw, hu, h2, ⟨he, hr⟩, (s.spoiledWaiting_eq_none).mpr hs, hc, hf⟩)
  · show execSpoiledEraseStart s = _
    simp only [execSpoiledEraseStart, (s.spoiledWaiting_eq_some k).mpr ⟨hk, hl⟩]
    exact arises_pos _ _ _ ((s.writerReady_iff).mp hw).1 (by simp [hw, hu, (s.noErase_iff).mpr ⟨he, hr⟩])

theorem askSuspend_some (e : EraseOp) :
    askSuspend (some e) = some (if e.suspended then e else { e with suspendAsked := true }) := rfl

/-- A mark of a record asks for a suspension where it is urgent or the ride is ending (R117, R123). -/
theorem State.markRecord_erase {n : Fin 48} {r : Record} (u : Bool) (h : s.Holds n r) : (s.markRecord n u).store.erase =
    if u || s.store.rideEnding then askSuspend s.store.erase else s.store.erase := by
  rw [State.markRecord_some s n u r h]

/-! ### The retained list (R127) -/

theorem State.retainedListed_iff (s : State) (i : Slot) : s.retainedListed i = true ↔ s.RetainedHolds i := by
  rw [State.retainedListed, Bool.or_eq_true, Bool.or_eq_true, or_assoc]
  refine or_congr ?_ (or_congr (by simp) ?_)
  · rw [Vector.toList_eq_map, List.any_map, List.any_eq_true]
    simp only [List.mem_finRange, true_and, Function.comp]
    refine exists_congr fun k => ?_
    cases s.store.retPos[k] <;> simp
  · split <;> next h => simp [h]

theorem State.retainedReserved_iff (s : State) (k : Fin 16) : s.retainedReserved k = false ↔
    (∀ x ∈ s.store.retQueue, x.pos ≠ k) ∧ ∀ x, s.store.program = some (.retained x) → x.pos ≠ k := by
  rw [State.retainedReserved, Bool.or_eq_false_iff]
  refine and_congr (by simp) ?_
  split <;> next h => simp [h]

theorem State.retainedFree_eq_some (s : State) (k : Fin 16) : s.retainedFree = some k ↔ s.RetainedSpare k := by
  have spare (j : Fin 16) : (decide (s.store.retPos[j] = .free) && !s.retainedReserved j) = true ↔
      s.store.retPos[j] = .free ∧ (∀ x ∈ s.store.retQueue, x.pos ≠ j) ∧
        ∀ x, s.store.program = some (.retained x) → x.pos ≠ j := by
    rw [Bool.and_eq_true, decide_eq_true_eq, Bool.not_eq_true', s.retainedReserved_iff]
  rw [State.retainedFree, find?_eq_some_of_sorted (List.pairwise_lt_finRange 16), spare]
  refine ⟨fun ⟨_, h1, h2⟩ => ⟨h1, fun j hj => ?_⟩, fun ⟨h1, h2⟩ => ⟨List.mem_finRange k, h1, fun j _ hj => ?_⟩⟩
  · intro x
    have := (spare j).mpr x
    rw [h2 j (List.mem_finRange j) hj] at this
    cases this
  · rw [← Bool.not_eq_true, spare j]
    exact h2 j hj

/-- A request for a retained entry that is accepted (R127). -/
theorem State.requestRetained_accepted {i : Slot} {k : Fin 16} (n : Nat) (f : Option Frame) (hl : ¬s.RetainedHolds i)
    (hk : s.RetainedSpare k) : s.requestRetained i n f = { s with store := { s.store with
      retQueue := s.store.retQueue ++ [{ slot := i, ride := s.ride.number, occurrence := n, frame := f, pos := k }],
      erase := askSuspend s.store.erase } } := by
  have h1 : s.retainedListed i = false := by rw [← Bool.not_eq_true, s.retainedListed_iff]; exact hl
  simp only [State.requestRetained, h1, (s.retainedFree_eq_some k).mpr hk, State.urgentMarked_eq]

/-- Settles O47: marks ask a running erase to suspend, and the commands move its two flags. -/
theorem inhibitSuspendAndResume : Obligations.InhibitSuspendAndResume := by
  refine ⟨fun e s he => ?_, fun s hr => ⟨fun d hd => ?_, fun e he => ⟨fun h1 h2 => ?_, fun h1 h2 h3 h4 => ?_, fun h => ?_,
    fun h => ?_, fun h residue line => ?_⟩⟩⟩
  · have asked : askSuspend s.store.erase = some (if e.suspended then e else { e with suspendAsked := true }) := by
      rw [he, askSuspend_some]
    refine ⟨?_, ?_, fun it => ?_, fun n r hr => ⟨?_, fun h => ?_, fun h => ?_⟩, fun i occ fr k hl hk => ?_⟩
    · rw [State.markRide_eq]; exact asked
    · rw [State.markQualifier_eq]; exact asked
    · rw [State.queueLog_eq]; exact asked
    · show (s.markRecord n true).store.erase = _
      rw [State.markRecord_erase true hr]; exact asked
    · show (s.markRecord n false).store.erase = _
      rw [State.markRecord_erase false hr, h]; exact asked
    · rw [State.markRecord_erase false hr, h]; exact he
    · rw [State.requestRetained_accepted occ fr hl hk]; exact asked
  · show execWriteInhibitExpiry s = _
    simp only [execWriteInhibitExpiry, hd]
    rw [← (s.advanceTo_effect d).store_eq]
    exact arises_pos _ _ _ hr rfl
  · show execEraseSuspended s = _
    simp only [execEraseSuspended, he]
    exact arises_pos _ _ _ hr (by simp [h1, h2])
  · show execEraseResume s = _
    simp only [execEraseResume, he]
    exact arises_pos _ _ _ hr (by simp [h1, h2, h3, h4])
  · show execEraseResume s = _
    simp only [execEraseResume, he]
    refine arises_of_not fun x => ?_
    simp only [Bool.and_eq_true, decide_eq_true_eq, Option.isNone_iff_eq_none] at x
    obtain ⟨⟨⟨x1, x2⟩, x3⟩, x4⟩ := x
    rcases h with h | h | h | h
    · rw [h] at x1; cases x1
    · exact h x2
    · exact h x3
    · exact h x4
  · show execEraseSuspended s = _
    simp only [execEraseSuspended, he]
    exact arises_of_not (by rcases h with h | h <;> simp [h])
  · show execEraseEnd residue line s = _
    simp only [execEraseEnd, he]
    exact arises_of_not (by simp [h])

end Sys2Proof.Machine
end

