-- ==== Sys2Proof/Proofs/Answers.lean ====
section
/-!
PROOFS. Requests that only answer: the take, the completion and the two together (R137 to R141), the fetches (R150, R151),
READ RETAINED and ERASE RETAINED (R152, R153), ACKNOWLEDGE and BAD_REQUEST (R154, R155).
-/

-- Proofs in the order of the text: those that elaborate default tactic arguments at once wait for each other.
set_option Elab.async false

namespace Sys2Proof.Machine

variable {s t u : State}

/-! ### The completion (R137) -/

theorem byteAt_replicate (n k : Nat) : byteAt (List.replicate n 0) k = 0 := by
  rw [byteAt, List.getD_eq_getElem?_getD, List.getElem?_replicate]
  split <;> rfl

theorem length_paddedAnswer (a : List Byte) : (paddedAnswer a).length = 48 := by simp [paddedAnswer]

theorem byteAt_paddedAnswer (a : List Byte) {k : Nat} (h : k < 48) : byteAt (paddedAnswer a) k = byteAt a k := by
  have : byteAt (paddedAnswer a) k = byteAt (a ++ List.replicate 48 0) k := by
    simp only [byteAt, paddedAnswer, List.getD_eq_getElem?_getD, List.getElem?_take]
    rw [if_pos h]
  rw [this, byteAt_append]
  split
  · rfl
  · next hk => rw [byteAt_replicate, byteAt_of_le (Nat.le_of_not_lt hk)]

/-- A completion up to the attention lines and the take opportunity: the answer, the state ANSWERED, a free executor. -/
def State.withAnswer (p : Port) (st : Status) (a : List Byte) (s : State) : State :=
  let s1 := ((s.wr (Config.cellBase p + 2) (byteOf (statusCode st))).wr (Config.cellBase p + 3)
    (byteOf (answerFor st a).length)).wrBytes (Config.cellBase p + 16) (paddedAnswer (answerFor st a))
  let s2 := s1.setCell p .answered
  { s2 with exec := { s2.exec with taken := none } }

theorem State.complete_eq (p : Port) (st : Status) (a : List Byte) :
    s.complete p st a = (s.withAnswer p st a).refreshAttn.offer := rfl

theorem State.withAnswer_port (p q : Port) (st : Status) (a : List Byte) : (s.withAnswer p st a).port q =
    if q = p then { s.port p with cell := .answered } else s.port q := by
  show State.port (State.setCell p .answered _) q = _
  rw [State.setCell_port]
  cases p <;> cases q <;> rfl

theorem State.withAnswer_exec (p : Port) (st : Status) (a : List Byte) :
    (s.withAnswer p st a).exec = { s.exec with taken := none } := by
  simp [State.withAnswer]

theorem State.withAnswer_ride (p : Port) (st : Status) (a : List Byte) : (s.withAnswer p st a).ride = s.ride := by
  simp [State.withAnswer]

/-- The bytes a completion writes: the state byte, status, answer length and answer. -/
theorem State.rd_complete (hc : s.MemoriesCanonical) (p : Port) (st : Status) (a : List Byte) (x : Nat) :
    (s.complete p st a).rd x =
      if x = Config.cellBase p then 3
      else if Config.cellBase p + 16 ≤ x ∧ x < Config.cellBase p + 64 then
        byteAt (answerFor st a) (x - (Config.cellBase p + 16))
      else if x = Config.cellBase p + 3 then byteOf (answerFor st a).length
      else if x = Config.cellBase p + 2 then byteOf (statusCode st) else s.rd x := by
  have hc2 : (s.wr (Config.cellBase p + 2) (byteOf (statusCode st))).MemoriesCanonical := hc.wr _ _
  have hc3 := hc2.wr (Config.cellBase p + 3) (byteOf (answerFor st a).length)
  have ram : (s.complete p st a).ram = (s.withAnswer p st a).ram := by
    rw [State.complete_eq, (State.offer_frame _).2.2.2.1, (State.refreshAttn_frame _).2.1]
  rw [State.rd_of_ram ram]
  show (State.setCell p .answered _).rd x = _
  rw [State.rd_setCell (hc3.wrBytes _ _), State.rd_wrBytes hc3, length_paddedAnswer, State.rd_wr hc2, State.rd_wr hc]
  split
  · rfl
  · split
    · next h => exact byteAt_paddedAnswer _ (by omega)
    · rfl

theorem State.offer_exec (s : State) : s.offer.exec =
    if s.exec.taken = none ∧ s.exec.claim = none ∧ s.requestsTaken = true then { s.exec with claim := s.arbitrate }
    else s.exec := by
  unfold State.offer
  split
  · next h1 h2 =>
    simp only [h1, h2, true_and]
    split <;> rfl
  · next h =>
    rw [if_neg]
    rintro ⟨h1, h2, -⟩
    exact h h1 h2

theorem State.requestsTaken_iff (s : State) :
    s.requestsTaken = true ↔ s.ride.state = .noRide ∨ s.ride.state = .riding := by
  simp [State.requestsTaken]

theorem State.complete_taken (p : Port) (st : Status) (a : List Byte) : (s.complete p st a).exec.taken = none := by
  rw [State.complete_eq, (State.offer_frame _).2.2.2.2.2.2.2.1, (State.refreshAttn_frame _).1.2.2.2,
    State.withAnswer_exec]

theorem State.complete_pref (p : Port) (st : Status) (a : List Byte) : (s.complete p st a).exec.pref = s.exec.pref := by
  rw [State.complete_eq, (State.offer_frame _).2.2.2.2.2.2.2.2, (State.refreshAttn_frame _).1.2.2.2,
    State.withAnswer_exec]

/-- A completion changes a port's cell and attention line alone. -/
theorem State.complete_port (p q : Port) (st : Status) (a : List Byte) : (s.complete p st a).port q =
    { s.port q with
      cell := if q = p then .answered else (s.port q).cell, attn := (s.withAnswer p st a).attnNow q } := by
  rw [State.complete_eq, State.offer_port, State.refreshAttn_port, State.withAnswer_port]
  split
  · next h => subst h; rfl
  · rfl

/-- A completion's answer stands in the cell (R137, R171). -/
theorem State.complete_answered (hc : s.MemoriesCanonical) (p : Port) (st : Status) (a : List Byte) :
    (s.complete p st a).Answered p st (answerFor st a) := by
  have rd := State.rd_complete hc p st a
  refine ⟨?_, ?_, ?_, ?_, fun k hk => ?_, State.complete_taken p st a, ?_⟩
  · rw [State.complete_port, if_pos rfl]
  · rw [rd, if_pos rfl]
  · rw [rd, if_neg (by omega), if_neg (by omega), if_neg (by omega), if_pos rfl]
  · rw [rd, if_neg (by omega), if_neg (by omega), if_pos rfl]
  · rw [rd, if_neg (by omega), if_pos (by omega), Nat.add_sub_cancel_left]
  · rw [State.complete_port]
    show State.attnNow _ p = true
    rw [State.attnNow, State.withAnswer_port, if_pos rfl]
    rfl

/-- The executor, free again, picks the other port's cell if that is POSTED and requests are taken (R139, R140). -/
theorem State.complete_claim (p : Port) (st : Status) (a : List Byte) (h : s.exec.claim = none) :
    (s.complete p st a).exec.claim =
      if (s.port p.other).cell = .posted ∧ (s.ride.state = .noRide ∨ s.ride.state = .riding) then some p.other
      else none := by
  let v := (s.withAnswer p st a).refreshAttn
  have hv : v.exec = { s.exec with taken := none } := by
    rw [(State.refreshAttn_frame _).1.2.2.2, State.withAnswer_exec]
  have taken : v.requestsTaken = true ↔ s.ride.state = .noRide ∨ s.ride.state = .riding := by
    rw [v.requestsTaken_iff, (show v.ride = s.ride from
      ((State.refreshAttn_effect (s.withAnswer p st a)).ride).trans (State.withAnswer_ride p st a))]
  have cell (q : Port) : (v.port q).cell = if q = p then .answered else (s.port q).cell := by
    rw [State.refreshAttn_port, State.withAnswer_port]
    split <;> rfl
  have pick : v.arbitrate = if (s.port p.other).cell = .posted then some p.other else none := by
    have ho : (v.port p.other).cell = (s.port p.other).cell := by rw [cell, if_neg (Port.other_ne p)]
    have hp : (v.port p).cell ≠ .posted := by rw [cell, if_pos rfl]; decide
    unfold State.arbitrate
    rcases Port.eq_or_other v.exec.pref p with hx | hx
    · rw [hx, if_neg hp, ho]
    · rw [hx, ho, Port.other_other, if_neg hp]
  show v.offer.exec.claim = _
  rw [v.offer_exec]
  simp only [hv, h, true_and, taken, pick]
  by_cases hr : s.ride.state = .noRide ∨ s.ride.state = .riding <;> simp [hr]

/-- A completion answers and does nothing else. -/
theorem State.complete_answersOnly (hc : s.MemoriesCanonical) (p : Port) (st : Status) (a : List Byte)
    (h : s.exec.taken.map Taken.port = some p) : AnswersOnly s (s.complete p st a) p st (answerFor st a) where
  toAnswered := State.complete_answered hc p st a
  toSameInside := (s.complete_effect p st a h).sameInside
  pub := (s.complete_effect p st a h).pub_eq
  ram y h0 h2 h3 h16 := by
    rw [State.rd_complete hc, if_neg h0, if_neg (by omega), if_neg h3, if_neg h2]
  ports q := by rw [State.complete_port]
  other := by rw [State.complete_port, if_neg (Port.other_ne p)]
  next hn := State.complete_claim p st a (hn.resolve_left fun hx => by rw [hx] at h; cases h)

/-! ### The take (R137, R140) -/

theorem State.await_port (w : Taken) (q : Port) : (s.await w).port q = s.port q := by cases q <;> rfl

theorem State.MemoriesCanonical.take (h : s.MemoriesCanonical) (p : Port) : (s.take p).MemoriesCanonical :=
  State.MemoriesCanonical.setCell (s := { s with exec := { s.exec with claim := none, pref := p.other } })
    (h.of_same rfl rfl) p .taken

/-- A request that its take leaves waiting, with no other effect. -/
theorem State.take_takenOnly (hc : s.MemoriesCanonical) {p : Port} (w : Taken) (h : s.canTake p = true) :
    TakenOnly s ((s.take p).await w) p w := by
  obtain ⟨-, -, -, hcell, -⟩ := (s.canTake_iff p).mp h
  have he := s.take_effect p hcell
  have port (q : Port) : ((s.take p).await w).port q = if q = p then { s.port p with cell := .taken } else s.port q := by
    rw [State.await_port, State.take_port]
  have rd (x : Nat) : ((s.take p).await w).rd x = if x = Config.cellBase p then 2 else s.rd x := by
    let s1 : State := { s with exec := { s.exec with claim := none, pref := p.other } }
    have h1 : s1.MemoriesCanonical := hc.of_same rfl rfl
    show (s1.setCell p .taken).rd x = _
    rw [State.rd_setCell h1]
    rfl
  refine { exec := ?_, cell := ?_, state := ?_, toSameInside := ?_, pub := he.pub_eq, ram := fun y hy => ?_,
           ports := fun q => ?_, other := ?_ }
  · rw [State.await, State.take_exec]
  · rw [port, if_pos rfl]
  · rw [rd, if_pos rfl]
  · have inside : SameFaults s (s.take p) ∧ SameStore s (s.take p) ∧ SameWorld s (s.take p) :=
      ⟨he.sameFaults, he.sameStore, he.sameWorld⟩
    obtain ⟨⟨h1, h2, h3⟩, ⟨h4, h5⟩, ⟨h6, h7, h8, h9, h10⟩⟩ := inside
    exact ⟨⟨h1, h2, h3⟩, ⟨h4, h5⟩, ⟨h6, h7, h8, h9, h10⟩, he.slots, he.ride⟩
  · rw [rd, if_neg hy]
  · rw [port]
    split
    · next hq => subst hq; rfl
    · rfl
  · rw [port, if_neg (Port.other_ne p)]

theorem SameInside.trans (h : SameInside s t) (h' : SameInside t u) : SameInside s u where
  quals := h'.quals.trans h.quals
  records := h'.records.trans h.records
  frames := h'.frames.trans h.frames
  store := h'.store.trans h.store
  flash := h'.flash.trans h.flash
  pending := h'.pending.trans h.pending
  lines := ⟨h'.lines.1.trans h.lines.1, h'.lines.2.1.trans h.lines.2.1, h'.lines.2.2.trans h.lines.2.2⟩
  straps := ⟨h'.straps.1.trans h.straps.1, h'.straps.2.trans h.straps.2⟩
  now := h'.now.trans h.now
  profiles := h'.profiles.trans h.profiles
  slots := h'.slots.trans h.slots
  ride := h'.ride.trans h.ride

/-- The take and then the answer: the whole command (R137). -/
theorem TakenOnly.answers {p : Port} {w : Taken} {st : Status} {a : List Byte} (h : TakenOnly s t p w)
    (h' : AnswersOnly t u p st a) : AnswersOnly s u p st a where
  toAnswered := h'.toAnswered
  toSameInside := h.toSameInside.trans h'.toSameInside
  pub := h'.pub.trans h.pub
  ram y h0 h2 h3 h16 := (h'.ram y h0 h2 h3 h16).trans (h.ram y h0)
  ports q := by
    have h1 := h.ports q
    have h2 := h'.ports q
    generalize s.port q = a at *
    generalize t.port q = b at *
    generalize u.port q = c at *
    cases a; cases b; cases c
    simp_all
  other := h'.other.trans h.other
  next _ := by
    rw [h'.next (.inr (by rw [h.exec])), h.other, h.ride]

/-! ### A request command (R137, R138) -/

/-- The request that command `c` stands for: its code's test and its work at the take. -/
structure RequestForm (c : RequestStep → Instr) (mine : State → Port → Bool) (f : State → Port → State) : Prop where
  eq : ∀ r s, exec (c r) s = s.request r (mine s r.port) (fun t => f t r.port)

theorem adoptForm : RequestForm .adopt (fun s p => s.asks p 1) (fun s p => s.adopt p) := ⟨fun _ _ => rfl⟩
theorem clearSlotForm : RequestForm .clearSlot (fun s p => s.asks p 2) (fun s p => s.clearIndex p) := ⟨fun _ _ => rfl⟩
theorem clearPortForm : RequestForm .clearPort (fun s p => s.asks p 3) (fun s p => s.clearPort p) := ⟨fun _ _ => rfl⟩
theorem fetchFrameForm : RequestForm .fetchFrame (fun s p => s.asks p 4) (fun s p => s.fetchFrame p) := ⟨fun _ _ => rfl⟩
theorem fetchQualifierForm : RequestForm .fetchQualifier (fun s p => s.asks p 5) (fun s p => s.fetchQualifier p) :=
  ⟨fun _ _ => rfl⟩
theorem readRetainedForm : RequestForm .readRetained (fun s p => s.asks p 6) (fun s p => s.readRetained p) :=
  ⟨fun _ _ => rfl⟩
theorem eraseRetainedForm : RequestForm .eraseRetained (fun s p => s.asks p 7) (fun s p => s.eraseRetained p) :=
  ⟨fun _ _ => rfl⟩
theorem acknowledgeForm : RequestForm .acknowledge (fun s p => s.asks p 8) (fun s p => s.acknowledge p) :=
  ⟨fun _ _ => rfl⟩
theorem badRequestForm : RequestForm .badRequest (fun s p => s.asks p 0 || decide (8 < s.requestCode p))
    (fun s p => s.reply p .badRequest []) := ⟨fun _ _ => rfl⟩

section

variable {c : RequestStep → Instr} {mine : State → Port → Bool} {f : State → Port → State}

theorem RequestForm.whole (h : RequestForm c mine f) {p : Port} (ht : s.canTake p = true) (hm : mine s p = true) :
    exec (c { port := p, part := .whole }) s = .next ((f (s.take p) p).finish p) := by
  rw [h.eq]
  exact arises_pos _ _ _ ((s.canTake_iff p).mp ht).1 (by rw [ht, hm]; rfl)

theorem RequestForm.take (h : RequestForm c mine f) {p : Port} (ht : s.canTake p = true) (hm : mine s p = true) :
    exec (c { port := p, part := .take }) s = .next (f (s.take p) p) := by
  rw [h.eq]
  exact arises_pos _ _ _ ((s.canTake_iff p).mp ht).1 (by rw [ht, hm]; rfl)

theorem State.finish_reply (p : Port) (st : Status) (a : List Byte) (h : s.exec.taken = some (.reply p st a)) :
    s.finish p = s.complete p st a := by
  simp only [State.finish, h, if_true]

theorem State.finish_adopted (p : Port) (b : Bool) (a : List Byte) (h : s.exec.taken = some (.adopted p b a)) :
    s.finish p = s.completeAdopt p b a := by
  simp only [State.finish, h, if_true]

/-- The completion does nothing where the executor holds neither an answer nor an ADOPT of this port that waits for
nothing. -/
theorem State.finish_else (p : Port) (h1 : ∀ st a, s.exec.taken ≠ some (.reply p st a))
    (h2 : ∀ b a, s.exec.taken ≠ some (.adopted p b a)) : s.finish p = s := by
  unfold State.finish
  split
  · next q st a hx =>
    refine if_neg fun (e : q = p) => h1 st a ?_
    rw [hx, e]
  · next q b a hx =>
    refine if_neg fun (e : q = p) => h2 b a ?_
    rw [hx, e]
  all_goals rfl

/-- A request whose work at the take is an answer alone. -/
theorem RequestForm.replies (h : RequestForm c mine f) (hc : s.MemoriesCanonical) {p : Port} (ht : s.canTake p = true)
    (hm : mine s p = true) {st : Status} {a : List Byte} (hf : f (s.take p) p = (s.take p).reply p st a)
    (ha : answerFor st a = a := by rfl) : Replies c s p st a := by
  have taken : TakenOnly s ((s.take p).await (.reply p st a)) p (.reply p st a) := State.take_takenOnly hc _ ht
  have hu : ((s.take p).await (.reply p st a)).MemoriesCanonical := (hc.take p).of_same rfl rfl
  have done := State.complete_answersOnly hu p st a rfl
  rw [ha] at done
  refine ⟨⟨_, ?_, taken.answers done, ?_⟩, _, ?_, taken⟩
  · rw [h.whole ht hm, hf, State.finish_reply p st a rfl]
    rfl
  · rw [State.complete_pref, State.await, State.take_exec]
  · rw [h.take ht hm, hf]
    rfl

end

theorem State.takes_iff (p : Port) (code : Nat) :
    s.takes p code = true ↔ s.canTake p = true ∧ s.asks p code = true := by
  rw [State.takes, Bool.and_eq_true]

/-! ### What the take leaves for the request's work -/

theorem State.rd_take (hc : s.MemoriesCanonical) (p : Port) (x : Nat) :
    (s.take p).rd x = if x = Config.cellBase p then 2 else s.rd x := by
  let s1 : State := { s with exec := { s.exec with claim := none, pref := p.other } }
  have h1 : s1.MemoriesCanonical := hc.of_same rfl rfl
  show (s1.setCell p .taken).rd x = _
  rw [State.rd_setCell h1]
  rfl

theorem State.take_param (hc : s.MemoriesCanonical) (p q : Port) (k : Nat) (hk : k < 60) :
    (s.take p).param q k = s.param q k := by
  rw [State.param, State.rd_take hc, if_neg, State.param]
  cases p <;> cases q <;> simp only [Config.cellBase] <;> omega

theorem State.take_part (p : Port) : (s.take p).part = s.part ∧ (s.take p).svc = s.svc := by
  have h := (State.setCell_frame ({ s with exec := { s.exec with claim := none, pref := p.other } } : State) p .taken).1
  exact ⟨h.1.2.2.2.2.1, h.1.2.2.2.2.2.1⟩

theorem State.take_adopted (p q : Port) :
    ((s.take p).port q).adopted = (s.port q).adopted ∧ ((s.take p).port q).copy = (s.port q).copy := by
  rw [State.take_port]
  split
  · next h => subst h; exact ⟨rfl, rfl⟩
  · exact ⟨rfl, rfl⟩

end Sys2Proof.Machine
end

