-- ==== Sys2Proof/Proofs/Adopted.lean ====
section
/-!
PROOFS. The completion of ADOPT (R145): the recount, FP's reader and threshold, a first ADOPT's timers.
-/

-- Proofs in the order of the text: those that elaborate default tactic arguments at once wait for each other.
set_option Elab.async false

namespace Sys2Proof.Machine

variable {s t : State}

/-! ### Timers -/

theorem State.startPassTimer_port (p q : Port) : (s.startPassTimer p).port q =
    if q = p ∧ (s.port p).adopted = true then { s.port p with passDue := some (s.now + s.passPeriodOf p) }
    else s.port q := by
  unfold State.startPassTimer
  by_cases h : (s.port p).adopted = true
  · rw [if_pos h, State.setPort_port_eq]
    simp only [h, and_true]
  · rw [if_neg h, if_neg fun x => h x.2]

theorem State.startSilence_port (p q : Port) : (s.startSilence p).port q =
    if q = p ∧ s.silenceLimit p ≠ 0 then { s.port p with silenceDue := some (s.now + s.silenceLimit p) }
    else s.port q := by
  unfold State.startSilence
  by_cases h : s.silenceLimit p = 0
  · rw [if_pos h, if_neg fun x => x.2 h]
  · rw [if_neg h, State.setPort_port_eq]
    simp only [h, ne_eq, not_false_eq_true, and_true]

theorem State.passPeriodOf_adopted {p : Port} {c : AdoptedCopy} (h : s.adoptedCopy p = some c) :
    s.passPeriodOf p = Config.passPeriod c.passCode := by rw [State.passPeriodOf, h]

theorem State.silenceLimit_adopted {p : Port} {c : AdoptedCopy} (h : s.adoptedCopy p = some c) :
    s.silenceLimit p = 50000 * c.silenceCode := by rw [State.silenceLimit, h]; rfl

theorem State.adoptedCopy_of {p : Port} {c : AdoptedCopy} (h : (s.port p).adopted = true) (hc : (s.port p).copy = some c) :
    s.adoptedCopy p = some c := by rw [State.adoptedCopy, if_pos h, hc]

/-! ### Lamp counts -/

theorem Effect.demandIn {l : List Field} {b : List Law} (h : Effect l b s t)
    (hf : ∀ f ∈ [Field.straps, .adoption, .profiles], f ∉ l := by decide) (i : Slot) (st : QState) :
    t.demandIn i st = s.demandIn i st := by
  rw [State.demandIn, h.adoptedProfile hf, State.demandIn]

theorem Effect.demandCount {l : List Field} {b : List Law} (h : Effect l b s t)
    (hf : ∀ f ∈ [Field.straps, .adoption, .profiles, .quals], f ∉ l := by decide) (p : Port) (x : Pattern) :
    t.demandCount p x = s.demandCount p x := by
  have owner := h.owner (hf _ (by decide))
  simp only [State.demandCount, State.portSlots, owner, h.quals (hf _ (by decide)),
    h.demandIn fun f hm => hf f (by revert f; decide)]

theorem State.recountLamp_port (p q : Port) : ∃ sh l, (s.recountLamp p).port q = if q = p then
      { s.port p with
        steady := s.demandCount p .steady, slow := s.demandCount p .slow, fast := s.demandCount p .fast, shown := sh,
        lamp := l }
    else s.port q := by
  let u := s.setPort p { s.port p with
    steady := s.demandCount p .steady, slow := s.demandCount p .slow, fast := s.demandCount p .fast }
  refine ⟨u.patternNow p, litAt (u.patternNow p) u.now, ?_⟩
  show (u.refreshLamp p).port q = _
  rw [State.refreshLamp_port]
  split
  · rw [State.setPort_port]
  · next h => rw [State.setPort_port_ne _ _ _ _ h]

theorem State.lampCurrent_refreshLamp (p : Port) : (s.refreshLamp p).LampCurrent p := by
  refine ⟨?_, ?_⟩
  · rw [State.refreshLamp_patternNow, State.refreshLamp_port, if_pos rfl]
  · rw [State.refreshLamp_port, if_pos rfl, (s.refreshLamp_frame p).1.2.1]

/-- A completion writes in its cell alone. -/
theorem State.rd_complete_outside (hc : s.MemoriesCanonical) (p : Port) (st : Status) (a : List Byte) {x : Nat}
    (h : x < Config.cellBase p ∨ Config.cellBase p + 64 ≤ x) : (s.complete p st a).rd x = s.rd x := by
  rw [State.rd_complete hc, if_neg (by omega), if_neg (by omega), if_neg (by omega), if_neg (by omega)]

/-! ### The reader (R170) -/

theorem State.setReader_pub (r : Port) (n : Nat) : (s.setReader r n).pub = { s.pub with reader := r, threshold := n } := by
  simp [State.setReader]

theorem State.rd_setReader (hc : s.MemoriesCanonical) (r : Port) (n x : Nat) : (s.setReader r n).rd x =
    if x = 39 then byteOf n else if x = 38 then byteOf (portCode r) else s.rd x := by
  let s1 : State := { s with pub := { s.pub with reader := r, threshold := n } }
  have h1 : s1.MemoriesCanonical := hc.of_same rfl rfl
  have ram : (s.setReader r n).ram = ((s1.wr 38 (byteOf (portCode r))).wr 39 (byteOf n)).ram :=
    (State.refreshAttn_frame _).2.1
  rw [State.rd_of_ram ram, State.rd_wr (h1.wr _ _), State.rd_wr h1]
  rfl

/-! ### What ADOPT's completion does (R145) -/

/-- What stands before and after a state of which `AdoptDone` speaks. -/
structure AdoptBase (s u : State) (p : Port) : Prop where
  reader    : u.pub.reader = s.pub.reader ∧ u.pub.threshold = s.pub.threshold
  adopted   : (u.port p).adopted = (s.port p).adopted
  timers    : (u.port p).passDue = (s.port p).passDue ∧ (u.port p).silenceDue = (s.port p).silenceDue
  ride      : u.ride.state = s.ride.state

theorem AdoptDone.of_base {u : State} {p : Port} (h : AdoptDone u t p) (hb : AdoptBase s u p) : AdoptDone s t p where
  adopted := h.adopted
  dirty := h.dirty
  counts := h.counts
  shown := h.shown
  reader := h.reader
  others hp := ⟨(h.others hp).1.trans hb.reader.1, (h.others hp).2.trans hb.reader.2⟩
  started ha hr := h.started (hb.adopted.trans ha) (hb.ride.trans hr)
  kept hk := by
    have := h.kept (by rw [hb.adopted, hb.ride]; exact hk)
    exact ⟨this.1.trans hb.timers.1, this.2.trans hb.timers.2⟩

/-- ADOPT up to its recount: the port has adopted, the view is marked, the lamp recounted (R145). -/
def State.adoptRecounted (p : Port) (s : State) : State :=
  ((s.setPort p { s.port p with adopted := true }).markView).recountLamp p

theorem State.adoptTakesEffect_eq (p : Port) : s.adoptTakesEffect p =
    ((s.adoptRecounted p).applyTrailSetup p).startTimers p (!(s.port p).adopted) := rfl

theorem State.adoptRecounted_port (p : Port) : ∃ a b c sh l, (s.adoptRecounted p).port p =
    { s.port p with adopted := true, steady := a, slow := b, fast := c, shown := sh, lamp := l } := by
  let u := (s.setPort p { s.port p with adopted := true }).markView
  obtain ⟨sh, l, h⟩ := u.recountLamp_port p p
  refine ⟨u.demandCount p .steady, u.demandCount p .slow, u.demandCount p .fast, sh, l, h.trans ?_⟩
  rw [if_pos rfl, (show u.port p = { s.port p with adopted := true } by simp [u])]

theorem State.adoptRecounted_counts (p : Port) : let u := s.adoptRecounted p
    (u.port p).steady = u.demandCount p .steady ∧ (u.port p).slow = u.demandCount p .slow ∧
      (u.port p).fast = u.demandCount p .fast := by
  let v := (s.setPort p { s.port p with adopted := true }).markView
  obtain ⟨sh, l, h⟩ := v.recountLamp_port p p
  have he := v.recountLamp_effect p
  have eq : s.adoptRecounted p = v.recountLamp p := rfl
  simp only [eq]
  rw [he.demandCount, he.demandCount, he.demandCount, h, if_pos rfl]
  exact ⟨rfl, rfl, rfl⟩

theorem State.MemoriesCanonical.adoptRecounted (h : s.MemoriesCanonical) (p : Port) :
    (s.adoptRecounted p).MemoriesCanonical := h.of_same (by simp [State.adoptRecounted]) (by simp [State.adoptRecounted])

theorem State.MemoriesCanonical.applyTrailSetup (h : s.MemoriesCanonical) (p : Port) :
    (s.applyTrailSetup p).MemoriesCanonical := (s.applyTrailSetup_effect p).keeps .memories (by decide) h

theorem State.adoptRecounted_frame (p : Port) : InnerKept s (s.adoptRecounted p) := by
  simp [State.adoptRecounted]

/-- Settled once: what the completion of ADOPT does beside its answer (R145). -/
theorem State.completeAdopt_done (hc : s.MemoriesCanonical) {p : Port} (b : Bool) (a : List Byte)
    (h : s.exec.taken.map Taken.port = some p) : AdoptDone s (s.completeAdopt p b a) p := by
  let u := s.adoptRecounted p
  let v := u.applyTrailSetup p
  let w := v.startTimers p (!(s.port p).adopted)
  have hu : u.MemoriesCanonical := hc.adoptRecounted p
  have frame := s.adoptRecounted_frame p
  have uv : Effect [.ram, .reader, .attn] [] u v := u.applyTrailSetup_effect p
  have vw : Effect [.passTimer, .silenceDue] [] v w := v.startTimers_effect p _
  have wt : Effect [.ram, .board, .cells, .exec, .attn] [] w (s.completeAdopt p b a) :=
    State.complete_effect w p _ a (by rw [vw.exec, uv.exec, frame.2.2.2]; exact h)
  have vt : Effect [.passTimer, .silenceDue, .ram, .board, .cells, .exec, .attn] [] v (s.completeAdopt p b a) := vw.seq wt
  have ut : Effect [.ram, .reader, .attn, .passTimer, .silenceDue, .board, .cells, .exec] [] u (s.completeAdopt p b a) :=
    uv.seq vt
  obtain ⟨c1, c2, c3⟩ := s.adoptRecounted_counts p
  obtain ⟨n1, n2, n3, sh, l, port⟩ := s.adoptRecounted_port p
  have counts := ut.onPort p .counts (by decide)
  have adoption := ut.onPort p .adoption (by decide)
  have current : (s.completeAdopt p b a).LampCurrent p :=
    State.LampCurrent.of_effect (State.lampCurrent_refreshLamp p) ut
  refine ⟨?_, ?_, ⟨?_, ?_, ?_⟩, current.1, fun hp c hcopy => ?_, fun hp => ?_, fun ha hr c hcopy => ?_, fun hk => ?_⟩
  · rw [adoption.1, port]
  · rw [ut.dirty]
    exact (State.recountLamp_effect _ p).keeps .view (by decide) rfl
  · rw [counts.1, ut.demandCount]; exact c1
  · rw [counts.2.1, ut.demandCount]; exact c2
  · rw [counts.2.2, ut.demandCount]; exact c3
  · subst hp
    have copy : u.fp.copy = some c := (ut.adoption .fp).2.symm.trans hcopy
    have hv : v = u.setReader c.reader c.threshold := by
      show u.applyTrailSetup .fp = _
      simp only [State.applyTrailSetup, copy]
    have pub : v.pub = { u.pub with reader := c.reader, threshold := c.threshold } := by rw [hv, State.setReader_pub]
    have rd (x : Nat) (hx : x < 0x0F00) : (s.completeAdopt .fp b a).rd x = v.rd x := by
      rw [← State.rd_of_ram vw.ram]
      show (w.complete .fp _ a).rd x = _
      exact State.rd_complete_outside ((hu.applyTrailSetup .fp).of_same vw.ram vw.flash) _ _ _ (.inl hx)
    refine ⟨?_, ?_, ?_, ?_⟩
    · rw [vt.reader.1, pub]
    · rw [vt.reader.2, pub]
    · rw [rd 38 (by decide), hv, State.rd_setReader hu, if_neg (by decide), if_pos rfl]
    · rw [rd 39 (by decide), hv, State.rd_setReader hu, if_pos rfl]
  · subst hp
    have hv : v = u := rfl
    have pub := vt.reader
    rw [hv] at pub
    exact ⟨pub.1.trans (State.recountLamp_effect _ .bp).reader.1, pub.2.trans (State.recountLamp_effect _ .bp).reader.2⟩
  · have hw : w = (v.startPassTimer p).startSilence p := by
      show v.startTimers p _ = _
      rw [State.startTimers, if_pos ⟨by rw [ha]; rfl, by rw [uv.ride]; exact (congrArg RideCtl.state
        (show u.ride = s.ride by simp [u, State.adoptRecounted])).trans hr⟩]
    have adopted : v.adoptedCopy p = some c := by
      refine State.adoptedCopy_of ?_ ?_
      · rw [(uv.adoption p).1, port]
      · exact (vt.adoption p).2.symm.trans hcopy
    have now : (s.completeAdopt p b a).now = v.now := vt.now
    let x := v.startPassTimer p
    have vx := v.startPassTimer_effect p
    have port1 := State.startPassTimer_port (s := v) p p
    have port2 := State.startSilence_port (s := x) p p
    have lim : x.silenceLimit p = 50000 * c.silenceCode :=
      State.silenceLimit_adopted ((vx.adoptedCopy (by decide) p).trans adopted)
    have flag : (v.port p).adopted = true := by rw [(uv.adoption p).1, port]
    have xw : Effect [.silenceDue] [] x w := hw ▸ x.startSilence_effect p
    refine ⟨?_, fun hn => ?_⟩
    · have e1 : ((s.completeAdopt p b a).port p).passDue = (w.port p).passDue := wt.onPort p .passTimer (by decide)
      have e2 : (w.port p).passDue = (x.port p).passDue := xw.onPort p .passTimer (by decide)
      rw [e1, e2, port1, if_pos ⟨rfl, flag⟩, now, State.passPeriodOf_adopted adopted]
    · have e1 : ((s.completeAdopt p b a).port p).silenceDue = (w.port p).silenceDue :=
        wt.onPort p .silenceDue (by decide)
      rw [e1, hw, port2, if_pos ⟨rfl, by rw [lim]; omega⟩, now, lim, vx.now]
  · have hw : w = v := by
      show v.startTimers p _ = v
      rw [State.startTimers, if_neg]
      rintro ⟨h1, h2⟩
      rw [uv.ride, (show u.ride = s.ride by simp [u, State.adoptRecounted])] at h2
      rcases hk with hk | hk
      · rw [hk] at h1; cases h1
      · exact hk h2
    rw [hw] at wt
    have e1 : ((s.completeAdopt p b a).port p).passDue = (v.port p).passDue := wt.onPort p .passTimer (by decide)
    have e2 : ((s.completeAdopt p b a).port p).silenceDue = (v.port p).silenceDue := wt.onPort p .silenceDue (by decide)
    have e3 : (v.port p).passDue = (u.port p).passDue := uv.onPort p .passTimer (by decide)
    have e4 : (v.port p).silenceDue = (u.port p).silenceDue := uv.onPort p .silenceDue (by decide)
    rw [e1, e2, e3, e4, port]
    exact ⟨rfl, rfl⟩

/-- The completion of ADOPT answers (R137, R145). -/
theorem State.completeAdopt_answered (hc : s.MemoriesCanonical) (p : Port) (b : Bool) (a : List Byte) :
    (s.completeAdopt p b a).Answered p (if b then .storeFault else .ok) a := by
  have he := s.adoptTakesEffect_effect p
  have := State.complete_answered (he.keeps .memories (by decide) hc) p (if b then .storeFault else .ok) a
  cases b <;> exact this

end Sys2Proof.Machine
end

