-- ==== Sys2Proof/Proofs/Replying.lean ====
section
/-!
PROOFS. The requests that read (R150 to R152), the retained erase (R153), ACKNOWLEDGE and BAD_REQUEST (R154, R155), and
what holds of every request's take and completion (R137 to R141).
-/

-- Proofs in the order of the text: those that elaborate default tactic arguments at once wait for each other.
set_option Elab.async false

namespace Sys2Proof.Machine

variable {s t : State}

/-! ### The fetches (R150, R151) -/

theorem State.paramSlot_lt {p : Port} {i : Slot} (h : s.param p 0 = i.val) : s.paramSlot p = some i := by
  rw [State.paramSlot, dif_pos (by rw [h]; exact i.isLt)]
  exact congrArg some (Fin.ext h)

theorem State.paramSlot_ge {p : Port} (h : 192 ≤ s.param p 0) : s.paramSlot p = none := by
  rw [State.paramSlot, dif_neg (Nat.not_lt.mpr h)]

theorem frameKindOf_code (k : FrameKind) : frameKindOf (frameKindCode k) = some k := by cases k <;> rfl

theorem frameKindOf_none {n : Nat} (h1 : n ≠ 1) (h2 : n ≠ 2) : frameKindOf n = none := by
  unfold frameKindOf
  split
  · exact absurd rfl h1
  · exact absurd rfl h2
  · rfl

theorem State.fetchFrame_bad {p : Port} (h : 192 ≤ s.param p 0 ∨ (s.param p 1 ≠ 1 ∧ s.param p 1 ≠ 2)) :
    s.fetchFrame p = s.reply p .badTarget [] := by
  rw [State.fetchFrame]
  rcases h with h | ⟨h1, h2⟩
  · rw [State.paramSlot_ge h]
  · rw [frameKindOf_none h1 h2]
    cases s.paramSlot p <;> rfl

theorem State.fetchFrame_eq {p : Port} {i : Slot} {k : FrameKind} (h0 : s.param p 0 = i.val)
    (h1 : s.param p 1 = frameKindCode k) : s.fetchFrame p = match s.frameOf i k with
      | some f => s.reply p .ok f.toList
      | none => s.reply p .absent [] := by
  rw [State.fetchFrame, State.paramSlot_lt h0, h1, frameKindOf_code] <;> rfl

theorem State.take_frameOf {p : Port} (h : s.canTake p = true) (i : Slot) (k : FrameKind) :
    (s.take p).frameOf i k = s.frameOf i k := by
  have he := s.take_effect p ((s.canTake_iff p).mp h).2.2.2.1
  rw [State.frameOf, he.recordOf, he.frames, State.frameOf]

theorem State.take_qualifierAnswer {p : Port} (h : s.canTake p = true) (i : Slot) :
    (s.take p).qualifierAnswer i = s.qualifierAnswer i := by
  have he := s.take_effect p ((s.canTake_iff p).mp h).2.2.2.1
  rw [State.qualifierAnswer, he.quals, he.slots, he.adoptedProfile, State.qualifierAnswer]

/-- Settles O36: what the fetches answer, read at the take. -/
theorem fetchesAnswerWhatStands : Obligations.FetchesAnswerWhatStands := by
  intro p s hc
  have param (k : Nat) (hk : k < 60) : (s.take p).param p k = s.param p k := State.take_param hc p p k hk
  refine ⟨fun ht => ?_, fun ht => ?_⟩
  · obtain ⟨htake, hcode⟩ := (State.takes_iff p 4).mp ht
    have replies {st a} hf ha := fetchFrameForm.replies (st := st) (a := a) hc htake hcode hf ha
    refine ⟨fun h => replies (State.fetchFrame_bad (by rwa [param 0 (by decide), param 1 (by decide)])) rfl,
      fun i k h0 h1 => ?_⟩
    have work := State.fetchFrame_eq (s := s.take p) ((param 0 (by decide)).trans h0) ((param 1 (by decide)).trans h1)
    rw [State.take_frameOf htake] at work
    refine ⟨fun e r f hr hf => ?_, fun hno => ?_⟩
    · have : s.frameOf i k = some s.frames[f] := by rw [State.frameOf, hr]; simp only [hf, Option.map_some]
      rw [this] at work
      exact replies work rfl
    · have : s.frameOf i k = none := by
        unfold State.frameOf
        split
        · next e r hr => rw [hno e r hr]; rfl
        · rfl
      rw [this] at work
      exact replies work rfl
  · obtain ⟨htake, hcode⟩ := (State.takes_iff p 5).mp ht
    have replies {st a} hf ha := fetchQualifierForm.replies (st := st) (a := a) hc htake hcode hf ha
    refine ⟨fun h => ?_, fun i h0 => ?_⟩
    · refine replies ?_ rfl
      show (s.take p).fetchQualifier p = _
      rw [State.fetchQualifier, State.paramSlot_ge (by rwa [param 0 (by decide)])]
    · refine replies ?_ rfl
      show (s.take p).fetchQualifier p = _
      rw [State.fetchQualifier, State.paramSlot_lt ((param 0 (by decide)).trans h0)]
      simp only [State.take_qualifierAnswer htake]
      rfl

/-! ### The retained sector (R152, R153) -/

theorem State.flashReadable_iff (s : State) : s.flashReadable = true ↔ s.store.program = none ∧
    (∀ e, s.store.erase = some e → e.suspended = true) ∧ s.store.retErase ≠ .running := by
  unfold State.flashReadable
  cases h : s.store.erase <;> simp [and_assoc]

theorem execRetainedRead_eq {p : Port} {k : Fin 16} (h : s.exec.taken = some (.readRetained p k)) :
    exec .retainedRead s = arises s.flashReadable s (s.answerRetained p k) := by
  show execRetainedRead s = _
  simp only [execRetainedRead, h]

/-- Settles O37: the waiting read, what answers it, and the erase asked for. -/
theorem retainedRequestsWaitForTheStore : Obligations.RetainedRequestsWaitForTheStore := by
  intro p s hc
  refine ⟨fun ht => ?_, fun k hr htk hp he hre => ?_, fun h => ?_, fun ht => ?_⟩
  · obtain ⟨htake, hcode⟩ := (State.takes_iff p 6).mp ht
    have param : (s.take p).param p 0 = s.param p 0 := State.take_param hc p p 0 (by decide)
    refine ⟨fun h => ?_, fun k hk part hpart => ?_⟩
    · refine readRetainedForm.replies hc htake hcode (st := .badTarget) (a := []) ?_
      show (s.take p).readRetained p = _
      rw [State.readRetained, dif_neg (by rw [param]; omega)]
    · have work : (s.take p).readRetained p = (s.take p).await (.readRetained p k) := by
        have hlt : (s.take p).param p 0 < 16 := by rw [param, hk]; exact k.isLt
        rw [State.readRetained, dif_pos hlt]
        congr 2
        exact Fin.ext (param.trans hk)
      have only := State.take_takenOnly hc (.readRetained p k) htake
      refine ⟨_, ?_, only⟩
      cases part with
      | whole =>
        rw [readRetainedForm.whole htake hcode, work, State.finish_else p (fun st a => by simp [State.await])
          (fun b a => by simp [State.await])]
      | take => rw [readRetainedForm.take htake hcode, work]
      | completion => exact absurd rfl hpart
  · have read : exec .retainedRead s = .next (s.answerRetained p k) := by
      rw [execRetainedRead_eq htk]
      exact arises_pos _ _ _ hr ((s.flashReadable_iff).mpr ⟨hp, he, hre⟩)
    have answers (st : Status) (a : List Byte) := State.complete_answersOnly hc p st a (by rw [htk]; rfl)
    refine ⟨fun i hi => ⟨s.complete p .ok ((retainedBytes s.flash k).take 24), ?_, answers .ok _⟩,
      fun h => ⟨s.complete p .absent [], ?_, answers .absent []⟩⟩
    · rw [read, State.answerRetained, hi]
    · rw [read, State.answerRetained]
      rcases h with h | h <;> rw [h]
  · show execRetainedRead s = _
    unfold execRetainedRead
    split
    · next q k hq =>
      refine arises_of_not fun x => ?_
      obtain ⟨h1, h2, h3⟩ := (s.flashReadable_iff).mp x
      rcases h with h | ⟨e, he, hs⟩ | h | h
      · exact h h1
      · rw [h2 e he] at hs; cases hs
      · exact h3 h
      · exact h q k hq
    all_goals rfl
  · obtain ⟨htake, hcode⟩ := (State.takes_iff p 7).mp ht
    have he := s.take_effect p ((s.canTake_iff p).mp htake).2.2.2.1
    have replies {st a} hf ha := eraseRetainedForm.replies (st := st) (a := a) hc htake hcode hf ha
    have svc : (s.take p).svc = s.svc := he.straps.2
    have store : (s.take p).store = s.store := he.store_eq
    refine ⟨fun h => replies ?_ rfl, fun h1 h2 => replies ?_ rfl, fun h1 h2 part hpart => ?_⟩
    · show (s.take p).eraseRetained p = _
      rw [State.eraseRetained, if_pos (svc.trans h)]
    · show (s.take p).eraseRetained p = _
      rw [State.eraseRetained, if_neg (by rw [svc, h1]; decide), if_pos (by rw [store]; exact h2), State.retainedCount, store,
        State.retainedCount]
    · let u : State := { s.take p with store := { (s.take p).store with retErase := .waiting } }
      have work : (s.take p).eraseRetained p = u.await (.eraseRetained p) := by
        rw [State.eraseRetained, if_neg (by rw [svc, h1]; decide), if_neg (by rw [store]; exact h2)]
      have only := State.take_takenOnly hc (.eraseRetained p) htake
      refine ⟨u.await (.eraseRetained p), ?_, ⟨only.exec, ?_, only.state⟩, ?_, only.ram, only.pub, only.flash, only.ride,
        only.slots, ⟨only.quals, only.records, only.frames⟩,
        ⟨only.pending, only.lines, only.straps, only.now, only.profiles⟩⟩
      · cases part with
        | whole =>
          rw [eraseRetainedForm.whole htake hcode, work, State.finish_else p (fun st a => by simp [State.await])
            (fun b a => by simp [State.await])]
        | take => rw [eraseRetainedForm.take htake hcode, work]
        | completion => exact absurd rfl hpart
      · cases p <;> exact only.cell
      · show { (s.take p).store with retErase := RetainedErase.waiting } = _
        rw [store]

/-! ### Every request (R137 to R141) -/

/-- The code that a request command answers to (8.2). -/
def requestAsks (c : Instr) (n : Nat) : Bool :=
  match c with
  | .adopt _ => decide (n = 1)
  | .clearSlot _ => decide (n = 2)
  | .clearPort _ => decide (n = 3)
  | .fetchFrame _ => decide (n = 4)
  | .fetchQualifier _ => decide (n = 5)
  | .readRetained _ => decide (n = 6)
  | .eraseRetained _ => decide (n = 7)
  | .acknowledge _ => decide (n = 8)
  | .badRequest _ => decide (n = 0) || decide (8 < n)
  | _ => false

/-- The request commands (8.2). -/
def IsRequest (c : RequestStep → Instr) : Prop :=
  c = .adopt ∨ c = .clearSlot ∨ c = .clearPort ∨ c = .fetchFrame ∨ c = .fetchQualifier ∨ c = .readRetained ∨
    c = .eraseRetained ∨ c = .acknowledge ∨ c = .badRequest

/-- Command `c` answers to code `n`. -/
def AnswersTo (c : RequestStep → Instr) (n : Nat) : Prop :=
  (c = .adopt ∧ n = 1) ∨ (c = .clearSlot ∧ n = 2) ∨ (c = .clearPort ∧ n = 3) ∨ (c = .fetchFrame ∧ n = 4) ∨
    (c = .fetchQualifier ∧ n = 5) ∨ (c = .readRetained ∧ n = 6) ∨ (c = .eraseRetained ∧ n = 7) ∨
    (c = .acknowledge ∧ n = 8) ∨ (c = .badRequest ∧ (n = 0 ∨ 8 < n))

/-- Each request command is of one form, whose work at the take is a request's. -/
theorem requestForms {c : RequestStep → Instr} (h : IsRequest c) (r : RequestStep) :
    ∃ f : State → Port → State, RequestForm c (fun s p => requestAsks (c r) (s.requestCode p)) f ∧
      ∀ t p, State.Works t (f t p) p := by
  rcases h with rfl | rfl | rfl | rfl | rfl | rfl | rfl | rfl | rfl
  · exact ⟨fun s p => s.adopt p, ⟨fun _ _ => rfl⟩, State.adopt_works⟩
  · exact ⟨fun s p => s.clearIndex p, ⟨fun _ _ => rfl⟩, State.clearIndex_works⟩
  · exact ⟨fun s p => s.clearPort p, ⟨fun _ _ => rfl⟩, State.clearPort_works⟩
  · exact ⟨fun s p => s.fetchFrame p, ⟨fun _ _ => rfl⟩, State.fetchFrame_works⟩
  · exact ⟨fun s p => s.fetchQualifier p, ⟨fun _ _ => rfl⟩, State.fetchQualifier_works⟩
  · exact ⟨fun s p => s.readRetained p, ⟨fun _ _ => rfl⟩, State.readRetained_works⟩
  · exact ⟨fun s p => s.eraseRetained p, ⟨fun _ _ => rfl⟩, State.eraseRetained_works⟩
  · exact ⟨fun s p => s.acknowledge p, ⟨fun _ _ => rfl⟩, State.acknowledge_works⟩
  · exact ⟨fun s p => s.reply p .badRequest [], ⟨fun _ _ => rfl⟩, fun t p => State.Works.reply t p _ _⟩

theorem requestAsks_iff {c : RequestStep → Instr} (h : IsRequest c) (r : RequestStep) (n : Nat) :
    requestAsks (c r) n = true ↔ AnswersTo c n := by
  constructor
  · intro hn
    rcases h with rfl | rfl | rfl | rfl | rfl | rfl | rfl | rfl | rfl
    · exact .inl ⟨rfl, of_decide_eq_true hn⟩
    · exact .inr (.inl ⟨rfl, of_decide_eq_true hn⟩)
    · exact .inr (.inr (.inl ⟨rfl, of_decide_eq_true hn⟩))
    · exact .inr (.inr (.inr (.inl ⟨rfl, of_decide_eq_true hn⟩)))
    · exact .inr (.inr (.inr (.inr (.inl ⟨rfl, of_decide_eq_true hn⟩))))
    · exact .inr (.inr (.inr (.inr (.inr (.inl ⟨rfl, of_decide_eq_true hn⟩)))))
    · exact .inr (.inr (.inr (.inr (.inr (.inr (.inl ⟨rfl, of_decide_eq_true hn⟩))))))
    · exact .inr (.inr (.inr (.inr (.inr (.inr (.inr (.inl ⟨rfl, of_decide_eq_true hn⟩)))))))
    · refine .inr (.inr (.inr (.inr (.inr (.inr (.inr (.inr ⟨rfl, ?_⟩)))))))
      rcases Bool.or_eq_true_iff.mp hn with hn | hn
      · exact .inl (of_decide_eq_true hn)
      · exact .inr (of_decide_eq_true hn)
  · rintro (⟨rfl, hn⟩ | ⟨rfl, hn⟩ | ⟨rfl, hn⟩ | ⟨rfl, hn⟩ | ⟨rfl, hn⟩ | ⟨rfl, hn⟩ | ⟨rfl, hn⟩ | ⟨rfl, hn⟩ | ⟨rfl, hn⟩)
    all_goals simp [requestAsks, hn]

/-- The work of a request leaves the bytes outside the cells' state byte that lie behind the view and the trail. -/
theorem State.Works.board {u : State} {p : Port} (h : s.Works u p) (hc : s.MemoriesCanonical) :
    u.MemoriesCanonical ∧ ∀ y, 0x0600 ≤ y → u.rd y = s.rd y := by
  obtain ⟨v, w, rfl, -, hv⟩ := h
  exact ⟨(hv.board hc).1.of_same rfl rfl, (hv.board hc).2⟩

theorem State.requestCode_take_works {u : State} {p : Port} (h : (s.take p).Works u p) (hc : s.MemoriesCanonical) :
    u.requestCode p = s.requestCode p := by
  rw [State.requestCode, (h.board (hc.take p)).2 _ (by cases p <;> decide), State.rd_take hc, if_neg (by omega),
    State.requestCode]

/-- The take alone, and what the whole command is beside it (R137, R138). -/
theorem RequestForm.take_then_completion {c : RequestStep → Instr} {m : Nat → Bool} {f : State → Port → State}
    (h : RequestForm c (fun s p => m (s.requestCode p)) f) (hw : ∀ t p, State.Works t (f t p) p)
    (hc : s.MemoriesCanonical) {p : Port} (ht : s.canTake p = true) (hm : m (s.requestCode p) = true) :
    ∃ u, exec (c { port := p, part := .take }) s = .next u ∧ (u.port p).cell = .taken ∧ u.exec.pref = p.other ∧
      u.inReset = false ∧ u.requestCode p = s.requestCode p ∧
      (∀ y, 0x0600 ≤ y → y ≠ Config.cellBase p → u.rd y = s.rd y) ∧
      exec (c { port := p, part := .whole }) s = exec (c { port := p, part := .completion }) u := by
  have works := hw (s.take p) p
  have code := State.requestCode_take_works works hc
  have board := (works.board (hc.take p)).2
  obtain ⟨v, w, hu, -, hv⟩ := works
  have reset : (f (s.take p) p).inReset = false := by
    rw [hu]
    exact (hv.inReset.trans (s.take_effect p ((s.canTake_iff p).mp ht).2.2.2.1).inReset).trans ((s.canTake_iff p).mp ht).1
  refine ⟨f (s.take p) p, h.take ht hm, ?_, ?_, reset, code, fun y hy hne => ?_, ?_⟩
  · rw [hu, State.await_port, hv.cell, State.take_port, if_pos rfl]
  · rw [hu]
    show v.exec.pref = _
    rw [hv.exec, State.take_exec]
  · rw [board y hy, State.rd_take hc, if_neg hne]
  · rw [h.whole ht hm, h.eq]
    exact (arises_pos _ _ _ reset (by rw [← hm, ← code])).symm

/-- The completion taken alone (R138). -/
theorem RequestForm.completion {c : RequestStep → Instr} {mine : State → Port → Bool} {f : State → Port → State}
    (h : RequestForm c mine f) {p : Port} (hr : s.inReset = false) (hm : mine s p = true) :
    exec (c { port := p, part := .completion }) s = .next (s.finish p) := by
  rw [h.eq]
  exact arises_pos _ _ _ hr hm

theorem RequestForm.no_take {c : RequestStep → Instr} {mine : State → Port → Bool} {f : State → Port → State}
    (h : RequestForm c mine f) {p : Port} (ht : s.canTake p = false) {part : RequestPart} (hp : part ≠ .completion) :
    exec (c { port := p, part := part }) s = .next s := by
  rw [h.eq]
  cases part with
  | whole => exact arises_neg _ _ _ (.inr (by rw [ht]; rfl))
  | take => exact arises_neg _ _ _ (.inr (by rw [ht]; rfl))
  | completion => exact absurd rfl hp

theorem RequestForm.not_mine {c : RequestStep → Instr} {mine : State → Port → Bool} {f : State → Port → State}
    (h : RequestForm c mine f) {p : Port} (hm : mine s p = false) (part : RequestPart) :
    exec (c { port := p, part := part }) s = .next s := by
  rw [h.eq]
  cases part with
  | whole => exact arises_neg _ _ _ (.inr (by rw [hm, Bool.and_false]))
  | take => exact arises_neg _ _ _ (.inr (by rw [hm, Bool.and_false]))
  | completion => exact arises_neg _ _ _ (.inr hm)

/-- What ACKNOWLEDGE leaves at its take (R154). -/
theorem State.acknowledge_eq (p : Port) : s.acknowledge p =
    ((s.setPort p { s.port p with stray := false, declined := 0 }).markViewIf
      ((s.port p).stray || decide ((s.port p).declined ≠ 0))).reply p .ok
        [byteOf (flagBit (s.port p).stray 0), byteOf (s.port p).declined] := rfl

theorem State.acknowledge_port (p q : Port) : (s.acknowledge p).port q =
    if q = p then { s.port p with stray := false, declined := 0 } else s.port q := by
  rw [State.acknowledge_eq, State.reply, State.await_port, State.markViewIf_port, State.setPort_port_eq]

theorem State.acknowledge_sameInside (p : Port) : SameInside s (s.acknowledge p) := by
  refine ⟨⟨?_, ?_, ?_⟩, ⟨?_, ?_⟩, ⟨?_, ?_, ?_, ?_, ?_⟩, ?_, ?_⟩
  all_goals simp [State.acknowledge_eq, State.reply, State.await]

/-- Settles O38: every request's take and completion by its form, then ACKNOWLEDGE and BAD_REQUEST. -/
theorem acknowledgeUnknownCodesAndCompletions : Obligations.AcknowledgeUnknownCodesAndCompletions := by
  refine ⟨fun p s => ⟨s.canTake_iff p, fun code => ?_, rfl, fun k => rfl⟩, fun c p s => ?_, fun p s hc => ⟨fun ht => ?_,
    fun ht hcode => ?_⟩⟩
  · rw [State.takes_iff, State.asks, decide_eq_true_eq]
  · refine ⟨fun h ht part hp => ?_, fun h hm part => ?_, fun hc hm => ?_⟩
    · obtain ⟨f, form, -⟩ := requestForms h { port := p, part := .whole }
      exact form.no_take ht hp
    · obtain ⟨f, form, -⟩ := requestForms h { port := p, part := .whole }
      refine form.not_mine (Bool.eq_false_iff.mpr fun x => hm ?_) part
      exact (requestAsks_iff h _ _).mp x
    · have h : IsRequest c := by
        rcases hm with h | h | h | h | h | h | h | h | h
        · exact .inl h.1
        · exact .inr (.inl h.1)
        · exact .inr (.inr (.inl h.1))
        · exact .inr (.inr (.inr (.inl h.1)))
        · exact .inr (.inr (.inr (.inr (.inl h.1))))
        · exact .inr (.inr (.inr (.inr (.inr (.inl h.1)))))
        · exact .inr (.inr (.inr (.inr (.inr (.inr (.inl h.1))))))
        · exact .inr (.inr (.inr (.inr (.inr (.inr (.inr (.inl h.1)))))))
        · exact .inr (.inr (.inr (.inr (.inr (.inr (.inr (.inr h.1)))))))
      obtain ⟨f, form, works⟩ := requestForms h { port := p, part := .whole }
      have mine : requestAsks (c { port := p, part := .whole }) (s.requestCode p) = true := (requestAsks_iff h _ _).mpr hm
      refine ⟨fun hr st answer htk => ?_, fun hr fault answer htk => ?_, fun h1 h2 => ?_, fun ht => ?_⟩
      · refine ⟨s.complete p st answer, ?_, ?_⟩
        · rw [form.completion hr mine, State.finish_reply p st answer htk]
        · have := State.complete_answersOnly hc p st answer (by rw [htk]; rfl)
          cases st <;> exact this
      · have taken : s.exec.taken.map Taken.port = some p := by rw [htk]; rfl
        have he := s.completeAdopt_effect p fault answer taken
        refine ⟨s.completeAdopt p fault answer, ?_, State.completeAdopt_answered hc p fault answer,
          State.completeAdopt_done hc fault answer taken, he.sameFaults, he.sameStore, he.sameWorld, he.slots, he.ride⟩
        rw [form.completion hr mine, State.finish_adopted p fault answer htk]
      · by_cases hr : s.inReset = false
        · rw [form.completion hr mine, State.finish_else p h1 h2]
        · rw [form.eq]
          exact arises_neg _ _ _ (.inl (by simpa using hr))
      · obtain ⟨u, h1, h2, h3, h4, h5, h6, h7⟩ := form.take_then_completion works hc ht mine
        refine ⟨u, h1, h2, h3, h4, ?_, fun y hy => ?_, h7⟩
        · show AnswersTo c (u.requestCode p)
          rw [h5]
          exact hm
        · refine h6 y ?_ (by omega)
          have : 0x0F00 ≤ Config.cellBase p := by cases p <;> decide
          omega
  · obtain ⟨htake, hcode⟩ := (State.takes_iff p 8).mp ht
    let answer := [byteOf (flagBit (s.port p).stray 0), byteOf (s.port p).declined]
    let u := (s.take p).acknowledge p
    have port : (s.take p).port p = { s.port p with cell := .taken } := by rw [State.take_port, if_pos rfl]
    have other : (s.take p).port p.other = s.port p.other := by rw [State.take_port, if_neg (Port.other_ne p)]
    have htk := s.take_effect p ((s.canTake_iff p).mp htake).2.2.2.1
    have hu : u.MemoriesCanonical := (hc.take p).of_same (by simp [u, State.acknowledge_eq, State.reply, State.await])
      (by simp [u, State.acknowledge_eq, State.reply, State.await])
    have taken : u.exec.taken = some (.reply p .ok answer) := by
      show some (Taken.reply p .ok [byteOf (flagBit ((s.take p).port p).stray 0), byteOf ((s.take p).port p).declined]) = _
      rw [port]
    have exec : u.exec = { taken := some (.reply p .ok answer), pref := p.other, claim := none } := by
      have : u.exec = { (s.take p).exec with taken := u.exec.taken } := by
        simp [u, State.acknowledge_eq, State.reply, State.await]
      rw [this, taken, State.take_exec]
    have portP : u.port p = { s.port p with cell := .taken, stray := false, declined := 0 } := by
      rw [State.acknowledge_port, if_pos rfl, port]
    have portO : u.port p.other = s.port p.other := by rw [State.acknowledge_port, if_neg (Port.other_ne p), other]
    have pub : u.pub = { s.pub with dirty := s.pub.dirty || (s.port p).stray || decide ((s.port p).declined ≠ 0) } := by
      show ((State.setPort p _ (s.take p)).markViewIf _).pub = _
      rw [State.markViewIf_pub, State.setPort_pub, htk.pub_eq, port, Bool.or_assoc]
    have inside : SameInside s u := by
      have h1 := htk.sameFaults
      have h2 := htk.sameStore
      have h3 := htk.sameWorld
      exact SameInside.trans { toSameFaults := h1, toSameStore := h2, toSameWorld := h3, slots := htk.slots, ride := htk.ride }
        (State.acknowledge_sameInside p)
    have done := State.complete_effect u p .ok answer (by rw [taken]; rfl)
    intro part hpart
    cases part with
    | whole =>
      refine ⟨u.complete p .ok answer, ?_, ⟨fun _ => State.complete_answered hu p .ok answer, fun h => by cases h⟩, ?_, ?_,
        ?_, ?_, done.pub_eq.trans pub, inside.trans done.sameInside⟩
      · rw [acknowledgeForm.whole htake hcode, State.finish_reply p .ok answer taken]
      · rw [State.complete_port, portP]
      · rw [State.complete_port, portP]
      · rw [State.complete_port, portO]
      · rw [State.complete_port, portO]
    | take =>
      refine ⟨u, acknowledgeForm.take htake hcode, ⟨fun h => (by cases h), fun _ => ⟨exec, ?_, ?_⟩⟩, ?_, ?_, ?_, ?_, pub, inside⟩
      · rw [portP]
      · rw [State.rd_of_ram (t := u) (s := s.take p) (by simp [u, State.acknowledge_eq, State.reply, State.await]),
          State.rd_take hc, if_pos rfl]
      · rw [portP]
      · rw [portP]
      · rw [portO]
      · rw [portO]
    | completion => exact absurd rfl hpart
  · refine badRequestForm.replies hc ht ?_ rfl rfl
    simpa [State.asks] using hcode

end Sys2Proof.Machine
end

