-- ==== Sys2Proof/Proofs/FlashBytes.lean ====
section
/-!
PROOFS. Flash byte by byte (R109): what a program, an erase and a retained entry leave in it (R127 to R129).
-/

-- Proofs in the order of the text: those that elaborate default tactic arguments at once wait for each other.
set_option Elab.async false

namespace Sys2Proof.Machine

variable {s t : State}

/-! ### Bytes read and cleared -/

theorem Memory.read_clear (dflt : Byte) (m : Memory) (lo hi x : Nat) :
    Memory.read dflt (Memory.clear m lo hi) x = if lo ≤ x ∧ x < hi then dflt else Memory.read dflt m x := by
  unfold Memory.clear
  induction m with
  | nil => simp [Memory.read]
  | cons c rest ih =>
    rw [List.filter_cons]
    split
    · next hc =>
      simp only [decide_eq_true_eq] at hc
      rw [Memory.read, Memory.read, ih]
      by_cases hx : c.1 = x
      · rw [if_pos hx, if_pos hx, if_neg (by omega)]
      · rw [if_neg hx, if_neg hx]
    · next hc =>
      simp only [decide_eq_true_eq] at hc
      rw [ih, Memory.read]
      split
      · rfl
      · rw [if_neg (by omega)]

/-- Cells that read something of their own lie within the sector they belong to. -/
theorem Memory.read_writeCells (cells : Marred) (m : Memory) (base limit x : Nat) (h : Memory.wf flashDefault m = true)
    (hx : x < base ∨ base + limit ≤ x) : Memory.read flashDefault (writeCells m base limit cells) x =
      Memory.read flashDefault m x := by
  unfold writeCells
  induction cells generalizing m with
  | nil => rfl
  | cons c rest ih =>
    rw [List.foldl_cons]
    split
    · next hc => rw [ih _ (Memory.wf_write _ _ _ _ h), Memory.read_write_other _ _ _ _ _ 0 (by omega) h]
    · exact ih _ h

theorem length_readBytes (dflt : Byte) (m : Memory) (a n : Nat) : (Memory.readBytes dflt m a n).length = n := by
  simp [Memory.readBytes]

theorem byteAt_readBytes (dflt : Byte) (m : Memory) (a n i : Nat) (h : i < n) :
    byteAt (Memory.readBytes dflt m a n) i = Memory.read dflt m (a + i) := by
  rw [byteAt_of_lt (by rw [length_readBytes]; exact h)]
  simp [Memory.readBytes]

theorem length_readBack (bs : List Byte) (marred : Marred) : (readBack bs marred).length = bs.length := by
  simp [readBack]

theorem byteAt_take (bs : List Byte) (n i : Nat) (h : i < n) : byteAt (bs.take n) i = byteAt bs i := by
  rw [byteAt, byteAt, List.getD_eq_getElem?_getD, List.getD_eq_getElem?_getD, List.getElem?_take, if_pos h]

theorem byteAt_drop (bs : List Byte) (n i : Nat) : byteAt (bs.drop n) i = byteAt bs (n + i) := by
  rw [byteAt, byteAt, List.getD_eq_getElem?_getD, List.getD_eq_getElem?_getD, List.getElem?_drop]

/-- Two lists of one length with the same bytes are the same. -/
theorem eq_of_byteAt {xs ys : List Byte} (hl : xs.length = ys.length) (h : ∀ i, i < xs.length → byteAt xs i = byteAt ys i) :
    xs = ys := by
  refine List.ext_getElem hl fun i h1 h2 => ?_
  have := h i h1
  rwa [byteAt_of_lt h1, byteAt_of_lt h2] at this

/-! ### Retained entries (R127, R128) -/

theorem length_frameCopy (f : Option Frame) : (frameCopy f).length = 19 := by
  cases f <;> simp [frameCopy]

/-- The first 56 bytes of a retained entry, which its check covers (11.7). -/
def retainedHead (it : RetainedItem) : List Byte :=
  [byteOf it.slot.val] ++ bytes16 it.ride ++ [byteOf it.occurrence, byteOf (flagBit it.frame.isSome 0)]
    ++ frameCopy it.frame ++ List.replicate 32 0

theorem retainedEntryBytes_eq (it : RetainedItem) :
    retainedEntryBytes it = retainedHead it ++ bytes16 (sum16 (retainedHead it)) ++ List.replicate 6 0 := rfl

theorem length_retainedHead (it : RetainedItem) : (retainedHead it).length = 56 := by
  simp [retainedHead, length_frameCopy]

theorem length_retainedEntryBytes (it : RetainedItem) : (retainedEntryBytes it).length = 64 := by
  simp [retainedEntryBytes_eq, length_retainedHead]

/-- A retained position's bytes after its programming: lines 0 to 6, and line 7 where they read back (R128). -/
theorem State.flashByte_programTwice (hc : s.MemoriesCanonical) (a n : Nat) (bs : List Byte) (hn : n ≤ bs.length)
    (x : Nat) : ((s.program a (bs.take n)).program (a + n) (bs.drop n)).flashByte x =
      if a ≤ x ∧ x < a + bs.length then byteAt bs (x - a) else s.flashByte x := by
  rw [State.flashByte_program (hc.program _ _), State.flashByte_program hc, List.length_drop, List.length_take,
    Nat.min_eq_left hn]
  by_cases h1 : a + n ≤ x ∧ x < a + n + (bs.length - n)
  · rw [if_pos h1, if_pos (by omega), byteAt_drop]
    congr 1
    omega
  · rw [if_neg h1]
    by_cases h2 : a ≤ x ∧ x < a + n
    · rw [if_pos h2, if_pos (by omega), byteAt_take _ _ _ (by omega)]
    · rw [if_neg h2, if_neg (by omega)]

/-- The queue after a failed entry, where `free` is the lowest free position (R128). -/
def requeued (it : RetainedItem) (q : List RetainedItem) (free : Option (Fin 16)) : List RetainedItem :=
  (free.map fun k => { it with pos := k }).toList ++ q

theorem State.requeueRetained_eq (it : RetainedItem) : s.requeueRetained it = { s with store := { s.store with
    retQueue := requeued it s.store.retQueue s.retainedFree } } := by
  unfold State.requeueRetained
  split <;> next h => (simp only [h]; rfl)

/-- Flash after a retained entry's programming that read back as `got`: line 7 only behind lines 0 to 6 (R128). -/
def State.retainedProgrammed (it : RetainedItem) (got : List Byte) (s : State) : State :=
  let base := retainedAddr it.pos 0
  if got.take 56 = (retainedEntryBytes it).take 56 then
    (s.program base (got.take 56)).program (base + 56) (got.drop 56)
  else s.program base (got.take 56)

theorem State.retainedProgrammed_only (it : RetainedItem) (got : List Byte) :
    ∃ m, s.retainedProgrammed it got = { s with flash := m } := by
  unfold State.retainedProgrammed
  simp only
  split <;> exact ⟨_, rfl⟩

theorem State.retainedProgrammed_outside (hc : s.MemoriesCanonical) (it : RetainedItem) {got : List Byte}
    (hl : got.length = 64) (x : Nat) (hx : x < retainedAddr it.pos 0 ∨ retainedAddr it.pos 0 + 64 ≤ x) :
    (s.retainedProgrammed it got).flashByte x = s.flashByte x := by
  unfold State.retainedProgrammed
  simp only
  split
  · rw [State.flashByte_programTwice hc _ _ _ (by omega), if_neg (by omega)]
  · rw [State.flashByte_program hc, List.length_take, if_neg (by omega)]

theorem State.retainedProgrammed_good (hc : s.MemoriesCanonical) (it : RetainedItem) (k : Nat) (hk : k < 64) :
    (s.retainedProgrammed it (retainedEntryBytes it)).flashByte (retainedAddr it.pos 0 + k) =
      byteAt (retainedEntryBytes it) k := by
  have hl := length_retainedEntryBytes it
  unfold State.retainedProgrammed
  simp only
  rw [if_pos trivial, State.flashByte_programTwice hc _ _ _ (by omega), if_pos (by omega), Nat.add_sub_cancel_left]

theorem State.retainedProgrammed_cut (hc : s.MemoriesCanonical) (it : RetainedItem) {got : List Byte}
    (hl : got.length = 64) (h : got.take 56 ≠ (retainedEntryBytes it).take 56) (k : Nat) (hk : 56 ≤ k) :
    (s.retainedProgrammed it got).flashByte (retainedAddr it.pos 0 + k) = s.flashByte (retainedAddr it.pos 0 + k) := by
  unfold State.retainedProgrammed
  simp only
  rw [if_neg h, State.flashByte_program hc, List.length_take, if_neg (by omega)]

/-- The end of a retained entry's programming: valid where it reads back, else void and queued again (R128). -/
theorem State.endRetained_eq (it : RetainedItem) (marred : Marred) :
    s.endRetained it marred =
      let got := readBack (retainedEntryBytes it) marred
      let done : State := { s.retainedProgrammed it got with store := { s.store with program := none } }
      if got = retainedEntryBytes it then (done.setRetained it.pos (.valid it.slot)).markView
      else (done.setRetained it.pos .void).requeueRetained it := by
  have split56 (got bytes : List Byte) : (decide (got.take 56 = bytes.take 56) &&
      decide (got.drop 56 = bytes.drop 56)) = true ↔ got = bytes := by
    rw [Bool.and_eq_true, decide_eq_true_eq, decide_eq_true_eq]
    constructor
    · rintro ⟨h1, h2⟩
      rw [← List.take_append_drop 56 got, h1, h2, List.take_append_drop]
    · rintro rfl
      exact ⟨rfl, rfl⟩
  unfold State.endRetained State.retainedProgrammed
  simp only [split56, decide_eq_true_eq]
  by_cases h : (readBack (retainedEntryBytes it) marred).take 56 = (retainedEntryBytes it).take 56
  · simp only [h, if_true]
    rfl
  · simp only [h, if_false]
    rfl

/-- Settles O48: the queue's oldest entry is programmed, and its read-back decides. -/
theorem retainedEntriesAreProgrammed : Obligations.RetainedEntriesAreProgrammed := by
  refine ⟨fun it rest s hw hu hq => ?_, fun s h => ?_, fun it marred s hr hc hp => ?_⟩
  · show execRetainedEntryBegin s = _
    have : s.nextRetained = some it := by rw [State.nextRetained, if_pos ⟨hw, hu⟩, hq]; rfl
    simp only [execRetainedEntryBegin, this, hq]
    rfl
  · show execRetainedEntryBegin s = _
    have : s.nextRetained = none := by
      rw [State.nextRetained, if_neg]
      rintro ⟨h1, h2⟩
      rcases h with h | h
      · rw [h1] at h; cases h
      · exact h h2
    simp only [execRetainedEntryBegin, this]
  · intro bytes got base spare queuedAs
    have hl : got.length = 64 := (length_readBack _ _).trans (length_retainedEntryBytes it)
    have ran : exec (.retainedEntryCompletion marred) s = .next (s.endRetained it marred) := by
      show execRetainedEntryCompletion marred s = _
      simp only [execRetainedEntryCompletion, hp]
      exact arises_pos _ _ _ hr rfl
    have ended : s.endRetained it marred = if got = bytes then _ else _ := s.endRetained_eq it marred
    have outside := State.retainedProgrammed_outside hc it hl
    have cut := State.retainedProgrammed_cut hc it hl
    have good (h : got = bytes) (k : Nat) (hk : k < 64) :
        (s.retainedProgrammed it got).flashByte (base + k) = byteAt bytes k := by
      rw [h]
      exact State.retainedProgrammed_good hc it k hk
    obtain ⟨m, hm⟩ := s.retainedProgrammed_only it got
    simp only [(show readBack (retainedEntryBytes it) marred = got from rfl), hm] at ended outside cut good
    clear_value got
    clear hm
    let u : State := { s with flash := m, store := { s.store with
        program := none, retPos := s.store.retPos.set it.pos .void } }
    have free (k : Fin 16) : u.store.retPos[k] = .free ↔ k ≠ it.pos ∧ s.store.retPos[k] = .free := by
      simp only [u, Fin.getElem_fin, Vector.getElem_set]
      by_cases h : it.pos.val = k.val
      · have : k = it.pos := Fin.ext h.symm
        simp [this]
      · have : k ≠ it.pos := fun e => h (congrArg Fin.val e).symm
        simp [h, this]
    have spare_iff (k : Fin 16) : (u.store.retPos[k] = .free ∧ (∀ x ∈ u.store.retQueue, x.pos ≠ k) ∧
        ∀ x, u.store.program = some (.retained x) → x.pos ≠ k) ↔ spare k := by
      rw [free]
      simp [u, spare, and_assoc]
    have queued (q : List RetainedItem) (hne : got ≠ bytes) (hq : requeued it s.store.retQueue u.retainedFree = q) :
        queuedAs q := by
      have ht : s.endRetained it marred = { u with store := { u.store with retQueue := q } } := by
        rw [ended, if_neg hne]
        exact (State.requeueRetained_eq (s := u) it).trans (by rw [← hq])
      exact ⟨{ u with store := { u.store with retQueue := q } }, ran.trans (congrArg _ ht), rfl, outside,
        fun h k h1 _ => cut h k h1, rfl, rfl, ⟨rfl, rfl, rfl⟩, rfl⟩
    refine ⟨fun h => ?_, fun k hne hk hmin => queued _ hne ?_, fun hne hno => queued _ hne ?_⟩
    · let v : State := { s with flash := m, store := { s.store with
        program := none, retPos := s.store.retPos.set it.pos (.valid it.slot) } }
      have ht : s.endRetained it marred = v.markView := by
        rw [ended, if_pos h]
        rfl
      exact ⟨v.markView, ran.trans (congrArg _ ht), rfl, good h, outside, rfl, rfl, ⟨rfl, rfl, rfl⟩, rfl⟩
    · rw [(u.retainedFree_eq_some k).mpr ⟨(spare_iff k).mpr hk, fun j hj x => hmin j hj ((spare_iff j).mp x)⟩]
      rfl
    · have : u.retainedFree = none := by
        rw [Option.eq_none_iff_forall_ne_some]
        exact fun k hk => hno k ((spare_iff k).mp ((u.retainedFree_eq_some k).mp hk).1)
      rw [this]
      rfl

/-! ### The retained erase (R129, R153) -/

theorem length_reserveAfresh (free : List (Fin 16)) (q : List RetainedItem) :
    (reserveAfresh free q).length = min q.length free.length := by
  induction q generalizing free with
  | nil => cases free <;> rfl
  | cons it rest ih =>
    cases free with
    | nil => rfl
    | cons k ks => simp [reserveAfresh, ih]

/-- Each queued entry that is kept takes the free position of its place (R129). -/
theorem reserveAfresh_get (free : List (Fin 16)) (q : List RetainedItem) (n : Nat) (x : RetainedItem)
    (h : (reserveAfresh free q)[n]? = some x) : ∃ y k, q[n]? = some y ∧ free[n]? = some k ∧ x = { y with pos := k } := by
  induction q generalizing free n with
  | nil => cases free <;> cases h
  | cons it rest ih =>
    cases free with
    | nil => cases h
    | cons k ks =>
      cases n with
      | zero => cases h; exact ⟨it, k, rfl, rfl, rfl⟩
      | succ n => exact ih ks n h

theorem mem_freePositions (v : Vector RetainedPos 16) (k : Fin 16) : k ∈ freePositions v ↔ v[k] = .free := by
  simp [freePositions]

theorem freePositions_sorted (v : Vector RetainedPos 16) : (freePositions v).Pairwise (· < ·) :=
  (List.pairwise_lt_finRange 16).filter _

theorem freePositions_all (v : Vector RetainedPos 16) : (freePositions v).length = 16 ↔ ∀ k : Fin 16, v[k] = .free := by
  have h : (List.finRange 16).length = 16 := by simp
  have all := List.length_filter_eq_length_iff (p := fun k : Fin 16 => decide (v[k] = .free)) (l := List.finRange 16)
  rw [h] at all
  rw [freePositions, all]
  simp

theorem readPositions_get (flash : Memory) (k : Fin 16) :
    (readPositions flash)[k] = retainedPosOf (retainedBytes flash k) := by simp [readPositions]

theorem retainedPosOf_blank {bs : List Byte} (h : allBlank bs = true) : retainedPosOf bs = .free := by
  rw [retainedPosOf, if_pos h]

/-- The retained sector after an erase that left no residue reads blank (R129). -/
theorem retainedBytes_erased (flash : Memory) (k : Fin 16) : allBlank (retainedBytes (erasedRetained flash []) k) = true := by
  have hk := k.isLt
  rw [allBlank, List.all_eq_true]
  intro b hb
  obtain ⟨i, hi, rfl⟩ := List.mem_map.mp hb
  have hi := List.mem_range.mp hi
  have : Memory.read flashDefault (erasedRetained flash []) (retainedAddr k 0 + i) = 0xFF := by
    show Memory.read flashDefault (Memory.clear _ _ _) _ = _
    rw [Memory.read_clear, if_pos (by simp only [retainedAddr, Config.sectorBytes, Config.retainedSector]; omega)]
    rfl
  rw [this]
  decide

theorem wf_erasedRetained {flash : Memory} (h : Memory.wf flashDefault flash = true) (residue : Marred) :
    Memory.wf flashDefault (erasedRetained flash residue) = true :=
  wf_writeCells _ _ _ _ (Memory.wf_clear _ _ _ _ h)

theorem read_erasedRetained_log {flash : Memory} (h : Memory.wf flashDefault flash = true) (residue : Marred) (k : Fin 16)
    (o : Nat) (ho : o < 2048) : Memory.read flashDefault (erasedRetained flash residue) (sectorAddr k o) =
      Memory.read flashDefault flash (sectorAddr k o) := by
  have hk := k.isLt
  have low : sectorAddr k o < Config.sectorBytes * Config.retainedSector := by
    simp only [sectorAddr, Config.sectorBytes, Config.retainedSector]
    omega
  show Memory.read flashDefault (writeCells (Memory.clear _ _ _) _ _ _) _ = _
  rw [Memory.read_writeCells _ _ _ _ _ (Memory.wf_clear _ _ _ _ h) (.inl low), Memory.read_clear, if_neg (by omega)]

theorem State.retainedEraseDue_iff (s : State) : s.retainedEraseDue = true ↔ s.store.retErase = .waiting ∧
    s.store.state = .ready ∧ s.store.inhibitDue = none ∧ s.store.erase = none ∧ s.store.program = none ∧
    s.urgentWork = none := by
  simp [State.retainedEraseDue, and_assoc]

theorem State.reportRetainedErase_waiting {p : Port} (st : Status) (h : s.exec.taken = some (.eraseRetained p)) :
    s.reportRetainedErase st = s.complete p st [byteOf s.retainedCount] := by
  simp only [State.reportRetainedErase, h]

/-- Settles O49: the erase's start, and what its end makes of positions, queue and request. -/
theorem retainedEraseEmptiesTheSector : Obligations.RetainedEraseEmptiesTheSector := by
  refine ⟨fun s hr h1 h2 h3 h4 h5 h6 => ?_, fun s h => ?_, fun residue s hr hc hrun => ?_⟩
  · exact arises_pos _ _ _ hr ((s.retainedEraseDue_iff).mpr ⟨h1, h2, h3, h4, h5, h6⟩)
  · refine arises_of_not fun x => ?_
    obtain ⟨h1, h2, h3, h4, h5, h6⟩ := (s.retainedEraseDue_iff).mp x
    rcases h with h | h | h | h | h | h
    · exact h h1
    · exact h h2
    · exact h h3
    · exact h h4
    · exact h h5
    · exact h h6
  · let flash := erasedRetained s.flash residue
    let pos := readPositions flash
    let u : State := State.markView { s with flash := flash, store := { s.store with
      retPos := pos, retErase := .nothing, retQueue := reserveAfresh (freePositions pos) s.store.retQueue } }
    let st : Status := if (freePositions pos).length = 16 then .ok else .storeFault
    have hu : u.MemoriesCanonical := ⟨hc.1, wf_erasedRetained hc.2 residue⟩
    have he := u.reportRetainedErase_effect st
    have store : (u.reportRetainedErase st).store = u.store := he.store_eq
    refine ⟨u.reportRetainedErase st, ?_, ?_, ?_, he.flash, ?_, fun h k => ?_, ⟨fun k => ?_, ?_, ?_, fun n x hx => ?_⟩,
      fun p hp => ?_, fun k o ho => ?_, ?_⟩
    · exact arises_pos _ _ _ hr (by rw [hrun]; rfl)
    · rw [store]; rfl
    · rw [he.pub_eq]; rfl
    · rw [store, he.flash]; rfl
    · subst h
      rw [store]
      exact (readPositions_get _ k).trans (retainedPosOf_blank (retainedBytes_erased s.flash k))
    · exact mem_freePositions _ k
    · exact freePositions_sorted _
    · rw [store]
      exact length_reserveAfresh _ _
    · rw [store] at hx ⊢
      exact reserveAfresh_get _ _ n x hx
    · have done := State.complete_answered hu p st [byteOf u.retainedCount]
      have report := State.reportRetainedErase_waiting (s := u) st hp
      have count : (u.reportRetainedErase st).retainedCount = u.retainedCount := by
        rw [State.retainedCount, store, State.retainedCount]
      have status : (if ∀ k : Fin 16, (u.reportRetainedErase st).store.retPos[k] = .free then Status.ok else .storeFault) =
          st := by
        rw [store]
        exact if_congr (freePositions_all pos).symm rfl rfl
      rw [status, count, report]
      have plain : answerFor st [byteOf u.retainedCount] = [byteOf u.retainedCount] := by
        show answerFor (ite _ _ _) _ = _
        split <;> rfl
      rw [plain] at done
      exact done
    · show Memory.read flashDefault _ _ = _
      rw [he.flash]
      exact read_erasedRetained_log hc.2 residue k o ho
    · exact ⟨he.quals, he.records, he.frames⟩

end Sys2Proof.Machine
end

