-- ==== Sys2Proof/Proofs/Failing.lean ====
section
/-!
PROOFS. Entry to FAILED (R125, R126): its trail entry, the requests it answers, the retained erase it drops; retirement.
-/

-- Proofs in the order of the text: those that elaborate default tactic arguments at once wait for each other.
set_option Elab.async false

namespace Sys2Proof.Machine

variable {s t u : State}

/-! ### What the answers leave of the trail -/

theorem State.rd_adoptTakesEffect (hc : s.MemoriesCanonical) (p : Port) {x : Nat} (h : x < 38 ∨ 39 < x) :
    (s.adoptTakesEffect p).rd x = s.rd x := by
  have hu := hc.adoptRecounted p
  have setup : ((s.adoptRecounted p).applyTrailSetup p).rd x = (s.adoptRecounted p).rd x := by
    unfold State.applyTrailSetup
    split
    · rw [State.rd_setReader hu, if_neg (by omega), if_neg (by omega)]
    all_goals rfl
  rw [State.adoptTakesEffect_eq, State.rd_of_ram (State.startTimers_effect _ p _).ram, setup]
  exact State.rd_of_ram (by simp [State.adoptRecounted]) x

theorem State.rd_completeAdopt (hc : s.MemoriesCanonical) (p : Port) (b : Bool) (a : List Byte) {x : Nat} (h : 39 < x)
    (h' : x < 0x0F00) : (s.completeAdopt p b a).rd x = s.rd x := by
  have base : 0x0F00 ≤ Config.cellBase p := by cases p <;> decide
  rw [State.completeAdopt, State.rd_complete_outside ((s.adoptTakesEffect_effect p).keeps .memories (by decide) hc) _ _ _
    (.inl (by omega)), State.rd_adoptTakesEffect hc p (.inr h)]

/-- A report on a CLEAR leaves the trail's entries (R147). -/
theorem State.rd_reportClear (hc : s.MemoriesCanonical) (w : Bool) {x : Nat} (h : 39 < x) (h' : x < 0x0F00) :
    (s.reportClear w).rd x = s.rd x := by
  have base (p : Port) : 0x0F00 ≤ Config.cellBase p := by cases p <;> decide
  unfold State.reportClear
  split
  · split
    · split
      · exact State.rd_completeAdopt hc _ _ _ h h'
      · rfl
    · exact State.rd_completeAdopt hc _ _ _ h h'
  · next p _ _ =>
    have := base p
    exact State.rd_complete_outside hc _ _ _ (.inl (by omega))
  all_goals rfl

theorem State.rd_reportRetainedErase (hc : s.MemoriesCanonical) (st : Status) {x : Nat} (h' : x < 0x0F00) :
    (s.reportRetainedErase st).rd x = s.rd x := by
  have base (p : Port) : 0x0F00 ≤ Config.cellBase p := by cases p <;> decide
  unfold State.reportRetainedErase
  split
  · next p _ =>
    have := base p
    exact State.rd_complete_outside hc _ _ _ (.inl (by omega))
  all_goals rfl

theorem State.TrailEntry.of_rd {n : Word} {bytes : List Byte} (h : s.TrailEntry n bytes)
    (rd : ∀ x, 0x0400 ≤ x → x < 0x0600 → t.rd x = s.rd x) : t.TrailEntry n bytes := by
  intro k hk
  have : Config.trailBase = 0x0400 := rfl
  rw [rd _ (by omega) (by omega)]
  exact h k hk

/-! ### The reports on clears -/

theorem State.reportClear_clear {p : Port} {a : List Byte} (w : Bool) (h : s.exec.taken = some (.clear p a)) :
    s.reportClear w = s.complete p (if w then .ok else .storeFault) a := by
  simp only [State.reportClear, h]

theorem State.reportClear_lost {p : Port} {n : Nat} {a : List Byte} (h : s.exec.taken = some (.adopt p n a)) :
    s.reportClear false = s.completeAdopt p true a := by
  simp only [State.reportClear, h]
  rfl

theorem State.reportClear_else (w : Bool) (h1 : ∀ p a, s.exec.taken ≠ some (.clear p a))
    (h2 : ∀ p n a, s.exec.taken ≠ some (.adopt p n a)) : s.reportClear w = s := by
  unfold State.reportClear
  split
  · next p n a h => exact absurd h (h2 p n a)
  · next p a h => exact absurd h (h1 p a)
  all_goals rfl

theorem State.reportRetainedErase_else (st : Status) (h : ∀ p, s.exec.taken ≠ some (.eraseRetained p)) :
    s.reportRetainedErase st = s := by
  unfold State.reportRetainedErase
  split
  · next p hp => exact absurd hp (h p)
  all_goals rfl

/-! ### Entry to FAILED -/

/-- The store has become FAILED and has told it (R125); nothing is answered yet. -/
def State.failTold (s : State) : State :=
  (({ s with store := { s.store with state := .failed } } : State).appendPart .storeFailed
    (byteOf (s.sectorCount .retired))).markView

/-- A retained erase that waits is dropped and reported (R126, R129). -/
def State.dropRetErase (s : State) : State :=
  match s.store.retErase with
  | .waiting => ({ s with store := { s.store with retErase := .nothing } } : State).reportRetainedErase .storeFault
  | .nothing | .running => s

theorem State.failStore_eq : s.failStore = (s.failTold.reportClear false).dropRetErase := rfl

theorem State.failTold_effect : Effect [.storeState, .ram, .trail, .attn, .dirty] [] s s.failTold := by
  let v : State := { s with store := { s.store with state := .failed } }
  have h1 : Effect [.storeState] [] s v :=
    Effect.setStore s _ (fun f hf => by cases f <;> simp_all [Field.onStore])
  exact (h1.step (v.appendPart_effect .storeFailed (byteOf (s.sectorCount .retired)))
    (l := [.storeState, .ram, .trail, .attn, .dirty])).step (State.markView_effect _)

theorem State.dropRetErase_effect : Effect [.retErase, .ram, .board, .cells, .exec, .attn] [] s s.dropRetErase := by
  unfold State.dropRetErase
  split
  · exact (s.setRetErase_effect .nothing).step (State.reportRetainedErase_effect _ .storeFault)
  all_goals exact Effect.refl s

theorem State.failTold_state : s.failTold.store = { s.store with state := .failed } := by
  simp [State.failTold, State.appendPart]

theorem State.failTold_entry (hc : s.MemoriesCanonical) : s.failTold.TrailEntry s.pub.writeCount
    (trailBytes s.ride.number s.ride.time 0xFF .storeFailed (byteOf (s.sectorCount .retired)) 0) := by
  let v : State := { s with store := { s.store with state := .failed } }
  have hv : v.MemoriesCanonical := hc.of_same rfl rfl
  exact (State.append_trailEntry hv .storeFailed 0xFF (byteOf (s.sectorCount .retired)) 0).of_ram rfl

theorem State.rd_dropRetErase (hc : s.MemoriesCanonical) {x : Nat} (h' : x < 0x0F00) :
    s.dropRetErase.rd x = s.rd x := by
  unfold State.dropRetErase
  split
  · let v : State := { s with store := { s.store with retErase := .nothing } }
    have hv : v.MemoriesCanonical := hc.of_same rfl rfl
    exact State.rd_reportRetainedErase hv _ h'
  all_goals rfl

/-- What becomes of the retained erase when the store fails (R126). -/
def droppedErase : RetainedErase → RetainedErase
  | .waiting => .nothing
  | .nothing => .nothing
  | .running => .running

theorem State.dropRetErase_store : s.dropRetErase.store = { s.store with retErase := droppedErase s.store.retErase } := by
  unfold State.dropRetErase
  split
  · next hw =>
    rw [(State.reportRetainedErase_effect _ .storeFault).store_eq, hw]
    rfl
  · next hw => rw [hw, droppedErase, ← hw]
  · next hw => rw [hw, droppedErase, ← hw]

/-- With nothing to answer, the drop moves the store alone. -/
theorem State.dropRetErase_free (h : s.exec.taken = none) : ∃ st, s.dropRetErase = { s with store := st } := by
  unfold State.dropRetErase
  split
  · exact ⟨_, State.reportRetainedErase_else _ fun p => by rw [h]; nofun⟩
  all_goals exact ⟨s.store, rfl⟩

theorem State.Answered.of_store {p : Port} {st : Status} {a : List Byte} (x : Store) (h : t.Answered p st a) :
    ({ t with store := x } : State).Answered p st a := by
  cases p <;> exact ⟨h.cell, h.state, h.status, h.length, h.bytes, h.free, h.attn⟩

theorem AdoptDone.of_store {p : Port} (x : Store) (h : AdoptDone s t p) : AdoptDone s { t with store := x } p := by
  cases p <;> exact ⟨h.adopted, h.dirty, h.counts, h.shown, h.reader, h.others, h.started, h.kept⟩

theorem Effect.adoptBase {l : List Field} {b : List Law} (h : Effect l b s t) (p : Port)
    (hf : ∀ f ∈ [Field.reader, .adoption, .passTimer, .silenceDue, .ride], f ∉ l := by decide) : AdoptBase s t p where
  reader := h.reader (hf _ (by decide))
  adopted := (h.adoption p (hf _ (by decide))).1
  timers := ⟨h.onPort p .passTimer (hf _ (by decide)), h.onPort p .silenceDue (hf _ (by decide))⟩
  ride := by rw [h.ride (hf _ (by decide))]

theorem Effect.sectorCount {l : List Field} {b : List Law} (h : Effect l b s t) (st : SectorState)
    (hf : Field.sectors ∉ l := by decide) : t.sectorCount st = s.sectorCount st := by
  rw [State.sectorCount, (h.sectors hf).1, State.sectorCount]

theorem State.dropRetErase_waiting (h : s.store.retErase = .waiting) : s.dropRetErase =
    ({ s with store := { s.store with retErase := .nothing } } : State).reportRetainedErase .storeFault := by
  rw [State.dropRetErase, h]

/-- A store that fails answers the retained erase that waits (R126, R129). -/
theorem State.failStore_erase {p : Port} (hc : s.MemoriesCanonical) (hw : s.store.retErase = .waiting)
    (h : s.exec.taken = some (.eraseRetained p)) : s.failStore.Answered p .storeFault [byteOf s.retainedCount] := by
  have su := s.failTold_effect
  have taken : s.failTold.exec.taken = some (.eraseRetained p) := by rw [su.exec]; exact h
  have hx : s.failTold.reportClear false = s.failTold :=
    State.reportClear_else false (by rw [taken]; nofun) (by rw [taken]; nofun)
  have waits : s.failTold.store.retErase = .waiting := by rw [State.failTold_state]; exact hw
  have hu : s.failTold.MemoriesCanonical := su.keeps .memories (by decide) hc
  have count : s.failTold.retainedCount = s.retainedCount := by
    rw [State.retainedCount, State.failTold_state, State.retainedCount]
  rw [State.failStore_eq, hx, State.dropRetErase_waiting waits, ← count]
  generalize s.failTold = u at *
  let w : State := { u with store := { u.store with retErase := .nothing } }
  have hwc : w.MemoriesCanonical := hu.of_same rfl rfl
  show State.Answered (w.reportRetainedErase .storeFault) p .storeFault [byteOf w.retainedCount]
  rw [State.reportRetainedErase_waiting (s := w) .storeFault taken]
  exact State.complete_answered hwc p .storeFault [byteOf w.retainedCount]

/-- Entry to FAILED, as R125, R126, R129 and R147 say. -/
theorem State.storeFails_failStore (hc : s.MemoriesCanonical) : StoreFails s s.failStore s.pub.writeCount := by
  let u := s.failTold
  let v := u.reportClear false
  have su := s.failTold_effect
  have uv := u.reportClear_effect false
  have vt := v.dropRetErase_effect
  have hu : u.MemoriesCanonical := su.keeps .memories (by decide) hc
  have hv : v.MemoriesCanonical := uv.keeps .memories (by decide) hu
  have store : s.failStore.store = { s.store with state := .failed, retErase := droppedErase s.store.retErase } := by
    rw [State.failStore_eq, State.dropRetErase_store, uv.store_eq, State.failTold_state]
  have base (p : Port) : AdoptBase s u p := su.adoptBase p
  have count : s.failStore.sectorCount .retired = s.sectorCount .retired := by
    rw [State.sectorCount, store, State.sectorCount]
  have answers {p : Port} {a : List Byte} {st : Status} (h : v.Answered p st a) : s.failStore.Answered p st a := by
    obtain ⟨x, hx⟩ := State.dropRetErase_free h.free
    rw [State.failStore_eq, hx]
    exact h.of_store x
  refine ⟨by rw [store], ?_, ?_, by rw [store]; exact ⟨rfl, rfl, rfl, rfl⟩, fun p a h => ?_, fun p n a h => ?_, ?_,
    fun p hw h => ?_, fun h1 h2 h3 => ?_⟩
  · rw [count]
    refine (State.failTold_entry hc).of_rd fun x h1 h2 => ?_
    rw [State.failStore_eq, State.rd_dropRetErase hv (by omega), State.rd_reportClear hu false (by omega) (by omega)]
  · exact (vt.keeps .view (by decide)) (uv.keeps .view (by decide) rfl)
  · have hx : v = u.complete p .storeFault a := State.reportClear_clear false (su.exec ▸ h)
    refine answers ?_
    rw [hx]
    exact State.complete_answered hu p .storeFault a
  · have taken : u.exec.taken = some (.adopt p n a) := by rw [su.exec]; exact h
    have hx : v = u.completeAdopt p true a := State.reportClear_lost taken
    have done : v.Answered p .storeFault a := by rw [hx]; exact State.completeAdopt_answered hu p true a
    refine ⟨answers done, ?_⟩
    obtain ⟨x, ht⟩ := State.dropRetErase_free done.free
    rw [State.failStore_eq, ht, hx]
    exact ((State.completeAdopt_done hu true a (by rw [taken]; rfl)).of_base (base p)).of_store x
  · rw [store]
    cases s.store.retErase <;> rfl
  · exact State.failStore_erase hc hw h
  · have hx : v = u := State.reportClear_else false (by rw [su.exec]; exact h1) (by rw [su.exec]; exact h2)
    rw [State.failStore_eq, show u.reportClear false = u from hx, ← su.exec]
    unfold State.dropRetErase
    split
    · next hw =>
      rw [State.failTold_state] at hw
      rw [State.reportRetainedErase_else]
      intro p
      show u.exec.taken ≠ _
      rw [su.exec]
      exact h3 hw p
    all_goals rfl

/-- What entry to FAILED does, told of an earlier state that differs in nothing it speaks of. -/
theorem StoreFails.of_effect {l : List Field} {b : List Law} {n : Word} (h : StoreFails u t n) (he : Effect l b s u)
    (hf : ∀ f ∈ [Field.reader, .adoption, .passTimer, .silenceDue, .ride, .marks, .logQueue, .retQueue, .exec, .retErase,
      .retained], f ∉ l := by decide) : StoreFails s t n := by
  have ride := he.ride (hf _ (by decide))
  have exec := he.exec (hf _ (by decide))
  have marks := he.marks (hf _ (by decide))
  have retErase := he.retErase (hf _ (by decide))
  have log := he.logQueue (hf _ (by decide))
  have ret := he.retQueue (hf _ (by decide))
  have count : u.retainedCount = s.retainedCount := by
    rw [State.retainedCount, he.retained (hf _ (by decide)), State.retainedCount]
  have base (p : Port) := he.adoptBase p fun f hm => hf f (by revert f; decide)
  refine ⟨h.state, ?_, h.dirty, ?_, fun p a hx => h.clears p a (exec ▸ hx), fun p k a hx => ?_, ?_, fun p hw hx => ?_,
    fun h1 h2 h3 => ?_⟩
  · rw [← ride]; exact h.entry
  · obtain ⟨m1, m2, m3, m4⟩ := h.marks
    exact ⟨m1.trans marks.1, m2.trans marks.2, m3.trans log, m4.trans ret⟩
  · obtain ⟨a1, a2⟩ := h.adopts p k a (exec ▸ hx)
    exact ⟨a1, a2.of_base (base p)⟩
  · rw [← retErase]; exact h.dropped
  · rw [← count]; exact h.erases p (retErase ▸ hw) (exec ▸ hx)
  · rw [← exec]
    exact h.others (exec ▸ h1) (exec ▸ h2) (by rw [retErase, exec]; exact h3)

/-! ### Entries of the trail that stand -/

/-- An append leaves every entry whose place in the ring is another (R165). -/
theorem State.TrailEntry.append (hc : s.MemoriesCanonical) {n : Word} {bytes : List Byte} (h : s.TrailEntry n bytes)
    (hn : n.toNat % 64 ≠ s.pub.writeCount.toNat % 64) (k : TrailKind) (a b c : Byte) :
    (s.append k a b c).TrailEntry n bytes := by
  intro i hi
  have base : Config.trailBase = 0x0400 := rfl
  have ring : s.ringAddr = 0x0400 + 8 * (s.pub.writeCount.toNat % 64) := rfl
  have lt : n.toNat % 64 < 64 := Nat.mod_lt _ (by decide)
  rw [State.rd_append hc, if_neg (by omega), if_neg (by omega), if_neg (by omega), if_neg (by omega), State.rd_makeRoom hc]
  split
  · rw [if_neg (by omega), if_neg (by omega), if_neg (by omega), if_neg (by omega)]
    exact h i hi
  · exact h i hi

theorem word_succ_mod (w : Word) : w.toNat % 64 ≠ (w + 1).toNat % 64 := by
  have := w.isLt
  have one : (1 : Word).toNat = 1 := rfl
  rw [BitVec.toNat_add, one]
  omega

/-- Entry to FAILED leaves the entries before its own (R125). -/
theorem State.TrailEntry.failStore (hc : s.MemoriesCanonical) {n : Word} {bytes : List Byte} (h : s.TrailEntry n bytes)
    (hn : n.toNat % 64 ≠ s.pub.writeCount.toNat % 64) : s.failStore.TrailEntry n bytes := by
  let v : State := { s with store := { s.store with state := .failed } }
  have hv : v.MemoriesCanonical := hc.of_same rfl rfl
  have told : s.failTold.TrailEntry n bytes :=
    (State.TrailEntry.append hv (s := v) h hn .storeFailed 0xFF (byteOf (s.sectorCount .retired)) 0).of_ram rfl
  have hu : s.failTold.MemoriesCanonical := s.failTold_effect.keeps .memories (by decide) hc
  have hw := (s.failTold.reportClear_effect false).keeps .memories (by decide) hu
  refine told.of_rd fun x h1 h2 => ?_
  rw [State.failStore_eq, State.rd_dropRetErase hw (by omega), State.rd_reportClear hu false (by omega) (by omega)]

/-! ### Retirement (R125) -/

/-- What a retirement of sector `k` leaves, `s` the state before it: the sector and flash, STORE_DEGRADED as entry
`s.pub.writeCount`, and a FAILED store where fewer than 4 sectors remain. -/
structure Retired (k : Fin 16) (line : Marred) (s t : State) : Prop where
  sector : t.store.sectors[k] = { state := .retired, marked := false, firstSeq := none, used := 0 }
  flash  : t.flash = Memory.writeBytes flashDefault s.flash (sectorAddr k 2040) (readBack (List.replicate 8 0x00) line)
  store  : t.store.erase = s.store.erase ∧ t.store.compaction = s.store.compaction
  dirty  : t.pub.dirty = true
  entry  : t.TrailEntry s.pub.writeCount
    (trailBytes s.ride.number s.ride.time 0xFF .storeDegraded (byteOf (t.sectorCount .retired)) 0)
  fails  : 16 - t.sectorCount .retired < 4 → StoreFails s t (s.pub.writeCount + 1)
  stays  : 4 ≤ 16 - t.sectorCount .retired → t.store.state = s.store.state ∧ t.store.retErase = s.store.retErase ∧
    t.exec = s.exec ∧ t.pub.writeCount = s.pub.writeCount + 1
  faults : SameFaults s t

/-- The retire line programmed and the sector RETIRED (R125). -/
def State.lineRetired (k : Fin 16) (line : Marred) (s : State) : State :=
  (s.program (sectorAddr k (8 * Config.retireLine)) (readBack (List.replicate 8 0x00) line)).setSector k
    { state := .retired, marked := false, firstSeq := none, used := 0 }

/-- The retirement up to STORE_DEGRADED (R125). -/
def State.degraded (k : Fin 16) (line : Marred) (s : State) : State :=
  ((s.lineRetired k line).markView).appendPart .storeDegraded (byteOf ((s.lineRetired k line).sectorCount .retired))

theorem State.retire_eq (k : Fin 16) (line : Marred) : s.retire k line =
    if 16 - (s.degraded k line).sectorCount .retired < 4 then (s.degraded k line).failStore else s.degraded k line := rfl

theorem State.lineRetired_store (k : Fin 16) (line : Marred) : (s.lineRetired k line).store = { s.store with
    sectors := s.store.sectors.set k { state := .retired, marked := false, firstSeq := none, used := 0 } } := rfl

theorem State.lineRetired_flash (k : Fin 16) (line : Marred) : (s.lineRetired k line).flash =
    Memory.writeBytes flashDefault s.flash (sectorAddr k 2040) (readBack (List.replicate 8 0x00) line) := rfl

theorem State.lineRetired_effect (k : Fin 16) (line : Marred) : Effect [.flash, .sectors] [] s (s.lineRetired k line) :=
  (s.program_effect (sectorAddr k (8 * Config.retireLine)) (readBack (List.replicate 8 0x00) line)).step
    (State.setSector_effect _ k { state := .retired, marked := false, firstSeq := none, used := 0 })

theorem State.degraded_told (k : Fin 16) (line : Marred) :
    Effect [.dirty, .ram, .trail, .attn] [] (s.lineRetired k line) (s.degraded k line) :=
  (State.markView_effect _).step (State.appendPart_effect _ _ _)

theorem State.degraded_effect (k : Fin 16) (line : Marred) :
    Effect [.flash, .sectors, .dirty, .ram, .trail, .attn] [] s (s.degraded k line) :=
  (s.lineRetired_effect k line).step (s.degraded_told k line)

theorem State.degraded_entry (hc : s.MemoriesCanonical) (k : Fin 16) (line : Marred) :
    (s.degraded k line).TrailEntry s.pub.writeCount (trailBytes s.ride.number s.ride.time 0xFF .storeDegraded
      (byteOf ((s.degraded k line).sectorCount .retired)) 0) := by
  have h1 := (s.lineRetired_effect k line).keeps .memories (by decide) hc
  have h2 : (s.lineRetired k line).markView.MemoriesCanonical := h1.of_same rfl rfl
  rw [(s.degraded_told k line).sectorCount]
  exact State.append_trailEntry h2 .storeDegraded 0xFF (byteOf ((s.lineRetired k line).sectorCount .retired)) 0

theorem State.degraded_pub (k : Fin 16) (line : Marred) :
    (s.degraded k line).pub.writeCount = s.pub.writeCount + 1 ∧ (s.degraded k line).pub.dirty = true := by
  have h := State.append_publisher (s.lineRetired k line).markView .storeDegraded 0xFF
    (byteOf ((s.lineRetired k line).sectorCount .retired)) 0
  exact ⟨h.1, h.2.1⟩

theorem State.retire_retired (hc : s.MemoriesCanonical) (k : Fin 16) (line : Marred) : Retired k line s (s.retire k line) := by
  have he := s.degraded_effect k line
  have told := s.degraded_told k line
  have entry := State.degraded_entry hc k line
  obtain ⟨writeCount, dirty⟩ := s.degraded_pub k line
  have hu : (s.degraded k line).MemoriesCanonical := he.keeps .memories (by decide) hc
  have store := told.store_eq.trans (s.lineRetired_store k line)
  have flash := told.flash.trans (s.lineRetired_flash k line)
  rw [State.retire_eq]
  generalize s.degraded k line = u at *
  clear told
  have sector : u.store.sectors[k] = { state := .retired, marked := false, firstSeq := none, used := 0 } := by
    rw [store]
    simp
  split
  · next hlt =>
    have fs := u.failStore_effect
    have keep : u.failStore.sectorCount .retired = u.sectorCount .retired := fs.sectorCount _
    refine ⟨?_, fs.flash.trans flash, ?_, fs.keeps .view (by decide) dirty, ?_, fun _ => ?_, fun h => ?_, ?_⟩
    · rw [fs.sectors.1]; exact sector
    · rw [fs.erase, fs.sectors.2.2.2, store]; exact ⟨rfl, rfl⟩
    · rw [keep]
      refine entry.failStore hu ?_
      rw [writeCount]
      exact word_succ_mod _
    · rw [← writeCount]
      exact (State.storeFails_failStore hu).of_effect he
    · rw [keep] at h
      omega
    · exact ⟨fs.quals.trans he.quals, fs.records.trans he.records, fs.frames.trans he.frames⟩
  · next hge =>
    refine ⟨sector, flash, ?_, dirty, entry, fun h => absurd h hge, fun _ => ⟨?_, ?_, he.exec, writeCount⟩, he.sameFaults⟩
    · rw [store]; exact ⟨rfl, rfl⟩
    · rw [store]
    · rw [store]

/-! ### Erases (R122) -/

/-- Flash after an erase of log sector `k` that left this residue (R122). -/
def erasedSector (flash : Memory) (k : Fin 16) (residue : Marred) : Memory :=
  writeCells (Memory.clear flash (sectorAddr k 0) (sectorAddr k 0 + 2048)) (sectorAddr k 0) 2048 residue

theorem wf_erasedSector {flash : Memory} (h : Memory.wf flashDefault flash = true) (k : Fin 16) (residue : Marred) :
    Memory.wf flashDefault (erasedSector flash k residue) = true := wf_writeCells _ _ _ _ (Memory.wf_clear _ _ _ _ h)

/-- The end of an erase up to the sector's reading (R122). -/
def State.eraseOver (k : Fin 16) (residue : Marred) (s : State) : State :=
  { s with flash := erasedSector s.flash k residue, store := { s.store with erase := none, compaction := none } }

theorem State.endErase_eq (k : Fin 16) (residue line : Marred) : s.endErase k residue line =
    if allBlank (sectorBytes (erasedSector s.flash k residue) k) = true then
      ((s.eraseOver k residue).setSector k { state := .erased, marked := false, firstSeq := none, used := 0 }).markView
    else (s.eraseOver k residue).retire k line := rfl

theorem State.eraseOver_effect (k : Fin 16) (residue : Marred) :
    Effect [.flash, .sectors, .erase] [] s (s.eraseOver k residue) := by
  have h1 : Effect [.flash] [] s { s with flash := erasedSector s.flash k residue } :=
    Effect.setFlash s _ fun h => wf_erasedSector h k residue
  exact h1.step (Effect.setStore { s with flash := erasedSector s.flash k residue }
    { s.store with erase := none, compaction := none } (l := [.sectors, .erase])
      fun f hf => by cases f <;> simp_all [Field.onStore])

/-- A retirement, told of the state before the command that made it: `u` is that state with no compaction and no erase,
and with flash as the command left it. -/
theorem Retired.of_effect {k : Fin 16} {line : Marred} {l : List Field} {b : List Law} (h : Retired k line u t)
    (he : Effect l b s u) (hf : ∀ f ∈ [Field.reader, .adoption, .passTimer, .silenceDue, .ride, .marks, .logQueue,
      .retQueue, .exec, .retErase, .retained, .trail, .storeState], f ∉ l := by decide) (he0 : u.store.erase = none)
    (hc0 : u.store.compaction = none) :
    t.store.sectors[k] = { state := .retired, marked := false, firstSeq := none, used := 0 } ∧
    t.flash = Memory.writeBytes flashDefault u.flash (sectorAddr k 2040) (readBack (List.replicate 8 0x00) line) ∧
    t.store.erase = none ∧ t.store.compaction = none ∧ t.pub.dirty = true ∧
    t.TrailEntry s.pub.writeCount (trailBytes s.ride.number s.ride.time 0xFF .storeDegraded
      (byteOf (t.sectorCount .retired)) 0) ∧
    (16 - t.sectorCount .retired < 4 → StoreFails s t (s.pub.writeCount + 1)) ∧
    (4 ≤ 16 - t.sectorCount .retired → t.store.state = s.store.state ∧ t.store.retErase = s.store.retErase ∧
      t.exec = s.exec ∧ t.pub.writeCount = s.pub.writeCount + 1) := by
  have count := (he.trail (hf _ (by decide))).1
  have entry := h.entry
  rw [count, he.ride (hf _ (by decide))] at entry
  refine ⟨h.sector, h.flash, h.store.1.trans he0, h.store.2.trans hc0, h.dirty, entry, fun hlt => ?_, fun hge => ?_⟩
  · have := (h.fails hlt).of_effect he fun f hm => hf f (by revert f; decide)
    rwa [count] at this
  · obtain ⟨h1, h2, h3, h4⟩ := h.stays hge
    exact ⟨h1.trans (he.storeState (hf _ (by decide))), h2.trans (he.retErase (hf _ (by decide))),
      h3.trans (he.exec (hf _ (by decide))), h4.trans (by rw [count])⟩

/-- Settles O46: the erase phase and the erase's end, each an erase or a retirement. -/
theorem erasePhaseAndEraseEnd : Obligations.ErasePhaseAndEraseEnd := by
  intro k residue line s hr hc erased retired due
  have due_iff : s.erasePhaseDue k = true ↔ due := s.erasePhaseDue_iff k
  have phase (h : s.store.compaction = some k) : exec (.erasePhaseStart line) s =
      arises (s.erasePhaseDue k) s (s.erasePhase k line) := by
    show execErasePhaseStart line s = _
    simp only [execErasePhaseStart, h]
  refine ⟨fun h => ?_, fun hk hd hm => ?_, fun hk hd hm => ?_, fun he => ⟨fun h o ho => ?_, fun hb => ?_, fun hb => ?_⟩⟩
  · rcases h with h | ⟨h, hn⟩
    · show execErasePhaseStart line s = _
      simp only [execErasePhaseStart, h]
    · rw [phase h]
      exact arises_of_not fun x => hn (due_iff.mp x)
  · rw [phase hk, State.erasePhase, if_neg (by rw [hm]; decide)]
    exact arises_pos _ _ _ hr (due_iff.mpr hd)
  · let u : State := { s with store := { s.store with compaction := none } }
    have hu : u.MemoriesCanonical := hc.of_same rfl rfl
    have hret := State.retire_retired hu k line
    have h3 := hd.2.2.1
    refine ⟨u.retire k line, ?_, hret.of_effect (s.setCompaction_effect none) (by decide) h3 rfl, ?_⟩
    · rw [phase hk, State.erasePhase, if_pos hm]
      exact arises_pos _ _ _ hr (due_iff.mpr hd)
    · exact ⟨hret.faults.quals, hret.faults.records, hret.faults.frames⟩
  · subst h
    have hlt : sectorAddr k 0 ≤ sectorAddr k o ∧ sectorAddr k o < sectorAddr k 0 + 2048 := by
      simp only [sectorAddr]
      omega
    show Memory.read flashDefault (Memory.clear _ _ _) _ = _
    rw [Memory.read_clear, if_pos hlt]
    rfl
  all_goals
    have run : exec (.eraseEnd residue line) s = .next (s.endErase k residue line) := by
      show execEraseEnd residue line s = _
      simp only [execEraseEnd, he]
      exact arises_pos _ _ _ hr rfl
    rw [State.endErase_eq] at run
  · rw [show erasedSector s.flash k residue = erased from rfl, if_pos hb] at run
    exact ⟨_, run, rfl, rfl, rfl, rfl, ⟨rfl, rfl, rfl⟩⟩
  · rw [show erasedSector s.flash k residue = erased from rfl, if_neg (by rw [hb]; decide)] at run
    have hover := s.eraseOver_effect k residue
    have hu : (s.eraseOver k residue).MemoriesCanonical := hover.keeps .memories (by decide) hc
    have hret := State.retire_retired hu k line
    exact ⟨_, run, hret.of_effect hover (by decide) rfl rfl,
      ⟨hret.faults.quals, hret.faults.records, hret.faults.frames⟩⟩

end Sys2Proof.Machine
end

