-- ==== Sys2Proof/Proofs/Imaging.lean ====
section
/-!
PROOFS. Images begun and ended (R113 to R116, R124, R125): where they go, what they take, and their read-back.
-/

-- Proofs in the order of the text: those that elaborate default tactic arguments at once wait for each other.
set_option Elab.async false

namespace Sys2Proof.Machine

variable {s t u : State}

/-! ### Sectors (R110, R124) -/

theorem find?_eq_some_of_keys {α : Type} {key : α → Nat} {l : List α} (h : l.Pairwise fun a b => key a < key b)
    (f : α → Bool) (a : α) : l.find? f = some a ↔ a ∈ l ∧ f a = true ∧ ∀ b ∈ l, key b < key a → f b = false := by
  induction l with
  | nil => simp
  | cons x l ih =>
    obtain ⟨hx, hl⟩ := List.pairwise_cons.mp h
    rw [List.find?_cons]
    cases hf : f x with
    | true =>
      simp only [Option.some.injEq]
      constructor
      · rintro rfl
        refine ⟨List.mem_cons_self, hf, fun b hb hlt => ?_⟩
        rcases List.mem_cons.mp hb with rfl | hb
        · omega
        · have := hx b hb
          omega
      · rintro ⟨ha, -, hmin⟩
        rcases List.mem_cons.mp ha with rfl | ha
        · rfl
        · have := hmin x List.mem_cons_self (hx a ha)
          rw [hf] at this
          cases this
    | false =>
      rw [ih hl]
      constructor
      · rintro ⟨ha, hfa, hmin⟩
        refine ⟨List.mem_cons_of_mem x ha, hfa, fun b hb hlt => ?_⟩
        rcases List.mem_cons.mp hb with rfl | hb
        · exact hf
        · exact hmin b hb hlt
      · rintro ⟨ha, hfa, hmin⟩
        rcases List.mem_cons.mp ha with rfl | ha
        · rw [hf] at hfa; cases hfa
        · exact ⟨ha, hfa, fun b hb => hmin b (List.mem_cons_of_mem x hb)⟩

/-- A sector's place in the order of R124. -/
def sectorPlace (last : Option (Fin 16)) (k : Fin 16) : Nat :=
  match last with
  | some o => (k.val + 15 - o.val) % 16
  | none => k.val

theorem sectorsAfter_sorted (last : Option (Fin 16)) :
    (sectorsAfter last).Pairwise fun a b => sectorPlace last a < sectorPlace last b := by
  revert last
  decide

theorem mem_sectorsAfter (last : Option (Fin 16)) (k : Fin 16) : k ∈ sectorsAfter last := by
  revert last k
  decide

theorem State.nextErased_eq_some (s : State) (k : Fin 16) : s.nextErased = some k ↔
    s.store.sectors[k].state = .erased ∧ ∀ j : Fin 16, s.store.sectors[j].state = .erased →
      sectorPlace s.store.lastOpen k ≤ sectorPlace s.store.lastOpen j := by
  rw [State.nextErased, find?_eq_some_of_keys (sectorsAfter_sorted _)]
  simp only [mem_sectorsAfter, true_and, forall_const, decide_eq_true_eq, decide_eq_false_iff_not]
  refine and_congr_right fun _ => forall_congr' fun j => ?_
  constructor
  · exact fun h hj => Nat.le_of_not_lt fun hlt => h hlt hj
  · exact fun h hlt hj => absurd (h hj) (by omega)

theorem State.openSector_eq_some (s : State) (k : Fin 16) : s.openSector = some k ↔
    s.store.sectors[k].state = .opened ∧ ∀ j : Fin 16, j < k → s.store.sectors[j].state ≠ .opened := by
  rw [State.openSector, find?_eq_some_of_sorted (List.pairwise_lt_finRange 16)]
  simp [List.mem_finRange]

theorem State.mayOpen_iff (s : State) (pressing : Bool) : s.mayOpen pressing = true ↔
    2 ≤ s.sectorCount .erased ∨ (pressing = true ∧ 1 ≤ s.sectorCount .erased) := by
  simp [State.mayOpen]

theorem State.nextErased_isSome (h : 0 < s.sectorCount .erased) : ∃ k, s.nextErased = some k := by
  obtain ⟨k, hk⟩ := (s.sectorCount_pos .erased).mp h
  cases hx : s.nextErased with
  | some j => exact ⟨j, rfl⟩
  | none =>
    rw [State.nextErased, List.find?_eq_none] at hx
    exact absurd (decide_eq_true hk) (hx k (mem_sectorsAfter _ k))

/-- Whether sectors stand in a state, where one of them has changed and stood and stands in another. -/
theorem sector_state_of_set {k : Fin 16} {c : Sector} {st : SectorState}
    (ht : t.store.sectors = s.store.sectors.set k c) (h : s.store.sectors[k].state ≠ st) (h' : c.state ≠ st) (j : Fin 16) :
    t.store.sectors[j].state = st ↔ s.store.sectors[j].state = st := by
  rw [ht]
  simp only [Fin.getElem_fin, Vector.getElem_set]
  by_cases hj : k.val = j.val
  · have : k = j := Fin.ext hj
    subst this
    simp only [if_true]
    exact iff_of_false h' h
  · rw [if_neg hj]

/-- A sector that changes its state counts under the new one, and under no third (R111). -/
theorem sectorCount_of_set {k : Fin 16} {c : Sector} {st : SectorState} (ht : t.store.sectors = s.store.sectors.set k c)
    (h : s.store.sectors[k].state ≠ st) (h' : c.state ≠ st) : t.sectorCount st = s.sectorCount st := by
  rw [State.sectorCount_eq, State.sectorCount_eq]
  congr 2
  funext j
  exact decide_eq_decide.mpr (sector_state_of_set ht h h' j)

/-- The sector that is opened next is the same where no ERASED one has changed (R124). -/
theorem nextErased_of_set {k : Fin 16} {c : Sector} (ht : t.store.sectors = s.store.sectors.set k c)
    (hl : t.store.lastOpen = s.store.lastOpen) (h : s.store.sectors[k].state ≠ .erased) (h' : c.state ≠ .erased) :
    t.nextErased = s.nextErased := by
  rw [State.nextErased, State.nextErased, hl]
  congr 1
  funext j
  exact decide_eq_decide.mpr (sector_state_of_set ht h h' j)

/-! ### Room for an image (R113, R124) -/

/-- The OPEN sector becomes FULL, where one is OPEN, when an image does not fit there. -/
def State.openFilled (s : State) : State :=
  match s.openSector with
  | some k => s.setSector k { s.store.sectors[k] with state := .full }
  | none => s

theorem State.openFilled_effect : Effect [.sectors] [] s s.openFilled := by
  unfold State.openFilled
  split
  · exact s.setSector_effect _ _
  · exact Effect.refl s

theorem State.openFilled_some {o : Fin 16} (h : s.openSector = some o) :
    s.openFilled = s.setSector o { s.store.sectors[o] with state := .full } := by
  rw [State.openFilled, h]

theorem State.openFilled_none (h : s.openSector = none) : s.openFilled = s := by
  rw [State.openFilled, h]

theorem State.openFilled_sectorCount (st : SectorState) (h : st ≠ .opened) (h' : st ≠ .full) :
    s.openFilled.sectorCount st = s.sectorCount st := by
  cases ho : s.openSector with
  | none => rw [State.openFilled_none ho]
  | some o =>
    rw [State.openFilled_some ho]
    exact sectorCount_of_set rfl (by rw [((s.openSector_eq_some o).mp ho).1]; exact h.symm) h'.symm

theorem State.openFilled_nextErased : s.openFilled.nextErased = s.nextErased := by
  cases ho : s.openSector with
  | none => rw [State.openFilled_none ho]
  | some o =>
    rw [State.openFilled_some ho]
    exact nextErased_of_set rfl rfl (by rw [((s.openSector_eq_some o).mp ho).1]; nofun) nofun

theorem State.openFilled_mayOpen (pressing : Bool) : s.openFilled.mayOpen pressing = s.mayOpen pressing := by
  have := s.openFilled_sectorCount .erased (by decide) (by decide)
  rw [State.mayOpen, State.mayOpen, this]

theorem State.findRoom_fits {k : Fin 16} {n : Nat} (pressing : Bool) (h : s.openSector = some k)
    (hn : s.store.sectors[k].used + n ≤ 255) : s.findRoom n pressing = (s, some k) := by
  simp only [State.findRoom, h]
  rw [if_pos (by simpa [Config.retireLine] using hn)]

theorem State.findRoom_new {n : Nat} (pressing : Bool)
    (hn : ∀ o, s.openSector = some o → 255 < s.store.sectors[o].used + n) :
    s.findRoom n pressing = s.openFilled.openNew pressing := by
  cases h : s.openSector with
  | some k =>
    have full : ¬s.store.sectors[k].used + n ≤ Config.retireLine := Nat.not_le.mpr (hn k h)
    rw [State.openFilled_some h]
    simp only [State.findRoom, h]
    rw [if_neg full]
  | none =>
    rw [State.openFilled_none h]
    simp only [State.findRoom, h]

theorem State.openNew_opens {k : Fin 16} {pressing : Bool} (h : s.mayOpen pressing = true) (hk : s.nextErased = some k) :
    s.openNew pressing = (s.openAt k, some k) := by
  rw [State.openNew, if_pos h, hk]

theorem State.openNew_fails {pressing : Bool} (h : s.sectorCount .erased = 0)
    (hp : pressing = true ∨ s.sectorCount .full = 0) : s.openNew pressing = (s.failStore, none) := by
  rw [State.openNew, if_neg, if_pos ⟨h, hp⟩]
  rw [s.mayOpen_iff]
  omega

theorem State.openNew_waits {pressing : Bool} (h : ¬s.mayOpen pressing = true)
    (hp : ¬(s.sectorCount .erased = 0 ∧ (pressing = true ∨ s.sectorCount .full = 0))) :
    s.openNew pressing = (s, none) := by
  rw [State.openNew, if_neg h, if_neg hp]

/-! ### An image begun (R114, R116) -/

/-- The image of a job that is begun in sector `k`. -/
def State.imageOf (s : State) (j : Job) (c : JobClass) (k : Fin 16) : ImageProgram :=
  { sector := k, line := s.store.sectors[k].used,
    bytes := imageBytes (jobKind j) s.store.nextSeq s.ride.number (s.jobBody j), redo := jobRedo j c,
    pressing := decide (c ≠ .ordinary), reports := jobReports j c }

/-- The state in which a job's image has taken its number and stands to be programmed in sector `k`. -/
def State.numbered (j : Job) (c : JobClass) (k : Fin 16) (s : State) : State :=
  { s with store := { s.store with
    sectors := s.store.sectors.set k { s.store.sectors[k] with
      firstSeq := some (s.store.sectors[k].firstSeq.getD s.store.nextSeq) },
    nextSeq := s.store.nextSeq + 1, program := some (.image (s.imageOf j c k)) } }

theorem State.beginImage_exhausted (j : Job) (c : JobClass) (h : 0xFFFFFFFF < s.store.nextSeq) :
    s.beginImage j c = s.failStore := by
  rw [State.beginImage, if_pos (by simpa [Config.maxSequence] using h)]

theorem State.beginImage_placed {k : Fin 16} (j : Job) (c : JobClass) (h : s.store.nextSeq ≤ 0xFFFFFFFF)
    (hr : s.findRoom (imageLines (jobKind j)) (decide (c ≠ .ordinary)) = (u, some k)) :
    s.beginImage j c = (u.numbered j c k).clearMarks j c := by
  rw [State.beginImage, if_neg (by simpa [Config.maxSequence] using h), hr]
  rfl

theorem State.beginImage_unplaced (j : Job) (c : JobClass) (h : s.store.nextSeq ≤ 0xFFFFFFFF)
    (hr : s.findRoom (imageLines (jobKind j)) (decide (c ≠ .ordinary)) = (u, none)) : s.beginImage j c = u := by
  rw [State.beginImage, if_neg (by simpa [Config.maxSequence] using h), hr]

/-- The marks that an image's begin clears (R116). -/
theorem State.clearMarks_spec (j : Job) (c : JobClass) : let t := s.clearMarks j c
    t.store.program = s.store.program ∧ t.store.nextSeq = s.store.nextSeq ∧ t.store.sectors = s.store.sectors ∧
      t.store.lastOpen = s.store.lastOpen ∧
      (j = .ride → t.store.rideMark = false) ∧ (j = .qualifier → t.store.qualMark = false) ∧
      (∀ it, j = .log it → c = .urgent → t.store.logQueue = s.store.logQueue.tail) ∧
      (∀ e r, j = .record e r →
        t.records = s.records.set e (some { r with dirty := false, urgent := false, persisted := true })) ∧
      t.quals = s.quals ∧ t.frames = s.frames ∧ t.slots = s.slots ∧ t.ride = s.ride ∧ t.ram = s.ram ∧ t.exec = s.exec ∧
      t.flash = s.flash ∧ (s.pub.dirty = true → t.pub.dirty = true) := by
  have he := s.clearMarks_effect j c
  refine ⟨he.program, he.sectors.2.2.1, he.sectors.1, he.sectors.2.1, ?_, ?_, fun it h hc => ?_, fun e r h => ?_, he.quals,
    he.frames, he.slots, he.ride, he.ram, he.exec, he.flash, he.keeps .view (by decide)⟩
  · rintro rfl; rfl
  · rintro rfl; rfl
  · subst h hc; rfl
  · subst h; simp [State.clearMarks]

theorem State.writerReady_of_nextImage {x : Job × JobClass} (h : s.nextImage = some x) : s.writerReady = true := by
  by_contra hn
  rw [State.nextImage, if_neg hn] at h
  cases h

/-- What an image's begin in sector `k` takes, `u` the state in which it has its room (R114, R116). -/
theorem State.numbered_begun {k : Fin 16} (j : Job) (c : JobClass) (he : Effect [.sectors, .dirty] [] s u)
    (hseq : u.store.nextSeq = s.store.nextSeq) : let t := (u.numbered j c k).clearMarks j c
    t.store.program = some (.image {
      sector := k, line := u.store.sectors[k].used,
      bytes := imageBytes (jobKind j) s.store.nextSeq s.ride.number (s.jobBody j),
      redo := jobRedo j c, pressing := decide (c ≠ .ordinary), reports := jobReports j c }) ∧
    t.store.nextSeq = s.store.nextSeq + 1 ∧
    (j = .ride → t.store.rideMark = false) ∧ (j = .qualifier → t.store.qualMark = false) ∧
    (∀ it, j = .log it → c = .urgent → t.store.logQueue = s.store.logQueue.tail) ∧
    (∀ e r, j = .record e r →
      t.records = s.records.set e (some { r with dirty := false, urgent := false, persisted := true })) ∧
    t.quals = s.quals ∧ t.frames = s.frames ∧ t.slots = s.slots ∧ t.ride = s.ride ∧ t.ram = s.ram ∧ t.exec = s.exec ∧
    t.flash = s.flash := by
  obtain ⟨h1, h2, -, -, h5, h6, h7, h8, h9, h10, h11, h12, h13, h14, h15, -⟩ := (u.numbered j c k).clearMarks_spec j c
  have body : u.jobBody j = s.jobBody j := by
    cases j with
    | ride => rfl
    | qualifier => rw [State.jobBody, he.quals, State.jobBody]
    | record e r => rw [State.jobBody, he.frames, State.jobBody]
    | log it => rfl
  refine ⟨h1.trans ?_, ?_, h5, h6, fun it hj hc => (h7 it hj hc).trans ?_, fun e r hj => (h8 e r hj).trans ?_,
    h9.trans he.quals, h10.trans he.frames, h11.trans he.slots, h12.trans he.ride, h13.trans he.ram, h14.trans he.exec,
    h15.trans he.flash⟩
  · show some (Program.image (u.imageOf j c k)) = _
    rw [State.imageOf, body, hseq, he.ride]
  · rw [h2, ← hseq]
    rfl
  · show u.store.logQueue.tail = _
    rw [he.logQueue]
  · show u.records.set e _ = _
    rw [he.records]

/-- Settles O43: where the image goes, by what is OPEN and ERASED, and what its begin takes. -/
theorem imageBeginTakesOneCopy : Obligations.ImageBeginTakesOneCopy := by
  refine ⟨fun s => ⟨s.sectorCount_eq, s.mayOpen_iff, s.nextErased_eq_some, s.openSector_eq_some, fun h => ?_⟩,
    fun j c s hn => ?_⟩
  · show execImageBegin s = _
    simp only [execImageBegin, h]
  · intro n pressing begun
    have run : exec .imageBegin s = .next (s.beginImage j c) := by
      show execImageBegin s = _
      simp only [execImageBegin, hn]
    have ready := (s.writerReady_iff).mp (State.writerReady_of_nextImage hn)
    refine ⟨fun k hseq ho hfit => ?_, fun k hseq hno hmay hk => ?_, ?_⟩
    · rw [State.beginImage_placed j c hseq (State.findRoom_fits _ ho hfit)] at run
      refine ⟨_, run, State.numbered_begun j c (Effect.refl s) rfl, ?_⟩
      exact ((s.numbered j c k).clearMarks_spec j c).2.2.1
    · let u := s.openFilled.openAt k
      have filled := s.openFilled_effect
      have opened := s.openFilled.openAt_effect k
      have room : s.findRoom n pressing = (u, some k) := by
        rw [State.findRoom_new _ hno, State.openNew_opens (by rw [State.openFilled_mayOpen]; exact hmay)
          (by rw [State.openFilled_nextErased]; exact hk)]
      have erased := ((s.nextErased_eq_some k).mp hk).1
      have other {o : Fin 16} (h : s.openSector = some o) : o ≠ k := by
        rintro rfl
        rw [((s.openSector_eq_some o).mp h).1] at erased
        cases erased
      rw [State.beginImage_placed j c hseq room] at run
      have he : Effect [.sectors, .dirty] [] s u := filled.step opened
      have seq : u.store.nextSeq = s.store.nextSeq := by
        show s.openFilled.store.nextSeq = _
        cases ho : s.openSector with
        | none => rw [State.openFilled_none ho]
        | some o => rw [State.openFilled_some ho]; rfl
      have usector : u.store.sectors = s.openFilled.store.sectors.set k
          { state := .opened, marked := false, firstSeq := none, used := 0 } := rfl
      have begunAt := State.numbered_begun (k := k) j c he seq
      obtain ⟨-, -, sectors, lastOpen, -, -, -, -, -, -, -, -, -, -, -, dirty⟩ := (u.numbered j c k).clearMarks_spec j c
      have used : u.store.sectors[k].used = 0 := by rw [usector]; simp
      rw [used] at begunAt
      have tsector (o : Fin 16) (h : o ≠ k) : (u.numbered j c k).store.sectors[o] = s.openFilled.store.sectors[o] := by
        have hv : k.val ≠ o.val := fun e => h (Fin.ext e).symm
        show (u.store.sectors.set k _)[o] = _
        rw [usector]
        simp only [Fin.getElem_fin]
        rw [Vector.getElem_set_ne _ _ hv, Vector.getElem_set_ne _ _ hv]
      refine ⟨_, run, begunAt, lastOpen, dirty rfl, ?_, fun o ho => ?_, fun o h1 h2 => ?_⟩
      · rw [sectors]
        show (u.store.sectors.set k _)[k] = _
        rw [seq, usector]
        simp
      · rw [sectors, tsector o (other ho), State.openFilled_some ho]
        simp [State.setSector]
      · rw [sectors, tsector o h1]
        cases ho : s.openSector with
        | none => rw [State.openFilled_none ho]
        | some x =>
          have hx : x.val ≠ o.val := fun e => h2 (by rw [ho, Fin.ext e])
          rw [State.openFilled_some ho]
          simp only [State.setSector, Fin.getElem_fin]
          rw [Vector.getElem_set_ne _ _ hx]
    · intro failing noRoom
      have fails {u : State} (hc : s.MemoriesCanonical) (he : Effect [.sectors] [] s u)
          (hret : u.sectorCount .retired = s.sectorCount .retired) : failing u.failStore := by
        have hu : u.MemoriesCanonical := he.keeps .memories (by decide) hc
        have fs := u.failStore_effect
        have store := (State.storeFails_failStore hu).of_effect he
        rw [he.trail.1] at store
        refine ⟨store, ?_, fs.flash.trans he.flash, ⟨fs.quals.trans he.quals, fs.records.trans he.records,
          fs.frames.trans he.frames⟩, (fs.sectorCount _).trans hret, fs.slots.trans he.slots, fs.ride.trans he.ride⟩
        rw [fs.program, he.program]
        exact ready.2.2.2.1
      refine ⟨fun hc hseq => ?_, fun hc hseq hno h0 hwhy => ?_, fun hseq hno h2 hord hwhy => ?_⟩
      · rw [State.beginImage_exhausted j c hseq] at run
        exact ⟨_, run, fails hc (Effect.refl s) rfl⟩
      · have room : s.findRoom n pressing = (s.openFilled.failStore, none) := by
          rw [State.findRoom_new _ hno, State.openNew_fails]
          · rw [s.openFilled_sectorCount .erased (by decide) (by decide)]; exact h0
          · rcases hwhy with h | ⟨h1, h2⟩
            · exact .inl (decide_eq_true h)
            · exact .inr (by rw [State.openFilled_none h1]; exact h2)
        rw [State.beginImage_unplaced j c hseq room] at run
        exact ⟨_, run, fails hc s.openFilled_effect (s.openFilled_sectorCount .retired (by decide) (by decide))⟩
      · have notPressing : pressing = false := by simp [pressing, hord]
        have count := s.openFilled_sectorCount .erased (by decide) (by decide)
        have room : s.findRoom n pressing = (s.openFilled, none) := by
          rw [State.findRoom_new _ hno, State.openNew_waits]
          · rw [State.mayOpen_iff, count, notPressing]
            rintro (h | ⟨h, -⟩)
            · omega
            · cases h
          · rintro ⟨h0, h⟩
            rw [count] at h0
            rcases h with h | h
            · rw [notPressing] at h; cases h
            · rcases hwhy with hw | hw | hw
              · omega
              · cases ho : s.openSector with
                | none => rw [State.openFilled_none ho] at h; omega
                | some o =>
                  have : 0 < s.openFilled.sectorCount .full := (State.sectorCount_pos _ .full).mpr
                    ⟨o, by rw [State.openFilled_some ho]; simp [State.setSector]⟩
                  omega
              · obtain ⟨o, ho⟩ := Option.ne_none_iff_exists'.mp hw
                have : 0 < s.openFilled.sectorCount .full := (State.sectorCount_pos _ .full).mpr
                  ⟨o, by rw [State.openFilled_some ho]; simp [State.setSector]⟩
                omega
        rw [State.beginImage_unplaced j c hseq room] at run
        have he := s.openFilled_effect
        refine ⟨_, run, he.program.trans ready.2.2.2.1, he.storeState, ?_, he.records, he.ram, he.pub_eq, he.exec, he.flash,
          fun ho => ?_, fun o ho => ?_⟩
        · cases ho : s.openSector with
          | none => rw [State.openFilled_none ho]
          | some o => rw [State.openFilled_some ho]; rfl
        · rw [State.openFilled_none ho]
        · rw [State.openFilled_some ho]
          rfl

/-! ### An image ended (R114 to R116) -/

/-- Flash after an image's programming that read back as `got`: header line 1 only behind line 0 and the body (R114). -/
def State.imageProgrammed (p : ImageProgram) (got : List Byte) (s : State) : State :=
  let a := sectorAddr p.sector (8 * p.line)
  let s1 := (s.program a (got.take 8)).program (a + 16) (got.drop 16)
  if bodyReadsBack p.bytes got = true then s1.program (a + 8) ((got.take 16).drop 8) else s1

/-- An image's programming is over: its lines are used, nothing is being programmed (R114). -/
def State.imageOver (p : ImageProgram) (got : List Byte) (s : State) : State :=
  { s.imageProgrammed p got with store := { s.store with
    sectors := s.store.sectors.set p.sector { s.store.sectors[p.sector] with used := p.line + p.bytes.length / 8 },
    program := none } }

theorem imageReadsBack_iff {bytes got : List Byte} (hl : got.length = bytes.length) :
    (bodyReadsBack bytes got && lineReadsBack bytes got) = true ↔ got = bytes := by
  rw [Bool.and_eq_true, bodyReadsBack, lineReadsBack, Bool.and_eq_true, decide_eq_true_eq, decide_eq_true_eq,
    decide_eq_true_eq]
  constructor
  · rintro ⟨⟨h1, h2⟩, h3⟩
    have parts (l : List Byte) : l.take 8 ++ ((l.take 16).drop 8 ++ l.drop 16) = l := by
      have : l.take 8 = (l.take 16).take 8 := by rw [List.take_take]; rfl
      rw [← List.append_assoc, this, List.take_append_drop, List.take_append_drop]
    rw [← parts got, h1, h2, h3, parts]
  · rintro rfl
    exact ⟨⟨rfl, rfl⟩, rfl⟩

theorem State.imageProgrammed_only (p : ImageProgram) (got : List Byte) :
    ∃ m, s.imageProgrammed p got = { s with flash := m } := by
  unfold State.imageProgrammed
  simp only
  split <;> exact ⟨_, rfl⟩

/-- The bytes of an image's lines after its programming; line 1 stays where line 0 or the body failed (R114, R115). -/
theorem State.flashByte_imageProgrammed (hc : s.MemoriesCanonical) (p : ImageProgram) {got : List Byte}
    (hl : 16 ≤ got.length) (x : Nat) : let a := sectorAddr p.sector (8 * p.line)
    (s.imageProgrammed p got).flashByte x =
      if a ≤ x ∧ x < a + got.length ∧ (bodyReadsBack p.bytes got = true ∨ x < a + 8 ∨ a + 16 ≤ x) then
        byteAt got (x - a)
      else s.flashByte x := by
  intro a
  have h1 : (got.take 8).length = 8 := by rw [List.length_take]; omega
  have h2 : (got.drop 16).length = got.length - 16 := by rw [List.length_drop]
  have h3 : ((got.take 16).drop 8).length = 8 := by rw [List.length_drop, List.length_take]; omega
  have two := hc.program a (got.take 8)
  have body : ((s.program a (got.take 8)).program (a + 16) (got.drop 16)).flashByte x =
      if a ≤ x ∧ x < a + got.length ∧ (x < a + 8 ∨ a + 16 ≤ x) then byteAt got (x - a) else s.flashByte x := by
    rw [State.flashByte_program two, State.flashByte_program hc, h1, h2]
    by_cases hx : a + 16 ≤ x ∧ x < a + 16 + (got.length - 16)
    · rw [if_pos hx, if_pos (by omega), byteAt_drop]
      congr 1
      omega
    · rw [if_neg hx]
      by_cases hy : a ≤ x ∧ x < a + 8
      · rw [if_pos hy, if_pos (by omega), byteAt_take _ _ _ (by omega)]
      · rw [if_neg hy, if_neg (by omega)]
  unfold State.imageProgrammed
  simp only
  by_cases hb : bodyReadsBack p.bytes got = true
  · rw [if_pos hb, State.flashByte_program (two.program _ _), h3, body]
    by_cases hx : a + 8 ≤ x ∧ x < a + 8 + 8
    · rw [if_pos hx, if_pos ⟨by omega, by omega, .inl hb⟩, byteAt_drop, byteAt_take _ _ _ (by omega)]
      congr 1
      omega
    · rw [if_neg hx]
      by_cases hy : a ≤ x ∧ x < a + got.length
      · rw [if_pos ⟨hy.1, hy.2, by omega⟩, if_pos ⟨hy.1, hy.2, .inl hb⟩]
      · rw [if_neg (fun h => hy ⟨h.1, h.2.1⟩), if_neg (fun h => hy ⟨h.1, h.2.1⟩)]
  · rw [if_neg hb, body]
    simp only [hb, Bool.false_eq_true, false_or]

theorem State.endImage_eq (p : ImageProgram) (marred : Marred) : s.endImage p marred =
    let got := readBack p.bytes marred
    if (bodyReadsBack p.bytes got && lineReadsBack p.bytes got) = true then
      (if p.reports then (s.imageOver p got).reportClear true else s.imageOver p got)
    else (s.imageOver p got).failImage p := by
  obtain ⟨m, hm⟩ := s.imageProgrammed_only p (readBack p.bytes marred)
  have hs : (s.imageProgrammed p (readBack p.bytes marred)).store = s.store := by rw [hm]
  have ends : s.imageOver p (readBack p.bytes marred) =
      (let s2 := s.imageProgrammed p (readBack p.bytes marred)
       let s3 := s2.setSector p.sector { s2.store.sectors[p.sector] with used := p.line + p.bytes.length / 8 }
       ({ s3 with store := { s3.store with program := none } } : State)) := by
    simp only [State.imageOver, State.setSector, hs]
  simp only [ends]
  rfl

theorem State.imageOver_effect (p : ImageProgram) (got : List Byte) :
    Effect [.flash, .sectors, .program] [] s (s.imageOver p got) := by
  have programmed : Effect [.flash] [] s (s.imageProgrammed p got) := by
    have h := (s.program_effect (sectorAddr p.sector (8 * p.line)) (got.take 8)).trans
      (State.program_effect _ (sectorAddr p.sector (8 * p.line) + 16) (got.drop 16))
    unfold State.imageProgrammed
    simp only
    split
    · exact h.trans (State.program_effect _ _ _)
    · exact h
  obtain ⟨m, hm⟩ := s.imageProgrammed_only p got
  have hs : (s.imageProgrammed p got).store = s.store := by rw [hm]
  refine programmed.mono.trans (Effect.mono (l := [.sectors, .program]) (Effect.setStore _ _ fun f hf => ?_))
  rw [hs]
  cases f <;> simp_all [Field.onStore]

theorem State.reportClear_one {p : Port} {a : List Byte} (h : s.exec.taken = some (.adopt p 1 a)) :
    s.reportClear true = s.completeAdopt p false a := by
  simp only [State.reportClear, h]
  rfl

theorem State.reportClear_more {p : Port} {n : Nat} {a : List Byte} (h : s.exec.taken = some (.adopt p (n + 2) a)) :
    s.reportClear true = { s with exec := { s.exec with taken := some (.adopt p (n + 1) a) } } := by
  simp only [State.reportClear, h]
  rw [if_pos trivial, if_neg (by omega)]
  rfl

/-- A clear reported written: its request is answered, or ADOPT waits for one fewer (R145, R147). -/
theorem State.reportClear_written (hc : s.MemoriesCanonical) (q : Port) (answer : List Byte) :
    let t := s.reportClear true
    (s.exec.taken = some (.clear q answer) → t.Answered q .ok answer) ∧
    (s.exec.taken = some (.adopt q 1 answer) → t.Answered q .ok answer ∧ AdoptDone s t q) ∧
    ∀ n, s.exec.taken = some (.adopt q (n + 2) answer) →
      t.exec = { s.exec with taken := some (.adopt q (n + 1) answer) } ∧ t.ram = s.ram := by
  refine ⟨fun h => ?_, fun h => ?_, fun n h => ?_⟩
  · rw [State.reportClear_clear true h]
    exact State.complete_answered hc q .ok answer
  · rw [State.reportClear_one h]
    exact ⟨State.completeAdopt_answered hc q false answer,
      State.completeAdopt_done hc false answer (by rw [h]; rfl)⟩
  · rw [State.reportClear_more h]
    exact ⟨rfl, rfl⟩

/-- What the remark of a failed image brings back (R115). -/
theorem State.remark_spec (r : Redo) : let t := s.remark r
    (r = .ride → t.store.rideMark = true) ∧ (r = .qualifier → t.store.qualMark = true) ∧
    (∀ it, r = .item it → t.store.logQueue = s.store.logQueue ++ [it]) ∧
    ∀ e x u, r = .record e true u → s.Holds e x →
      ∃ x', t.Holds e x' ∧ x'.dirty = true ∧ (u = true → x'.urgent = true) ∧ x'.persisted = x.persisted := by
  refine ⟨?_, ?_, ?_, ?_⟩
  · rintro rfl
    show s.markRide.store.rideMark = true
    rw [State.markRide_eq]
  · rintro rfl
    show s.markQualifier.store.qualMark = true
    rw [State.markQualifier_eq]
  · rintro it rfl
    show (s.queueLog it).store.logQueue = _
    rw [State.queueLog_eq]
  · rintro e x u rfl hx
    refine ⟨x.marked (u || s.store.rideEnding), ?_, rfl, ?_, rfl⟩
    · show (s.markRecord e u).records[e] = _
      rw [State.markRecord_some (s := s) e u x hx]
      simp
    · rintro rfl
      show (x.urgent || (true || s.store.rideEnding)) = true
      simp

/-- The failed image's sector is FULL and marked, and its item is marked again; nothing is opened yet (R115). -/
def State.imageRemarked (p : ImageProgram) (s : State) : State :=
  (s.setSector p.sector { s.store.sectors[p.sector] with state := .full, marked := true }).remark p.redo

theorem State.imageRemarked_store (p : ImageProgram) :
    let t := s.imageRemarked p
    t.store.sectors = s.store.sectors.set p.sector { s.store.sectors[p.sector] with state := .full, marked := true } ∧
    t.store.lastOpen = s.store.lastOpen := by
  have he := State.remark_effect (s := s.setSector p.sector { s.store.sectors[p.sector] with state := .full, marked := true }) p.redo
  exact ⟨he.sectors.1, he.sectors.2.1⟩

theorem State.failImage_cases (p : ImageProgram) :
    ((s.imageRemarked p).mayOpen p.pressing = true ∧ ∃ k, (s.imageRemarked p).nextErased = some k ∧
      s.failImage p = (s.imageRemarked p).openAt k) ∨
    ((s.imageRemarked p).mayOpen p.pressing = false ∧ s.failImage p = s.imageRemarked p) := by
  have unfolds : s.failImage p =
      let u := s.imageRemarked p
      if u.mayOpen p.pressing = true then (u.nextErased.map u.openAt).getD u else u := by
    show (if (s.imageRemarked p).mayOpen p.pressing = true then _ else _) = _
    congr 1
    unfold State.imageRemarked
    split <;> simp_all
  rw [unfolds]
  cases hm : (s.imageRemarked p).mayOpen p.pressing with
  | false => exact .inr ⟨rfl, by simp [hm]⟩
  | true =>
    have some : 0 < (s.imageRemarked p).sectorCount .erased := by
      rw [State.mayOpen_iff] at hm
      omega
    obtain ⟨k, hk⟩ := State.nextErased_isSome some
    exact .inl ⟨rfl, k, hk, by simp [hm, hk]⟩

/-- Settles O44: the end of an image's programming, by what reads back and, where it fails, by the room for a next
sector. -/
theorem imageCompletionReadsBack : Obligations.ImageCompletionReadsBack := by
  intro p marred s hr hc hp hl got base used outside
  have hg : got.length = p.bytes.length := length_readBack _ _
  have run : exec (.imageCompletion marred) s = .next (s.endImage p marred) := by
    show execImageCompletion marred s = _
    simp only [execImageCompletion, hp]
    exact arises_pos true s _ hr rfl
  let u := s.imageOver p got
  have su : Effect [.flash, .sectors, .program] [] s u := s.imageOver_effect p got
  have hu : u.MemoriesCanonical := su.keeps .memories (by decide) hc
  have flash (x : Nat) := State.flashByte_imageProgrammed hc p (got := got) (by omega) x
  have away (x : Nat) (h : x < base ∨ base + p.bytes.length ≤ x) : u.flashByte x = s.flashByte x := by
    show (s.imageProgrammed p got).flashByte x = _
    rw [flash, if_neg (by omega)]
  have isOutside {t : State} (he : Effect (.marks :: .logQueue :: .erase :: .records :: .sectors :: .board :: .cells ::
      .exec :: adoptFields) [] u t) : outside t := by
    have e := su.step he (l := .flash :: .program :: .marks :: .logQueue :: .erase :: .records :: .sectors :: .board ::
      .cells :: .exec :: adoptFields)
    refine ⟨fun x h => ?_, he.program, e.quals, e.frames, e.slots, e.ride⟩
    rw [State.flashByte, he.flash]
    exact away x h
  refine ⟨fun good => ?_, fun bad => ?_⟩
  · have ok := (imageReadsBack_iff hg).mpr good
    have ends : s.endImage p marred = if p.reports then u.reportClear true else u := by
      rw [State.endImage_eq]
      exact if_pos ok
    have he : Effect (.board :: .cells :: .exec :: adoptFields) [] u (s.endImage p marred) := by
      rw [ends]
      split
      · exact u.reportClear_effect true
      · exact (Effect.refl u).mono (l := []) (b := [])
    refine ⟨_, run, isOutside he.mono, fun k hk => ?_, he.sectors.1, ?_, fun h => ?_, fun h q answer => ?_⟩
    · rw [State.flashByte, he.flash]
      show (s.imageProgrammed p got).flashByte (base + k) = _
      have body : bodyReadsBack p.bytes got = true := by
        rw [Bool.and_eq_true] at ok
        exact ok.1
      rw [flash, if_pos ⟨by omega, by omega, .inl body⟩, Nat.add_sub_cancel_left, good]
    · rw [he.records, su.records]
    · rw [ends, h]
      exact ⟨su.exec, su.ram, su.pub_eq⟩
    · obtain ⟨m, hm⟩ := s.imageProgrammed_only p got
      have ram : u.ram = s.ram := by
        show (s.imageProgrammed p got).ram = _
        rw [hm]
      rw [ends, if_pos h]
      obtain ⟨clear, last, more⟩ := State.reportClear_written hu q answer
      rw [su.exec, ram] at more
      rw [su.exec] at clear last
      exact ⟨clear, fun hx => ⟨(last hx).1, (last hx).2.of_base (su.adoptBase q)⟩, more⟩
  · have fails : ¬(bodyReadsBack p.bytes got && lineReadsBack p.bytes got) = true := (imageReadsBack_iff hg).not.mpr bad
    have ends : s.endImage p marred = u.failImage p := by
      rw [State.endImage_eq]
      exact if_neg fails
    rw [ends] at run
    have he := u.failImage_effect p
    let v := u.imageRemarked p
    obtain ⟨vsectors, vlast⟩ : v.store.sectors = u.store.sectors.set p.sector
        { u.store.sectors[p.sector] with state := .full, marked := true } ∧ v.store.lastOpen = u.store.lastOpen :=
      u.imageRemarked_store p
    have uv : Effect [.sectors, .marks, .logQueue, .erase, .records, .dirty] [] u v :=
      (u.setSector_effect p.sector _).step (State.remark_effect _ p.redo)
    have usector : u.store.sectors[p.sector] = { s.store.sectors[p.sector] with used := used } := by
      show (s.store.sectors.set p.sector _)[p.sector] = _
      simp
      rfl
    have vs : v.store.sectors = s.store.sectors.set p.sector
        { s.store.sectors[p.sector] with state := .full, marked := true, used := used } := by
      rw [vsectors, usector]
      show (s.store.sectors.set p.sector _).set p.sector _ = _
      simp
    have vlastOpen : v.store.lastOpen = s.store.lastOpen := vlast
    have atOpened (ho : s.store.sectors[p.sector].state = .opened) :
        v.mayOpen p.pressing = s.mayOpen p.pressing ∧ v.nextErased = s.nextErased := by
      have h1 : s.store.sectors[p.sector].state ≠ .erased := by rw [ho]; nofun
      exact ⟨by rw [State.mayOpen, sectorCount_of_set vs h1 nofun, State.mayOpen], nextErased_of_set vs vlastOpen h1 nofun⟩
    obtain ⟨ride, qual, item, record⟩ := State.remark_spec
      (s := u.setSector p.sector { u.store.sectors[p.sector] with state := .full, marked := true }) p.redo
    have vt : Effect [.sectors, .dirty] [] v (u.failImage p) := by
      rcases u.failImage_cases p with ⟨-, k, -, opens⟩ | ⟨-, stays⟩
      · rw [opens]
        exact v.openAt_effect k
      · rw [stays]
        exact (Effect.refl v).mono (l := []) (b := [])
    have failed : (v.store.sectors[p.sector]).state = .full := by rw [vs]; simp
    have opened {k : Fin 16} (hk : v.nextErased = some k) : k ≠ p.sector := by
      rintro rfl
      rw [((v.nextErased_eq_some _).mp hk).1] at failed
      cases failed
    refine ⟨_, run, isOutside he.mono, fun hb k h1 h2 => ?_, ?_, fun h => ?_, fun h => ?_, fun it h => ?_,
      fun e r x h hx => ?_, fun ho hm => ?_, fun ho hm => ?_, ?_, ?_⟩
    · rw [State.flashByte, he.flash]
      show (s.imageProgrammed p got).flashByte (base + k) = _
      rw [flash, if_neg]
      rintro ⟨-, -, h | h | h⟩
      · rw [hb] at h; cases h
      all_goals omega
    · rcases u.failImage_cases p with ⟨-, k, hk, opens⟩ | ⟨-, stays⟩
      · have : k.val ≠ p.sector.val := fun e => opened hk (Fin.ext e)
        rw [opens]
        show (v.store.sectors.set k _)[p.sector] = _
        simp only [Fin.getElem_fin]
        rw [Vector.getElem_set_ne _ _ this, vs]
        simp
      · rw [stays]
        show v.store.sectors[p.sector] = _
        rw [vs]
        simp
    · rw [vt.marks.1]; exact ride h
    · rw [vt.marks.2]; exact qual h
    · rw [vt.logQueue]; exact item it h
    · have held : u.Holds e r := by rw [State.Holds, su.records]; exact hx
      obtain ⟨r', hr'⟩ := record e r x h held
      exact ⟨r', by rw [State.Holds, vt.records]; exact hr'.1, hr'.2⟩
    · rcases u.failImage_cases p with ⟨-, k, hk, opens⟩ | ⟨no, -⟩
      · refine ⟨k, opened hk, (atOpened ho).2 ▸ hk, by rw [opens]; rfl, ?_⟩
        rw [opens]
        show (v.store.sectors.set k _)[k] = _
        simp
      · rw [show (u.imageRemarked p).mayOpen p.pressing = true from (atOpened ho).1.trans hm] at no
        cases no
    · rcases u.failImage_cases p with ⟨yes, -⟩ | ⟨-, stays⟩
      · rw [show (u.imageRemarked p).mayOpen p.pressing = false from (atOpened ho).1.trans hm] at yes
        cases yes
      · rw [stays]
        refine ⟨vlastOpen, fun k hk => ?_⟩
        have : p.sector.val ≠ k.val := fun e => hk (Fin.ext e).symm
        show v.store.sectors[k] = _
        rw [vs]
        simp only [Fin.getElem_fin]
        rw [Vector.getElem_set_ne _ _ this]
    · rw [he.exec, su.exec]
    · obtain ⟨m, hm⟩ := s.imageProgrammed_only p got
      rw [he.ram]
      show (s.imageProgrammed p got).ram = _
      rw [hm]

end Sys2Proof.Machine
end

