-- ==== Sys2Proof/Proofs/Hearing.lean ====
section
/-!
PROOFS. The accesses of a port: what reads return (R177, R179), and the silence event of every write (R98, R180).
-/

-- Proofs in the order of the text: those that elaborate default tactic arguments at once wait for each other.
set_option Elab.async false

namespace Sys2Proof.Machine

variable {s t u : State}

/-! ### Reads -/

theorem pairLowAt_eq_some (x : Nat) (f : PairField) : pairLowAt x = some f ↔ x = pairAddr f := by
  unfold pairLowAt
  cases f <;> simp only [pairAddr] <;> split_ifs <;> simp <;> omega

theorem pairLowAt_eq_none {x : Nat} (h : ∀ f, x ≠ pairAddr f) : pairLowAt x = none := by
  cases e : pairLowAt x with
  | none => rfl
  | some f => exact absurd ((pairLowAt_eq_some x f).mp e) (h f)

theorem pairHighAt_eq_some (x : Nat) (f : PairField) : pairHighAt x = some f ↔ x = pairAddr f + 1 := by
  unfold pairHighAt
  split
  · next h => simp [h]
  · rw [pairLowAt_eq_some]
    omega

/-- No field's high byte stands where another's low byte does (R179). -/
theorem pairAddr_high_ne (f g : PairField) : pairAddr f + 1 ≠ pairAddr g := by cases f <;> cases g <;> decide

theorem State.portRead_byte {p : Port} (a : Addr) (hr : s.inReset = false) (hw : (s.port p).wide = false) :
    s.portRead p a = s.setPort p { s.port p with
      readout := .byte (s.read8 p a.toNat).1, capture := (s.read8 p a.toNat).2 } := by
  simp only [State.portRead, hr, hw, accessAddr, Bool.false_eq_true, if_false]

/-- Settles O32: a read by the port's width, and by the field its address names. -/
theorem readsReturnWhatStands : Obligations.ReadsReturnWhatStands := by
  intro p a s ps
  refine ⟨fun hr hw f ha => ?_, fun hr hw f b hc ha => ?_, fun hr hw low high => ?_, fun hr hw => ?_, fun hr => ?_⟩
  · show Host.Outcome.next (s.portRead p a) = _
    rw [State.portRead_byte a hr hw, State.read8, (pairLowAt_eq_some _ f).mpr ha, ha]
  · have none : pairLowAt (pairAddr f + 1) = none := pairLowAt_eq_none fun g => pairAddr_high_ne f g
    show Host.Outcome.next (s.portRead p a) = _
    rw [State.portRead_byte a hr hw, State.read8, ha, none]
    simp only [show (s.port p).capture = some (f, b) from hc, (pairHighAt_eq_some _ f).mpr rfl, if_true]
    rfl
  · show Host.Outcome.next (s.portRead p a) = _
    rw [State.portRead_byte a hr hw, State.read8, pairLowAt_eq_none low]
    cases hc : (s.port p).capture with
    | none => rfl
    | some x =>
      have other : pairHighAt a.toNat ≠ some x.1 := fun e => high x.1 x.2 hc ((pairHighAt_eq_some _ _).mp e)
      simp only [if_neg other]
      rfl
  · show Host.Outcome.next (s.portRead p a) = _
    have word : accessAddr (s.port p).wide a = a.toNat / 2 * 2 := if_pos hw
    simp only [State.portRead, hr, Bool.false_eq_true, if_false]
    rw [if_pos hw, word]
  · show Host.Outcome.next (s.portRead p a) = _
    simp only [State.portRead, hr, if_true]
    rfl

/-! ### The silence event -/

theorem State.heard_quiet {p : Port} (h : (s.port p).silent = false) :
    s.heard p = if (s.port p).silenceDue.isSome = true then s.startSilence p else s := by
  simp only [State.heard, h, Bool.false_eq_true, if_false]

theorem State.heard_pub {p : Port} (h : (s.port p).silent = false) : (s.heard p).pub = s.pub := by
  rw [State.heard_quiet h]
  split
  · simp
  · rfl

/-- A write's silence event touches the trail of a port that was silent, and no other byte (R98). -/
theorem State.rd_heard (hc : s.MemoriesCanonical) {p : Port} {y : Nat} (h : (s.port p).silent = true → 0x0600 ≤ y) :
    (s.heard p).rd y = s.rd y := by
  cases hs : (s.port p).silent with
  | false =>
    rw [State.heard_quiet hs]
    split
    · exact State.rd_of_ram (by simp) y
    · rfl
  | true => exact ((s.heard_effect p).board hc).2 y (h hs)

theorem State.heard_attn {p : Port} (q : Port) (h : (s.port p).silent = false) :
    ((s.heard p).port q).attn = (s.port q).attn := by
  rw [State.heard_quiet h]
  split
  · exact ((State.startSilence_effect s p).onPort q .attn (by decide))
  · rfl

/-- A running or expired silence timer starts again; a silent port is heard, and the trail tells it (R98, R180). -/
theorem State.heard_spec (hc : s.MemoriesCanonical) {p : Port} {copy : AdoptedCopy} (ha : s.adoptedCopy p = some copy)
    (hn : copy.silenceCode ≠ 0) (h : (s.port p).silenceDue.isSome = true ∨ (s.port p).silent = true) :
    let t := s.heard p
    (t.port p).silenceDue = some (s.now + 50000 * copy.silenceCode) ∧ (t.port p).silent = false ∧
    (t.port p.other).silenceDue = (s.port p.other).silenceDue ∧
    ((s.port p).silent = true → t.pub.writeCount = s.pub.writeCount + 1 ∧ t.pub.dirty = true ∧
      t.TrailEntry s.pub.writeCount
        (trailBytes s.ride.number s.ride.time 0xFF .portHeard (byteOf (portCode p)) 0)) ∧
    ((s.port p).silent = false → t.pub.writeCount = s.pub.writeCount) := by
  have limit : s.silenceLimit p = 50000 * copy.silenceCode := State.silenceLimit_adopted ha
  have runs : s.silenceLimit p ≠ 0 := by rw [limit]; omega
  have other : p.other ≠ p := by cases p <;> decide
  cases hs : (s.port p).silent with
  | false =>
    have due : (s.port p).silenceDue.isSome = true := by rw [hs] at h; simpa using h
    have e : s.heard p = s.startSilence p := by rw [State.heard_quiet hs, if_pos due]
    simp only [e]
    refine ⟨?_, ?_, ?_, nofun, fun _ => by simp⟩
    · rw [State.startSilence_port, if_pos ⟨rfl, runs⟩, limit]
    · rw [State.startSilence_port, if_pos ⟨rfl, runs⟩]
      exact hs
    · rw [State.startSilence_port, if_neg fun x => other x.1]
  | true =>
    let v := (s.setPort p { s.port p with silent := false }).startSilence p
    let w := v.appendPart .portHeard (byteOf (portCode p))
    have e : s.heard p = w.markView.refreshLamp p := by simp only [State.heard, hs, if_true]; rfl
    have sv : Effect [.silent, .silenceDue] [.lamps] s v :=
      (s.setSilent_effect p false (s.port p).silenceDue).seq (State.startSilence_effect _ p)
    have vw : Effect [.ram, .trail, .attn] [] v w := v.appendPart_effect .portHeard _
    have wt : Effect [.lamp, .dirty] [] w (s.heard p) := by
      rw [e]
      exact (State.markView_effect w).step (State.refreshLamp_effect _ p)
    have hv : v.MemoriesCanonical := sv.keeps .memories (by decide) hc
    have vport : v.port p = { s.port p with silent := false, silenceDue := some (s.now + s.silenceLimit p) } := by
      have limit' : (s.setPort p { s.port p with silent := false }).silenceLimit p = s.silenceLimit p := by
        cases p <;> rfl
      rw [State.startSilence_port, if_pos ⟨rfl, by rw [limit']; exact runs⟩, limit', State.setPort_port_eq, if_pos rfl]
      cases p <;> rfl
    have pub : v.pub = s.pub := sv.pub_eq
    refine ⟨?_, ?_, ?_, fun _ => ⟨?_, ?_, ?_⟩, nofun⟩
    · rw [wt.onPort p .silenceDue (by decide), vw.onPort p .silenceDue (by decide), vport, limit]
    · rw [wt.onPort p .silent (by decide), vw.onPort p .silent (by decide), vport]
    · rw [wt.onPort p.other .silenceDue (by decide), vw.onPort p.other .silenceDue (by decide), State.startSilence_port,
        if_neg fun x => other x.1, State.setPort_port_eq, if_neg other]
    · rw [wt.trail.1, ← pub]
      exact (v.append_publisher .portHeard 0xFF (byteOf (portCode p)) 0).1
    · rw [e]
      exact (State.refreshLamp_effect _ p).keeps .view (by decide) rfl
    · have entry := State.append_trailEntry hv .portHeard 0xFF (byteOf (portCode p)) 0
      rw [pub, sv.ride] at entry
      exact State.TrailEntry.of_ram entry wt.ram

/-! ### Writes up to their silence event -/

/-- A write of a port up to its silence event: staging, the area's event, and the publisher's takes (R175, R178). -/
def State.wrote (p : Port) (a : Addr) (d : Word) (n : Nat) (s : State) : State :=
  ((s.stageFor p (s.judgeWrite p a d) d).writeEffect p a d (s.judgeWrite p a d)).takeReleases p n

theorem State.portWrite_eq (p : Port) (a : Addr) (d : Word) (n : Nat) : s.portWrite p a d n = (s.wrote p a d n).heard p := rfl

theorem State.wrote_effect (p : Port) (a : Addr) (d : Word) (n : Nat) :
    Effect (.trail :: writeFields) [] s (s.wrote p a d n) := by
  unfold State.wrote
  generalize hk : s.judgeWrite p a d = k
  have h1 := s.stageFor_effect p k d
  have hj : (s.stageFor p k d).Judged p a k :=
    (hk ▸ s.judged_judgeWrite p a d).of_port (h1.onPort p .widths (by decide)).1 (h1.cell p)
  exact (h1.step ((s.stageFor p k d).writeEffect_effect p a d k hj) (l := .trail :: writeFields)).trans
    ((State.takeReleases_effect _ p n).mono)

theorem State.takeOldest_writeCount (p : Port) : (s.takeOldest p).pub.writeCount = s.pub.writeCount := by
  unfold State.takeOldest
  split
  · rfl
  · rw [State.wr_pub, State.takeRelease_pub]
    split <;> simp [Publisher.released]

theorem State.takeReleases_writeCount (p : Port) (n : Nat) : (s.takeReleases p n).pub.writeCount = s.pub.writeCount := by
  unfold State.takeReleases
  generalize (s.port p).releases.take n = l
  induction l generalizing s with
  | nil => rfl
  | cons x rest ih => exact (ih (s := s.takeOldest p)).trans (s.takeOldest_writeCount p)

/-- Nothing is appended before the silence event of a write. -/
theorem State.wrote_writeCount (p : Port) (a : Addr) (d : Word) (n : Nat) :
    (s.wrote p a d n).pub.writeCount = s.pub.writeCount := by
  rw [State.wrote, State.takeReleases_writeCount]
  generalize hk : s.judgeWrite p a d = k
  have h1 := s.stageFor_effect p k d
  have hj : (s.stageFor p k d).Judged p a k :=
    (hk ▸ s.judged_judgeWrite p a d).of_port (h1.onPort p .widths (by decide)).1 (h1.cell p)
  exact ((h1.step ((s.stageFor p k d).writeEffect_effect p a d k hj) (l := writeFields)).trail).1

/-- Every write command is a write with some number of the port's releases taken. -/
theorem exec_write {p : Port} {a : Addr} {d : Word} {c : Instr}
    (h : c ∈ [Instr.checkByteWrite p a d, .post p a d, .withdrawal p a d, .handBack p a d, .release p (some (a, d)) 0,
      .release p (some (a, d)) 1, .contextLowByteStage p a d, .contextCommit p a d, .strayWrite p a d, .portWrite p a d]) :
    ∃ n, exec c s = arises true s (s.portWrite p a d n) := by
  simp only [List.mem_cons, List.not_mem_nil, or_false] at h
  rcases h with rfl | rfl | rfl | rfl | rfl | rfl | rfl | rfl | rfl | rfl
  case inr.inr.inr.inr.inl => exact ⟨0, rfl⟩
  case inr.inr.inr.inr.inr.inl => exact ⟨1, rfl⟩
  all_goals exact ⟨_, rfl⟩

/-- Settles O31: the silence event of a write, whatever the write did. -/
theorem everyWriteIsHeard : Obligations.EveryWriteIsHeard := by
  intro p a d s c hm
  obtain ⟨n, run⟩ := exec_write (s := s) hm
  refine ⟨fun hr => run.trans (arises_neg true s _ (.inl hr)), fun copy hr hc ha hn h => ?_⟩
  have he := s.wrote_effect p a d n
  have same (q : Port) := he.onPort q .silenceDue (by decide)
  have flag (q : Port) := he.onPort q .silent (by decide)
  have heard := State.heard_spec (p := p) (he.keeps .memories (by decide) hc) ((he.adoptedCopy (by decide) p).trans ha) hn
    (by rw [same, flag]; exact h)
  rw [s.wrote_writeCount, he.now, he.ride, flag, same] at heard
  exact ⟨_, run.trans (arises_pos true s _ hr rfl), heard⟩

end Sys2Proof.Machine
end

