-- ==== Sys2Proof/Proofs/Areas.lean ====
section
/-!
PROOFS. The areas of the exchange RAM a port writes (R173 to R178): what a write of each area is, and what it stores.
-/

-- Proofs in the order of the text: those that elaborate default tactic arguments at once wait for each other.
set_option Elab.async false

namespace Sys2Proof.Machine

variable {s t u v : State} {p : Port} {a : Addr} {d : Word}

/-! ### The judgement by area -/

theorem slotAt_eq_some {base size x : Nat} {i : Slot} (h : base ≤ x) (hi : (x - base) / size = i.val) :
    slotAt base size x = some i := by
  have lt : (x - base) / size < 192 := by rw [hi]; exact i.isLt
  rw [slotAt, if_pos h, dif_pos lt]
  exact congrArg some (Fin.ext hi)

/-- A write of an own tally slot: of its check byte, or of another byte (R3, R180). -/
theorem State.judge_tally {i : Slot} (ho : s.owner i = p) (h : 0x0600 + 8 * i.val ≤ accessAddr (s.port p).wide a)
    (h' : accessAddr (s.port p).wide a < 0x0608 + 8 * i.val) : s.judgeWrite p a d =
    if accessAddr (s.port p).wide a % 8 = (if (s.port p).wide then 6 else 7) then .check i else .plain := by
  have := i.isLt
  have slot : slotAt Config.tallyBase 8 (accessAddr (s.port p).wide a) = some i :=
    slotAt_eq_some (by simp only [Config.tallyBase]; omega) (by simp only [Config.tallyBase]; omega)
  unfold State.judgeWrite
  simp only
  rw [if_pos ⟨by simp only [Config.tallyBase]; omega, by simp only [Config.profileBase]; omega⟩, slot]
  simp only [ho, if_true]

theorem State.judge_profile {i : Slot} (ho : s.owner i = p) (h : 0x0C00 + 4 * i.val ≤ accessAddr (s.port p).wide a)
    (h' : accessAddr (s.port p).wide a < 0x0C04 + 4 * i.val) : s.judgeWrite p a d = .plain := by
  have := i.isLt
  have slot : slotAt Config.profileBase 4 (accessAddr (s.port p).wide a) = some i :=
    slotAt_eq_some (by simp only [Config.profileBase]; omega) (by simp only [Config.profileBase]; omega)
  unfold State.judgeWrite
  simp only
  rw [if_neg (by simp only [Config.profileBase]; omega),
    if_pos ⟨by simp only [Config.profileBase]; omega, by simp only [Config.cellBase]; omega⟩, slot]
  simp only [ho, if_true]

theorem State.judge_cell (h : Config.cellBase p ≤ accessAddr (s.port p).wide a)
    (h' : accessAddr (s.port p).wide a < Config.cellBase p + 64) : s.judgeWrite p a d =
    judgeCell (s.port p).wide (s.port p).cell (accessAddr (s.port p).wide a - Config.cellBase p)
      (accessBytes (s.port p) d).1 := by
  have low : Config.cellBase .fp ≤ Config.cellBase p := by cases p <;> decide
  have fp : Config.cellBase .fp = 0x0F00 := rfl
  unfold State.judgeWrite
  simp only
  rw [if_neg (by simp only [Config.profileBase]; omega), if_neg (by omega), if_pos ⟨h, h'⟩]

theorem State.judge_context (h : Config.contextBase p ≤ accessAddr (s.port p).wide a)
    (h' : accessAddr (s.port p).wide a < Config.contextBase p + 32) : s.judgeWrite p a d =
    judgeContext (s.port p) (accessAddr (s.port p).wide a - Config.contextBase p) (accessBytes (s.port p) d).1
      (accessBytes (s.port p) d).2 := by
  have low : 0x0F80 ≤ Config.contextBase p := by cases p <;> decide
  have cell : Config.cellBase p + 64 ≤ 0x0F80 := by cases p <;> decide
  unfold State.judgeWrite
  simp only
  rw [if_neg (by simp only [Config.profileBase]; omega), if_neg (by simp only [Config.cellBase]; omega), if_neg (by omega),
    if_pos ⟨h, h'⟩]

theorem State.judge_setup (h : (Config.setupBase p ≤ accessAddr (s.port p).wide a ∧
      accessAddr (s.port p).wide a < Config.setupBase p + 32) ∨
    (Config.listsBase p ≤ accessAddr (s.port p).wide a ∧ accessAddr (s.port p).wide a < Config.listsBase p + 32)) :
    s.judgeWrite p a d = .plain := by
  have low : 0x0FC0 ≤ Config.setupBase p ∧ 0x0FC0 ≤ Config.listsBase p := by cases p <;> decide
  have cell : Config.cellBase p + 64 ≤ 0x0FC0 ∧ Config.contextBase p + 32 ≤ 0x0FC0 := by cases p <;> decide
  unfold State.judgeWrite
  simp only
  rw [if_neg (by simp only [Config.profileBase]; omega), if_neg (by simp only [Config.cellBase]; omega), if_neg (by omega),
    if_neg (by omega)]
  split
  · rfl
  · next hs => rw [if_pos (h.resolve_left hs)]

theorem State.judge_release (hw : (s.port p).wide = false) (h : a.toNat = Config.releaseAddr p) :
    s.judgeWrite p a d = .release (lowByte d) := by
  have x : accessAddr (s.port p).wide a = Config.releaseAddr p := by rw [accessAddr, hw]; exact h
  have b : accessBytes (s.port p) d = (lowByte d, 0) := by rw [accessBytes, hw]; rfl
  unfold State.judgeWrite
  simp only [x, b]
  simp only [hw, Bool.false_eq_true, false_and, if_false, true_and]
  cases p <;> rfl

theorem State.judge_otherRelease (hw : (s.port p).wide = false) (h : a.toNat = Config.releaseAddr p.other) :
    s.judgeWrite p a d = .stray := by
  have x : accessAddr (s.port p).wide a = Config.releaseAddr p.other := by rw [accessAddr, hw]; exact h
  unfold State.judgeWrite
  simp only [x]
  simp only [hw, Bool.false_eq_true, false_and, if_false, true_and]
  cases p <;> rfl

theorem State.judge_releaseWord (hw : (s.port p).wide = true) (h : a.toNat / 2 * 2 = 0x1040) :
    s.judgeWrite p a d =
      .release (if p = .fp then (lanesIn (s.port p).swapped d).1 else (lanesIn (s.port p).swapped d).2) := by
  have x : accessAddr (s.port p).wide a = Config.releaseAddr .fp := by rw [accessAddr, if_pos hw]; exact h
  have b : accessBytes (s.port p) d = lanesIn (s.port p).swapped d := by rw [accessBytes, if_pos hw]
  unfold State.judgeWrite
  simp only [x, b]
  simp only [hw, true_and, if_true]
  cases p <;> rfl

/-- Where the two ports' own areas lie (R173). -/
theorem own_areas (p : Port) :
    (Config.cellBase p = 0x0F00 ∧ Config.cellBase p.other = 0x0F40 ∧ Config.contextBase p = 0x0F80 ∧
      Config.contextBase p.other = 0x0FA0 ∧ Config.setupBase p = 0x0FC0 ∧ Config.setupBase p.other = 0x0FE0 ∧
      Config.listsBase p = 0x1000 ∧ Config.listsBase p.other = 0x1020 ∧ Config.releaseAddr p = 0x1040) ∨
    (Config.cellBase p = 0x0F40 ∧ Config.cellBase p.other = 0x0F00 ∧ Config.contextBase p = 0x0FA0 ∧
      Config.contextBase p.other = 0x0F80 ∧ Config.setupBase p = 0x0FE0 ∧ Config.setupBase p.other = 0x0FC0 ∧
      Config.listsBase p = 0x1020 ∧ Config.listsBase p.other = 0x1000 ∧ Config.releaseAddr p = 0x1041) := by
  cases p
  · exact .inl ⟨rfl, rfl, rfl, rfl, rfl, rfl, rfl, rfl, rfl⟩
  · exact .inr ⟨rfl, rfl, rfl, rfl, rfl, rfl, rfl, rfl, rfl⟩

/-- The places a port may not write (R175). -/
def Stray (s : State) (p : Port) (x : Nat) : Prop :=
  x < 0x0600 ∨ 0x1042 ≤ x ∨
  (Config.cellBase p + 2 ≤ x ∧ x < Config.cellBase p + 4) ∨ (Config.cellBase p + 16 ≤ x ∧ x < Config.cellBase p + 64) ∨
  (Config.cellBase p.other ≤ x ∧ x < Config.cellBase p.other + 64) ∨
  (Config.contextBase p.other ≤ x ∧ x < Config.contextBase p.other + 32) ∨
  (Config.setupBase p.other ≤ x ∧ x < Config.setupBase p.other + 32) ∨
  (Config.listsBase p.other ≤ x ∧ x < Config.listsBase p.other + 32) ∨
  (∃ i : Slot, s.owner i = p.other ∧
    ((0x0600 + 8 * i.val ≤ x ∧ x < 0x0608 + 8 * i.val) ∨ (0x0C00 + 4 * i.val ≤ x ∧ x < 0x0C04 + 4 * i.val)))

theorem State.judge_stray (h : Stray s p (accessAddr (s.port p).wide a)) : s.judgeWrite p a d = .stray := by
  unfold Stray at h
  unfold State.judgeWrite
  simp only
  generalize accessAddr (s.port p).wide a = x at h
  by_cases slots : ∃ i : Slot, s.owner i = p.other ∧
      ((0x0600 + 8 * i.val ≤ x ∧ x < 0x0608 + 8 * i.val) ∨ (0x0C00 + 4 * i.val ≤ x ∧ x < 0x0C04 + 4 * i.val))
  · obtain ⟨i, ho, hx⟩ := slots
    have lt := i.isLt
    have other : ¬p.other = p := Port.other_ne p
    rcases hx with ⟨h1, h2⟩ | ⟨h1, h2⟩
    · rw [if_pos ⟨by simp only [Config.tallyBase]; omega, by simp only [Config.profileBase]; omega⟩,
        slotAt_eq_some (i := i) (by simp only [Config.tallyBase]; omega) (by simp only [Config.tallyBase]; omega)]
      simp only [ho, if_neg other]
    · rw [if_neg (by simp only [Config.profileBase]; omega),
        if_pos ⟨by simp only [Config.profileBase]; omega, by simp only [Config.cellBase]; omega⟩,
        slotAt_eq_some (i := i) (by simp only [Config.profileBase]; omega) (by simp only [Config.profileBase]; omega)]
      simp only [ho, if_neg other]
  · have cell (o : Nat) (h1 : o < 64) (h2 : (2 ≤ o ∧ o < 4) ∨ 16 ≤ o) : judgeCell (s.port p).wide (s.port p).cell o
        (accessBytes (s.port p) d).1 = .stray := by
      unfold judgeCell
      rw [if_neg (by omega), if_neg (by omega), if_neg (by omega)]
    simp only [slots, or_false] at h
    have areas := own_areas p
    have t0 : Config.tallyBase = 0x0600 := rfl
    have t1 : Config.profileBase = 0x0C00 := rfl
    have t2 : Config.cellBase .fp = 0x0F00 := rfl
    have t3 : Config.releaseAddr .fp = 0x1040 := rfl
    rw [if_neg (by omega), if_neg (by omega)]
    split
    · exact cell _ (by omega) (by omega)
    rw [if_neg (by omega), if_neg (by omega), if_neg (by omega), if_neg (by omega), if_neg (by omega)]

/-! ### What is stored -/

theorem State.rd_storeAccess (hc : s.MemoriesCanonical) (y : Nat) : (s.storeAccess p a d).rd y =
    if y = accessAddr (s.port p).wide a then (accessBytes (s.port p) d).1
    else if (s.port p).wide = true ∧ y = accessAddr (s.port p).wide a + 1 then (accessBytes (s.port p) d).2
    else s.rd y := by
  unfold State.storeAccess
  simp only
  cases hw : (s.port p).wide with
  | false => 
    simp only [Bool.false_eq_true, if_false, false_and]
    rw [State.rd_wr hc]
  | true =>
    simp only [if_true, true_and]
    rw [State.rd_wrBytes hc]
    by_cases h0 : y = accessAddr true a
    · subst h0
      rw [if_pos (by simp), if_pos rfl, Nat.sub_self]
      rfl
    · rw [if_neg h0]
      by_cases h1 : y = accessAddr true a + 1
      · subst h1
        rw [if_pos (by simp), if_pos rfl, Nat.add_sub_cancel_left]
        rfl
      · rw [if_neg (by simp only [List.length_cons, List.length_nil]; omega), if_neg h1]

theorem State.stageFor_port (k : WriteKind) : ∃ x, (s.stageFor p k d).port p = { s.port p with staging := x } ∧
    ((∀ c, k ≠ .stage c) → x = none) := by
  refine ⟨((s.stageFor p k d).port p).staging, ?_, fun h => ?_⟩
  · unfold State.stageFor
    rw [State.setPort_port_eq, if_pos rfl]
  · unfold State.stageFor
    rw [State.setPort_port_eq, if_pos rfl]
    cases k with
    | stage c => exact absurd rfl (h c)
    | _ => rfl

/-- The bytes a staged access names and carries are those of the access. -/
theorem State.stageFor_access (k : WriteKind) : accessAddr ((s.stageFor p k d).port p).wide a = accessAddr (s.port p).wide a ∧
    accessBytes ((s.stageFor p k d).port p) d = accessBytes (s.port p) d := by
  obtain ⟨x, hx, -⟩ := s.stageFor_port (p := p) (d := d) k
  rw [hx]
  exact ⟨rfl, rfl⟩

/-- A write that is no release is its area's event and the silence event (R180). -/
theorem State.wholeWrite_of {k : WriteKind} (hk : s.judgeWrite p a d = k) (hn : ∀ n, k ≠ .release n) :
    s.wholeWrite p a d = ((s.stageFor p k d).writeEffect p a d k).heard p := by
  subst hk
  unfold State.wholeWrite
  split
  · next n h => exact absurd h (hn n)
  all_goals rfl

/-- What the silence event of a write leaves as its area's event made it (R98). -/
structure Heard (v t : State) (p : Port) : Prop where
  rd     : ∀ y, ((v.port p).silent = true → 0x0600 ≤ y) → t.rd y = v.rd y
  effect : Effect [.silent, .silenceDue, .ram, .trail, .attn, .dirty, .lamp] [] v t

theorem State.heard_keeps (hc : s.MemoriesCanonical) (p : Port) : Heard s (s.heard p) p :=
  ⟨fun _ h => State.rd_heard hc h, s.heard_effect p⟩

/-- Settles O30: outside its areas a port's write sets the stray flag, and its silence event follows. -/
theorem strayWriteSetsTheFlagOnly : Obligations.StrayWriteSetsTheFlagOnly := by
  intro p a d s hr hc x hx
  let u := s.stageFor p .stray d
  let v := u.flagStray p
  have su : Effect [.iface] [] s u := s.stageFor_effect p .stray d
  have uv : Effect [.iface, .dirty] [] u v := u.flagStray_effect p
  have sv : Effect [.iface, .dirty] [] s v := su.step uv
  have heard := State.heard_keeps (sv.keeps .memories (by decide) hc) p
  have vt := heard.effect
  have run : exec (.strayWrite p a d) s = .next (v.heard p) := by
    refine (arises_pos true s _ hr rfl).trans (congrArg _ ?_)
    exact State.wholeWrite_of (State.judge_stray hx) nofun
  obtain ⟨y, port, empty⟩ := s.stageFor_port (p := p) (d := d) .stray
  have vport : v.port p = { u.port p with stray := true } := by
    show ((u.setPort p { u.port p with stray := true }).markViewIf _).port p = _
    rw [State.markViewIf_port, State.setPort_port_eq, if_pos rfl]
  have iface := vt.onPort p .iface (by decide)
  refine ⟨_, run, ?_, fun h => ?_, ?_, ?_, ?_, ?_, fun z hz => ?_, ?_, ?_⟩
  · rw [iface.2.2.2, vport]
  · refine vt.keeps .view (by decide) ?_
    show ((u.setPort p { u.port p with stray := true }).markViewIf _).pub.dirty = true
    rw [State.markViewIf_pub, show u.port p = _ from port, h]
    simp
  · rw [iface.1, vport]
    exact (congrArg PortState.staging port).trans (empty nofun)
  · exact (vt.onPort p .channels (by decide)).trans (sv.onPort p .channels (by decide))
  · exact (vt.cell p).trans (sv.cell p)
  · exact (vt.cell p.other).trans (sv.cell p.other)
  · rw [heard.rd z (by rw [sv.onPort p .silent (by decide)]; exact hz)]
    exact State.rd_of_ram (sv.ram) z
  · exact vt.exec.trans sv.exec
  · exact (sv.step vt (l := [.iface, .silent, .silenceDue, .ram, .trail, .attn, .dirty, .lamp])).sameInside

end Sys2Proof.Machine
end

