-- ==== Sys2Proof/Proofs/Stores.lean ====
section
/-!
PROOFS. What a port's writes of its own areas store: slots, profiles, setup and lists (R3, R180), the cell's parameters
(R136), and the paired channels (R61, R62, R178).
-/

-- Proofs in the order of the text: those that elaborate default tactic arguments at once wait for each other.
set_option Elab.async false

namespace Sys2Proof.Machine

variable {s t u v : State} {p : Port} {a : Addr} {d : Word}

/-! ### Own bytes -/

/-- What the store of an access leaves (R175, R177, R180). -/
structure Stored (s t : State) (p : Port) (a : Addr) (d : Word) : Prop where
  first  : t.rd (accessAddr (s.port p).wide a) = (accessBytes (s.port p) d).1
  second : (s.port p).wide = true → t.rd (accessAddr (s.port p).wide a + 1) = (accessBytes (s.port p) d).2
  others : ∀ y, y ≠ accessAddr (s.port p).wide a → ((s.port p).wide = true → y ≠ accessAddr (s.port p).wide a + 1) →
             ((s.port p).silent = true → 0x0600 ≤ y) → t.rd y = s.rd y
  iface  : (t.port p).staging = none ∧ (t.port p).stray = (s.port p).stray
  ride   : t.ride = s.ride
  faults : SameFaults s t
  store  : SameStore s t
  world  : SameWorld s t
  exec   : t.exec = s.exec

theorem stored_heard (hc : s.MemoriesCanonical) (he : Effect [.ram, .board, .slots, .iface] [] s v)
    (iface : (v.port p).staging = none ∧ (v.port p).stray = (s.port p).stray)
    (rd : ∀ y, v.rd y = (s.storeAccess p a d).rd y) (hx : 0x0600 ≤ accessAddr (s.port p).wide a) :
    Stored s (v.heard p) p a d := by
  have heard := State.heard_keeps (he.keeps .memories (by decide) hc) p
  have vt := heard.effect
  have quiet {y : Nat} (h : (s.port p).silent = true → 0x0600 ≤ y) : (v.heard p).rd y = (s.storeAccess p a d).rd y := by
    rw [heard.rd y (by rw [he.onPort p .silent (by decide)]; exact h), rd]
  have st : Effect [.ram, .board, .slots, .iface, .silent, .silenceDue, .trail, .attn, .dirty, .lamp] [] s (v.heard p) :=
    he.step vt
  have face := vt.onPort p .iface (by decide)
  refine ⟨?_, fun hw => ?_, fun y h0 h1 hq => ?_, ⟨face.1.trans iface.1, face.2.2.2.trans iface.2⟩, st.ride, st.sameFaults,
    st.sameStore, st.sameWorld, st.exec⟩
  · rw [quiet fun _ => hx, State.rd_storeAccess hc, if_pos rfl]
  · rw [quiet fun _ => by omega, State.rd_storeAccess hc, if_neg (by omega), if_pos ⟨hw, rfl⟩]
  · rw [quiet hq, State.rd_storeAccess hc, if_neg h0, if_neg fun h => h1 h.1 h.2]

theorem State.rd_staged {k : WriteKind} (hc : s.MemoriesCanonical) (y : Nat) :
    ((s.stageFor p k d).storeAccess p a d).rd y = (s.storeAccess p a d).rd y := by
  have hu : (s.stageFor p k d).MemoriesCanonical := (s.stageFor_effect p k d).keeps .memories (by decide) hc
  obtain ⟨x, port, -⟩ := s.stageFor_port (p := p) (d := d) k
  rw [State.rd_storeAccess hu, State.rd_storeAccess hc, port, State.rd_of_ram (s.stageFor_effect p k d).ram]
  rfl

theorem State.storeAccess_port (q : Port) : (s.storeAccess p a d).port q = s.port q := by
  unfold State.storeAccess
  simp only
  split <;> simp

/-- An own byte that no block watches is stored (R175, R180). -/
theorem stored_plain (hr : s.inReset = false) (hc : s.MemoriesCanonical) (hk : s.judgeWrite p a d = .plain)
    (hx : 0x0600 ≤ accessAddr (s.port p).wide a) :
    ∃ t, exec (.portWrite p a d) s = .next t ∧ Stored s t p a d ∧ t.slots = s.slots := by
  let u := s.stageFor p .plain d
  let v := u.storeAccess p a d
  have judged : u.Judged p a .plain :=
    State.Judged.of_port (hk ▸ s.judged_judgeWrite p a d) ((s.stageFor_effect p .plain d).onPort p .widths (by decide)).1
      ((s.stageFor_effect p .plain d).cell p)
  have sv : Effect [.iface, .ram, .board] [] s v := (s.stageFor_effect p .plain d).step
    (u.storeAccess_effect p a d fun y hy => not_watched_of_plain (judged y hy))
  obtain ⟨x, port, empty⟩ := s.stageFor_port (p := p) (d := d) .plain
  have vport : v.port p = u.port p := State.storeAccess_port p
  refine ⟨v.heard p, ?_, stored_heard hc sv.mono ?_ (fun y => State.rd_staged hc y) hx, ?_⟩
  · exact (arises_pos true s _ hr rfl).trans (congrArg _ (State.wholeWrite_of hk nofun))
  · rw [vport, show u.port p = _ from port]
    exact ⟨empty nofun, rfl⟩
  · exact (v.heard_effect p).slots.trans sv.slots

theorem stored_check {i : Slot} (hr : s.inReset = false) (hc : s.MemoriesCanonical) (hk : s.judgeWrite p a d = .check i)
    (hx : 0x0600 ≤ accessAddr (s.port p).wide a) :
    ∃ t, exec (.checkByteWrite p a d) s = .next t ∧ Stored s t p a d ∧
      t.slots = s.slots.set i { s.slots[i] with touched := true } := by
  let u := s.stageFor p (.check i) d
  let v := u.storeAccess p a d
  let w := v.touch i
  have judged : u.Judged p a (.check i) :=
    State.Judged.of_port (hk ▸ s.judged_judgeWrite p a d) ((s.stageFor_effect p (.check i) d).onPort p .widths (by decide)).1
      ((s.stageFor_effect p (.check i) d).cell p)
  have sv : Effect [.iface, .ram, .board] [] s v := (s.stageFor_effect p (.check i) d).step
    (u.storeAccess_effect p a d fun y hy => not_watched_of_plain (judged y hy))
  have sw : Effect [.ram, .board, .slots, .iface] [] s w := sv.step (v.touch_effect i)
  obtain ⟨x, port, empty⟩ := s.stageFor_port (p := p) (d := d) (.check i)
  have wport : w.port p = u.port p := State.storeAccess_port p
  refine ⟨w.heard p, ?_, stored_heard hc sw ?_ (fun y => State.rd_staged hc y) hx, ?_⟩
  · exact (arises_pos true s _ hr rfl).trans (congrArg _ (State.wholeWrite_of hk nofun))
  · rw [wport, show u.port p = _ from port]
    exact ⟨empty nofun, rfl⟩
  · rw [(w.heard_effect p).slots]
    show v.slots.set i { v.slots[i] with touched := true } = _
    rw [sv.slots]

/-- The cell's parameter bytes, and the code byte on an 8-bit port (R136). -/
theorem State.judge_param (h : ((s.port p).wide = false ∧ accessAddr (s.port p).wide a = Config.cellBase p + 1) ∨
    (Config.cellBase p + 4 ≤ accessAddr (s.port p).wide a ∧ accessAddr (s.port p).wide a ≤ Config.cellBase p + 15)) :
    s.judgeWrite p a d = .param := by
  rw [State.judge_cell (by omega) (by omega)]
  unfold judgeCell
  rw [if_neg (by omega)]
  split
  · rfl
  · next hn => rw [if_pos (by rcases h with ⟨hw, h⟩ | h <;> [exact absurd ⟨by omega, hw⟩ hn; omega])]

theorem State.writeEffect_param_idle (h : (s.port p).cell = .idle) : s.writeEffect p a d .param = s.storeAccess p a d :=
  if_pos h

theorem State.writeEffect_param_busy (h : (s.port p).cell ≠ .idle) : s.writeEffect p a d .param = s := if_neg h

/-- Settles O26: own bytes by their area. -/
theorem ownWritesAreStored : Obligations.OwnWritesAreStored := by
  intro p a d s hr hc x b wide stored
  have toStored {t : State} (h : Stored s t p a d) : stored t :=
    ⟨h.first, h.second, h.others, h.iface.1, h.iface.2, h.ride, h.faults, h.store, h.world, h.exec⟩
  have areas := own_areas p
  refine ⟨fun i ho hx => ?_, fun hx => ?_, fun hx => ?_⟩
  · have six : (if (s.port p).wide = true then 6 else 7) < 8 := by split <;> decide
    have hx' : accessAddr (s.port p).wide a = 0x0600 + 8 * i.val + (if (s.port p).wide = true then 6 else 7) := hx
    have hk : s.judgeWrite p a d = .check i := by
      rw [State.judge_tally ho (by omega) (by omega), if_pos (by omega)]
    obtain ⟨t, run, st, slots⟩ := stored_check hr hc hk (by omega)
    exact ⟨t, run, toStored st, slots⟩
  · have hk : s.judgeWrite p a d = .plain ∧ 0x0600 ≤ accessAddr (s.port p).wide a := by
      rcases hx with ⟨i, ho, ⟨h1, h2⟩ | ⟨h1, h2⟩⟩ | h
      · have h1' : 0x0600 + 8 * i.val ≤ accessAddr (s.port p).wide a := h1
        have h2' : accessAddr (s.port p).wide a < 0x0600 + 8 * i.val + (if (s.port p).wide = true then 6 else 7) := h2
        have six : (if (s.port p).wide = true then 6 else 7) < 8 := by split <;> decide
        refine ⟨?_, by omega⟩
        rw [State.judge_tally ho h1' (by omega), if_neg (by omega)]
      · exact ⟨State.judge_profile ho h1 h2, Nat.le_trans (by omega) h1⟩
      · refine ⟨State.judge_setup h, ?_⟩
        have : 0x0600 ≤ x := by omega
        exact this
    obtain ⟨t, run, st, slots⟩ := stored_plain hr hc hk.1 hk.2
    exact ⟨t, run, toStored st, slots⟩
  · have hk : s.judgeWrite p a d = .param := State.judge_param hx
    have big : 0x0600 ≤ accessAddr (s.port p).wide a := by
      have : 0x0600 ≤ x := by omega
      exact this
    let u := s.stageFor p .param d
    have su : Effect [.iface] [] s u := s.stageFor_effect p .param d
    have judged : u.Judged p a .param :=
      State.Judged.of_port (hk ▸ s.judged_judgeWrite p a d) (su.onPort p .widths (by decide)).1 (su.cell p)
    obtain ⟨y, port, empty⟩ := s.stageFor_port (p := p) (d := d) .param
    have face : (u.port p).staging = none ∧ (u.port p).stray = (s.port p).stray := by
      rw [show u.port p = _ from port]
      exact ⟨empty nofun, rfl⟩
    have run : exec (.portWrite p a d) s = .next ((u.writeEffect p a d .param).heard p) :=
      (arises_pos true s _ hr rfl).trans (congrArg _ (State.wholeWrite_of hk nofun))
    have heard {v : State} (sv : Effect [.iface, .ram, .board] [] s v) : ((v.heard p).port p).cell = (s.port p).cell ∧
        (v.heard p).slots = s.slots :=
      ⟨((v.heard_effect p).cell p).trans (sv.cell p), (v.heard_effect p).slots.trans sv.slots⟩
    by_cases idle : (s.port p).cell = .idle
    · let v := u.storeAccess p a d
      have sv : Effect [.iface, .ram, .board] [] s v :=
        su.step (u.storeAccess_effect p a d fun y hy => not_watched_of_param (judged y hy).1 (judged y hy).2)
      rw [State.writeEffect_param_idle ((su.cell p).trans idle)] at run
      refine ⟨_, run, (heard sv).1, (heard sv).2, fun _ => toStored ?_, fun h => absurd idle h⟩
      exact stored_heard hc sv.mono ((State.storeAccess_port (s := u) p).symm ▸ face) (fun y => State.rd_staged hc y) big
    · have sv : Effect [.iface, .ram, .board] [] s u := su.mono
      rw [State.writeEffect_param_busy (by rw [su.cell p]; exact idle)] at run
      have kept := State.heard_keeps (su.keeps .memories (by decide) hc) p
      refine ⟨_, run, (heard sv).1, (heard sv).2, fun h => absurd h idle, fun _ => ⟨fun y hy => ?_, ?_, ?_, ?_, ?_⟩⟩
      · rw [kept.rd y (by rw [su.onPort p .silent (by decide)]; exact hy)]
        exact State.rd_of_ram su.ram y
      · exact (kept.effect.onPort p .iface (by decide)).2.2.2.trans face.2
      · exact (kept.effect.onPort p .iface (by decide)).1.trans face.1
      · exact kept.effect.exec.trans su.exec
      · exact (su.step kept.effect (l := [.iface, .silent, .silenceDue, .ram, .trail, .attn, .dirty, .lamp])).sameInside

/-! ### Channels -/

theorem State.judge_channelByte {c : Fin 16} {o : Nat} (hw : (s.port p).wide = false) (ho : o < 2)
    (h : a.toNat = Config.contextBase p + 2 * c.val + o) :
    s.judgeWrite p a d = judgeContext (s.port p) (2 * c.val + o) (lowByte d) 0 := by
  have x : accessAddr (s.port p).wide a = a.toNat := by rw [accessAddr, hw]; rfl
  have b : accessBytes (s.port p) d = (lowByte d, 0) := by rw [accessBytes, hw]; rfl
  have offset : a.toNat - Config.contextBase p = 2 * c.val + o := by omega
  rw [State.judge_context (by omega) (by omega), x, b, offset]

theorem finOfNat_half (c : Fin 16) : Fin.ofNat 16 (2 * c.val / 2) = c := by
  apply Fin.ext
  rw [Fin.val_ofNat]
  omega

theorem State.judge_lowByte {c : Fin 16} (hw : (s.port p).wide = false) (h : a.toNat = Config.contextBase p + 2 * c.val) :
    s.judgeWrite p a d = .stage c := by
  rw [State.judge_channelByte hw (o := 0) (by decide) h, judgeContext, if_neg (by rw [hw]; nofun), if_pos (by omega),
    Nat.add_zero, finOfNat_half]

theorem State.judge_highByte {c : Fin 16} (hw : (s.port p).wide = false)
    (h : a.toNat = Config.contextBase p + 2 * c.val + 1) : s.judgeWrite p a d =
    (s.port p).staging.elim .unpaired fun x => if x.1 = c then .commit c x.2 (lowByte d) else .unpaired := by
  have half : (2 * c.val + 1) / 2 = c.val := by omega
  rw [State.judge_channelByte hw (o := 1) (by decide) h, judgeContext, if_neg (by rw [hw]; nofun), if_neg (by omega), half]
  cases (s.port p).staging with
  | none => rfl
  | some x =>
    obtain ⟨e, lo⟩ := x
    by_cases he : e = c
    · subst he; simp
    · have : e.val ≠ c.val := fun h => he (Fin.ext h)
      simp [he, this]

theorem State.judge_channelWord {c : Fin 16} (hw : (s.port p).wide = true)
    (h : a.toNat / 2 * 2 = Config.contextBase p + 2 * c.val) : s.judgeWrite p a d =
    .commit c (lanesIn (s.port p).swapped d).1 (lanesIn (s.port p).swapped d).2 := by
  have x : accessAddr (s.port p).wide a = Config.contextBase p + 2 * c.val := by rw [accessAddr, if_pos hw]; exact h
  have b : accessBytes (s.port p) d = lanesIn (s.port p).swapped d := by rw [accessBytes, if_pos hw]
  rw [State.judge_context (by omega) (by omega), x, b, judgeContext, if_pos hw, Nat.add_sub_cancel_left, finOfNat_half]

theorem State.rd_commitChannel (hc : s.MemoriesCanonical) (c : Fin 16) (lo hi : Byte) (y : Nat) :
    (s.commitChannel p c lo hi).rd y = if y = Config.contextBase p + 2 * c.val then lo
      else if y = Config.contextBase p + 2 * c.val + 1 then hi else s.rd y := by
  have ram : (s.commitChannel p c lo hi).rd y = (s.wrBytes (Config.contextBase p + 2 * c.val) [lo, hi]).rd y :=
    State.rd_of_ram (by simp [State.commitChannel]) y
  rw [ram, State.rd_wrBytes hc]
  by_cases h0 : y = Config.contextBase p + 2 * c.val
  · subst h0
    rw [if_pos (by simp), if_pos rfl, Nat.sub_self]
    rfl
  · rw [if_neg h0]
    by_cases h1 : y = Config.contextBase p + 2 * c.val + 1
    · subst h1
      rw [if_pos (by simp), if_pos rfl, Nat.add_sub_cancel_left]
      rfl
    · rw [if_neg (by simp only [List.length_cons, List.length_nil]; omega), if_neg h1]

/-- A write whose area's event does nothing beside the staging (R178). -/
theorem staged_heard {k : WriteKind} (hc : s.MemoriesCanonical) : let t := (s.stageFor p k d).heard p
    (t.port p).staging = ((s.stageFor p k d).port p).staging ∧ (t.port p).channels = (s.port p).channels ∧
    (t.port p).stray = (s.port p).stray ∧ (∀ y, ((s.port p).silent = true → 0x0600 ≤ y) → t.rd y = s.rd y) ∧
    t.exec = s.exec ∧ SameInside s t := by
  have su := s.stageFor_effect p k d
  have kept := State.heard_keeps (su.keeps .memories (by decide) hc) p
  have face := kept.effect.onPort p .iface (by decide)
  obtain ⟨x, port, -⟩ := s.stageFor_port (p := p) (d := d) k
  refine ⟨face.1, (kept.effect.onPort p .channels (by decide)).trans (su.onPort p .channels (by decide)),
    face.2.2.2.trans (by rw [port]), fun y hy => ?_, kept.effect.exec.trans su.exec,
    (su.step kept.effect (l := [.iface, .silent, .silenceDue, .ram, .trail, .attn, .dirty, .lamp])).sameInside⟩
  rw [kept.rd y (by rw [su.onPort p .silent (by decide)]; exact hy)]
  exact State.rd_of_ram su.ram y

/-- Settles O29: a channel's bytes by the port's width and the staging. -/
theorem channelWritesArePaired : Obligations.ChannelWritesArePaired := by
  intro p c a d s hr hc base quiet
  refine ⟨fun hw ha => ?_, fun lo hi h => ?_, fun hw ha hn => ?_⟩
  · have hk : s.judgeWrite p a d = .stage c := State.judge_lowByte hw ha
    obtain ⟨staging, rest⟩ := staged_heard (p := p) (d := d) (k := .stage c) hc
    refine ⟨_, (arises_pos true s _ hr rfl).trans (congrArg _ (State.wholeWrite_of hk nofun)), ?_, rest⟩
    have b : accessBytes (s.port p) d = (lowByte d, 0) := by rw [accessBytes, hw]; rfl
    refine staging.trans ?_
    rw [State.stageFor, State.setPort_port_eq, if_pos rfl, b]
  · have hk : s.judgeWrite p a d = .commit c lo hi := by
      rcases h with ⟨hw, ha, hs, rfl⟩ | ⟨hw, ha, e⟩
      · rw [State.judge_highByte hw ha, hs]
        exact if_pos rfl
      · rw [State.judge_channelWord hw ha, ← e]
    let u := s.stageFor p (.commit c lo hi) d
    let v := u.commitChannel p c lo hi
    have su : Effect [.iface] [] s u := s.stageFor_effect p _ d
    have uv : Effect [.ram, .board, .channels] [] u v := u.commitChannel_effect p c lo hi
    have sv : Effect [.iface, .ram, .board, .channels] [] s v := su.step uv
    have kept := State.heard_keeps (sv.keeps .memories (by decide) hc) p
    have vt := kept.effect
    have hu : u.MemoriesCanonical := su.keeps .memories (by decide) hc
    obtain ⟨x, port, empty⟩ := s.stageFor_port (p := p) (d := d) (.commit c lo hi)
    have vport : v.port p = { u.port p with channels := (u.port p).channels.set c (some u.now) } := by
      show ((u.wrBytes _ _).setPort p _).port p = _
      rw [State.setPort_port_eq, if_pos rfl]
    have rd (y : Nat) (hq : quiet y) : (v.heard p).rd y = if y = base then lo else if y = base + 1 then hi else s.rd y := by
      rw [kept.rd y (by rw [sv.onPort p .silent (by decide)]; exact hq), State.rd_commitChannel hu, State.rd_of_ram su.ram]
    have areas := own_areas p
    have loud (y : Nat) (h : base ≤ y) : quiet y := fun _ => by
      have : base = Config.contextBase p + 2 * c.val := rfl
      omega
    have first : (v.heard p).rd base = lo := by rw [rd _ (loud _ (Nat.le_refl _)), if_pos rfl]
    have second : (v.heard p).rd (base + 1) = hi := by
      rw [rd _ (loud _ (Nat.le_succ _)), if_neg (by omega), if_pos rfl]
    refine ⟨v.heard p, (arises_pos true s _ hr rfl).trans (congrArg _ (State.wholeWrite_of hk nofun)), first, second, ?_, ?_,
      ?_, fun y h0 h1 hq => ?_, vt.exec.trans sv.exec, ?_⟩
    · show natOf16 ((v.heard p).rd base) ((v.heard p).rd (base + 1)) = _
      rw [first, second]
    · rw [vt.onPort p .channels (by decide), vport, su.onPort p .channels (by decide), su.now]
    · rw [(vt.onPort p .iface (by decide)).1, vport]
      exact (congrArg PortState.staging port).trans (empty nofun)
    · rw [rd y hq, if_neg h0, if_neg h1]
    · exact (sv.step vt (l := [.iface, .ram, .board, .channels, .silent, .silenceDue, .trail, .attn, .dirty, .lamp])).sameInside
  · have hk : s.judgeWrite p a d = .unpaired := by
      rw [State.judge_highByte hw ha]
      cases hs : (s.port p).staging with
      | none => rfl
      | some x =>
        refine if_neg fun e => hn x.2 ?_
        rw [hs, ← e]
    obtain ⟨staging, rest⟩ := staged_heard (p := p) (d := d) (k := .unpaired) hc
    refine ⟨_, (arises_pos true s _ hr rfl).trans (congrArg _ (State.wholeWrite_of hk nofun)), ?_, rest⟩
    obtain ⟨x, port, empty⟩ := s.stageFor_port (p := p) (d := d) .unpaired
    refine staging.trans ?_
    rw [port]
    exact empty nofun

end Sys2Proof.Machine
end

