-- ==== Sys2Proof/Proofs/Releases.lean ====
section
/-!
PROOFS. The writes a block watches: the state byte of the own cell (R135 to R140), and the release byte with the
publisher's takes (R168, R176).
-/

-- Proofs in the order of the text: those that elaborate default tactic arguments at once wait for each other.
set_option Elab.async false

namespace Sys2Proof.Machine

variable {s t u v : State} {p : Port} {a : Addr} {d : Word}

/-! ### The state byte -/

theorem State.judge_stateByte (h : accessAddr (s.port p).wide a = Config.cellBase p) :
    s.judgeWrite p a d = judgeState (s.port p).cell (accessBytes (s.port p) d).1 := by
  rw [State.judge_cell (by omega) (by omega), h, Nat.sub_self]
  rfl

theorem State.rd_storeRequestCode (hc : s.MemoriesCanonical) (y : Nat) : (s.storeRequestCode p d).rd y =
    if ((s.port p).wide = true ∧ (s.port p).cell = .idle) ∧ y = Config.cellBase p + 1 then (accessBytes (s.port p) d).2
    else s.rd y := by
  unfold State.storeRequestCode
  split
  · next h => 
    rw [State.rd_wr hc]
    simp only [h, true_and, and_true]
  · next h => rw [if_neg fun x => h x.1]

theorem State.rd_offer (y : Nat) : s.offer.rd y = s.rd y := State.rd_of_ram (by simp) y

/-- What the write's silence event leaves of a state that differs from `s` outside the silence watch (R98). -/
theorem heard_rest (hc : s.MemoriesCanonical)
    (sv : Effect [.iface, .ram, .board, .cells, .exec, .attn] [] s v) : let t := v.heard p
    (∀ y, ((s.port p).silent = true → 0x0600 ≤ y) → t.rd y = v.rd y) ∧ (t.port p).cell = (v.port p).cell ∧
    t.exec = v.exec ∧ (t.port p).stray = (v.port p).stray ∧ SameInside s t := by
  have kept := State.heard_keeps (sv.keeps .memories (by decide) hc) p
  refine ⟨fun y hy => kept.rd y (by rw [sv.onPort p .silent (by decide)]; exact hy), kept.effect.cell p, kept.effect.exec,
    (kept.effect.onPort p .iface (by decide)).2.2.2, ?_⟩
  exact (sv.step kept.effect (l := [.iface, .ram, .board, .cells, .exec, .attn, .silent, .silenceDue, .trail, .dirty, .lamp])).sameInside

/-- A take opportunity finds the cell posted, and the other one, as the preference has it (R139, R140). -/
theorem State.offer_claim (hn : s.exec.taken = none) (hc : s.exec.claim = none)
    (ho : s.ride.state = .noRide ∨ s.ride.state = .riding) : s.offer.exec.claim = s.arbitrate := by
  rw [s.offer_exec, if_pos ⟨hn, hc, s.requestsTaken_iff.mpr ho⟩]

theorem State.offer_closed (h : ¬(s.ride.state = .noRide ∨ s.ride.state = .riding)) : s.offer.exec = s.exec := by
  rw [s.offer_exec, if_neg fun x => h (s.requestsTaken_iff.mp x.2.2)]

theorem State.arbitrate_posted (h : (s.port p).cell = .posted) :
    s.arbitrate = some (if (s.port p.other).cell = .posted then s.exec.pref else p) := by
  unfold State.arbitrate
  rcases Port.eq_or_other s.exec.pref p with e | e
  · rw [e, if_pos h]
    split <;> rfl
  · have back : p.other.other = p := by cases p <;> rfl
    rw [e, back]
    by_cases ho : (s.port p.other).cell = .posted
    · rw [if_pos ho, if_pos ho]
    · rw [if_neg ho, if_neg ho, if_pos h]

theorem State.arbitrate_idle (h : (s.port p).cell = .idle) :
    s.arbitrate = if (s.port p.other).cell = .posted then some p.other else none := by
  unfold State.arbitrate
  rcases Port.eq_or_other s.exec.pref p with e | e
  · rw [e, if_neg (by rw [h]; nofun)]
  · have back : p.other.other = p := by cases p <;> rfl
    rw [e, back, if_neg (by rw [h]; nofun : ¬(s.port p).cell = .posted)]

/-- The cell withdrawn is picked no more; no take opportunity yet (R138). -/
def State.withdrawn (p : Port) (s : State) : State :=
  let v := s.setCell p .idle
  if v.exec.claim = some p then v.unclaim else v

theorem State.withdraw_eq (p : Port) : s.withdraw p = (s.withdrawn p).offer := rfl

theorem State.withdrawn_eq (p : Port) : s.withdrawn p = { s.setCell p .idle with
    exec := { s.exec with claim := if s.exec.claim = some p then none else s.exec.claim } } := by
  have vexec : (s.setCell p .idle).exec = s.exec := (s.setCell_frame p .idle).1.2.2.2
  unfold State.withdrawn
  simp only
  rw [vexec]
  split
  · rw [State.unclaim, vexec]
  · rw [← vexec]

theorem State.withdrawn_cell (p q : Port) : ((s.withdrawn p).port q).cell = if q = p then .idle else (s.port q).cell := by
  have : (s.withdrawn p).port q = (s.setCell p .idle).port q := by rw [State.withdrawn_eq]; cases q <;> rfl
  rw [this, State.setCell_port]
  split <;> rfl

/-- After a withdrawal port `p`'s cell is not picked, and the other one is where it can be (R138). -/
theorem State.withdraw_exec (p : Port) :
    (s.withdraw p).exec.claim ≠ some p ∧ (s.withdraw p).exec.taken = s.exec.taken ∧
    (s.withdraw p).exec.pref = s.exec.pref ∧
    (s.exec.claim = some p → s.exec.taken = none → (s.port p.other).cell = .posted →
      s.ride.state = .noRide ∨ s.ride.state = .riding → (s.withdraw p).exec.claim = some p.other) := by
  let w := s.withdrawn p
  have wexec : w.exec = { s.exec with claim := if s.exec.claim = some p then none else s.exec.claim } := by
    show (s.withdrawn p).exec = _
    rw [State.withdrawn_eq]
  have wride : w.ride = s.ride := by
    show (s.withdrawn p).ride = _
    rw [State.withdrawn_eq]
    simp
  have idle : (w.port p).cell = .idle := (s.withdrawn_cell p p).trans (if_pos rfl)
  have other : (w.port p.other).cell = (s.port p.other).cell := (s.withdrawn_cell p p.other).trans (if_neg (Port.other_ne p))
  have arb := State.arbitrate_idle idle
  have offered := w.offer_frame.2.2.2.2.2.2.2
  rw [s.withdraw_eq]
  refine ⟨fun h => ?_, ?_, ?_, fun hc hn ho hr => ?_⟩
  · rw [show (s.withdrawn p).offer.exec = _ from w.offer_exec] at h
    split at h
    · simp only [arb] at h
      split at h
      · exact Port.other_ne p (Option.some.inj h)
      · cases h
    · rw [wexec] at h
      by_cases e : s.exec.claim = some p
      · simp only [if_pos e] at h; cases h
      · simp only [if_neg e] at h; exact e h
  · exact offered.1.trans (by rw [wexec])
  · exact offered.2.trans (by rw [wexec])
  · have pick : (s.withdrawn p).offer.exec.claim = w.arbitrate :=
      State.offer_claim (by rw [wexec]; exact hn) (by rw [wexec]; exact if_pos hc) (by rw [wride]; exact hr)
    rw [pick, arb, other, if_pos ho]

/-- Settles O27: the state byte's writes by the cell's state and the value. -/
theorem stateByteWritesFollowTheTable : Obligations.StateByteWritesFollowTheTable := by
  intro p a d s hr hc hx v wide quiet open'
  have judged : s.judgeWrite p a d = judgeState (s.port p).cell v := State.judge_stateByte hx
  have areas := own_areas p
  have loud (y : Nat) (h : Config.cellBase p ≤ y) : quiet y := fun _ => by omega
  have run (c : Instr) {k : WriteKind} (hk : s.judgeWrite p a d = k) (hn : ∀ n, k ≠ .release n)
      (hc : exec c s = arises true s (s.wholeWrite p a d)) :
      exec c s = .next (((s.stageFor p k d).writeEffect p a d k).heard p) :=
    hc.trans ((arises_pos true s _ hr rfl).trans (congrArg _ (State.wholeWrite_of hk hn)))
  refine ⟨fun hi hv => ?_, fun hp hv => ?_, fun ha hv => ?_, fun h => ?_⟩
  · have hk : s.judgeWrite p a d = .post := by rw [judged, hi, judgeState]; exact if_pos hv
    let u := s.stageFor p .post d
    let x := u.storeRequestCode p d
    let z := x.setCell p .posted
    have su : Effect [.iface] [] s u := s.stageFor_effect p .post d
    have ux : Effect [.ram, .board] [] u x := u.storeRequestCode_effect p d
    have sx : Effect [.iface, .ram, .board] [] s x := su.step ux
    have xcell : (x.port p).cell = .idle := (sx.cell p).trans hi
    have xz : Effect [.ram, .board, .cells] [] x z := x.setCell_quiet_effect p .posted (by simp [xcell]) (by simp [xcell])
    have sz : Effect [.iface, .ram, .board, .cells] [] s z := sx.step xz
    have sv : Effect [.iface, .ram, .board, .cells, .exec, .attn] [] s z.offer := sz.step z.offer_effect
    obtain ⟨rd, cell, ex, -, inside⟩ := heard_rest (p := p) hc sv
    have hx : x.MemoriesCanonical := sx.keeps .memories (by decide) hc
    have hu : u.MemoriesCanonical := su.keeps .memories (by decide) hc
    have zcell (q : Port) : (z.port q).cell = if q = p then .posted else (s.port q).cell := by
      rw [x.setCell_port]
      split
      · rfl
      · exact sx.cell q
    have rdz (y : Nat) : z.offer.rd y = if y = Config.cellBase p then 1 else
        if (wide = true) ∧ y = Config.cellBase p + 1 then (accessBytes (s.port p) d).2 else s.rd y := by
      obtain ⟨w, port, -⟩ := s.stageFor_port (p := p) (d := d) .post
      rw [State.rd_offer, State.rd_setCell hx, State.rd_storeRequestCode hu, State.rd_of_ram su.ram, su.cell p, port]
      simp only [hi, and_true]
      split
      · rfl
      · rfl
    have zexec : z.exec = s.exec := sz.exec
    have zride : z.ride = s.ride := sz.ride
    refine ⟨z.offer.heard p, run _ hk nofun rfl, ?_, ?_, fun hw => ?_, fun y h0 h1 hq => ?_, fun hn hcl ho => ?_, fun ho => ?_, inside⟩
    · rw [cell, State.offer_port, zcell, if_pos rfl]
    · rw [rd _ (loud _ (Nat.le_refl _)), rdz, if_pos rfl]
    · rw [rd (Config.cellBase p + 1) (loud _ (Nat.le_succ _)), rdz, if_neg (by omega), if_pos ⟨hw, rfl⟩]
    · rw [rd _ hq, rdz, if_neg h0, if_neg fun x => h1 x.1 x.2]
    · rw [ex, State.offer_claim (zexec ▸ hn) (zexec ▸ hcl) (zride ▸ ho),
        State.arbitrate_posted (p := p) (by rw [zcell, if_pos rfl]), zcell, if_neg (Port.other_ne p), zexec]
    · rw [ex, State.offer_closed (by rw [zride]; exact ho), zexec]
  · have hk : s.judgeWrite p a d = .withdraw := by rw [judged, hp, judgeState]; exact if_pos hv
    let u := s.stageFor p .withdraw d
    have su : Effect [.iface] [] s u := s.stageFor_effect p .withdraw d
    have hu : u.MemoriesCanonical := su.keeps .memories (by decide) hc
    have uv := u.withdraw_effect p ((su.cell p).trans hp)
    have sv : Effect [.iface, .ram, .board, .cells, .exec, .attn] [] s (u.withdraw p) := su.step uv
    obtain ⟨rd, cell, ex, -, inside⟩ := heard_rest (p := p) hc sv
    obtain ⟨c1, c2, c3, c4⟩ := u.withdraw_exec p
    rw [su.exec, su.cell p.other, su.ride] at c4
    rw [su.exec] at c2 c3
    have rdv (y : Nat) : (u.withdraw p).rd y = if y = Config.cellBase p then 0 else s.rd y := by
      rw [u.withdraw_eq, State.rd_offer, State.withdrawn_eq]
      exact (State.rd_setCell hu p .idle y).trans (by rw [State.rd_of_ram su.ram]; rfl)
    refine ⟨(u.withdraw p).heard p, run _ hk nofun rfl, ?_, ?_, fun y h0 hq => ?_, ?_, ?_, ?_, fun h1 h2 h3 h4 => ?_, inside⟩
    · rw [cell, u.withdraw_eq, State.offer_port, State.withdrawn_cell, if_pos rfl]
    · rw [rd _ (loud _ (Nat.le_refl _)), rdv, if_pos rfl]
    · rw [rd _ hq, rdv, if_neg h0]
    · rw [ex]; exact c1
    · rw [ex]; exact c2
    · rw [ex]; exact c3
    · rw [ex]; exact c4 h1 h2 h3 h4
  · have hk : s.judgeWrite p a d = .handBack := by rw [judged, ha, judgeState]; exact if_pos hv
    let u := s.stageFor p .handBack d
    let v := (u.setCell p .idle).refreshAttn
    have su : Effect [.iface] [] s u := s.stageFor_effect p .handBack d
    have hu : u.MemoriesCanonical := su.keeps .memories (by decide) hc
    have sv : Effect [.iface, .ram, .board, .cells, .exec, .attn] [] s v :=
      su.step (u.handBack_effect p ((su.cell p).trans ha))
    have svx : Effect [.iface, .ram, .board, .cells, .attn] [] s v := su.step (u.handBack_effect p ((su.cell p).trans ha))
    obtain ⟨rd, cell, ex, -, inside⟩ := heard_rest (p := p) hc sv
    have rdv (y : Nat) : v.rd y = if y = Config.cellBase p then 0 else s.rd y := by
      rw [State.rd_of_ram (State.refreshAttn_frame (u.setCell p .idle)).2.1, State.rd_setCell hu, State.rd_of_ram su.ram]
      rfl
    have idle : ((u.setCell p .idle).port p).cell = .idle := by rw [State.setCell_port, if_pos rfl]
    refine ⟨v.heard p, run _ hk nofun rfl, ?_, ?_, fun y h0 hq => ?_, fun hs => ?_, ?_, inside⟩
    · rw [cell, State.refreshAttn_port]
      exact idle
    · rw [rd _ (loud _ (Nat.le_refl _)), rdv, if_pos rfl]
    · rw [rd _ hq, rdv, if_neg h0]
    · have pub : (u.setCell p .idle).pub = s.pub := (u.setCell_frame p .idle).2.trans su.pub_eq
      have silent : (v.port p).silent = false := (sv.onPort p .silent (by decide)).trans hs
      rw [State.heard_attn p silent, State.refreshAttn_port]
      show State.attnNow _ p = true ↔ _
      rw [State.attnNow, idle, pub]
      simp
    · rw [ex]; exact svx.exec
  · have hk : s.judgeWrite p a d = .stateIgnored := by
      rw [judged]
      rcases h with ⟨h, hv⟩ | ⟨h, hv⟩ | h | ⟨h, hv⟩
      case inr.inr.inl => rw [h, judgeState]
      all_goals rw [h, judgeState]
      all_goals exact if_neg hv
    let u := s.stageFor p .stateIgnored d
    let v := u.storeRequestCode p d
    have su : Effect [.iface] [] s u := s.stageFor_effect p .stateIgnored d
    have hu : u.MemoriesCanonical := su.keeps .memories (by decide) hc
    have svx : Effect [.iface, .ram, .board] [] s v := su.step (u.storeRequestCode_effect p d)
    have sv : Effect [.iface, .ram, .board, .cells, .exec, .attn] [] s v := svx.mono
    obtain ⟨rd, cell, ex, stray, inside⟩ := heard_rest (p := p) hc sv
    obtain ⟨w, port, -⟩ := s.stageFor_port (p := p) (d := d) .stateIgnored
    have rdv (y : Nat) : v.rd y = if (wide = true ∧ (s.port p).cell = .idle) ∧ y = Config.cellBase p + 1 then
        (accessBytes (s.port p) d).2 else s.rd y := by
      rw [State.rd_storeRequestCode hu, State.rd_of_ram su.ram, port]
      rfl
    have vport : v.port p = u.port p := by
      show (u.storeRequestCode p d).port p = _
      unfold State.storeRequestCode
      split
      · exact u.wr_port _ _ p
      · rfl
    refine ⟨v.heard p, run _ hk nofun rfl, ?_, ?_, ?_, ?_, fun y h0 hq => ?_, ?_, inside⟩
    · rw [cell]; exact svx.cell p
    · rw [stray, vport, port]
    · rw [rd _ (loud _ (Nat.le_refl _)), rdv, if_neg (by omega)]
    · rw [rd _ (loud _ (Nat.le_succ _)), rdv]
      simp only [and_true]
    · rw [rd _ hq, rdv, if_neg fun x => h0 x.2]
    · rw [ex]; exact svx.exec

/-! ### Releases -/

/-- What the publisher's takes of the releases `l` of port `p` leave (R168, R176). -/
structure Released (s t : State) (p : Port) (l : List Byte) : Prop where
  releases : (t.port p).releases = (s.port p).releases.drop l.length
  written  : l ≠ [] → t.rd (Config.releaseAddr p) = 0
  nothing  : l = [] → t = s
  pub      : s.pub.reader = p → l ≠ [] → t.pub = s.pub.released (l.map BitVec.toNat).sum
  shown    : s.pub.reader = p → l ≠ [] → natOf16 (t.rd 34) (t.rd 35) = t.pub.readMark.toNat ∧
               t.rd 36 = byteOf t.pub.unread ∧ t.rd 37 = byteOf (flagBit t.pub.overrun 0)
  quiet    : s.pub.reader ≠ p → t.pub = s.pub ∧ ∀ y, y ≠ Config.releaseAddr p → t.rd y = s.rd y
  high     : ∀ y, 0x0600 ≤ y → y ≠ Config.releaseAddr p → t.rd y = s.rd y
  other    : (t.port p.other).releases = (s.port p.other).releases

theorem Publisher.released_released (pb : Publisher) (m n : Nat) : (pb.released m).released n = pb.released (m + n) := by
  have least : min m pb.unread + min n (pb.unread - min m pb.unread) = min (m + n) pb.unread := by omega
  have left : pb.unread - min m pb.unread - min n (pb.unread - min m pb.unread) = pb.unread - min (m + n) pb.unread := by
    omega
  have mark : BitVec.ofNat 16 (min m pb.unread) + BitVec.ofNat 16 (min n (pb.unread - min m pb.unread)) =
      BitVec.ofNat 16 (min (m + n) pb.unread) := by rw [← BitVec.ofNat_add, least]
  have flag : (pb.overrun && decide (pb.unread - min m pb.unread ≠ 0)
      && decide (pb.unread - min (m + n) pb.unread ≠ 0)) = (pb.overrun && decide (pb.unread - min (m + n) pb.unread ≠ 0)) := by
    by_cases h : pb.unread - min (m + n) pb.unread = 0
    · simp [h]
    · have : pb.unread - min m pb.unread ≠ 0 := by omega
      simp [h, this]
  simp only [Publisher.released, Publisher.mk.injEq, left, BitVec.add_assoc, mark, true_and, and_true]
  exact flag

theorem State.released_takeOldest (hc : s.MemoriesCanonical) {n : Byte} {rest : List Byte}
    (h : (s.port p).releases = n :: rest) : Released s (s.takeOldest p) p [n] := by
  let u := s.setPort p { s.port p with releases := rest }
  let v := u.takeRelease p n.toNat
  have hu : u.MemoriesCanonical := hc.of_same (by simp [u]) (by simp [u])
  have hv : v.MemoriesCanonical := State.MemoriesCanonical.takeRelease hu p n.toNat
  have upub : u.pub = s.pub := s.setPort_pub p _
  have urd (y : Nat) : u.rd y = s.rd y := State.rd_of_ram (by simp [u]) y
  have high : 37 < Config.releaseAddr p := by cases p <;> decide
  have rd (y : Nat) : (v.wr (Config.releaseAddr p) 0).rd y = if y = Config.releaseAddr p then 0 else v.rd y :=
    State.rd_wr hv _ y 0
  have low (y : Nat) (hy : y ≤ 37) : (v.wr (Config.releaseAddr p) 0).rd y = v.rd y := by rw [rd, if_neg (by omega)]
  have vrd (y : Nat) : v.rd y = _ := State.rd_takeRelease hu p n.toNat y
  have vpub : v.pub = if u.pub.reader = p then u.pub.released n.toNat else u.pub := u.takeRelease_pub p n.toNat
  have port (q : Port) : ((v.wr (Config.releaseAddr p) 0).port q).releases = (u.port q).releases := by
    obtain ⟨a, e⟩ := u.takeRelease_port p n.toNat q
    rw [State.wr_port, show v.port q = _ from e]
  rw [s.takeOldest_cons p n rest h]
  show Released s (v.wr (Config.releaseAddr p) 0) p [n]
  rw [upub] at vpub
  refine ⟨?_, fun _ => ?_, nofun, fun hr _ => ?_, fun hr _ => ?_, fun hr => ⟨?_, fun y hy => ?_⟩, fun y h6 hy => ?_, ?_⟩
  · rw [port, State.setPort_port_eq, if_pos rfl, h]
    rfl
  · rw [rd, if_pos rfl]
  · rw [State.wr_pub, vpub, if_pos hr]
    simp
  · rw [low 34 (by decide), low 35 (by decide), low 36 (by decide), low 37 (by decide), State.wr_pub, vpub, if_pos hr,
      vrd, vrd, vrd, vrd]
    simp only [upub, hr, if_true]
    exact ⟨natOf16_word (s.pub.released n.toNat).readMark, rfl, trivial⟩
  · rw [State.wr_pub, vpub, if_neg hr]
  · rw [rd, if_neg hy, vrd, upub, if_neg hr, urd]
  · rw [rd, if_neg hy, vrd]
    split
    · rw [if_neg (by omega), if_neg (by omega), if_neg (by omega), if_neg (by omega), urd]
    · exact urd y
  · rw [port, State.setPort_port_eq, if_neg (Port.other_ne p)]

theorem Released.refl (s : State) (p : Port) : Released s s p [] :=
  ⟨rfl, fun h => absurd rfl h, fun _ => rfl, fun _ h => absurd rfl h, fun _ h => absurd rfl h, fun _ => ⟨rfl, fun _ _ => rfl⟩,
    fun _ _ _ => rfl, rfl⟩

theorem Released.cons {n : Byte} {l : List Byte} (h : Released s u p [n]) (h' : Released u t p l) :
    Released s t p (n :: l) := by
  by_cases e : l = []
  · subst e
    rw [h'.nothing rfl]
    exact h
  have reader (hr : s.pub.reader = p) : u.pub.reader = p := by rw [h.pub hr nofun]; exact hr
  refine ⟨?_, fun _ => h'.written e, nofun, fun hr _ => ?_, fun hr _ => h'.shown (reader hr) e, fun hr => ?_,
    fun y h6 hy => (h'.high y h6 hy).trans (h.high y h6 hy), h'.other.trans h.other⟩
  · rw [h'.releases, h.releases, List.drop_drop]
    congr 1
    simp only [List.length_cons, List.length_nil]
    omega
  · rw [h'.pub (reader hr) e, h.pub hr nofun, Publisher.released_released]
    simp
  · obtain ⟨pub, rd⟩ := h.quiet hr
    obtain ⟨pub', rd'⟩ := h'.quiet (by rw [pub]; exact hr)
    exact ⟨pub'.trans pub, fun y hy => (rd' y hy).trans (rd y hy)⟩

/-- The publisher takes the oldest releases that wait (R168). -/
theorem State.released_takeReleases (hc : s.MemoriesCanonical) (p : Port) (k : Nat) :
    Released s (s.takeReleases p k) p ((s.port p).releases.take k) := by
  induction k generalizing s with
  | zero => exact Released.refl s p
  | succ k ih =>
    cases h : (s.port p).releases with
    | nil =>
      have e : s.takeReleases p (k + 1) = s := by rw [State.takeReleases, h]; rfl
      rw [e]
      exact Released.refl s p
    | cons n rest =>
      have first := State.released_takeOldest hc h
      have left : ((s.takeOldest p).port p).releases = rest := by rw [first.releases, h]; rfl
      have e : s.takeReleases p (k + 1) = (s.takeOldest p).takeReleases p k := by
        rw [State.takeReleases, State.takeReleases, h, left]
        rfl
      have others := ih ((s.takeOldest_effect p).keeps .memories (by decide) hc)
      rw [left] at others
      rw [e]
      exact first.cons others

theorem State.raiseRelease_port (p q : Port) (n : Byte) : (s.raiseRelease p n).port q =
    if q = p then { s.port p with releases := (s.port p).releases ++ [n] } else s.port q := by
  rw [State.raiseRelease, State.wr_port, State.setPort_port_eq]

/-- A release as the publisher finds it: `v` the state with the write made, `w` after the takes, `t` after the write's
silence event (R98, R168). -/
structure ReleaseRun (s v t : State) (p : Port) (new : Option Byte) (taken : Nat) (told : Prop) : Prop where
  raised   : Effect [.iface, .ram, .board, .releases] [] s v
  pub      : v.pub = s.pub
  releases : (v.port p).releases = (s.port p).releases ++ new.toList
  other    : (v.port p.other).releases = (s.port p.other).releases
  rd       : ∀ y, v.rd y = if y = Config.releaseAddr p then new.getD (s.rd (Config.releaseAddr p)) else s.rd y
  heard    : Effect [.silent, .silenceDue, .ram, .trail, .attn, .dirty, .lamp] [] (v.takeReleases p taken) t
  high     : ∀ y, 0x0600 ≤ y → t.rd y = (v.takeReleases p taken).rd y
  quiet    : told → t.pub = (v.takeReleases p taken).pub ∧ ∀ y, t.rd y = (v.takeReleases p taken).rd y

theorem releaseRun_write (hr : s.inReset = false) (hc : s.MemoriesCanonical) {n : Byte}
    (hk : s.judgeWrite p a d = .release n) (taken : Nat) :
    ∃ v t, exec (.release p (some (a, d)) taken) s = .next t ∧
      ReleaseRun s v t p (some n) taken ((s.port p).silent = false) := by
  let u := s.stageFor p (.release n) d
  let v := u.raiseRelease p n
  let w := v.takeReleases p taken
  have su : Effect [.iface] [] s u := s.stageFor_effect p _ d
  have sv : Effect [.iface, .ram, .board, .releases] [] s v := su.step (u.raiseRelease_effect p n)
  have vw := v.takeReleases_effect p taken
  have hu : u.MemoriesCanonical := su.keeps .memories (by decide) hc
  have kept := State.heard_keeps (vw.keeps .memories (by decide) (sv.keeps .memories (by decide) hc)) p
  obtain ⟨x, port, -⟩ := s.stageFor_port (p := p) (d := d) (.release n)
  have run : exec (.release p (some (a, d)) taken) s = .next (w.heard p) := by
    refine (arises_pos true s _ hr rfl).trans ?_
    show Host.Outcome.next (s.portWrite p a d taken) = _
    simp only [State.portWrite, hk]
    rfl
  refine ⟨v, w.heard p, run, sv, ?_, ?_, ?_, fun y => ?_, kept.effect, fun y hy => kept.rd y fun _ => hy, fun hs => ?_⟩
  · show ((u.setPort p _).wr _ n).pub = _
    rw [State.wr_pub, State.setPort_pub, su.pub_eq]
  · rw [show v.port p = _ from u.raiseRelease_port p p n, if_pos rfl, port]
    rfl
  · rw [show v.port p.other = _ from u.raiseRelease_port p p.other n, if_neg (Port.other_ne p)]
    exact su.onPort p.other .releases (by decide)
  · have hp : (u.setPort p { u.port p with releases := (u.port p).releases ++ [n] }).MemoriesCanonical :=
      hu.of_same (by simp) (by simp)
    refine (State.rd_wr hp _ y n).trans ?_
    rw [State.rd_of_ram (s := u) (by simp), State.rd_of_ram su.ram]
    rfl
  · have silent : (w.port p).silent = false :=
      (vw.onPort p .silent (by decide)).trans ((sv.onPort p .silent (by decide)).trans hs)
    exact ⟨State.heard_pub silent, fun y => kept.rd y fun h => by rw [silent] at h; cases h⟩

theorem releaseRun_none (hr : s.inReset = false) (taken : Nat) :
    ∃ v t, exec (.release p none taken) s = .next t ∧ ReleaseRun s v t p none taken True := by
  refine ⟨s, s.takeReleases p taken, arises_pos true s _ hr rfl, (Effect.refl s).mono (l := []) (b := []), rfl, ?_, rfl, fun y => ?_,
    (Effect.refl _).mono (l := []) (b := []), fun _ _ => rfl, fun _ => ⟨rfl, fun _ => rfl⟩⟩
  · simp
  · split
    · next h => rw [h]; rfl
    · rfl

/-- Settles O28: the port's write, the publisher's takes, and the silence event of the write. -/
theorem releaseGivesEntriesBack : Obligations.ReleaseGivesEntriesBack := by
  refine ⟨fun p a d s => ⟨State.judge_release, State.judge_otherRelease, fun hw h => ?_⟩, ?_⟩
  · rw [State.judge_releaseWord hw h]
    cases p <;> rfl
  intro p write taken new s hr hc hw own waiting now n k
  obtain ⟨v, t, run, r⟩ : ∃ v t, exec (.release p write taken) s = .next t ∧
      ReleaseRun s v t p new taken ((s.port p).silent = false ∨ write = none) := by
    cases write with
    | none =>
      cases new with
      | none =>
        obtain ⟨v, t, run, r⟩ := releaseRun_none (p := p) hr taken
        exact ⟨v, t, run, { r with quiet := fun _ => r.quiet trivial }⟩
      | some b => exact hw.elim
    | some ad =>
      cases new with
      | none => exact hw.elim
      | some b =>
        obtain ⟨v, t, run, r⟩ := releaseRun_write hr hc (show s.judgeWrite p ad.1 ad.2 = .release b from hw) taken
        exact ⟨v, t, run, { r with quiet := fun h => r.quiet (h.resolve_right nofun) }⟩
  have sv := r.raised
  have given : Released v (v.takeReleases p taken) p now := by
    have h := State.released_takeReleases (sv.keeps .memories (by decide) hc) p taken
    rw [r.releases] at h
    exact h
  have vw := v.takeReleases_effect p taken
  have wt := r.heard
  have out : 0x0600 ≤ own := by show 0x0600 ≤ Config.releaseAddr p; cases p <;> decide
  have rel (q : Port) := wt.onPort q .releases (by decide)
  refine ⟨t, run, ?_, fun hn => ?_, fun hn => ?_, fun quiet => ⟨fun hr hn => ?_, fun h => ?_⟩, ?_, fun y h6 hy => ?_, ?_, ?_⟩
  · rw [rel, given.releases, r.releases]
    show waiting.drop (waiting.take taken).length = _
    rw [List.length_take]
    rcases Nat.le_total taken waiting.length with h | h
    · rw [Nat.min_eq_left h]
    · rw [Nat.min_eq_right h, List.drop_length, List.drop_eq_nil_of_le h]
  · rw [r.high _ out]
    exact given.written hn
  · rw [r.high _ out, given.nothing hn, r.rd, if_pos rfl]
  · obtain ⟨pub, rd⟩ := r.quiet quiet
    rw [pub, rd, rd, rd, rd]
    refine ⟨?_, given.shown (by rw [r.pub]; exact hr) hn⟩
    rw [given.pub (by rw [r.pub]; exact hr) hn, r.pub]
    rfl
  · obtain ⟨pub, rd⟩ := r.quiet quiet
    have still : (v.takeReleases p taken).pub = v.pub ∧ ∀ y, y ≠ own → (v.takeReleases p taken).rd y = v.rd y := by
      rcases h with h | h
      · exact given.quiet (by rw [r.pub]; exact h)
      · rw [given.nothing h]
        exact ⟨rfl, fun _ _ => rfl⟩
    exact ⟨pub.trans (still.1.trans r.pub), fun y hy => by rw [rd, still.2 y hy, r.rd, if_neg hy]⟩
  · rw [rel, given.other, r.other]
  · rw [r.high y h6, given.high y h6 hy, r.rd, if_neg hy]
  · exact wt.exec.trans (vw.exec.trans sv.exec)
  · exact ((sv.step vw (l := [.iface, .ram, .board, .releases, .trail, .attn])).step wt
      (l := [.iface, .ram, .board, .releases, .trail, .attn, .silent, .silenceDue, .dirty, .lamp])).sameInside

end Sys2Proof.Machine
end

