-- ==== Sys2Proof/Proofs/RideTurns.lean ====
section
/-!
PROOFS. The turns of the ride controller: ride begin (R85), entry to ENDING (R89), and its completion (R94).
-/

-- Proofs in the order of the text: those that elaborate default tactic arguments at once wait for each other.
set_option Elab.async false

namespace Sys2Proof.Machine

variable {s t u v : State} {p : Port}

/-! ### Ride begin -/

/-- The timers a ride begin starts, of every port that has adopted (R85). -/
def State.rideTimers (s : State) : State :=
  (((s.startPassTimer .fp).startPassTimer .bp).startSilence .fp).startSilence .bp

theorem State.rideTimers_effect : Effect [.passTimer, .silenceDue] [] s s.rideTimers :=
  (((s.startPassTimer_effect .fp).trans (State.startPassTimer_effect _ .bp)).step (State.startSilence_effect _ .fp)
    (l := [.passTimer, .silenceDue])).trans ((State.startSilence_effect _ .bp).mono)

theorem State.rideTimers_port {c : AdoptedCopy} (ha : s.adoptedCopy p = some c) :
    (s.rideTimers.port p).passDue = some (s.now + Config.passPeriod c.passCode) ∧
    (c.silenceCode ≠ 0 → (s.rideTimers.port p).silenceDue = some (s.now + 50000 * c.silenceCode)) := by
  let v1 := s.startPassTimer .fp
  let v2 := v1.startPassTimer .bp
  let v3 := v2.startSilence .fp
  have e1 : Effect [.passTimer] [] s v1 := s.startPassTimer_effect .fp
  have e2 : Effect [.passTimer] [] s v2 := e1.trans (v1.startPassTimer_effect .bp)
  have e3 : Effect [.passTimer, .silenceDue] [] s v3 := e2.step (v2.startSilence_effect .fp)
  have adopted : (s.port p).adopted = true := by
    rw [State.adoptedCopy] at ha
    by_contra h
    rw [if_neg h] at ha
    cases ha
  have period := State.passPeriodOf_adopted ha
  have period1 := State.passPeriodOf_adopted ((e1.adoptedCopy (by decide) p).trans ha)
  have limit2 := State.silenceLimit_adopted ((e2.adoptedCopy (by decide) p).trans ha)
  have limit3 := State.silenceLimit_adopted ((e3.adoptedCopy (by decide) p).trans ha)
  have last : Effect [.silenceDue] [] v3 s.rideTimers := v3.startSilence_effect .bp
  have third : Effect [.silenceDue] [] v2 v3 := v2.startSilence_effect .fp
  refine ⟨?_, fun hn => ?_⟩
  · rw [last.onPort p .passTimer (by decide), third.onPort p .passTimer (by decide)]
    cases p with
    | fp =>
      rw [State.startPassTimer_port, if_neg (by nofun), State.startPassTimer_port, if_pos ⟨rfl, adopted⟩, period]
    | bp =>
      have adopted1 : (v1.port .bp).adopted = true := ((e1.adoption .bp).1).trans adopted
      rw [State.startPassTimer_port, if_pos ⟨rfl, adopted1⟩, e1.now, period1]
  · cases p with
    | fp =>
      show ((v3.startSilence .bp).port .fp).silenceDue = _
      rw [State.startSilence_port, if_neg (by nofun), State.startSilence_port, if_pos ⟨rfl, by rw [limit2]; omega⟩, limit2,
        e2.now]
    | bp =>
      show ((v3.startSilence .bp).port .bp).silenceDue = _
      rw [State.startSilence_port, if_pos ⟨rfl, by rw [limit3]; omega⟩, limit3, e3.now]

/-- The flags and the RIDE mark of a ride begin (R85). -/
def State.rideMarked (s : State) : State := s.clearRideFlags.markRide

theorem State.rideMarked_effect : Effect [.quals, .marks, .erase] [] s s.rideMarked :=
  s.clearRideFlags_effect.step (State.markRide_effect _)

theorem State.rideSteps_eq : s.rideSteps = (s.rideMarked.rideTimers.appendPart .rideBegin 0).markView := rfl

/-- What follows the timers of a ride begin: its entry of the trail (R85). -/
theorem State.rideTold_effect : Effect [.ram, .trail, .attn, .dirty] [] s (s.appendPart .rideBegin 0).markView :=
  (s.appendPart_effect .rideBegin 0).step (State.markView_effect _)

theorem State.rideSteps_quals (i : Slot) :
    s.rideSteps.quals[i] = { s.quals[i] with tested := false, failed := false, passedMature := false } := by
  rw [State.rideSteps_eq, State.rideTold_effect.quals, State.rideTimers_effect.quals, State.rideMarked,
    (State.markRide_effect _).quals]
  exact s.clearRideFlags_get i

theorem State.rideSteps_mark : s.rideSteps.store.rideMark = true := by
  rw [State.rideSteps_eq, State.rideTold_effect.marks.1, State.rideTimers_effect.marks.1, State.rideMarked, State.markRide_eq]

theorem State.rideSteps_timers {c : AdoptedCopy} (ha : s.adoptedCopy p = some c) :
    (s.rideSteps.port p).passDue = some (s.now + Config.passPeriod c.passCode) ∧
    (c.silenceCode ≠ 0 → (s.rideSteps.port p).silenceDue = some (s.now + 50000 * c.silenceCode)) := by
  have marked := s.rideMarked_effect
  have h := State.rideTimers_port ((marked.adoptedCopy (by decide) p).trans ha)
  rw [marked.now] at h
  have told := s.rideMarked.rideTimers.rideTold_effect
  rw [State.rideSteps_eq, told.onPort p .passTimer (by decide), told.onPort p .silenceDue (by decide)]
  exact h

theorem State.rideSteps_entry (hc : s.MemoriesCanonical) : s.rideSteps.TrailEntry s.pub.writeCount
    (trailBytes s.ride.number s.ride.time 0xFF .rideBegin 0 0) := by
  have he : Effect [.quals, .marks, .erase, .passTimer, .silenceDue] [] s s.rideMarked.rideTimers :=
    s.rideMarked_effect.step State.rideTimers_effect
  have entry := State.append_trailEntry (he.keeps .memories (by decide) hc) .rideBegin 0xFF 0 0
  rw [he.pub_eq, he.ride] at entry
  rw [State.rideSteps_eq]
  exact State.TrailEntry.of_ram entry (State.markView_effect (s.rideMarked.rideTimers.appendPart .rideBegin 0)).ram

theorem State.rideSteps_count : s.rideSteps.pub.writeCount = s.pub.writeCount + 1 := by
  have he : Effect [.quals, .marks, .erase, .passTimer, .silenceDue] [] s s.rideMarked.rideTimers :=
    s.rideMarked_effect.step State.rideTimers_effect
  rw [← he.pub_eq]
  exact (s.rideMarked.rideTimers.append_publisher .rideBegin 0xFF 0 0).1

/-- What a ride begin leaves (R85). -/
structure RideBegun (s t : State) : Prop where
  ride  : t.ride = s.begunRide
  quals : ∀ i : Slot, t.quals[i] = { s.quals[i] with tested := false, failed := false, passedMature := false }
  mark  : t.store.rideMark = true
  timer : ∀ p c, s.adoptedCopy p = some c →
            (t.port p).passDue = some (s.now + Config.passPeriod c.passCode) ∧
            (c.silenceCode ≠ 0 → (t.port p).silenceDue = some (s.now + 50000 * c.silenceCode))
  lamps : ∀ p, (t.port p).shown = .steady ∧ (t.port p).lamp = true
  entry : s.MemoriesCanonical → t.TrailEntry s.pub.writeCount
            (trailBytes (min 65535 (s.ride.number + 1)) 0 0xFF .rideBegin 0 0)
  count : t.pub.writeCount = s.pub.writeCount + 1
  dirty : t.pub.dirty = true

theorem State.rideBegun_rideBegin (s : State) : RideBegun s s.rideBegin := by
  let v : State := { s with ride := s.begunRide }
  have sv : Effect [.ride] [.lamps, .ign] s v := Effect.setRide s s.begunRide
  have shows : Effect [.lamp, .dirty] [] v.rideSteps v.rideSteps.refreshLamps := v.rideSteps.refreshLamps_effect
  rw [State.rideBegin_eq]
  refine ⟨?_, fun i => ?_, ?_, fun p c ha => ?_, fun p => ?_, fun hc => ?_, ?_, ?_⟩
  · rw [shows.ride, (State.rideSteps_effect v).ride]
  · rw [shows.quals]
    exact v.rideSteps_quals i
  · rw [shows.marks.1]
    exact v.rideSteps_mark
  · rw [shows.onPort p .passTimer (by decide), shows.onPort p .silenceDue (by decide)]
    exact v.rideSteps_timers ((sv.adoptedCopy (by decide) p).trans ha)
  · have now : v.rideSteps.patternNow p = .steady := by
      rw [State.patternNow, (State.rideSteps_effect v).ride]
      rfl
    rw [State.refreshLamps_port, now]
    exact ⟨rfl, rfl⟩
  · have entry := State.rideSteps_entry (sv.keeps .memories (by decide) hc)
    exact State.TrailEntry.of_ram entry shows.ram
  · rw [shows.trail.1]
    exact v.rideSteps_count
  · exact State.refreshLamps_dirty _ rfl

theorem State.advanceTo_takeIgn (d : Nat) : (s.advanceTo d).takeIgn =
    { s.advanceTo d with ride := { s.ride with debounced := s.ign, debounceDue := none } } := by
  unfold State.takeIgn
  simp

/-- The expiry of the debounce timer, by the ride state it finds (R81). -/
theorem execIgnDebounceExpiry_run {d : Nat} (hr : s.inReset = false) (hd : s.ride.debounceDue = some d) :
    exec .ignDebounceExpiry s = .next ((s.advanceTo d).takeIgn.ignActed) := by
  show execIgnDebounceExpiry s = _
  simp only [execIgnDebounceExpiry, hd]
  exact arises_pos _ _ _ hr rfl

theorem State.takeIgn_effect : Effect [.ride] [.ign] s s.takeIgn := Effect.setRide_lamps s _ rfl rfl

/-- Settles O7: the level rises, and a ride begins. -/
theorem debouncedRiseBeginsARide : Obligations.DebouncedRiseBeginsARide := by
  intro d s hr hc hd hs hi
  let u := (s.advanceTo d).takeIgn
  have su : Effect [.now, .lamp, .ride] [.ign] s u := (s.advanceTo_effect d).seq State.takeIgn_effect
  have ride : u.ride = { s.ride with debounced := true, debounceDue := none } := by
    show (s.advanceTo d).takeIgn.ride = _
    rw [State.advanceTo_takeIgn, hi]
  have acted : u.ignActed = u.rideBegin := by
    unfold State.ignActed
    rw [ride]
    simp only [hs]
  have b := u.rideBegun_rideBegin
  have ut := u.rideBegin_effect (by rw [ride])
  have now : u.now = max s.now d := by
    show (s.advanceTo d).takeIgn.now = _
    rw [State.advanceTo_takeIgn]
    exact s.advanceTo_now d
  have tnow : u.rideBegin.now = u.now := ut.now
  have number : u.ride.number = s.ride.number := by rw [ride]
  have pub : u.pub = s.pub := su.pub_eq
  refine ⟨u.rideBegin, (execIgnDebounceExpiry_run hr hd).trans (congrArg _ acted), tnow.trans now, ?_, fun i => ?_, b.mark,
    fun p c ha => ?_, b.lamps, ?_, ?_, b.dirty, ?_, ?_, ?_, ?_, ?_⟩
  · rw [b.ride, tnow, State.begunRide, ride]
    rfl
  · rw [b.quals, su.quals]
  · rw [tnow]
    exact b.timer p c ((su.adoptedCopy (by decide) p).trans ha)
  · have entry := b.entry (su.keeps .memories (by decide) hc)
    rw [number, pub] at entry
    exact entry
  · rw [b.count, pub]
  · rw [ut.records, su.records]
  · rw [ut.frames, su.frames]
  · rw [ut.slots, su.slots]
  · rw [ut.profiles, su.profiles]
  · rw [ut.flash, su.flash]

/-! ### Entry to ENDING -/

theorem State.stopPort_port (p q : Port) : (s.stopPort p).port q = if q = p then { s.port p with
    passDue := none, passPos := none, owed := false, silenceDue := none, silent := false } else s.port q := by
  rw [State.stopPort, State.setPort_port_eq]

theorem State.endingSteps_port (p : Port) : s.endingSteps.port p = { s.port p with
    passDue := none, passPos := none, owed := false, silenceDue := none, silent := false } := by
  have : s.endingSteps.port p = ((s.stopPort .fp).stopPort .bp).port p := by cases p <;> rfl
  rw [this, State.stopPort_port, State.stopPort_port, State.stopPort_port]
  cases p <;> rfl

/-- Settles O8: the level falls, and the ride ends. -/
theorem debouncedFallEntersEnding : Obligations.DebouncedFallEntersEnding := by
  intro d s hr hd hs hi
  let u := (s.advanceTo d).takeIgn
  let v : State := { u with ride := u.endedRide }
  have su : Effect [.now, .lamp, .ride] [.ign] s u := (s.advanceTo_effect d).seq State.takeIgn_effect
  have ride : u.ride = { s.ride with debounced := false, debounceDue := none } := by
    show (s.advanceTo d).takeIgn.ride = _
    rw [State.advanceTo_takeIgn, hi]
  have acted : u.ignActed = u.enterEnding := by
    unfold State.ignActed
    rw [ride]
    simp only [hs]
  have ut := u.enterEnding_effect
  have now : u.now = max s.now d := by
    show (s.advanceTo d).takeIgn.now = _
    rw [State.advanceTo_takeIgn]
    exact s.advanceTo_now d
  have tnow : u.enterEnding.now = u.now := ut.now
  have vw := v.endingSteps_effect
  have wride : v.endingSteps.ride = u.endedRide := vw.ride
  have xw : Effect [.lamp, .dirty] [] v.endingSteps u.enterEnding := v.endingSteps.refreshLamps_effect
  refine ⟨u.enterEnding, (execIgnDebounceExpiry_run hr hd).trans (congrArg _ acted), tnow.trans now, ?_, fun p => ?_,
    fun p => ?_, ?_, ?_, ?_, ?_, ?_, ⟨?_, ?_⟩, ?_, ?_⟩
  · rw [State.enterEnding_ride, tnow, State.endedRide, ride]
    rfl
  · have dark : v.endingSteps.patternNow p = .off := by
      rw [State.patternNow, wride]
      rfl
    rw [State.enterEnding_eq, State.refreshLamps_port, dark, State.endingSteps_port]
    exact ⟨rfl, rfl, rfl, rfl, rfl, rfl, rfl⟩
  · rw [ut.cell p, su.cell p]
  · rw [xw.exec]
    show ((v.stopPort .fp).stopPort .bp).unclaim.exec = _
    have same : ((v.stopPort .fp).stopPort .bp).exec = s.exec :=
      ((v.stopPort_effect .fp).trans (State.stopPort_effect _ .bp)).exec.trans su.exec
    rw [State.unclaim, same]
  · rw [ut.ram, su.ram]
  · rw [ut.trail.1, su.trail.1]
  · exact State.refreshLamps_dirty _ rfl
  · exact (su.seq ut (l := .now :: endingFields) (b := [.ign])).sameFaults
  · rw [ut.store_eq, su.store_eq]
  · rw [ut.flash, su.flash]
  · rw [ut.slots, su.slots]
  · rw [ut.profiles, su.profiles]

/-! ### The end of ENDING -/

/-- A take opportunity at a free executor with no cell picked (R139, R140). -/
theorem offered_offer (hcell : ∀ p, (v.port p).cell = (s.port p).cell) (hx : v.exec = s.exec)
    (ht : s.exec.taken = none) (hc : s.exec.claim = none) (ho : v.ride.state = .noRide ∨ v.ride.state = .riding) :
    Offered s v.offer := by
  have pick : v.offer.exec.claim = v.arbitrate := State.offer_claim (by rw [hx]; exact ht) (by rw [hx]; exact hc) ho
  have kept := v.offer_frame.2.2.2.2.2.2.2
  refine ⟨fun p h1 h2 => ?_, fun h => ?_, fun h => ?_, by rw [kept.1, hx], by rw [kept.2, hx]⟩
  · rw [pick, State.arbitrate_posted (p := p) (by rw [hcell]; exact h1), hcell, if_neg h2]
  · rw [pick, State.arbitrate, if_pos (by rw [hcell]; exact h _), hx]
  · rw [pick, State.arbitrate, if_neg (by rw [hcell]; exact h _), if_neg (by rw [hcell]; exact h _)]

theorem State.endingDone_iff (s : State) : s.endingDone = true ↔ s.ride.state = .ending ∧ s.store.rideEnding = true ∧
    (s.store.state = .failed ∨ (s.anyMarked = false ∧ s.store.erase = none ∧ s.store.retErase ≠ .running)) := by
  simp [State.endingDone, State.noEraseInFlight_iff, and_assoc]

/-- Settles O13: the condition of completion, and the two ways out of ENDING. -/
theorem endingCompletesByTheDebouncedLevel : Obligations.EndingCompletesByTheDebouncedLevel := by
  refine ⟨State.anyMarked_iff, fun s => ?_⟩
  intro done
  refine ⟨fun h => ?_, fun hr he hm hd => ?_⟩
  · refine arises_of_not fun x => ?_
    obtain ⟨h1, h2, h3⟩ := s.endingDone_iff.mp x
    rcases h with h | h | h
    · exact h h1
    · rw [h2] at h; cases h
    · exact h h3
  · have run : exec .endingCompletion s = .next s.completeEnding :=
      arises_pos _ _ _ hr (s.endingDone_iff.mpr ⟨he, hm, hd⟩)
    let u : State := { s with store := { s.store with rideEnding := false } }
    have su : Effect [.rideEnding] [] s u := s.setRideEnding_effect false
    have st := s.completeEnding_effect
    refine ⟨_, run, ?_⟩
    cases hb : s.ride.debounced with
    | true =>
      have e : s.completeEnding = u.rideBegin.offer := if_pos hb
      have b := u.rideBegun_rideBegin
      have ut : Effect leaveFields [] u u.rideBegin.offer := (u.rideBegin_effect hb).step (State.offer_effect _)
      have offer := u.rideBegin.offer_effect
      rw [e]
      refine ⟨ut.rideEnding, ?_, ?_, nofun, fun _ => ?_, fun h1 h2 => ?_, ?_, ?_, ?_⟩
      · rw [offer.pub_eq]; exact b.dirty
      · exact ut.now
      · rw [offer.ride, b.ride]
        refine ⟨rfl, rfl, rfl, rfl, rfl, rfl, ?_, ut.records, ut.frames⟩
        rw [offer.store_eq]; exact b.mark
      · refine offered_offer (fun p => ?_) ?_ h1 h2 (.inr ?_)
        · exact ((u.rideBegin_effect hb).cell p)
        · exact (u.rideBegin_effect hb).exec
        · rw [b.ride]; rfl
      · exact ut.flash
      · exact ut.slots
      · exact ut.profiles
    | false =>
      let v : State := ({ u with ride := { u.ride with state := .noRide } } : State).markView.refreshLamps
      have e : s.completeEnding = v.offer := if_neg (by rw [hb]; nofun)
      have uv : Effect [.ride, .dirty, .lamp] [] u v := u.enterNoRide_effect hb u.ride.holdDue
      have ut : Effect [.ride, .dirty, .lamp, .exec] [] u v.offer := uv.step (State.offer_effect _)
      have ride : v.ride = { s.ride with state := .noRide } := by simp [v, u]
      have offer := v.offer_effect
      rw [e]
      refine ⟨ut.rideEnding, ?_, ut.now, fun _ => ⟨?_, ?_, ut.ram⟩, nofun, fun h1 h2 => ?_, ut.flash, ut.slots, ut.profiles⟩
      · rw [offer.pub_eq]
        exact State.refreshLamps_dirty _ rfl
      · rw [offer.ride, ride]
      · exact (su.step ut (l := [.rideEnding, .ride, .dirty, .lamp, .exec])).sameFaults
      · refine offered_offer (fun p => uv.cell p) uv.exec h1 h2 (.inl ?_)
        rw [ride]

end Sys2Proof.Machine
end

