-- ==== Sys2Proof/Proofs/RestoreTurns.lean ====
section
/-!
PROOFS. RESTORE_FINISH (R130 to R133): the classes of the sectors, the counters, and the way out of WAITING (R81).
-/

-- Proofs in the order of the text: those that elaborate default tactic arguments at once wait for each other.
set_option Elab.async false

namespace Sys2Proof.Machine

variable {s t u v : State} {p : Port} {flash : Memory} {k : Fin 16}

/-! ### The sectors -/

theorem classify_retired (h : allBlank ((sectorBytes flash k).drop 2040) = false) : classifySector flash k =
    ({ state := .retired, marked := false, firstSeq := none, used := 0 }, [], .stopped 0) := by
  unfold classifySector
  exact if_pos h

theorem classify_erased (h : allBlank ((sectorBytes flash k).drop 2040) = true) (h' : allBlank (sectorBytes flash k) = true) :
    classifySector flash k = ({ state := .erased, marked := false, firstSeq := none, used := 0 }, [], .blank 0) := by
  have blank : ¬allBlank ((sectorBytes flash k).drop (8 * Config.retireLine)) = false := ne_of_eq_of_ne h (by decide)
  unfold classifySector
  simp only
  rw [if_neg blank, if_pos h']

theorem classify_walked (h : allBlank ((sectorBytes flash k).drop 2040) = true)
    (h' : allBlank (sectorBytes flash k) = false) :
    ((walkSector flash k).1 = [] → classifySector flash k =
      ({ state := .spoiled, marked := false, firstSeq := none, used := 0 }, [], (walkSector flash k).2)) ∧
    ∀ im rest, (walkSector flash k).1 = im :: rest → ∃ n, classifySector flash k =
      ({ state := .full, marked := false, firstSeq := some im.seq, used := n }, im :: rest, (walkSector flash k).2) ∧
      ∀ m, (walkSector flash k).2 = .blank m → n = m := by
  have blank : ¬allBlank ((sectorBytes flash k).drop (8 * Config.retireLine)) = false := ne_of_eq_of_ne h (by decide)
  obtain ⟨l, e, hw⟩ : ∃ l e, walkSector flash k = (l, e) := ⟨(walkSector flash k).1, (walkSector flash k).2, Prod.mk.eta.symm⟩
  have hw' := hw
  unfold walkSector at hw'
  unfold classifySector
  simp only
  rw [if_neg blank, if_neg (ne_of_eq_of_ne h' (by decide)), hw, hw']
  refine ⟨fun hl => ?_, fun im rest hl => ?_⟩
  · simp only at hl
    subst hl
    rfl
  · simp only at hl
    subst hl
    cases e with
    | blank m => exact ⟨m, rfl, fun m' he => WalkEnd.blank.inj he⟩
    | stopped m => exact ⟨m, rfl, nofun⟩

/-- The images restore finds in a sector are those of its walk, or none (R130). -/
theorem classify_images : (classifySector flash k).2.1 = [] ∨ (classifySector flash k).2.1 = (walkSector flash k).1 := by
  cases h : allBlank ((sectorBytes flash k).drop 2040) with
  | false => rw [classify_retired h]; exact .inl rfl
  | true =>
    cases h' : allBlank (sectorBytes flash k) with
    | true => rw [classify_erased h h']; exact .inl rfl
    | false =>
      obtain ⟨none, some⟩ := classify_walked h h'
      cases hw : (walkSector flash k).1 with
      | nil => rw [none hw]; exact .inl rfl
      | cons im rest =>
        obtain ⟨n, e, -⟩ := some im rest hw
        rw [e]
        exact .inr rfl

theorem mem_parsedImages (y : Image) : y ∈ parsedImages flash ↔ y ∈ (classifySector flash y.sector).2.1 := by
  simp only [parsedImages, classifyAll, List.mem_flatMap, List.mem_map, List.mem_finRange, true_and, exists_exists_eq_and]
  constructor
  · rintro ⟨j, hy⟩
    have hj : y.sector = j := by
      rcases classify_images (flash := flash) (k := j) with h | h
      · rw [h] at hy; cases hy
      · rw [h] at hy
        exact walk_sector _ _ _ _ y hy
    rw [hj]
    exact hy
  · exact fun h => ⟨_, h⟩

/-- Restore leaves a sector OPEN: the image of highest sequence lies in it, and its walk has room left (R130). -/
theorem openAfterRestore_eq_some : openAfterRestore flash = some k ↔ ∃ y, newestOf (parsedImages flash) = some y ∧
    y.sector = k ∧ ∃ n, (classifySector flash k).2.2 = .blank n ∧ n < 255 := by
  unfold openAfterRestore
  cases hy : newestOf (parsedImages flash) with
  | none => simp
  | some y =>
    simp only [Option.some.injEq, exists_eq_left']
    constructor
    · intro h
      split at h
      · next n he =>
        split at h
        · next hn =>
          cases h
          exact ⟨rfl, n, he, hn⟩
        · cases h
      · cases h
    · rintro ⟨rfl, n, he, hn⟩
      rw [he]
      exact if_pos hn

theorem restoredSectors_get : (restoredSectors flash)[k] = if openAfterRestore flash = some k then
    { (classifySector flash k).1 with state := .opened } else (classifySector flash k).1 := by
  simp [restoredSectors]

/-- A sector without images is not the OPEN one. -/
theorem restoredSectors_unwalked (h : (classifySector flash k).2.1 = []) :
    (restoredSectors flash)[k] = (classifySector flash k).1 := by
  rw [restoredSectors_get, if_neg]
  intro ho
  obtain ⟨y, hy, rfl, -⟩ := openAfterRestore_eq_some.mp ho
  have := (mem_parsedImages y).mp (newestOf_eq_some hy).1
  rw [h] at this
  cases this

/-- The classes of R130. -/
theorem restoredSectors_class (flash : Memory) (k : Fin 16) :
    let bs := sectorBytes flash k
    let w := walkSector flash k
    let c := (restoredSectors flash)[k]
    (allBlank (bs.drop 2040) = false → c.state = .retired) ∧
    (allBlank bs = true → c.state = .erased) ∧
    (allBlank (bs.drop 2040) = true → allBlank bs = false → w.1 = [] → c.state = .spoiled) ∧
    ∀ im rest, allBlank (bs.drop 2040) = true → allBlank bs = false → w.1 = im :: rest →
      c.firstSeq = some im.seq ∧
      (∀ n, w.2 = .blank n → n < 255 → (∃ x ∈ w.1, ∀ y ∈ parsedImages flash, y.sector ≠ k → y.seq < x.seq) →
        c.state = .opened ∧ c.used = n) ∧
      (((∀ n, w.2 = .blank n → 255 ≤ n) ∨ ∃ y ∈ parsedImages flash, y.sector ≠ k ∧ ∀ x ∈ w.1, x.seq < y.seq) →
        c.state = .full) := by
  intro bs w c
  have plain (h : (classifySector flash k).2.1 = []) : c = (classifySector flash k).1 := restoredSectors_unwalked h
  refine ⟨fun h => ?_, fun h => ?_, fun h h' hw => ?_, fun im rest h h' hw => ?_⟩
  · have e := classify_retired h
    rw [plain (by rw [e]), e]
  · have tail : allBlank (bs.drop 2040) = true := by
      rw [allBlank, List.all_eq_true] at h ⊢
      exact fun b hb => h b (List.mem_of_mem_drop hb)
    have e := classify_erased tail h
    rw [plain (by rw [e]), e]
  · have e := (classify_walked h h').1 hw
    rw [plain (by rw [e]), e]
  · obtain ⟨n, e, used⟩ := (classify_walked h h').2 im rest hw
    have images : (classifySector flash k).2.1 = w.1 := by rw [e]; exact hw.symm
    have ends : (classifySector flash k).2.2 = w.2 := by rw [e]
    have mem (x : Image) (hx : x ∈ w.1) : x ∈ parsedImages flash ∧ x.sector = k := by
      have hk : x.sector = k := walk_sector _ _ _ _ x hx
      refine ⟨(mem_parsedImages x).mpr ?_, hk⟩
      rw [hk, images]
      exact hx
    have value : c = if openAfterRestore flash = some k then { (classifySector flash k).1 with state := .opened }
        else (classifySector flash k).1 := restoredSectors_get
    refine ⟨?_, fun m hm hlt ⟨x, hx, top⟩ => ?_, fun hno => ?_⟩
    · rw [value, e]
      split <;> rfl
    · have opened : openAfterRestore flash = some k := by
        rw [openAfterRestore_eq_some]
        obtain ⟨hp, hk⟩ := mem x hx
        cases hy : newestOf (parsedImages flash) with
        | none => rw [newestOf_eq_none hy] at hp; cases hp
        | some y =>
          obtain ⟨hy1, hy2⟩ := newestOf_eq_some hy
          refine ⟨y, rfl, ?_, m, ends.trans hm, hlt⟩
          by_contra hne
          have := top y hy1 hne
          have := hy2 x hp
          omega
      rw [value, if_pos opened, e]
      exact ⟨rfl, used m hm⟩
    · have closed : openAfterRestore flash ≠ some k := by
        intro ho
        obtain ⟨y, hy, hk, m, hm, hlt⟩ := openAfterRestore_eq_some.mp ho
        obtain ⟨hy1, hy2⟩ := newestOf_eq_some hy
        rcases hno with hno | ⟨x, hx, -, top⟩
        · have := hno m (ends.symm.trans hm)
          omega
        · have hin := (mem_parsedImages y).mp hy1
          rw [hk, images] at hin
          have := top y hin
          have := hy2 x hx
          omega
      rw [value, if_neg closed, e]

/-! ### The counters -/

theorem restoredSeq_spec (l : List Image) : (l = [] → restoredSeq l = 1) ∧ (∀ x ∈ l, x.seq < restoredSeq l) ∧
    (l ≠ [] → ∃ x ∈ l, restoredSeq l = x.seq + 1) := by
  unfold restoredSeq
  cases hy : newestOf l with
  | none =>
    have : l = [] := newestOf_eq_none hy
    subst this
    exact ⟨fun _ => rfl, nofun, fun h => absurd rfl h⟩
  | some y =>
    obtain ⟨h1, h2⟩ := newestOf_eq_some hy
    refine ⟨fun h => ?_, fun x hx => Nat.lt_succ_of_le (h2 x hx), fun _ => ⟨y, h1, rfl⟩⟩
    rw [h] at h1
    cases h1

theorem foldl_max_ride (l : List Image) : ∀ n, n ≤ l.foldl (fun n im => max n im.ride) n ∧
    (∀ x ∈ l, x.ride ≤ l.foldl (fun n im => max n im.ride) n) ∧
    (l.foldl (fun n im => max n im.ride) n = n ∨ ∃ x ∈ l, l.foldl (fun n im => max n im.ride) n = x.ride) := by
  induction l with
  | nil => exact fun n => ⟨Nat.le_refl n, nofun, .inl rfl⟩
  | cons a l ih =>
    intro n
    obtain ⟨h1, h2, h3⟩ := ih (max n a.ride)
    rw [List.foldl_cons]
    refine ⟨by omega, ?_, ?_⟩
    · simp only [List.mem_cons, forall_eq_or_imp]
      exact ⟨by omega, h2⟩
    · rcases h3 with h3 | ⟨x, hx, h3⟩
      · rcases Nat.le_total n a.ride with h | h
        · exact .inr ⟨a, List.mem_cons_self, by omega⟩
        · exact .inl (by omega)
      · exact .inr ⟨x, List.mem_cons_of_mem _ hx, h3⟩

theorem restoredRide_spec (l : List Image) : (∀ x ∈ l, x.valid = true → x.ride ≤ restoredRide l) ∧
    (restoredRide l = 0 ∨ ∃ x ∈ l, x.valid = true ∧ restoredRide l = x.ride) := by
  obtain ⟨-, h2, h3⟩ := foldl_max_ride (l.filter (fun im => im.valid)) 0
  refine ⟨fun x hx hv => h2 x (List.mem_filter.mpr ⟨hx, hv⟩), h3.imp_right ?_⟩
  rintro ⟨x, hx, e⟩
  obtain ⟨h, hv⟩ := List.mem_filter.mp hx
  exact ⟨x, h, hv, e⟩

/-! ### The way out of WAITING -/

/-- Restore leaves no ride flag set (R40, R131). -/
theorem restoredQuals_flags (l : List Image) (kept : List Rebuilt) (i : Slot) :
    { (restoredQuals l kept)[i] with tested := false, failed := false, passedMature := false } = (restoredQuals l kept)[i] := by
  have base (q : Option Image) (n : Nat) : (qualifierFrom q n).tested = false ∧ (qualifierFrom q n).failed = false ∧
      (qualifierFrom q n).passedMature = false := by
    cases q <;> exact ⟨rfl, rfl, rfl⟩
  have slot : (rebuildSlot l i).1.tested = false ∧ (rebuildSlot l i).1.failed = false ∧
      (rebuildSlot l i).1.passedMature = false := by
    unfold rebuildSlot
    simp only
    split
    · exact base _ _
    · split
      · split
        · exact ⟨rfl, rfl, rfl⟩
        · exact base _ _
      · split
        · exact ⟨rfl, rfl, rfl⟩
        · split <;> exact base _ _
      all_goals exact base _ _
  obtain ⟨h1, h2, h3⟩ := slot
  simp [restoredQuals, h1, h2, h3]

/-- With nothing to answer, entry to FAILED tells it, and changes the store alone beside (R125). -/
theorem State.failStore_free (h : s.exec.taken = none) : ∃ x, s.failStore = { s.failTold with store := x } := by
  have taken : s.failTold.exec.taken = none := by rw [s.failTold_effect.exec]; exact h
  have silent : s.failTold.reportClear false = s.failTold :=
    State.reportClear_else false (by rw [taken]; nofun) (by rw [taken]; nofun)
  rw [State.failStore_eq, silent]
  exact State.dropRetErase_free taken

theorem State.failStore_count : s.failStore.pub.writeCount = s.pub.writeCount + 1 := by
  have h1 := (s.failTold.reportClear false).dropRetErase_effect
  have h2 := s.failTold.reportClear_effect false
  let v : State := { s with store := { s.store with state := .failed } }
  rw [State.failStore_eq, h1.trail.1, h2.trail.1]
  exact (v.append_publisher .storeFailed 0xFF (byteOf (s.sectorCount .retired)) 0).1

theorem State.TrailEntry.rideTold (hc : s.MemoriesCanonical) {n : Word} {bytes : List Byte} (h : s.TrailEntry n bytes)
    (hn : n.toNat % 64 ≠ s.pub.writeCount.toNat % 64) : (s.appendPart .rideBegin 0).markView.TrailEntry n bytes := by
  have told := State.TrailEntry.append hc h hn .rideBegin 0xFF 0 0
  exact State.TrailEntry.of_ram told (State.markView_effect (s.append .rideBegin 0xFF 0 0)).ram

theorem State.TrailEntry.rideSteps (hc : s.MemoriesCanonical) {n : Word} {bytes : List Byte} (h : s.TrailEntry n bytes)
    (hn : n.toNat % 64 ≠ s.pub.writeCount.toNat % 64) : s.rideSteps.TrailEntry n bytes := by
  have he : Effect [.quals, .marks, .erase, .passTimer, .silenceDue] [] s s.rideMarked.rideTimers :=
    s.rideMarked_effect.step State.rideTimers_effect
  rw [State.rideSteps_eq]
  refine State.TrailEntry.rideTold (he.keeps .memories (by decide) hc) (State.TrailEntry.of_ram h he.ram) ?_
  rw [he.pub_eq]
  exact hn

/-- A ride begin leaves the entries of the trail before its own (R85, R165). -/
theorem State.TrailEntry.rideBegin (hc : s.MemoriesCanonical) {n : Word} {bytes : List Byte} (h : s.TrailEntry n bytes)
    (hn : n.toNat % 64 ≠ s.pub.writeCount.toNat % 64) : s.rideBegin.TrailEntry n bytes := by
  let v : State := { s with ride := s.begunRide }
  have atv : v.TrailEntry n bytes := State.TrailEntry.of_ram h rfl
  have hv : v.MemoriesCanonical := hc.of_same rfl rfl
  rw [State.rideBegin_eq]
  exact State.TrailEntry.of_ram (State.TrailEntry.rideSteps hv atv hn) (State.refreshLamps_effect v.rideSteps).ram

/-- What leaving WAITING does, by the debounced level (R81). -/
structure LeftWaiting (s t : State) : Prop where
  effect  : Effect leaveFields [] s t
  dirty   : t.pub.dirty = true
  offered : s.exec.taken = none → s.exec.claim = none → Offered s t
  count   : t.pub.writeCount = s.pub.writeCount + (if s.ride.debounced = true then 1 else 0)
  entries : ∀ n bytes, s.MemoriesCanonical → s.TrailEntry n bytes → n.toNat % 64 ≠ s.pub.writeCount.toNat % 64 →
              t.TrailEntry n bytes
  quals   : ∀ i : Slot, { s.quals[i] with tested := false, failed := false, passedMature := false } = s.quals[i] →
              t.quals[i] = s.quals[i]
  idle    : s.ride.debounced = false → t.ride.state = .noRide ∧ t.ride.number = s.ride.number ∧
              t.ride.holdDue = some (s.now + 3000000)
  begun   : s.ride.debounced = true → t.ride.state = .riding ∧ t.store.rideMark = true ∧
              t.ride.number = min 65535 (s.ride.number + 1)

theorem State.leftWaiting_leaveWaiting (s : State) : LeftWaiting s s.leaveWaiting := by
  have he := s.leaveWaiting_effect
  cases hb : s.ride.debounced with
  | true =>
    have e : s.leaveWaiting = s.rideBegin.offer := if_pos hb
    have b := s.rideBegun_rideBegin
    have offer := s.rideBegin.offer_effect
    rw [e] at he ⊢
    refine ⟨he, ?_, fun h1 h2 => ?_, ?_, fun n bytes hc h hn => ?_, fun i h => ?_, fun h => (by rw [hb] at h; cases h), fun _ => ?_⟩
    · rw [offer.pub_eq]; exact b.dirty
    · exact offered_offer (fun p => (s.rideBegin_effect hb).cell p) (s.rideBegin_effect hb).exec h1 h2
        (.inr (by rw [b.ride]; rfl))
    · rw [offer.trail.1, b.count, hb]
      rfl
    · exact State.TrailEntry.of_ram (State.TrailEntry.rideBegin hc h hn) offer.ram
    · rw [offer.quals, b.quals, h]
    · rw [offer.ride, b.ride]
      refine ⟨rfl, ?_, rfl⟩
      rw [offer.store_eq]; exact b.mark
  | false =>
    let v : State :=
      ({ s with ride := { s.ride with state := .noRide, holdDue := some (s.now + Config.holdTime) } } : State).markView.refreshLamps
    have e : s.leaveWaiting = v.offer := if_neg (by rw [hb]; nofun)
    have sv : Effect [.ride, .dirty, .lamp] [] s v := s.enterNoRide_effect hb _
    have offer := v.offer_effect
    have ride : v.ride = { s.ride with state := .noRide, holdDue := some (s.now + Config.holdTime) } := by simp [v]
    have svo : Effect [.ride, .dirty, .lamp, .exec] [] s v.offer := sv.step offer
    rw [e] at he ⊢
    refine ⟨he, ?_, fun h1 h2 => ?_, ?_, fun n bytes hc h hn => ?_, fun i h => ?_, fun _ => ?_, fun h => (by rw [hb] at h; cases h)⟩
    · rw [offer.pub_eq]
      exact State.refreshLamps_dirty _ rfl
    · exact offered_offer (fun p => sv.cell p) sv.exec h1 h2 (.inl (by rw [ride]))
    · rw [svo.trail.1, hb]
      simp
    · exact State.TrailEntry.of_ram h svo.ram
    · rw [svo.quals]
    · rw [offer.ride, ride]
      exact ⟨rfl, rfl, rfl⟩

/-- What settling the store does (R133). -/
structure Settled (s t : State) : Prop where
  effect : Effect failFields [] s t
  state  : t.store.state = if 16 - s.sectorCount .retired < 4 then .failed else .ready
  count  : t.pub.writeCount = s.pub.writeCount + (if 16 - s.sectorCount .retired < 4 then 1 else 0)
  entry  : s.MemoriesCanonical → 16 - s.sectorCount .retired < 4 → t.TrailEntry s.pub.writeCount
             (trailBytes s.ride.number s.ride.time 0xFF .storeFailed (byteOf (s.sectorCount .retired)) 0)
  free   : s.exec.taken = none → t.exec = s.exec ∧ ∀ p, (t.port p).cell = (s.port p).cell

theorem State.settled_settleStore (s : State) : Settled s s.settleStore := by
  have he := s.settleStore_effect
  have sectors := he.sectorCount .retired
  by_cases few : 16 - s.sectorCount .retired < 4
  · have e : s.settleStore = s.failStore := if_pos few
    rw [e] at he sectors ⊢
    refine ⟨he, ?_, ?_, fun hc _ => ?_, fun ht => ?_⟩
    · rw [if_pos few, State.failStore_eq, State.dropRetErase_store, (State.reportClear_effect _ _).store_eq,
        State.failTold_state]
    · rw [State.failStore_count, if_pos few]
    · rw [← sectors]
      exact (State.storeFails_failStore hc).entry
    · obtain ⟨x, hx⟩ := State.failStore_free ht
      rw [hx]
      refine ⟨s.failTold_effect.exec, fun p => ?_⟩
      rw [← s.failTold_effect.cell p]
      cases p <;> rfl
  · have e : s.settleStore = { s with store := { s.store with state := .ready } } := if_neg few
    rw [e] at he ⊢
    refine ⟨he, by rw [if_neg few], ?_, fun _ h => absurd h few, fun _ => ⟨rfl, fun p => ?_⟩⟩
    · simp [if_neg few]
    · cases p <;> rfl

theorem State.rebuild_store (s : State) : s.rebuild.store = { s.store with
    sectors := restoredSectors s.flash, lastOpen := openAfterRestore s.flash, nextSeq := restoredSeq (parsedImages s.flash),
    retPos := readPositions s.flash } := rfl

theorem State.rebuild_frames (s : State) {f : Fin 64} {x : Frame}
    (h : (placeRecords (keptRecords (parsedImages s.flash))).2[f.val]? = some x) : s.rebuild.frames[f] = x := by
  simp only [State.rebuild, Fin.getElem_fin, Vector.getElem_ofFn, List.getD_eq_getElem?_getD, h, Option.getD_some]

/-- Settles O9: the sectors by their walk, then the store settled and WAITING left by the debounced level. -/
theorem restoreFinishRebuildsAndLeavesWaiting : Obligations.RestoreFinishRebuildsAndLeavesWaiting := by
  refine ⟨restoredSectors_class, fun l => ?_, fun s h => ?_, fun s hr hw => ?_⟩
  · obtain ⟨a, b, c⟩ := restoredSeq_spec l
    exact ⟨a, b, c, (restoredRide_spec l).1, (restoredRide_spec l).2⟩
  · exact arises_of_not fun x => h (of_decide_eq_true x)
  · let u := s.rebuild
    let v := u.settleStore
    let w := v.markView
    have run : exec .restoreFinish s = .next w.leaveWaiting := arises_pos _ _ _ hr (decide_eq_true hw)
    have su := s.rebuild_effect
    have settled : Settled u v := u.settled_settleStore
    have uv := settled.effect
    have vw : Effect [.dirty] [] v w := v.markView_effect
    have left : LeftWaiting w w.leaveWaiting := w.leftWaiting_leaveWaiting
    have wt := left.effect
    have uw : Effect failFields [] u w := uv.step vw
    have ut : Effect restoreFields [] u w.leaveWaiting := uw.step wt
    have ride : w.ride = { s.ride with number := restoredRide (parsedImages s.flash) } := uw.ride
    have pub : u.pub = s.pub := su.pub_eq
    have sectors (x : SectorState) : w.leaveWaiting.sectorCount x = u.sectorCount x :=
      (wt.sectorCount x).trans ((vw.sectorCount x).trans (uv.sectorCount x))
    have state : w.leaveWaiting.store.state = if 16 - u.sectorCount .retired < 4 then .failed else .ready := by
      rw [wt.storeState, vw.storeState, settled.state]
    have failed : w.leaveWaiting.store.state = .failed ↔ 16 - u.sectorCount .retired < 4 := by
      rw [state]
      split
      · next h => simp [h]
      · next h => simp [h]
    have count : w.pub.writeCount = s.pub.writeCount + (if 16 - u.sectorCount .retired < 4 then 1 else 0) := by
      rw [vw.trail.1, settled.count, pub]
    refine ⟨w.leaveWaiting, run, fun h1 h2 => ?_, ?_, ?_, ?_, fun i => ?_, fun e => ?_, fun f x hx => ?_, ?_,
      fun hc hf => ?_, ?_, fun hb => ?_, fun hb => ?_, ?_, ?_, ?_, ?_, left.dirty⟩
    · have ht : u.exec.taken = none := by rw [su.exec]; exact h1
      obtain ⟨ex, cell⟩ := settled.free ht
      have wexec : w.exec = s.exec := vw.exec.trans (ex.trans su.exec)
      have wcell (p : Port) : (w.port p).cell = (s.port p).cell := (vw.cell p).trans ((cell p).trans (su.cell p))
      have o := left.offered (by rw [wexec]; exact h1) (by rw [wexec]; exact h2)
      obtain ⟨alone, both, idle, kept⟩ := o
      rw [wexec] at both kept
      simp only [wcell] at alone both idle
      exact ⟨alone, both, idle, kept⟩
    · rw [wt.sectors.1, uw.sectors.1, s.rebuild_store]
    · rw [wt.sectors.2.2.1, uw.sectors.2.2.1, s.rebuild_store]
    · rw [wt.retained, uw.retained, s.rebuild_store]
    · have wq : w.quals = u.quals := uw.quals
      rw [left.quals i (by rw [wq]; exact restoredQuals_flags _ _ i), wq]
      rfl
    · rw [wt.records, uw.records]
      exact s.rebuild_records e
    · rw [wt.frames, uw.frames]
      exact State.rebuild_frames s hx
    · rw [sectors]
      exact state
    · have few := failed.mp hf
      have entry := settled.entry (su.keeps .memories (by decide) hc) few
      have atw : w.TrailEntry _ _ := State.TrailEntry.of_ram entry vw.ram
      have uride : u.ride = { s.ride with number := restoredRide (parsedImages s.flash) } := rfl
      rw [pub] at atw
      simp only [uride] at atw
      have last := left.entries _ _ (uw.keeps .memories (by decide) (su.keeps .memories (by decide) hc)) atw
        (by rw [count, if_pos few]; exact word_succ_mod _)
      rw [sectors]
      exact last
    · rw [left.count, count, ride]
      simp only [failed]
    · obtain ⟨a, b, c⟩ := left.idle (by rw [ride]; exact hb)
      have now : w.now = s.now := uw.now.trans su.now
      simp only [ride] at b
      rw [now] at c
      exact ⟨a, b, c⟩
    · obtain ⟨a, b, c⟩ := left.begun (by rw [ride]; exact hb)
      simp only [ride] at c
      exact ⟨a, b, c⟩
    · rw [wt.flash, uw.flash, su.flash]
    · rw [wt.slots, uw.slots, su.slots]
    · rw [wt.profiles, uw.profiles, su.profiles]
    · rw [wt.now, uw.now, su.now]

end Sys2Proof.Machine
end

