-- ==== Sys2Proof/Proofs/Announcing.lean ====
section
/-!
PROOFS. What the transitions of a qualifier share: the notice to its record (R50), the entry of the trail and the demand it
hands over (R29, R37, R38, R103); and the ride-end accounting (R90 to R93).
-/

-- Proofs in the order of the text: those that elaborate default tactic arguments at once wait for each other.
set_option Elab.async false

namespace Sys2Proof.Machine

variable {s t u v : State} {p : Port} {i : Slot}

/-! ### Demands -/

/-- The lamp counts of two states of a port. -/
def SameCounts (a b : PortState) : Prop := b.steady = a.steady ∧ b.slow = a.slow ∧ b.fast = a.fast

theorem State.handDemand_counts (p q : Port) (x y : Pattern) :
    SameCounts (if q = p then demandMoved x y (s.port q) else s.port q) ((s.handDemand p x y).port q) := by
  obtain ⟨sh, l, h⟩ := s.handDemand_port p q x y
  rw [h]
  split
  · next e => rw [e]; exact ⟨rfl, rfl, rfl⟩
  · exact ⟨rfl, rfl, rfl⟩

/-- A demand that ends lowers its own count (R103). -/
theorem demandMoved_off (x : Pattern) (ps : PortState) :
    (demandMoved x .off ps).steady = ps.steady - (if x = .steady then 1 else 0) ∧
    (demandMoved x .off ps).slow = ps.slow - (if x = .slow then 1 else 0) ∧
    (demandMoved x .off ps).fast = ps.fast - (if x = .fast then 1 else 0) := by
  cases x <;> simp [demandMoved, countDemand]

theorem demandMoved_same (x : Pattern) (ps : PortState) : demandMoved x x ps = ps := if_pos rfl

/-- A demand handed over to nothing ends (R103). -/
theorem demandsEnd_handDemand (s : State) (p : Port) (x : Pattern) :
    DemandsEnd s (s.handDemand p x .off) p (fun y => if x = y then 1 else 0) := by
  obtain ⟨h1, h2, h3⟩ := s.handDemand_counts p p x .off
  obtain ⟨g1, g2, g3⟩ := s.handDemand_counts p p.other x .off
  rw [if_pos rfl] at h1 h2 h3
  rw [if_neg (Port.other_ne p)] at g1 g2 g3
  obtain ⟨e1, e2, e3⟩ := demandMoved_off x (s.port p)
  exact ⟨h1.trans e1, h2.trans e2, h3.trans e3, g1, g2, g3⟩

theorem DemandsEnd.of_counts {ended : Pattern → Nat} (h : DemandsEnd u v p ended)
    (hs : ∀ q, SameCounts (s.port q) (u.port q)) (ht : ∀ q, SameCounts (v.port q) (t.port q)) : DemandsEnd s t p ended := by
  obtain ⟨a1, a2, a3⟩ := hs p
  obtain ⟨b1, b2, b3⟩ := hs p.other
  obtain ⟨c1, c2, c3⟩ := ht p
  obtain ⟨d1, d2, d3⟩ := ht p.other
  obtain ⟨o1, o2, o3⟩ := h.other
  exact ⟨by rw [c1, h.steady, a1], by rw [c2, h.slow, a2], by rw [c3, h.fast, a3],
    ⟨by rw [d1, o1, b1], by rw [d2, o2, b2], by rw [d3, o3, b3]⟩⟩

theorem DemandsEnd.none (h : ∀ q, SameCounts (s.port q) (t.port q)) (p : Port) : DemandsEnd s t p (fun _ => 0) := by
  obtain ⟨h1, h2, h3⟩ := h p
  exact ⟨h1, h2, h3, h p.other⟩

theorem Effect.sameCounts {l : List Field} {b : List Law} (h : Effect l b s t) (hf : Field.counts ∉ l := by decide) (q : Port) :
    SameCounts (s.port q) (t.port q) := h.onPort q .counts hf

/-! ### The record of a slot -/

theorem State.recordOf_eq_some (i : Slot) (e : Fin 48) (r : Record) : s.recordOf i = some (e, r) ↔
    s.Holds e r ∧ r.slot = i ∧ ∀ e' < e, ∀ r', s.Holds e' r' → r'.slot ≠ i := by
  rw [State.recordOf, State.find_recordList]
  simp only [decide_eq_true_eq, decide_eq_false_iff_not]
  exact and_congr_right fun _ => and_congr_right fun _ =>
    ⟨fun h e' he r' hr => h e' r' he hr, fun h e' r' he hr => h e' he r' hr⟩

/-- A slot's record stays its record where another of the same slot takes its entry. -/
theorem State.recordOf_of_set {e : Fin 48} {r r' : Record} (h : s.recordOf i = some (e, r))
    (ht : t.records = s.records.set e (some r')) (hs : r'.slot = r.slot) : t.recordOf i = some (e, r') := by
  obtain ⟨h1, h2, h3⟩ := (s.recordOf_eq_some i e r).mp h
  refine (t.recordOf_eq_some i e r').mpr ⟨?_, hs.trans h2, fun e' he x hx => h3 e' he x ?_⟩
  · rw [State.Holds, ht]
    simp
  · have : e.val ≠ e'.val := fun h => by omega
    rw [State.Holds, ht] at hx
    simp only [Fin.getElem_fin] at hx
    rw [Vector.getElem_set_ne _ _ this] at hx
    exact hx

/-- The record as a notice leaves it, by the mark of R50. -/
def noticed (rideEnding : Bool) (mark : NoticeMark) (r : Record) : Record :=
  match mark with
  | .none => r
  | .ordinary => r.marked rideEnding
  | .byClass => r.marked (decide (r.cls.val = 3) || rideEnding)

theorem State.notice_records (e : Fin 48) (r : Record) (mark : NoticeMark) :
    (s.notice e r mark).records = s.records.set e (some (noticed s.store.rideEnding mark r)) := by
  have held : ((s.setRecord e (some r)).markView).records[e] = some r := by
    show (s.records.set e (some r))[e] = some r
    simp
  cases mark with
  | none => rfl
  | ordinary =>
    show (((s.setRecord e (some r)).markView).markRecord e false).records = _
    rw [State.markRecord_some (s := (s.setRecord e (some r)).markView) e false r held]
    show (s.records.set e (some r)).set e _ = _
    simp [noticed, State.setRecord]
  | byClass =>
    show (((s.setRecord e (some r)).markView).markRecord e (decide (r.cls.val = 3))).records = _
    rw [State.markRecord_some (s := (s.setRecord e (some r)).markView) e _ r held]
    show (s.records.set e (some r)).set e _ = _
    simp [noticed, State.setRecord]

/-! ### The announcement (R29, R38) -/

theorem State.announce_entry (hc : s.MemoriesCanonical) (i : Slot) (k : TrailKind) (d : Byte) (old new : QState) :
    (s.announce i k d old new).TrailEntry s.pub.writeCount
      (trailBytes s.ride.number s.ride.time (byteOf i.val) k d (byteOf (qstateCode new))) := by
  have entry := State.append_trailEntry hc k (byteOf i.val) d (byteOf (qstateCode new))
  have after : Effect [.counts, .lamp, .dirty] [] (s.appendSlot k i d new) (s.announce i k d old new) :=
    (State.handDemand_effect _ _ _ _).step (State.markView_effect _)
  exact State.TrailEntry.of_ram entry after.ram

theorem State.announce_writeCount (i : Slot) (k : TrailKind) (d : Byte) (old new : QState) :
    (s.announce i k d old new).pub.writeCount = s.pub.writeCount + 1 := by
  have after : Effect [.counts, .lamp, .dirty] [] (s.appendSlot k i d new) (s.announce i k d old new) :=
    (State.handDemand_effect _ _ _ _).step (State.markView_effect _)
  rw [after.trail.1]
  exact (s.append_publisher k (byteOf i.val) d (byteOf (qstateCode new))).1

theorem State.announce_counts (i : Slot) (k : TrailKind) (d : Byte) (old new : QState) (q : Port) :
    SameCounts (if q = s.owner i then demandMoved (s.demandIn i old) (s.demandIn i new) (s.port q) else s.port q)
      ((s.announce i k d old new).port q) := by
  let v := s.appendSlot k i d new
  have sv : Effect [.ram, .trail, .attn] [] s v := s.appendSlot_effect k i d new
  obtain ⟨h1, h2, h3⟩ := v.handDemand_counts (s.owner i) q (s.demandIn i old) (s.demandIn i new)
  obtain ⟨c1, c2, c3⟩ := sv.sameCounts (by decide) q
  have e : (s.announce i k d old new).port q = (v.handDemand (s.owner i) (s.demandIn i old) (s.demandIn i new)).port q := by
    cases q <;> rfl
  rw [e]
  have moved (x y : Pattern) : SameCounts (demandMoved x y (s.port q)) (demandMoved x y (v.port q)) := by
    cases x <;> cases y <;> simp [SameCounts, demandMoved, countDemand, c1, c2, c3]
  split
  · next hq =>
    rw [if_pos hq] at h1 h2 h3
    obtain ⟨m1, m2, m3⟩ := moved (s.demandIn i old) (s.demandIn i new)
    exact ⟨h1.trans m1, h2.trans m2, h3.trans m3⟩
  · next hq =>
    rw [if_neg hq] at h1 h2 h3
    exact ⟨h1.trans c1, h2.trans c2, h3.trans c3⟩

/-! ### Counts at ride end -/

theorem State.setCounts_same {a b : Nat} (h : s.quals[i].fade = a ∧ s.quals[i].forget = b) : s.setCounts i a b = s := if_pos h

theorem State.setCounts_quals (i : Slot) (a b : Nat) :
    (s.setCounts i a b).quals = s.quals.set i { s.quals[i] with fade := a, forget := b } := by
  unfold State.setCounts
  simp only
  split
  · next h =>
    rw [← h.1, ← h.2]
    exact (Vector.set_getElem_self i.isLt).symm
  · split
    · exact (State.notice_effect (s.setQual i { s.quals[i] with fade := a, forget := b }) _ _ _).quals
    · rfl

/-- A change of the counts reaches the slot's record as it stands, and marks nothing (R50). -/
theorem State.setCounts_records {a b : Nat} {e : Fin 48} {r : Record} (h : s.recordOf i = some (e, r))
    (hd : s.quals[i].fade ≠ a ∨ s.quals[i].forget ≠ b) :
    (s.setCounts i a b).records = s.records.set e (some { r with fade := a, forget := b }) := by
  let v := s.setQual i { s.quals[i] with fade := a, forget := b }
  have hv : v.recordOf i = some (e, r) := h
  unfold State.setCounts
  simp only
  rw [if_neg (by tauto)]
  show (match v.recordOf i with | some (e, r) => v.notice e (countNotice a b r) .none | none => v).records = _
  rw [hv]
  exact v.notice_records e (countNotice a b r) .none

/-! ### FADING to HISTORIC (R91) -/

/-- A FADING qualifier and its record at HISTORIC; nothing is told yet (R91). -/
def State.madeHistoric (i : Slot) (fade : Nat) (s : State) : State :=
  let v := (s.setQual i { s.quals[i] with state := .historic, fade := fade, forget := 0 }).markView
  (s.recordOf i).elim v fun x => v.notice x.1 (historicNotice s.ride.number fade 0 x.2) .ordinary

theorem State.toHistoric_eq (i : Slot) (fade : Nat) : s.toHistoric i fade =
    (s.madeHistoric i fade).announce i .faded (byteOf ((s.madeHistoric i fade).occurrenceOf i)) .fading .historic := by
  have same : (s.setQual i { s.quals[i] with state := .historic, fade := fade, forget := 0 }).markView.recordOf i = s.recordOf i := rfl
  unfold State.toHistoric State.madeHistoric
  simp only [same]
  cases s.recordOf i <;> rfl

theorem State.madeHistoric_effect (i : Slot) {fade : Nat} (h : fade ≤ 15) :
    Effect [.quals, .dirty, .records, .erase] [] s (s.madeHistoric i fade) := by
  let v := (s.setQual i { s.quals[i] with state := .historic, fade := fade, forget := 0 }).markView
  have sv : Effect [.quals, .dirty] [] s v :=
    (Effect.setQual s i { s.quals[i] with state := .historic, fade := fade, forget := 0 }
      fun hr => ⟨hr.1, hr.2.1, h, Nat.zero_le _⟩).seq (State.markView_effect _)
  unfold State.madeHistoric
  simp only
  cases s.recordOf i with
  | none => exact sv.mono
  | some x => exact sv.step (v.notice_effect x.1 _ .ordinary)

theorem State.madeHistoric_quals (i : Slot) (fade : Nat) :
    (s.madeHistoric i fade).quals = s.quals.set i { s.quals[i] with state := .historic, fade := fade, forget := 0 } := by
  let v := (s.setQual i { s.quals[i] with state := .historic, fade := fade, forget := 0 }).markView
  unfold State.madeHistoric
  simp only
  cases s.recordOf i with
  | none => rfl
  | some x => exact (v.notice_effect x.1 _ .ordinary).quals

theorem State.madeHistoric_recordOf {fade : Nat} {e : Fin 48} {r : Record} (h : s.recordOf i = some (e, r)) :
    (s.madeHistoric i fade).recordOf i =
      some (e, (historicNotice s.ride.number fade 0 r).marked s.store.rideEnding) := by
  let v := (s.setQual i { s.quals[i] with state := .historic, fade := fade, forget := 0 }).markView
  unfold State.madeHistoric
  rw [h]
  exact State.recordOf_of_set h (v.notice_records e (historicNotice s.ride.number fade 0 r) .ordinary) rfl

/-- The occurrence of a slot's record is the one told when it fades (R38, R91). -/
theorem State.madeHistoric_occurrence (i : Slot) (fade : Nat) :
    (s.madeHistoric i fade).occurrenceOf i = s.occurrenceOf i := by
  unfold State.occurrenceOf
  cases h : s.recordOf i with
  | none =>
    have same : (s.madeHistoric i fade).recordOf i = s.recordOf i := by
      unfold State.madeHistoric
      rw [h]
      exact h
    rw [same, h]
  | some x =>
    obtain ⟨e, r⟩ := x
    rw [State.madeHistoric_recordOf h]
    rfl

/-! ### Forgetting (R92) -/

/-- A qualifier forgotten or dropped, and its record freed; nothing is told yet (R52, R92). -/
def State.madeForgotten (i : Slot) (s : State) : State :=
  let v := (s.setQual i { s.quals[i] with state := .idle, m := 0, fade := 0, forget := 0, unrecorded := false }).markView
  (s.recordOf i).elim v fun x => v.freeRecord x.1 x.2 (decide (s.quals[i].state = .historic))

theorem State.forget_eq (i : Slot) : s.forget i =
    if s.quals[i].state = .historic then
      (s.madeForgotten i).announce i .forgotten (byteOf (s.occurrenceOf i)) .historic .idle
    else (s.madeForgotten i).announce i .pendingDropped 0 .pending .idle := by
  have same : (s.setQual i { s.quals[i] with state := .idle, m := 0, fade := 0, forget := 0, unrecorded := false }).markView.recordOf i = s.recordOf i := rfl
  unfold State.forget State.madeForgotten
  simp only [same, decide_eq_true_eq]
  cases s.recordOf i <;> rfl

theorem State.madeForgotten_effect (i : Slot) :
    Effect [.quals, .dirty, .program, .records, .logQueue, .erase] [] s (s.madeForgotten i) := by
  let v := (s.setQual i { s.quals[i] with state := .idle, m := 0, fade := 0, forget := 0, unrecorded := false }).markView
  have sv : Effect [.quals, .dirty] [] s v :=
    (Effect.setQual s i { s.quals[i] with state := .idle, m := 0, fade := 0, forget := 0, unrecorded := false }
      fun _ => ⟨by simp, by simp, Nat.zero_le _, Nat.zero_le _⟩).seq (State.markView_effect _)
  unfold State.madeForgotten
  simp only
  cases s.recordOf i with
  | none => exact sv.mono
  | some x => exact sv.step (v.freeRecord_effect x.1 x.2 _)

theorem State.madeForgotten_quals (i : Slot) : (s.madeForgotten i).quals =
    s.quals.set i { s.quals[i] with state := .idle, m := 0, fade := 0, forget := 0, unrecorded := false } := by
  let v := (s.setQual i { s.quals[i] with state := .idle, m := 0, fade := 0, forget := 0, unrecorded := false }).markView
  unfold State.madeForgotten
  simp only
  cases s.recordOf i with
  | none => rfl
  | some x => exact (v.freeRecord_effect x.1 x.2 _).quals

theorem State.freeRecord_records (e : Fin 48) (r : Record) (b : Bool) : (s.freeRecord e r b).records = s.records.set e none := by
  unfold State.freeRecord
  simp only
  split
  · rw [(State.queueLog_effect _ _).records, State.emptyEntry_records]
  · exact s.emptyEntry_records e

theorem State.freeRecord_release (e : Fin 48) (r : Record) (b : Bool) : (s.freeRecord e r b).store.logQueue =
    s.store.logQueue ++ (if b = true ∧ r.persisted = true then [.release r.slot] else []) := by
  have kept : (s.emptyEntry e).store.logQueue = s.store.logQueue := (s.emptyEntry_effect e).logQueue
  unfold State.freeRecord
  simp only [Bool.and_eq_true]
  split
  · rw [State.queueLog_eq, kept]
  · rw [kept, List.append_nil]

/-! ### One qualifier's accounting (R90 to R92) -/

/-- What the accounting makes of one qualifier, by its adopted profile and its bar (R90 to R92). -/
def accounted (pr : Profile) (barred : Bool) (q : Qualifier) : Qualifier :=
  let failed := q.failed && !barred
  let mature := q.passedMature && !barred
  match q.state with
  | .idle => q
  | .confirmed => { q with fade := 0 }
  | .fading =>
    if failed then { q with fade := 0 }
    else if mature then
      if pr.fadeRides ≤ min 15 (q.fade + 1) then { q with state := .historic, fade := min 15 (q.fade + 1), forget := 0 }
      else { q with fade := min 15 (q.fade + 1) }
    else q
  | .historic | .pending =>
    if forgotten failed q.forget pr.forgetRides then
      { q with state := .idle, m := 0, fade := 0, forget := 0, unrecorded := false }
    else { q with forget := forgetAfter failed q.forget }

theorem State.accountSlot_none (h : s.adoptedProfile i = none) : s.accountSlot i = s := by
  rw [State.accountSlot, h]

theorem State.accountSlot_some {pr : Profile} (h : s.adoptedProfile i = some pr) : s.accountSlot i =
    let q := s.quals[i]
    let failed := q.failed && !s.slots[i].barred
    let mature := q.passedMature && !s.slots[i].barred
    match q.state with
    | .idle => s
    | .confirmed => s.setCounts i 0 q.forget
    | .fading =>
      if failed then s.setCounts i 0 q.forget
      else if mature then
        if pr.fadeRides ≤ min 15 (q.fade + 1) then s.toHistoric i (min 15 (q.fade + 1))
        else s.setCounts i (min 15 (q.fade + 1)) q.forget
      else s
    | .historic | .pending =>
      if forgotten failed q.forget pr.forgetRides then s.forget i
      else s.setCounts i q.fade (forgetAfter failed q.forget) := by
  rw [State.accountSlot, h] <;> rfl

theorem State.toHistoric_quals (i : Slot) (fade : Nat) :
    (s.toHistoric i fade).quals = s.quals.set i { s.quals[i] with state := .historic, fade := fade, forget := 0 } := by
  rw [State.toHistoric_eq, (State.announce_effect _ _ _ _ _ _).quals, State.madeHistoric_quals]

theorem State.forget_quals (i : Slot) : (s.forget i).quals =
    s.quals.set i { s.quals[i] with state := .idle, m := 0, fade := 0, forget := 0, unrecorded := false } := by
  rw [State.forget_eq]
  split
  · rw [(State.announce_effect _ _ _ _ _ _).quals, State.madeForgotten_quals]
  · rw [(State.announce_effect _ _ _ _ _ _).quals, State.madeForgotten_quals]

/-- The accounting of a slot moves its qualifier alone, by the tables (R90 to R92). -/
theorem State.accountSlot_quals {pr : Profile} (h : s.adoptedProfile i = some pr) :
    (s.accountSlot i).quals = s.quals.set i (accounted pr s.slots[i].barred s.quals[i]) := by
  have self : s.quals = s.quals.set i s.quals[i] := (Vector.set_getElem_self i.isLt).symm
  rw [State.accountSlot_some h]
  unfold accounted
  simp only
  cases hq : s.quals[i].state with
  | idle => exact self
  | confirmed => simp only [State.setCounts_quals, hq]
  | fading =>
    simp only
    split
    · simp only [State.setCounts_quals, hq]
    · split
      · split
        · exact State.toHistoric_quals i _
        · simp only [State.setCounts_quals, hq]
      · exact self
  | historic | pending =>
    simp only
    split
    · exact State.forget_quals i
    · simp only [State.setCounts_quals, hq]

end Sys2Proof.Machine
end

