-- ==== Sys2Proof/Proofs/Accounting.lean ====
section
/-!
PROOFS. The rows of the ride-end accounting (R91, R92; O12), and what it leaves at its end (R90, R93; O11).
-/

-- Proofs in the order of the text: those that elaborate default tactic arguments at once wait for each other.
set_option Elab.async false

namespace Sys2Proof.Machine

variable {s t u v : State} {p : Port} {i : Slot}

/-! ### One qualifier -/

/-- What the accounting does to the state: counts, a fading that ends, or a qualifier forgotten (R91, R92). -/
theorem State.accountSlot_form {pr : Profile} (h : s.adoptedProfile i = some pr) :
    (∃ a b, (s.quals[i].InRange → a ≤ 15 ∧ b ≤ 255) ∧ s.accountSlot i = s.setCounts i a b) ∨
    (s.quals[i].state = .fading ∧ s.accountSlot i = s.toHistoric i (min 15 (s.quals[i].fade + 1))) ∨
    ((s.quals[i].state = .historic ∨ s.quals[i].state = .pending) ∧ s.accountSlot i = s.forget i) := by
  have still : s = s.setCounts i s.quals[i].fade s.quals[i].forget := (State.setCounts_same ⟨rfl, rfl⟩).symm
  rw [State.accountSlot_some h]
  simp only
  cases s.quals[i].state with
  | idle => exact .inl ⟨_, _, fun h => h.2.2, still⟩
  | confirmed => exact .inl ⟨_, _, fun h => ⟨Nat.zero_le _, h.2.2.2⟩, rfl⟩
  | fading =>
    simp only
    split
    · exact .inl ⟨_, _, fun h => ⟨Nat.zero_le _, h.2.2.2⟩, rfl⟩
    · split
      · split
        · exact .inr (.inl ⟨trivial, rfl⟩)
        · exact .inl ⟨_, _, fun h => ⟨Nat.min_le_left _ _, h.2.2.2⟩, rfl⟩
      · exact .inl ⟨_, _, fun h => h.2.2, still⟩
  | historic =>
    simp only
    split
    · exact .inr (.inr ⟨.inl trivial, rfl⟩)
    · exact .inl ⟨_, _, fun h => ⟨h.2.2.1, forgetAfter_le _ _⟩, rfl⟩
  | pending =>
    simp only
    split
    · exact .inr (.inr ⟨.inr trivial, rfl⟩)
    · exact .inl ⟨_, _, fun h => ⟨h.2.2.1, forgetAfter_le _ _⟩, rfl⟩

/-- A FADING slot that matured often enough becomes HISTORIC (R91). -/
theorem State.accountSlot_faded {pr : Profile} (h : s.adoptedProfile i = some pr) (hq : s.quals[i].state = .fading)
    (hf : (s.quals[i].failed && !s.slots[i].barred) = false) (hm : (s.quals[i].passedMature && !s.slots[i].barred) = true)
    (hr : pr.fadeRides ≤ min 15 (s.quals[i].fade + 1)) :
    s.accountSlot i = s.toHistoric i (min 15 (s.quals[i].fade + 1)) := by
  rw [State.accountSlot_some h]
  simp only [hq, hf, hm, hr, if_true, Bool.false_eq_true, if_false]

/-- A FADING slot that neither failed nor matured stays as it is (R91). -/
theorem State.accountSlot_still {pr : Profile} (h : s.adoptedProfile i = some pr) (hq : s.quals[i].state = .fading)
    (hf : (s.quals[i].failed && !s.slots[i].barred) = false)
    (hm : (s.quals[i].passedMature && !s.slots[i].barred) = false) : s.accountSlot i = s := by
  rw [State.accountSlot_some h]
  simp only [hq, hf, hm, Bool.false_eq_true, if_false]

/-- A HISTORIC or PENDING slot at its forget rides is forgotten (R92). -/
theorem State.accountSlot_forgotten {pr : Profile} (h : s.adoptedProfile i = some pr)
    (hq : s.quals[i].state = .historic ∨ s.quals[i].state = .pending)
    (hg : forgotten (s.quals[i].failed && !s.slots[i].barred) s.quals[i].forget pr.forgetRides = true) :
    s.accountSlot i = s.forget i := by
  rw [State.accountSlot_some h]
  rcases hq with hq | hq
  · simp only [hq, hg, if_true]
  · simp only [hq, hg, if_true]

theorem forgotten_failed (n rides : Nat) : forgotten true n rides = false := rfl

theorem forgotten_iff (n rides : Nat) : forgotten false n rides = true ↔ rides ≤ min 255 (n + 1) ∧ rides ≠ 255 := by
  simp [forgotten, forgetAfter]

/-- A state that is passed over, or whose counts alone move, tells nothing (R50). -/
theorem State.setCounts_told (i : Slot) {a b : Nat} (h : s.quals[i].InRange → a ≤ 15 ∧ b ≤ 255) :
    (s.setCounts i a b).pub.writeCount = s.pub.writeCount ∧
    (∀ q, SameCounts (s.port q) ((s.setCounts i a b).port q)) :=
  have he := s.setCounts_effect i a b h
  ⟨he.trail.1, fun q => he.sameCounts (by decide) q⟩

/-- Lamp counts that are the same before a demand moves are the same after it. -/
theorem SameCounts.demandMoved {a b : PortState} (h : SameCounts a b) (x y : Pattern) :
    SameCounts (demandMoved x y a) (demandMoved x y b) := by
  obtain ⟨h1, h2, h3⟩ := h
  cases x <;> cases y <;> simp [SameCounts, Machine.demandMoved, countDemand, h1, h2, h3]

theorem SameCounts.trans {a b c : PortState} (h : SameCounts a b) (g : SameCounts b c) : SameCounts a c :=
  ⟨g.1.trans h.1, g.2.1.trans h.2.1, g.2.2.trans h.2.2⟩

/-- What an operation tells that ends in an announcement, and told nothing before it (R29, R38). -/
structure State.Announced (s t : State) (i : Slot) (k : TrailKind) (d : Byte) (old new : QState) : Prop where
  count : t.pub.writeCount = s.pub.writeCount + 1
  entry : s.MemoriesCanonical → t.TrailEntry s.pub.writeCount
    (trailBytes s.ride.number s.ride.time (byteOf i.val) k d (byteOf (qstateCode new)))
  lamps : ∀ q, SameCounts (if q = s.owner i then demandMoved (s.demandIn i old) (s.demandIn i new) (s.port q) else s.port q)
    (t.port q)

theorem Effect.announced {l : List Field} (h : Effect l [] s v) (i : Slot) (k : TrailKind) (d : Byte) (old new : QState)
    (hf : ∀ f ∈ [Field.straps, .adoption, .profiles, .ride, .trail, .counts], f ∉ l := by decide) :
    s.Announced (v.announce i k d old new) i k d old new where
  count := by rw [State.announce_writeCount, (h.trail (hf _ (by decide))).1]
  entry hc := by
    have entry := State.announce_entry (h.keeps .memories (by decide) hc) i k d old new
    rw [(h.trail (hf _ (by decide))).1, h.ride (hf _ (by decide))] at entry
    exact entry
  lamps q := by
    refine SameCounts.trans ?_ (v.announce_counts i k d old new q)
    have copy : ∀ f ∈ [Field.straps, .adoption, .profiles], f ∉ l := fun f hm => hf f (by revert f; decide)
    have same := h.sameCounts (hf _ (by decide)) q
    rw [h.owner (hf _ (by decide)), h.demandIn copy, h.demandIn copy]
    split
    · exact same.demandMoved _ _
    · exact same

theorem State.toHistoric_told (i : Slot) {a : Nat} (h : a ≤ 15) :
    s.Announced (s.toHistoric i a) i .faded (byteOf (s.occurrenceOf i)) .fading .historic := by
  rw [State.toHistoric_eq, State.madeHistoric_occurrence]
  exact (s.madeHistoric_effect i h).announced i _ _ _ _

theorem State.forget_told_historic (h : s.quals[i].state = .historic) :
    s.Announced (s.forget i) i .forgotten (byteOf (s.occurrenceOf i)) .historic .idle := by
  rw [State.forget_eq, if_pos h]
  exact (s.madeForgotten_effect i).announced i _ _ _ _

theorem State.forget_told_pending (h : s.quals[i].state = .pending) :
    s.Announced (s.forget i) i .pendingDropped 0 .pending .idle := by
  rw [State.forget_eq, if_neg (by rw [h]; decide)]
  exact (s.madeForgotten_effect i).announced i _ _ _ _

/-- A demand that becomes OFF at an announcement ends (R103). -/
theorem State.Announced.demandsEnd {k : TrailKind} {d : Byte} {old new : QState} {ended : Pattern → Nat}
    (h : s.Announced t i k d old new) (hn : s.demandIn i new = .off)
    (he : ∀ x, x ≠ .off → ended x = if s.demandIn i old = x then 1 else 0) : DemandsEnd s t (s.owner i) ended := by
  obtain ⟨h1, h2, h3⟩ := h.lamps (s.owner i)
  obtain ⟨g1, g2, g3⟩ := h.lamps (s.owner i).other
  rw [if_pos rfl, hn] at h1 h2 h3
  rw [if_neg (Port.other_ne _)] at g1 g2 g3
  obtain ⟨e1, e2, e3⟩ := demandMoved_off (s.demandIn i old) (s.port (s.owner i))
  exact ⟨by rw [h1, e1, he _ (by decide)], by rw [h2, e2, he _ (by decide)], by rw [h3, e3, he _ (by decide)], g1, g2, g3⟩

/-- The record of a slot that fades away: HISTORIC, of this ride, dirty (R50, R91). -/
theorem State.toHistoric_record {a : Nat} {e : Fin 48} {r : Record} (h : s.recordOf i = some (e, r)) :
    (s.toHistoric i a).Holds e ((historicNotice s.ride.number a 0 r).marked s.store.rideEnding) := by
  have hr := ((State.recordOf_eq_some i e _).mp (State.madeHistoric_recordOf (fade := a) h)).1
  rw [State.toHistoric_eq, State.Holds, (State.announce_effect _ _ _ _ _ _).records]
  exact hr

/-- The record of a slot that is forgotten goes, and is released where it was HISTORIC and persisted (R52). -/
theorem State.forget_record {e : Fin 48} {r : Record} (h : s.recordOf i = some (e, r)) :
    (s.forget i).records[e] = none ∧
    (s.quals[i].state = .historic → r.persisted = true → LogItem.release i ∈ (s.forget i).store.logQueue) := by
  let v := (s.setQual i { s.quals[i] with state := .idle, m := 0, fade := 0, forget := 0, unrecorded := false }).markView
  have made : s.madeForgotten i = v.freeRecord e r (decide (s.quals[i].state = .historic)) := by
    unfold State.madeForgotten
    rw [h]
    rfl
  have slot := ((State.recordOf_eq_some i e r).mp h).2.1
  have after (k : TrailKind) (d : Byte) (old new : QState) :
      ((s.madeForgotten i).announce i k d old new).records[e] = none ∧
      (s.quals[i].state = .historic → r.persisted = true →
        LogItem.release i ∈ ((s.madeForgotten i).announce i k d old new).store.logQueue) := by
    have he := (s.madeForgotten i).announce_effect i k d old new
    rw [he.records, he.logQueue, made, State.freeRecord_records, State.freeRecord_release]
    refine ⟨by simp, fun hq hp => ?_⟩
    rw [if_pos ⟨decide_eq_true hq, hp⟩, slot]
    exact List.mem_append_right _ (List.mem_singleton.mpr rfl)
  rw [State.forget_eq]
  split
  · exact after _ _ _ _
  · exact after _ _ _ _


/-! ### The rows of R91 and R92 -/

theorem unbarred_iff (a b : Bool) : (a && !b) = true ↔ a = true ∧ b = false := by simp

theorem unbarred_not (a b : Bool) : (a && !b) = false ↔ ¬(a = true ∧ b = false) := by simp

section

variable {pr : Profile} {q : Qualifier} {b : Bool}

theorem accounted_confirmed (h : q.state = .confirmed) : accounted pr b q = { q with fade := 0 } := by
  simp only [accounted, h]

theorem accounted_failed (h : q.state = .fading) (hf : q.failed = true ∧ b = false) :
    accounted pr b q = { q with fade := 0 } := by
  simp only [accounted, h, (unbarred_iff _ _).mpr hf, if_true]

theorem accounted_counted (h : q.state = .fading) (hf : ¬(q.failed = true ∧ b = false))
    (hm : q.passedMature = true ∧ b = false) (hr : min 15 (q.fade + 1) < pr.fadeRides) :
    accounted pr b q = { q with fade := min 15 (q.fade + 1) } := by
  simp only [accounted, h, (unbarred_not _ _).mpr hf, (unbarred_iff _ _).mpr hm, if_true, Bool.false_eq_true, if_false,
    Nat.not_le.mpr hr]

theorem accounted_faded (h : q.state = .fading) (hf : ¬(q.failed = true ∧ b = false))
    (hm : q.passedMature = true ∧ b = false) (hr : pr.fadeRides ≤ min 15 (q.fade + 1)) :
    accounted pr b q = { q with state := .historic, fade := min 15 (q.fade + 1), forget := 0 } := by
  simp only [accounted, h, (unbarred_not _ _).mpr hf, (unbarred_iff _ _).mpr hm, if_true, Bool.false_eq_true, if_false, hr]

theorem accounted_remembered (h : q.state = .historic ∨ q.state = .pending)
    (hg : forgotten (q.failed && !b) q.forget pr.forgetRides = false) :
    accounted pr b q = { q with forget := forgetAfter (q.failed && !b) q.forget } := by
  rcases h with h | h
  · simp only [accounted, h, hg, Bool.false_eq_true, if_false]
  · simp only [accounted, h, hg, Bool.false_eq_true, if_false]

theorem accounted_forgotten (h : q.state = .historic ∨ q.state = .pending)
    (hg : forgotten (q.failed && !b) q.forget pr.forgetRides = true) :
    accounted pr b q = { q with state := .idle, m := 0, fade := 0, forget := 0, unrecorded := false } := by
  rcases h with h | h
  · simp only [accounted, h, hg, if_true]
  · simp only [accounted, h, hg, if_true]

end

theorem State.accountSlot_get {pr : Profile} (h : s.adoptedProfile i = some pr) :
    (s.accountSlot i).quals[i] = accounted pr s.slots[i].barred s.quals[i] := by
  rw [State.accountSlot_quals h]
  simp

theorem State.accountSlot_ne (j : Slot) (h : j ≠ i) : (s.accountSlot i).quals[j] = s.quals[j] := by
  cases hp : s.adoptedProfile i with
  | none => rw [State.accountSlot_none hp]
  | some pr =>
    rw [State.accountSlot_quals hp]
    simp only [Fin.getElem_fin]
    exact Vector.getElem_set_ne _ _ fun e => h (Fin.ext e.symm)

theorem State.demandIn_adopted {pr : Profile} (h : s.adoptedProfile i = some pr) (st : QState) :
    s.demandIn i st = lampDemand pr.cls st := by rw [State.demandIn, h]

theorem lampDemand_off (c : Fin 4) {st : QState} (h : st ≠ .confirmed ∧ st ≠ .fading) : lampDemand c st = .off := by
  cases st with
  | confirmed => exact absurd rfl h.1
  | fading => exact absurd rfl h.2
  | idle | pending | historic => rfl

/-- Settles O12: the accounting of one qualifier follows the rows of R91 and R92; where its counts alone move nothing is
told, and where it changes its state the announcement is the last entry. -/
theorem accountingOfOneQualifier : Obligations.AccountingOfOneQualifier := by
  unfold Obligations.AccountingOfOneQualifier
  intro s i
  refine ⟨State.accountSlot_none, fun hq => ?_, fun pr hp => ?_⟩
  · cases hp : s.adoptedProfile i with
    | none => exact State.accountSlot_none hp
    | some pr =>
      rw [State.accountSlot_some hp]
      simp only [hq]
  have row := State.accountSlot_get hp
  have off {st : QState} (h : st ≠ .confirmed ∧ st ≠ .fading) : s.demandIn i st = .off := by
    rw [State.demandIn_adopted hp, lampDemand_off _ h]
  refine ⟨fun hq => row.trans (accounted_confirmed hq), fun hq hf => row.trans (accounted_failed hq hf),
    fun hq hf hm hr => row.trans (accounted_counted hq hf hm hr), fun hq hf hm hr => ?faded, fun hq hf hm => ?still,
    fun hq => ⟨fun hf => ?failed, fun hf hn => ?counted, fun hf hn hr => ?forgotten⟩, fun same => ?same,
    fun moved => ?moved, ?lamps, State.accountSlot_ne⟩
  case faded =>
    refine ⟨row.trans (accounted_faded hq hf hm hr), fun e r h => ?_⟩
    rw [State.accountSlot_faded hp hq ((unbarred_not _ _).mpr hf) ((unbarred_iff _ _).mpr hm) hr]
    exact ⟨_, State.toHistoric_record h, rfl, rfl, rfl, rfl, rfl, rfl⟩
  case still => exact State.accountSlot_still hp hq ((unbarred_not _ _).mpr hf) ((unbarred_not _ _).mpr hm)
  case failed =>
    have hb := (unbarred_iff _ _).mpr hf
    refine row.trans ((accounted_remembered hq (by rw [hb]; exact forgotten_failed _ _)).trans ?_)
    rw [hb]
    rfl
  case counted =>
    have hb := (unbarred_not _ _).mpr hf
    refine row.trans ((accounted_remembered hq ?_).trans ?_)
    · rw [hb, ← Bool.not_eq_true, forgotten_iff]
      omega
    · rw [hb]
      rfl
  case forgotten =>
    have hg : forgotten (s.quals[i].failed && !s.slots[i].barred) s.quals[i].forget pr.forgetRides = true := by
      rw [(unbarred_not _ _).mpr hf, forgotten_iff]
      exact ⟨hn, hr⟩
    refine ⟨row.trans (accounted_forgotten hq hg), fun e r h => ?_⟩
    rw [State.accountSlot_forgotten hp hq hg]
    exact State.forget_record h
  case same =>
    rcases State.accountSlot_form hp with ⟨a, b, hr, e⟩ | ⟨hq, e⟩ | ⟨hq, e⟩
    · refine ⟨by rw [e]; exact (State.setCounts_told i hr).1, fun hd e' r' h => ?_⟩
      rw [e, State.setCounts_quals] at hd ⊢
      simp only [Fin.getElem_fin, Vector.getElem_set_self] at hd ⊢
      exact State.setCounts_records h (hd.imp Ne.symm Ne.symm)
    · rw [e, State.toHistoric_quals] at same
      simp at same
      exact nomatch same.trans hq
    · rw [e, State.forget_quals] at same
      simp at same
      rcases hq with hq | hq
      · exact nomatch same.trans hq
      · exact nomatch same.trans hq
  case moved =>
    rcases State.accountSlot_form hp with ⟨a, b, hr, e⟩ | ⟨hq, e⟩ | ⟨hq, e⟩
    · rw [e, State.setCounts_quals] at moved
      simp at moved
    · have told := State.toHistoric_told (s := s) i (a := min 15 (s.quals[i].fade + 1)) (Nat.min_le_left _ _)
      have new : (s.toHistoric i (min 15 (s.quals[i].fade + 1))).quals[i].state = .historic := by
        rw [State.toHistoric_quals]
        simp
      rw [e]
      refine ⟨told.count, fun hc => ?_⟩
      rw [new, hq]
      exact told.entry hc
    · have new : (s.forget i).quals[i].state = .idle := by
        rw [State.forget_quals]
        simp
      rw [e]
      rcases hq with hq | hq
      · have told := State.forget_told_historic hq
        refine ⟨told.count, fun hc => ?_⟩
        rw [new, hq]
        exact told.entry hc
      · have told := State.forget_told_pending hq
        refine ⟨told.count, fun hc => ?_⟩
        rw [new, hq]
        exact told.entry hc
  case lamps =>
    rcases State.accountSlot_form hp with ⟨a, b, hr, e⟩ | ⟨hq, e⟩ | ⟨hq, e⟩
    · have kept : (s.setCounts i a b).quals[i].state = s.quals[i].state := by
        rw [State.setCounts_quals]
        simp
      have none : ∀ x, ¬(s.quals[i].state = .fading ∧ (s.setCounts i a b).quals[i].state = .historic ∧
          lampDemand pr.cls .fading = x) := by
        rintro x ⟨h1, h2, -⟩
        rw [kept, h1] at h2
        cases h2
      rw [e]
      simp only [none, if_false]
      exact DemandsEnd.none (State.setCounts_told i hr).2 _
    · have new : (s.toHistoric i (min 15 (s.quals[i].fade + 1))).quals[i].state = .historic := by
        rw [State.toHistoric_quals]
        simp
      rw [e]
      refine (State.toHistoric_told i (Nat.min_le_left _ _)).demandsEnd (off (by decide)) fun x _ => ?_
      simp only [hq, new, true_and, State.demandIn_adopted hp]
    · rw [e]
      rcases hq with hq | hq
      · refine (State.forget_told_historic hq).demandsEnd (off (by decide)) fun x hx => ?_
        rw [off (by decide), if_neg hx.symm]
        simp only [hq, reduceCtorEq, false_and, if_false]
      · refine (State.forget_told_pending hq).demandsEnd (off (by decide)) fun x hx => ?_
        rw [off (by decide), if_neg hx.symm]
        simp only [hq, reduceCtorEq, false_and, if_false]

/-! ### The end of the accounting (R90, R93; O11) -/

/-- The accounting captures nothing, and asks for no retained entry. -/
abbrev accountFields : List Field :=
  [.ram, .trail, .attn, .dirty, .quals, .records, .counts, .lamp, .logQueue, .program, .erase]

theorem State.accountSlot_reach (i : Slot) : Effect accountFields [] s (s.accountSlot i) := by
  cases hp : s.adoptedProfile i with
  | none =>
    rw [State.accountSlot_none hp]
    exact Effect.refl s
  | some pr =>
    rcases State.accountSlot_form hp with ⟨a, b, hr, e⟩ | ⟨hq, e⟩ | ⟨hq, e⟩
    · rw [e]
      exact (s.setCounts_effect i a b hr).mono
    · rw [e, State.toHistoric_eq]
      exact (s.madeHistoric_effect i (Nat.min_le_left _ _)).step (State.announce_effect _ _ _ _ _ _)
    · rw [e, State.forget_eq]
      split
      · exact (s.madeForgotten_effect i).step (State.announce_effect _ _ _ _ _ _)
      · exact (s.madeForgotten_effect i).step (State.announce_effect _ _ _ _ _ _)

theorem State.accountAll_reach : Effect accountFields [] s s.accountAll :=
  Effect.foldl _ (fun t i => t.accountSlot_reach i) _ s

theorem State.accountingDue_iff : s.accountingDue = true ↔
    s.ride.state = .ending ∧ s.store.rideEnding = false ∧ s.exec.taken = none := by
  simp [State.accountingDue, and_assoc]

theorem State.accountSlot_congr (hq : t.quals[i] = s.quals[i]) (hp : t.adoptedProfile i = s.adoptedProfile i)
    (hs : t.slots = s.slots) : (t.accountSlot i).quals[i] = (s.accountSlot i).quals[i] := by
  cases h : s.adoptedProfile i with
  | none => rw [State.accountSlot_none h, State.accountSlot_none (hp.trans h), hq]
  | some pr => rw [State.accountSlot_get h, State.accountSlot_get (hp.trans h), hq, hs]

/-- Slot `i` is accounted once, on what stood before any slot was (R90). -/
theorem State.accountSlots_quals (l : List Slot) (hl : l.Nodup) (i : Slot) :
    (l.foldl (fun t j => t.accountSlot j) s).quals[i] = if i ∈ l then (s.accountSlot i).quals[i] else s.quals[i] := by
  induction l generalizing s with
  | nil => simp
  | cons j l ih =>
    obtain ⟨hj, hl⟩ := List.nodup_cons.mp hl
    rw [List.foldl_cons, ih hl]
    by_cases e : i = j
    · subst e
      rw [if_neg hj, if_pos List.mem_cons_self]
    · have he := s.accountSlot_effect j
      have kept := State.accountSlot_ne (s := s) i e
      rw [State.accountSlot_congr kept (he.adoptedProfile (by decide) i) (he.slots (by decide)), kept]
      simp only [List.mem_cons, e, false_or]

theorem State.accountAll_quals (i : Slot) : s.accountAll.quals[i] = (s.accountSlot i).quals[i] := by
  rw [State.accountAll, State.accountSlots_quals _ (List.nodup_finRange 192), if_pos (List.mem_finRange i)]

theorem State.urgeRecords_holds (e : Fin 48) (r : Record) (h : s.urgeRecords.Holds e r) (hd : r.dirty = true) :
    r.urgent = true := by
  simp only [State.Holds, State.urgeRecords, Fin.getElem_fin, Vector.getElem_map, Option.map_eq_some_iff] at h
  obtain ⟨r0, -, rfl⟩ := h
  simp only [Bool.or_eq_true]
  exact .inr hd

theorem State.closeRide_told (hc : s.MemoriesCanonical) :
    s.closeRide.TrailEntry (s.closeRide.pub.writeCount - 1)
      (trailBytes s.ride.number s.ride.time 0xFF .rideEnd 0 0) := by
  let v := s.appendPart .rideEnd 0
  have entry := State.append_trailEntry hc .rideEnd 0xFF 0 0
  have count : v.pub.writeCount = s.pub.writeCount + 1 := (s.append_publisher .rideEnd 0xFF 0 0).1
  have after : Effect [.marks, .erase, .rideEnding, .records] [] v s.closeRide :=
    ((v.markQualifier_effect.step (State.setRideEnding_effect _ true) (l := [.marks, .erase, .rideEnding, .records]))).trans
      ((State.urgeRecords_effect _).mono)
  rw [after.trail.1, count, BitVec.add_sub_cancel]
  exact State.TrailEntry.of_ram entry after.ram

theorem State.closeRide_qualMark (s : State) : s.closeRide.store.qualMark = true := by
  have marked : (s.appendPart .rideEnd 0).markQualifier.store.qualMark = true := by rw [State.markQualifier_eq]
  exact marked

/-- Settles O11: the accounting of all slots, then RIDE_END, the QUALIFIER mark and the ride-ending mode. -/
theorem rideEndAccountingClosesTheRide : Obligations.RideEndAccountingClosesTheRide := by
  unfold Obligations.RideEndAccountingClosesTheRide
  refine ⟨fun s h => ?_, fun s hr hc he hm ht => ?_⟩
  · refine arises_of_not ?_
    rw [State.accountingDue_iff]
    rcases h with h | h | h
    · exact fun x => h x.1
    · exact fun x => h x.2.2
    · exact fun x => by simp [x.2.1] at h
  · have all := s.accountAll_reach
    have close := s.accountAll.closeRide_effect
    have whole : Effect (accountFields ++ [.marks, .rideEnding]) [] s s.accountAll.closeRide := all.step close
    refine ⟨s.accountAll.closeRide, arises_pos _ _ _ hr (State.accountingDue_iff.mpr ⟨he, hm, ht⟩), fun i => ?_, ?_, ?_, rfl,
      fun e r h => State.urgeRecords_holds e r h, whole.ride, whole.frames, whole.slots (by decide), whole.profiles,
      whole.flash, whole.storeState, whole.exec, (whole.board hc).2⟩
    · rw [close.quals, State.accountAll_quals]
    · have told := State.closeRide_told (all.keeps .memories (by decide) hc)
      rw [all.ride] at told
      exact told
    · exact State.closeRide_qualMark _

end Sys2Proof.Machine
end

