-- ==== Sys2Proof/Proofs/Clearing.lean ====
section
/-!
PROOFS. The requests that work on qualifiers: what the take and the completion leave of a request's work (R137, R141), what a
clear does (R41, R146), and CLEAR SLOT and CLEAR PORT (R146 to R148; O34, O35).
-/

-- Proofs in the order of the text: those that elaborate default tactic arguments at once wait for each other.
set_option Elab.async false

namespace Sys2Proof.Machine

variable {s t u v : State} {p : Port} {i : Slot}

/-! ### After the work -/

/-- What a request's wait or answer leaves of its work: all but its cell, the attention lines and the executor (R137). -/
structure Concluded (u t : State) (p : Port) : Prop where
  inside : SameInside u t
  pub : t.pub = u.pub
  ram : ∀ y, y < Config.cellBase p ∨ Config.cellBase p + 64 ≤ y → t.rd y = u.rd y
  ports : ∀ q, { t.port q with cell := (u.port q).cell, attn := (u.port q).attn } = u.port q

theorem sameInside_await (u : State) (w : Taken) : SameInside u (u.await w) :=
  ⟨⟨rfl, rfl, rfl⟩, ⟨rfl, rfl⟩, ⟨rfl, ⟨rfl, rfl, rfl⟩, ⟨rfl, rfl⟩, rfl, rfl⟩, rfl, rfl⟩

theorem concluded_await (u : State) (w : Taken) (p : Port) : Concluded u (u.await w) p :=
  ⟨sameInside_await u w, rfl, fun _ _ => rfl, fun q => by cases q <;> rfl⟩

theorem concluded_complete (hc : u.MemoriesCanonical) {w : Taken} (hw : w.port = p) (st : Status) (a : List Byte) :
    Concluded u ((u.await w).complete p st a) p := by
  have hu : (u.await w).MemoriesCanonical := hc.of_same rfl rfl
  have done := State.complete_answersOnly hu p st a (congrArg some hw)
  refine ⟨(sameInside_await u w).trans done.toSameInside, done.pub, fun y hy => done.ram y ?_ ?_ ?_ ?_, fun q => ?_⟩
  · omega
  · omega
  · omega
  · omega
  · have h := done.ports q
    rw [State.await_port] at h
    exact h

theorem Concluded.sameCounts (h : Concluded u t p) (q : Port) : SameCounts (u.port q) (t.port q) :=
  have e := h.ports q
  have steady := congrArg PortState.steady e
  have slow := congrArg PortState.slow e
  have fast := congrArg PortState.fast e
  ⟨steady, slow, fast⟩

theorem Concluded.trailEntry {n : Word} {bytes : List Byte} (h : Concluded u t p) (he : u.TrailEntry n bytes) :
    t.TrailEntry n bytes := by
  refine he.of_rd fun x _ hx => h.ram x (.inl ?_)
  cases p
  · exact Nat.lt_of_lt_of_le hx (by decide)
  · exact Nat.lt_of_lt_of_le hx (by decide)

/-- The request waits on the work done after its take (R137, R141). -/
theorem Effect.waits {l : List Field} {b : List Law} (h : Effect l b (s.take p) u) (hc : s.MemoriesCanonical)
    (hf : ∀ f ∈ [Field.exec, .cells, .board], f ∉ l) (w : Taken) : (u.await w).Waits p w := by
  refine ⟨?_, ?_, ?_⟩
  · show { u.exec with taken := some w } = _
    rw [h.exec (hf _ (by decide)), State.take_exec]
  · show (State.port _ p).cell = _
    rw [State.await_port, h.cell p (hf _ (by decide)), State.take_port, if_pos rfl]
  · show u.rd (Config.cellBase p) = 2
    rw [(h.board (hc.take p) (hf _ (by decide))).2 _ (by cases p <;> decide), State.rd_take hc, if_pos rfl]

/-- A clear's work `u` after the take: it waits for the store's report, or a FAILED store's answer stands (R126, R147). -/
theorem RequestForm.clears {c : RequestStep → Instr} {mine : State → Port → Bool} {f : State → Port → State}
    (h : RequestForm c mine f) {l : List Field} {answer : List Byte} (hc : s.MemoriesCanonical) (ht : s.canTake p = true)
    (hm : mine s p = true) (hf : f (s.take p) p = u.clearOutcome p answer) (he : Effect l [] (s.take p) u)
    (hl : ∀ f ∈ [Field.exec, .cells, .board, .storeState], f ∉ l) {part : RequestPart} (hp : part ≠ .completion) :
    ∃ t, exec (c { port := p, part := part }) s = .next t ∧ Concluded u t p ∧
      (s.store.state = .failed → part = .whole → t.Answered p .storeFault answer) ∧
      (s.store.state = .failed → part = .take → t.Waits p (.reply p .storeFault answer)) ∧
      (s.store.state ≠ .failed → t.Waits p (.clear p answer)) := by
  have canonical : u.MemoriesCanonical := he.keeps .memories (by decide) (hc.take p)
  have waits (w : Taken) : (u.await w).Waits p w := he.waits hc (fun f hm => hl f (by revert f; decide)) w
  have state : u.store.state = s.store.state := by
    rw [he.storeState (hl _ (by decide))]
    obtain ⟨-, -, -, hcell, -⟩ := (s.canTake_iff p).mp ht
    exact (s.take_effect p hcell).storeState
  by_cases failed : s.store.state = .failed
  · have outcome : u.clearOutcome p answer = u.await (.reply p .storeFault answer) := if_pos (state.trans failed)
    cases part with
    | completion => exact absurd rfl hp
    | take =>
      refine ⟨_, h.take ht hm, ?_, nofun, fun _ _ => ?_, fun x => absurd failed x⟩
      · rw [hf, outcome]
        exact concluded_await u _ p
      · rw [hf, outcome]
        exact waits _
    | whole =>
      refine ⟨_, h.whole ht hm, ?_, fun _ _ => ?_, nofun, fun x => absurd failed x⟩
      · rw [hf, outcome, State.finish_reply p _ _ rfl]
        exact concluded_complete canonical (w := .reply p .storeFault answer) rfl _ _
      · rw [hf, outcome, State.finish_reply p _ _ rfl]
        exact State.complete_answered (s := u.await (.reply p .storeFault answer)) (canonical.of_same rfl rfl) p .storeFault answer
  · have outcome : u.clearOutcome p answer = u.await (.clear p answer) := if_neg fun x => failed (state.symm.trans x)
    have done : exec (c { port := p, part := part }) s = .next (u.await (.clear p answer)) := by
      cases part with
      | completion => exact absurd rfl hp
      | take => rw [h.take ht hm, hf, outcome]
      | whole =>
        rw [h.whole ht hm, hf, outcome, State.finish_else (s := u.await (.clear p answer)) p (fun _ _ h => nomatch h)
          (fun _ _ h => nomatch h)]
    exact ⟨_, done, concluded_await u _ p, fun x => absurd x failed, fun x => absurd x failed, fun _ => waits _⟩

/-! ### A clear (R41, R146) -/

theorem State.clearQual_quals (i : Slot) (d : Pattern) : (s.clearQual i d).quals = s.quals.set i clearedQualifier := by
  let v := s.setQual i Qualifier.reset
  have all : ∀ w : State, w.quals = v.quals → ((w.handDemand (w.owner i) d .off).markView).quals = v.quals := fun w hw => by
    have he : Effect [.counts, .lamp, .dirty] [] w ((w.handDemand (w.owner i) d .off).markView) :=
      (State.handDemand_effect _ _ _ _).step (State.markView_effect _)
    exact he.quals.trans hw
  unfold State.clearQual
  simp only
  refine all _ ?_
  split
  · exact (v.freeRecord_effect _ _ _).quals
  · rfl

theorem State.clearQual_table (i : Slot) (d : Pattern) :
    (s.clearQual i d).records = (match s.recordOf i with
      | some (e, _) => s.records.set e none
      | none => s.records) ∧
    (s.clearQual i d).store.logQueue = s.store.logQueue := by
  let v := s.setQual i Qualifier.reset
  have hv : v.recordOf i = s.recordOf i := rfl
  have after (w : State) : ((w.handDemand (w.owner i) d .off).markView).records = w.records ∧
      ((w.handDemand (w.owner i) d .off).markView).store.logQueue = w.store.logQueue :=
    have he : Effect [.counts, .lamp, .dirty] [] w ((w.handDemand (w.owner i) d .off).markView) :=
      (State.handDemand_effect _ _ _ _).step (State.markView_effect _)
    ⟨he.records, he.logQueue⟩
  unfold State.clearQual
  simp only
  rw [(after _).1, (after _).2, hv]
  cases h : s.recordOf i with
  | none => exact ⟨rfl, rfl⟩
  | some x =>
    refine ⟨v.freeRecord_records x.1 x.2 false, ?_⟩
    rw [State.freeRecord_release, if_neg fun c => Bool.false_ne_true c.1, List.append_nil]
    rfl

theorem State.clearQual_demand (i : Slot) (d : Pattern) :
    DemandsEnd s (s.clearQual i d) (s.owner i) (fun x => if d = x then 1 else 0) := by
  let v := s.setQual i Qualifier.reset
  let w := match v.recordOf i with | some (e, r) => v.freeRecord e r false | none => v
  have sv : Effect [.quals] [] s v := Effect.setQual s i Qualifier.reset fun _ => Qualifier.inRange_reset
  have sw : Effect [.quals, .program, .records, .dirty, .logQueue, .erase] [] s w := by
    have vw : Effect [.program, .records, .dirty, .logQueue, .erase] [] v w := by
      show Effect _ _ v (match v.recordOf i with | some (e, r) => v.freeRecord e r false | none => v)
      cases v.recordOf i with
      | none => exact Effect.refl v
      | some x => exact (v.freeRecord_effect x.1 x.2 false).mono
    exact sv.seq vw
  have done : s.clearQual i d = (w.handDemand (w.owner i) d .off).markView := rfl
  rw [done, sw.owner]
  have handed := demandsEnd_handDemand w (s.owner i) d
  exact handed.of_counts (fun q => sw.sameCounts (by decide) q) fun q => by cases q <;> exact ⟨rfl, rfl, rfl⟩

theorem State.rebase_slots (i : Slot) : (s.rebase i).slots = s.slots.set i (s.rebased i) :=
  (State.markViewIf_effect (s.setSlot i (s.rebased i)) s.slots[i].barred).slots

theorem State.rebased_of_ram (h : t.ram = s.ram) (i : Slot) : t.rebased i = s.rebased i := by
  simp only [State.rebased, State.rd_of_ram h]

theorem State.clearOne_quals (i : Slot) : (s.clearOne i).quals = s.quals.set i clearedQualifier := by
  let v := (s.clearQual i (s.demandIn i s.quals[i].state)).rebase i
  have sv : v.quals = (s.clearQual i (s.demandIn i s.quals[i].state)).quals := (State.rebase_effect _ i).quals
  exact (State.settlePass_effect v (s.owner i)).quals.trans (sv.trans (State.clearQual_quals i _))

theorem State.clearOne_slots (i : Slot) : (s.clearOne i).slots = s.slots.set i (s.rebased i) := by
  let u := s.clearQual i (s.demandIn i s.quals[i].state)
  have su := s.clearQual_effect i (s.demandIn i s.quals[i].state)
  have done : (s.clearOne i).slots = u.slots.set i (u.rebased i) :=
    (State.settlePass_effect (u.rebase i) (s.owner i)).slots.trans (u.rebase_slots i)
  rw [done, State.rebased_of_ram su.ram, su.slots]

theorem State.clearOne_table (i : Slot) :
    (s.clearOne i).records = (match s.recordOf i with
      | some (e, _) => s.records.set e none
      | none => s.records) ∧
    (s.clearOne i).store.logQueue = s.store.logQueue := by
  let u := s.clearQual i (s.demandIn i s.quals[i].state)
  have ut : Effect [.slots, .dirty, .passes] [] u (s.clearOne i) :=
    (u.rebase_effect i).step (State.settlePass_effect _ _)
  obtain ⟨records, queue⟩ := s.clearQual_table i (s.demandIn i s.quals[i].state)
  exact ⟨ut.records.trans records, ut.logQueue.trans queue⟩

theorem State.clearOne_demand (i : Slot) :
    DemandsEnd s (s.clearOne i) (s.owner i) (fun x => if s.demandIn i s.quals[i].state = x then 1 else 0) := by
  let u := s.clearQual i (s.demandIn i s.quals[i].state)
  have ut : Effect [.slots, .dirty, .passes] [] u (s.clearOne i) :=
    (u.rebase_effect i).step (State.settlePass_effect _ _)
  exact (s.clearQual_demand i _).of_counts (fun _ => ⟨rfl, rfl, rfl⟩) fun q => ut.sameCounts (by decide) q

/-! ### CLEAR SLOT (R146, R147) -/

theorem State.clearIndex_beyond (h : s.slotCount p ≤ s.param p 0) : s.clearIndex p = s.reply p .badTarget [] :=
  dif_neg fun x => Nat.not_lt.mpr h x.1

theorem State.clearIndex_eq (h : s.param p 0 < s.slotCount p) (hi : i.val = s.slotBase p + s.param p 0) :
    s.clearIndex p = if (s.port p).adopted then s.clearSlot p i else s.reply p .notAdopted [] := by
  have lt : s.slotBase p + s.param p 0 < 192 := hi ▸ i.isLt
  have same : (⟨s.slotBase p + s.param p 0, lt⟩ : Slot) = i := Fin.ext hi.symm
  refine (dif_pos ⟨h, lt⟩).trans ?_
  rw [same]

theorem State.owner_of_base {p : Port} {k : Nat} (hi : i.val = s.slotBase p + k) (h : k < s.slotCount p) : s.owner i = p := by
  unfold State.owner
  cases p
  · exact if_pos ((hi.trans (Nat.zero_add k)).symm ▸ h)
  · exact if_neg (Nat.not_lt.mpr (hi ▸ Nat.le_add_right _ _))

theorem State.slotBase_add_lt {p : Port} {k : Nat} (h : k < s.slotCount p) : s.slotBase p + k < 192 := by
  have nF : Config.nF s.part ≤ 192 := by
    unfold Config.nF
    split <;> decide
  cases p
  · exact (Nat.zero_add k).symm ▸ Nat.lt_of_lt_of_le h nF
  · have hk : k < 192 - Config.nF s.part := h
    show Config.nF s.part + k < 192
    omega

theorem State.tellClear_entry (hc : s.MemoriesCanonical) (i : Slot) (m : Int) : (s.tellClear i m).TrailEntry s.pub.writeCount
    (trailBytes s.ride.number s.ride.time (byteOf i.val) .cleared (byteOfInt m) 0) :=
  State.TrailEntry.of_ram (State.append_trailEntry hc .cleared (byteOf i.val) (byteOfInt m) (byteOf (qstateCode .idle)))
    (State.queueLog_effect (s.appendSlot .cleared i (byteOfInt m) .idle) (.clear i i)).ram

theorem State.tellClear_told (i : Slot) (m : Int) : (s.tellClear i m).pub.writeCount = s.pub.writeCount + 1 ∧
    (s.tellClear i m).pub.dirty = s.pub.dirty ∧ (s.tellClear i m).store.logQueue = s.store.logQueue ++ [.clear i i] := by
  let v := s.appendSlot .cleared i (byteOfInt m) .idle
  have sv := s.appendSlot_effect .cleared i (byteOfInt m) .idle
  obtain ⟨count, dirty, -⟩ := s.append_publisher .cleared (byteOf i.val) (byteOfInt m) (byteOf (qstateCode .idle))
  have same := State.queueLog_effect v (.clear i i)
  refine ⟨same.trail.1.trans count, same.dirty.trans dirty, ?_⟩
  show (v.queueLog (.clear i i)).store.logQueue = _
  rw [State.queueLog_eq, sv.logQueue]

/-- What the take changes: the cell and the executor. -/
theorem State.take_kept (h : s.canTake p = true) : Effect [.ram, .board, .cells, .exec] [.taken] s (s.take p) := by
  obtain ⟨-, -, -, hcell, -⟩ := (s.canTake_iff p).mp h
  exact s.take_effect p hcell

theorem State.take_rebased (hc : s.MemoriesCanonical) (p : Port) (i : Slot) : (s.take p).rebased i = s.rebased i := by
  have tally (a : Nat) (ha : a < 0x0C00) : (s.take p).rd a = s.rd a := by
    rw [State.rd_take hc, if_neg (by cases p <;> exact fun e => absurd (e ▸ ha) (by decide))]
  have := i.isLt
  simp only [State.rebased]
  rw [tally _ (by omega), tally _ (by omega)]

theorem State.take_trail (h : s.canTake p = true) :
    (s.take p).pub = s.pub ∧ (s.take p).ride = s.ride :=
  ⟨(State.take_kept h).pub_eq, (State.take_kept h).ride⟩

/-- What a clear told under the take leaves of the state before it. -/
structure SlotCleared (s t : State) (p : Port) (i : Slot) : Prop where
  quals : t.quals = s.quals.set i clearedQualifier
  slots : t.slots = s.slots.set i (s.rebased i)
  records : t.records = (match s.recordOf i with
      | some (e, _) => s.records.set e none
      | none => s.records)
  frames : t.frames = s.frames
  lamps : DemandsEnd s t p (fun x => if s.demandIn i s.quals[i].state = x then 1 else 0)
  entry : t.TrailEntry s.pub.writeCount
    (trailBytes s.ride.number s.ride.time (byteOf i.val) .cleared (byteOfInt s.quals[i].m) 0)
  count : t.pub.writeCount = s.pub.writeCount + 1
  dirty : t.pub.dirty = true
  queue : t.store.logQueue = s.store.logQueue ++ [.clear i i]
  flash : t.flash = s.flash
  ride : t.ride = s.ride
  world : SameWorld s t

/-- A mark that is set stays set. -/
theorem State.markViewIf_dirty (b : Bool) (h : s.pub.dirty = true) : (s.markViewIf b).pub.dirty = true := by
  rw [State.markViewIf_pub]
  show (s.pub.dirty || b) = true
  rw [h, Bool.true_or]

theorem State.clearOne_dirty (i : Slot) : (s.clearOne i).pub.dirty = true := by
  let u := s.clearQual i (s.demandIn i s.quals[i].state)
  have hu : u.pub.dirty = true := rfl
  have raised : (u.rebase i).pub.dirty = true := State.markViewIf_dirty (s := u.setSlot i (u.rebased i)) _ hu
  exact (State.settlePass_effect (u.rebase i) (s.owner i)).dirty.trans raised

theorem slotCleared_work (hc : s.MemoriesCanonical) (ht : s.canTake p = true) (hi : s.owner i = p) :
    SlotCleared s (((s.take p).clearOne i).tellClear i (s.take p).quals[i].m) p i := by
  have kept := State.take_kept ht
  have one := (s.take p).clearOne_effect i
  have tell := ((s.take p).clearOne i).tellClear_effect i (s.take p).quals[i].m
  have all : Effect [.ram, .board, .cells, .exec, .quals, .program, .records, .dirty, .logQueue, .erase, .counts, .lamp, .slots,
      .passes, .trail, .attn] [.taken] s (((s.take p).clearOne i).tellClear i (s.take p).quals[i].m) :=
    (kept.seq one (b := [.taken]) (l := [.ram, .board, .cells, .exec, .quals, .program, .records, .dirty, .logQueue, .erase, .counts, .lamp,
      .slots, .passes])).seq tell
  obtain ⟨count, dirty, queue⟩ := ((s.take p).clearOne i).tellClear_told i (s.take p).quals[i].m
  obtain ⟨records, before⟩ := (s.take p).clearOne_table i
  have entry := ((s.take p).clearOne i).tellClear_entry (one.keeps .memories (by decide) (hc.take p)) i (s.take p).quals[i].m
  obtain ⟨pub, ride⟩ := State.take_trail ht
  have demand : (s.take p).demandIn i (s.take p).quals[i].state = s.demandIn i s.quals[i].state := by
    rw [kept.demandIn, kept.quals]
  constructor
  case quals => rw [tell.quals, State.clearOne_quals, kept.quals]
  case slots => rw [tell.slots, State.clearOne_slots, State.take_rebased hc, kept.slots]
  case records =>
    rw [tell.records, records, kept.recordOf, kept.records]
  case frames => exact all.frames
  case lamps =>
    have ends := (s.take p).clearOne_demand i
    rw [kept.owner, hi, demand] at ends
    exact ends.of_counts (fun q => kept.sameCounts (by decide) q) fun q => tell.sameCounts (by decide) q
  case entry =>
    rw [one.trail.1, one.ride, pub, ride, kept.quals] at entry
    rw [kept.quals]
    exact entry
  case count => rw [count, one.trail.1, pub]
  case dirty => rw [dirty, State.clearOne_dirty]
  case queue => rw [queue, before, kept.logQueue]
  case flash => exact all.flash
  case ride => exact all.ride
  case world => exact all.sameWorld

theorem SameWorld.trans (h : SameWorld s u) (h' : SameWorld u t) : SameWorld s t where
  pending := h'.pending.trans h.pending
  lines := ⟨h'.lines.1.trans h.lines.1, h'.lines.2.1.trans h.lines.2.1, h'.lines.2.2.trans h.lines.2.2⟩
  straps := ⟨h'.straps.1.trans h.straps.1, h'.straps.2.trans h.straps.2⟩
  now := h'.now.trans h.now
  profiles := h'.profiles.trans h.profiles

theorem DemandsEnd.concluded {ended : Pattern → Nat} {q : Port} (h : DemandsEnd s u q ended) (hc : Concluded u t p) :
    DemandsEnd s t q ended := h.of_counts (fun _ => ⟨rfl, rfl, rfl⟩) hc.sameCounts

theorem SlotCleared.concluded (h : SlotCleared s u p i) (hc : Concluded u t p) : SlotCleared s t p i where
  quals := hc.inside.quals.trans h.quals
  slots := hc.inside.slots.trans h.slots
  records := hc.inside.records.trans h.records
  frames := hc.inside.frames.trans h.frames
  lamps := h.lamps.concluded hc
  entry := hc.trailEntry h.entry
  count := by rw [hc.pub, h.count]
  dirty := by rw [hc.pub, h.dirty]
  queue := by rw [hc.inside.store, h.queue]
  flash := hc.inside.flash.trans h.flash
  ride := hc.inside.ride.trans h.ride
  world := h.world.trans hc.inside.toSameWorld

/-- Settles O34: CLEAR SLOT's refusals, and the clear of one slot, told and waiting for the store's report. -/
theorem clearSlotClearsOneSlot : Obligations.ClearSlotClearsOneSlot := by
  unfold Obligations.ClearSlotClearsOneSlot
  intro p s hc ht
  obtain ⟨htake, hcode⟩ := (State.takes_iff p 2).mp ht
  have kept := State.take_kept htake
  have param : (s.take p).param p 0 = s.param p 0 := State.take_param hc p p 0 (by decide)
  have base : (s.take p).slotBase p = s.slotBase p ∧ (s.take p).slotCount p = s.slotCount p := by
    simp only [State.slotBase, State.slotCount, (State.take_part p).1, and_self]
  have replies {st a} hf ha := clearSlotForm.replies (st := st) (a := a) hc htake hcode hf ha
  refine ⟨fun h => replies (State.clearIndex_beyond (by rwa [param, base.2])) rfl, fun h ha => ?_, fun h ha i hi part hp => ?_⟩
  · refine replies ((State.clearIndex_eq (i := ⟨s.slotBase p + s.param p 0, State.slotBase_add_lt h⟩) (by rwa [param, base.2])
      (by rw [base.1, param])).trans ?_) rfl
    rw [(State.take_adopted p p).1, ha]
    rfl
  have work : (s.take p).clearIndex p = (s.take p).clearSlot p i := by
    rw [State.clearIndex_eq (by rwa [param, base.2]) (by rw [base.1, param]; exact hi), (State.take_adopted p p).1, ha]
    rfl
  have owner : s.owner i = p := State.owner_of_base hi h
  obtain ⟨t, run, concluded, settled⟩ := clearSlotForm.clears hc htake hcode (work.trans rfl)
    ((State.clearOne_effect (s.take p) i).step (State.tellClear_effect _ i _) (l := [.quals, .program, .records, .dirty,
      .logQueue, .erase, .counts, .lamp, .slots, .passes, .ram, .trail, .attn])) (by decide) hp
  have done := (slotCleared_work hc htake owner).concluded concluded
  rw [kept.quals] at settled
  refine ⟨t, run, done.quals, done.slots, fun e r hr => ?_, fun hr => ?_, done.frames, done.lamps, done.entry, done.count,
    done.dirty, done.queue, settled.1, settled.2.1, settled.2.2, done.flash, done.ride, done.world⟩
  · rw [done.records, hr]
  · rw [done.records, hr]

end Sys2Proof.Machine
end

