-- ==== Sys2Proof/Proofs/ClearingPort.lean ====
section
/-!
PROOFS. CLEAR PORT (R148): the clear of every slot of a port, in ascending order (O35).
-/

-- Proofs in the order of the text: those that elaborate default tactic arguments at once wait for each other.
set_option Elab.async false

namespace Sys2Proof.Machine

variable {s t u v : State} {p : Port} {i : Slot}

theorem Slot.get_set {α : Type} (x : Vector α 192) (i j : Slot) (a : α) : (x.set i a)[j] = if i = j then a else x[j] := by
  simp only [Fin.getElem_fin, Vector.getElem_set, Fin.ext_iff]

/-- Demands that end one after the other. -/
theorem DemandsEnd.trans {f g : Pattern → Nat} (h : DemandsEnd s u p f) (h' : DemandsEnd u t p g) :
    DemandsEnd s t p (fun x => f x + g x) := by
  obtain ⟨a1, a2, a3⟩ := h.other
  obtain ⟨b1, b2, b3⟩ := h'.other
  exact ⟨by rw [h'.steady, h.steady, Nat.sub_sub], by rw [h'.slow, h.slow, Nat.sub_sub], by rw [h'.fast, h.fast, Nat.sub_sub],
    b1.trans a1, b2.trans a2, b3.trans a3⟩

/-- No two entries hold a record of the same slot (R43). -/
def State.OneEach (s : State) : Prop := ∀ e e' r r', s.Holds e r → s.Holds e' r' → r.slot = r'.slot → e = e'

/-- A clear of a slot takes its record away, and no other (R41, R43). -/
theorem State.clearOne_holds (h : s.OneEach) (i : Slot) (e : Fin 48) (r : Record) :
    (s.clearOne i).Holds e r ↔ s.Holds e r ∧ r.slot ≠ i := by
  obtain ⟨records, -⟩ := s.clearOne_table i
  cases hr : s.recordOf i with
  | none =>
    rw [hr] at records
    have same : (s.clearOne i).Holds e r ↔ s.Holds e r := by rw [State.Holds, records, State.Holds]
    rw [same]
    exact ⟨fun x => ⟨x, (s.recordOf_eq_none i).mp hr e r x⟩, And.left⟩
  | some x =>
    rw [hr] at records
    obtain ⟨held, slot, -⟩ := (s.recordOf_eq_some i x.1 x.2).mp hr
    have set : (s.clearOne i).Holds e r ↔ x.1 ≠ e ∧ s.Holds e r := by
      rw [State.Holds, records, State.Holds]
      simp only [Fin.getElem_fin, Vector.getElem_set, Fin.ext_iff, ne_eq]
      split <;> simp_all
    rw [set]
    constructor
    · exact fun ⟨ne, hs⟩ => ⟨hs, fun e' => ne (h _ _ _ _ held hs (slot.trans e'.symm))⟩
    · refine fun ⟨hs, ne⟩ => ⟨fun e' => ne ?_, hs⟩
      subst e'
      have := Option.some.inj (held.symm.trans hs)
      rw [← this, slot]

/-- The fields a clear reaches. -/
abbrev clearFields : List Field :=
  [.quals, .program, .records, .dirty, .logQueue, .erase, .counts, .lamp, .slots, .passes]

/-- The slots `l` cleared one after the other (R148). -/
structure SlotsCleared (s t : State) (l : List Slot) : Prop where
  reach : Effect clearFields [] s t
  quals : ∀ j : Slot, t.quals[j] = if j ∈ l then clearedQualifier else s.quals[j]
  slots : ∀ j : Slot, t.slots[j] = if j ∈ l then s.rebased j else s.slots[j]
  records : s.OneEach → ∀ e r, t.Holds e r ↔ s.Holds e r ∧ r.slot ∉ l
  queue : t.store.logQueue = s.store.logQueue
  lamps : ∀ p, (∀ j ∈ l, s.owner j = p) →
    DemandsEnd s t p (fun x => l.countP (fun j => decide (s.demandIn j s.quals[j].state = x)))

theorem slotsCleared_foldl (l : List Slot) (hl : l.Nodup) (s : State) :
    SlotsCleared s (l.foldl (fun t i => t.clearOne i) s) l := by
  induction l generalizing s with
  | nil =>
    exact ⟨Effect.refl s, fun j => by simp, fun j => by simp, fun _ e r => by simp, rfl,
      fun p _ => DemandsEnd.none (fun _ => ⟨rfl, rfl, rfl⟩) p⟩
  | cons i l ih =>
    obtain ⟨hi, hl⟩ := List.nodup_cons.mp hl
    have rest := ih hl (s.clearOne i)
    have one := s.clearOne_effect i
    have get (j : Slot) : (s.clearOne i).quals[j] = if i = j then clearedQualifier else s.quals[j] := by
      rw [State.clearOne_quals, Slot.get_set]
    have slot (j : Slot) : (s.clearOne i).slots[j] = if i = j then s.rebased j else s.slots[j] := by
      rw [State.clearOne_slots, Slot.get_set]
      split
      · next e => rw [e]
      · rfl
    constructor
    case reach => exact one.trans rest.reach
    case quals =>
      intro j
      rw [List.foldl_cons, rest.quals, get]
      by_cases e : i = j <;> by_cases m : j ∈ l <;> simp_all [eq_comm]
    case slots =>
      intro j
      rw [List.foldl_cons, rest.slots, slot, State.rebased_of_ram one.ram]
      by_cases e : i = j <;> by_cases m : j ∈ l <;> simp_all [eq_comm]
    case records =>
      intro h e r
      have cleared := State.clearOne_holds h i
      have each : (s.clearOne i).OneEach := fun e e' r r' hr hr' =>
        h e e' r r' ((cleared e r).mp hr).1 ((cleared e' r').mp hr').1
      rw [List.foldl_cons, rest.records each, cleared, List.mem_cons, not_or, and_assoc]
    case queue => exact rest.queue.trans (s.clearOne_table i).2
    case lamps =>
      intro p hp
      have first := s.clearOne_demand i
      rw [hp i List.mem_cons_self] at first
      have owner : ∀ j ∈ l, (s.clearOne i).owner j = p := fun j hj => by
        rw [one.owner]
        exact hp j (List.mem_cons_of_mem i hj)
      have count (x : Pattern) : l.countP (fun j => decide ((s.clearOne i).demandIn j (s.clearOne i).quals[j].state = x)) =
          l.countP (fun j => decide (s.demandIn j s.quals[j].state = x)) := by
        refine List.countP_congr fun j hj => ?_
        have ne : i ≠ j := fun e => hi (e ▸ hj)
        rw [one.demandIn, get, if_neg ne]
      have all := first.trans (rest.lamps p owner)
      simp only [count] at all
      refine ⟨?_, ?_, ?_, all.other⟩
      · rw [List.foldl_cons, all.steady, List.countP_cons, Nat.add_comm]
        simp only [decide_eq_true_eq]
      · rw [List.foldl_cons, all.slow, List.countP_cons, Nat.add_comm]
        simp only [decide_eq_true_eq]
      · rw [List.foldl_cons, all.fast, List.countP_cons, Nat.add_comm]
        simp only [decide_eq_true_eq]

/-! ### The end of CLEAR PORT's work (R148) -/

/-- The state in which CLEAR PORT appends its entry. -/
def State.undeclined (p : Port) (s : State) : State := (s.setPort p { s.port p with declined := 0 }).markView

theorem State.undeclined_effect (p : Port) : Effect [.declined, .dirty] [] s (s.undeclined p) :=
  (s.setDeclined_effect p 0).step (State.markView_effect _)

/-- What CLEAR PORT tells: the entry, the mark, the declined count of 0 and the CLEAR item of the port (R148). -/
theorem State.tellClearPort_told (p : Port) :
    (s.tellClearPort p).pub.writeCount = s.pub.writeCount + 1 ∧ (s.tellClearPort p).pub.dirty = true ∧
    ((s.tellClearPort p).port p).declined = 0 ∧
    (s.tellClearPort p).store.logQueue = s.store.logQueue ++ [s.slotRange p] ∧
    (s.MemoriesCanonical → (s.tellClearPort p).TrailEntry s.pub.writeCount
      (trailBytes s.ride.number s.ride.time 0xFF .cleared (byteOf (portCode p)) 0)) := by
  let v := s.undeclined p
  let w := v.appendPart .cleared (byteOf (portCode p))
  have sv : Effect [.declined, .dirty] [] s v := s.undeclined_effect p
  have vw : Effect [.ram, .trail, .attn] [] v w := v.appendPart_effect _ _
  have wt : Effect [.logQueue, .erase] [] w (s.tellClearPort p) := w.queueLog_effect (s.slotRange p)
  obtain ⟨count, dirty, -⟩ := v.append_publisher .cleared 0xFF (byteOf (portCode p)) 0
  have none : (v.port p).declined = 0 := by
    show (((s.setPort p { s.port p with declined := 0 }).markView).port p).declined = 0
    cases p <;> rfl
  refine ⟨?_, ?_, ?_, ?_, fun hc => ?_⟩
  · rw [wt.trail.1, ← sv.trail.1]
    exact count
  · rw [wt.dirty]
    exact dirty
  · have h1 : ((s.tellClearPort p).port p).declined = (w.port p).declined := wt.onPort p .declined (by decide)
    have h2 : (w.port p).declined = (v.port p).declined := vw.onPort p .declined (by decide)
    rw [h1, h2, none]
  · show (w.queueLog (s.slotRange p)).store.logQueue = _
    rw [State.queueLog_eq, vw.logQueue, sv.logQueue]
  · have entry := State.append_trailEntry (sv.keeps .memories (by decide) hc) .cleared 0xFF (byteOf (portCode p)) 0
    rw [sv.trail.1, sv.ride] at entry
    exact State.TrailEntry.of_ram entry wt.ram

theorem State.slotRange_of (p : Port) (hlt : s.slotBase p + s.slotCount p ≤ 192) (hpos : 0 < s.slotCount p) :
    ∃ lo hi : Slot, lo.val = s.slotBase p ∧ hi.val + 1 = s.slotBase p + s.slotCount p ∧ s.slotRange p = .clear lo hi := by
  refine ⟨Fin.ofNat 192 (s.slotBase p), Fin.ofNat 192 (s.slotBase p + s.slotCount p - 1), ?_, ?_, rfl⟩
  · exact Nat.mod_eq_of_lt (by omega)
  · show (s.slotBase p + s.slotCount p - 1) % 192 + 1 = _
    rw [Nat.mod_eq_of_lt (by omega)]
    omega

theorem State.slotCount_pos (p : Port) : 0 < s.slotCount p ∧ s.slotBase p + s.slotCount p ≤ 192 := by
  have nF : 0 < Config.nF s.part ∧ Config.nF s.part < 192 := by
    unfold Config.nF
    split <;> decide
  cases p
  · show 0 < Config.nF s.part ∧ 0 + Config.nF s.part ≤ 192
    omega
  · show 0 < 192 - Config.nF s.part ∧ Config.nF s.part + (192 - Config.nF s.part) ≤ 192
    omega

theorem State.portSlots_nodup (s : State) (p : Port) : (s.portSlots p).Nodup := (List.nodup_finRange 192).filter _

/-- Settles O35: the slots of the port cleared one after the other, then told. -/
theorem clearPortClearsEverySlot : Obligations.ClearPortClearsEverySlot := by
  unfold Obligations.ClearPortClearsEverySlot
  intro p s hc ht
  obtain ⟨htake, hcode⟩ := (State.takes_iff p 3).mp ht
  have kept := State.take_kept htake
  have replies {st a} hf ha := clearPortForm.replies (st := st) (a := a) hc htake hcode hf ha
  refine ⟨fun ha => replies ?_ rfl, fun ha law part hp => ?_⟩
  · refine if_neg ?_
    rw [(State.take_adopted p p).1, ha]
    exact Bool.false_ne_true
  let s0 := s.take p
  let v := (s0.portSlots p).foldl (fun t i => t.clearOne i) s0
  have cleared : SlotsCleared s0 v (s0.portSlots p) := slotsCleared_foldl _ (s0.portSlots_nodup p) s0
  have tell := v.tellClearPort_effect p
  obtain ⟨count, dirty, declined, queue, entry⟩ := v.tellClearPort_told p
  have answer : s0.clearPortAnswer p = s.clearPortAnswer p := by
    simp only [State.clearPortAnswer, State.portSlots, State.recordList, s0, kept.quals, kept.records, kept.owner]
  have work : s0.clearPort p = (v.tellClearPort p).clearOutcome p (s.clearPortAnswer p) := by
    rw [← answer]
    exact if_pos ((State.take_adopted p p).1.trans ha)
  have reach : Effect [.quals, .program, .records, .dirty, .logQueue, .erase, .counts, .lamp, .slots, .passes, .declined, .ram,
      .trail, .attn] [] s0 (v.tellClearPort p) := cleared.reach.step tell
  have whole : Effect [.ram, .board, .cells, .exec, .quals, .program, .records, .dirty, .logQueue, .erase, .counts, .lamp,
      .slots, .passes, .declined, .trail, .attn] [.taken] s (v.tellClearPort p) := kept.seq reach
  obtain ⟨t, run, done, settled⟩ := clearPortForm.clears hc htake hcode work reach (by decide) hp
  have mem (j : Slot) : j ∈ s0.portSlots p ↔ s.owner j = p := by rw [State.mem_portSlots, kept.owner]
  have each : s0.OneEach := by
    intro e e' r r' h h'
    rw [State.Holds, kept.records] at h h'
    exact law.oneEach e e' r r' h h'
  have owners : ∀ j ∈ s0.portSlots p, s0.owner j = p := fun j hj => (State.mem_portSlots _ _).mp hj
  have trail := entry (cleared.reach.keeps .memories (by decide) (hc.take p))
  refine ⟨t, run, fun i hi => ⟨?_, ?_⟩, fun i hi => ⟨?_, ?_⟩, fun e r => ?_, ?_, ?_, ?_, ?_, ?_, ?_, ?_, settled.1, settled.2.1,
    settled.2.2, ?_, ?_, ?_⟩
  · rw [done.inside.quals, tell.quals, cleared.quals, if_pos ((mem i).mpr hi)]
  · rw [done.inside.slots, tell.slots, cleared.slots, if_pos ((mem i).mpr hi), State.take_rebased hc]
  · rw [done.inside.quals, tell.quals, cleared.quals, if_neg (fun x => hi ((mem i).mp x)), kept.quals]
  · rw [done.inside.slots, tell.slots, cleared.slots, if_neg (fun x => hi ((mem i).mp x)), kept.slots]
  · have held : t.Holds e r ↔ v.Holds e r := by rw [State.Holds, done.inside.records, tell.records, State.Holds]
    rw [held, cleared.records each, mem, State.Holds, kept.records, State.Holds]
  · exact done.inside.frames.trans whole.frames
  · exact (congrArg PortState.declined (done.ports p)).trans declined
  · have ends := cleared.lamps p owners
    simp only [State.portSlots, kept.owner, kept.demandIn, s0, kept.quals] at ends
    exact (ends.of_counts (fun q => kept.sameCounts (by decide) q) fun q => tell.sameCounts (by decide) q).concluded done
  · rw [cleared.reach.trail.1, cleared.reach.ride, kept.pub_eq, kept.ride] at trail
    exact done.trailEntry trail
  · rw [done.pub, count, cleared.reach.trail.1, kept.pub_eq]
  · rw [done.pub, dirty]
  · obtain ⟨pos, le⟩ := s.slotCount_pos p
    obtain ⟨lo, hi, hlo, hhi, range⟩ := State.slotRange_of p le pos
    refine ⟨lo, hi, hlo, hhi, ?_⟩
    have same : v.slotRange p = s.slotRange p := by
      simp only [State.slotRange, State.slotBase, State.slotCount, cleared.reach.straps.1, s0, kept.straps.1]
    rw [done.inside.store, queue, cleared.queue, kept.logQueue, same, range]
  · exact done.inside.flash.trans whole.flash
  · exact done.inside.ride.trans whole.ride
  · exact whole.sameWorld.trans done.inside.toSameWorld

end Sys2Proof.Machine
end

