-- ==== Sys2Proof/Proofs/Adopting.lean ====
section
/-!
PROOFS. ADOPT's pass over the port's slots (R144): the rebase, the clear of the slots the new copy disables, and the class of
the records that stay (R55).
-/

-- Proofs in the order of the text: those that elaborate default tactic arguments at once wait for each other.
set_option Elab.async false

namespace Sys2Proof.Machine

variable {s t u v old : State} {p : Port} {i j : Slot}

/-! ### The record of a slot -/

/-- A slot's record is found by the records of that slot alone. -/
theorem State.recordOf_congr (h : ∀ e r, r.slot = j → (t.Holds e r ↔ v.Holds e r)) : t.recordOf j = v.recordOf j := by
  refine Option.ext fun ⟨e, r⟩ => ?_
  have first : (∀ e' < e, ∀ r', t.Holds e' r' → r'.slot ≠ j) ↔ (∀ e' < e, ∀ r', v.Holds e' r' → r'.slot ≠ j) :=
    ⟨fun x e' he r' hr hs => x e' he r' ((h e' r' hs).mpr hr) hs, fun x e' he r' hr hs => x e' he r' ((h e' r' hs).mp hr) hs⟩
  show t.recordOf j = some (e, r) ↔ v.recordOf j = some (e, r)
  rw [State.recordOf_eq_some, State.recordOf_eq_some, first]
  exact ⟨fun ⟨a, b, c⟩ => ⟨(h e r b).mp a, b, c⟩, fun ⟨a, b, c⟩ => ⟨(h e r b).mpr a, b, c⟩⟩

/-- An entry of slot `i` that is written over with a record of slot `i`, or emptied, hides no record of another slot. -/
theorem State.recordOf_of_set_ne {e : Fin 48} {r : Record} {x : Option Record} (h : v.recordOf i = some (e, r))
    (ht : t.records = v.records.set e x) (hx : ∀ r', x = some r' → r'.slot = i) (hj : j ≠ i) : t.recordOf j = v.recordOf j := by
  obtain ⟨held, slot, -⟩ := (v.recordOf_eq_some i e r).mp h
  refine State.recordOf_congr fun e' r' hr => ?_
  rw [State.Holds, State.Holds, ht]
  simp only [Fin.getElem_fin, Vector.getElem_set]
  split
  · next same =>
    have here : e = e' := Fin.ext same
    subst here
    refine iff_of_false (fun c => hj (hr.symm.trans (hx r' c))) fun c => ?_
    rw [← Option.some.inj (held.symm.trans c), slot] at hr
    exact hj hr.symm
  · exact Iff.rfl

/-! ### The class of a record (R55) -/

/-- A record under the adopted class: a change marks it, unless it is PENDING (R55). -/
def classed (rideEnding : Bool) (cls : Fin 4) (r : Record) : Record :=
  let marks := decide (r.cls ≠ cls) && decide (r.state ≠ .pending)
  { r with cls := cls, dirty := r.dirty || marks, urgent := r.urgent || (marks && rideEnding) }

theorem State.updateClass_none {cls : Fin 4} (h : s.recordOf i = none) : s.updateClass i cls = s := by
  rw [State.updateClass, h]

theorem State.updateClass_records {cls : Fin 4} {e : Fin 48} {r : Record} (h : s.recordOf i = some (e, r)) :
    (s.updateClass i cls).records = s.records.set e (some (classed s.store.rideEnding cls r)) := by
  have held : s.records[e] = some r := ((s.recordOf_eq_some i e r).mp h).1
  rw [State.updateClass, h]
  simp only
  by_cases same : r.cls = cls
  · subst same
    have kept : classed s.store.rideEnding r.cls r = r := by simp [classed]
    rw [if_pos rfl, kept, ← held]
    exact (Vector.set_getElem_self e.isLt).symm
  · rw [if_neg same]
    by_cases pending : r.state = .pending
    · rw [if_pos pending]
      simp only [classed, same, pending, ne_eq, not_false_eq_true, decide_true, not_true_eq_false, decide_false,
        Bool.and_false, Bool.or_false, Bool.false_and]
      rfl
    · have now : ((s.setRecord e (some { r with cls := cls })).markView).records[e] = some { r with cls := cls } := by
        show (s.records.set e (some { r with cls := cls }))[e] = _
        simp
      rw [if_neg pending, State.markRecord_some (s := (s.setRecord e (some { r with cls := cls })).markView) e false _ now]
      show (s.records.set e (some { r with cls := cls })).set e _ = _
      simp [classed, Record.marked, same, pending, State.setRecord, State.markView]

/-! ### One slot (R144) -/

/-- The new copy disables a slot that is outside IDLE: ADOPT clears it (R144). -/
def State.adoptClears (s : State) (i : Slot) : Bool := !(s.profiles[i]).enable && decide (s.quals[i].state ≠ .idle)

theorem State.adoptClears_iff : s.adoptClears i = true ↔ s.profiles[i].enable = false ∧ s.quals[i].state ≠ .idle := by
  rw [State.adoptClears, Bool.and_eq_true, Bool.not_eq_true', decide_eq_true_eq]

/-- The fields ADOPT's work on a slot reaches. -/
abbrev adoptSlotFields : List Field :=
  [.slots, .dirty, .quals, .program, .records, .logQueue, .erase, .counts, .lamp, .ram, .trail, .attn]

/-- What ADOPT does to a slot: the clear, if any, on the rebased slot; then the class of its record (R144, R55). -/
def State.adoptClearing (old : State) (i : Slot) (s : State) : State :=
  if s.adoptClears i then (s.rebase i).adoptClear i (old.demandIn i s.quals[i].state) else s.rebase i

theorem State.adoptSlot_eq (old : State) (i : Slot) (s : State) (n : Nat) : old.adoptSlot i (s, n) =
    ((old.adoptClearing i s).updateClass i s.profiles[i].cls, n + if s.adoptClears i then 1 else 0) := by
  have he := s.rebase_effect i
  unfold State.adoptSlot State.adoptClearing
  simp only [he.profiles, he.quals, ← State.adoptClears_iff]
  split
  · rfl
  · rfl

/-- The clear ADOPT makes of a slot, told and queued (R144). -/
structure ClearTold (s t : State) (i : Slot) (d : Pattern) : Prop where
  quals : t.quals = s.quals.set i clearedQualifier
  records : t.records = (match s.recordOf i with
      | some (e, _) => s.records.set e none
      | none => s.records)
  queue : t.store.logQueue = s.store.logQueue ++ [.clear i i]
  count : t.pub.writeCount = s.pub.writeCount + 1
  lamps : DemandsEnd s t (s.owner i) (fun x => if d = x then 1 else 0)

theorem clearTold_adoptClear (i : Slot) (d : Pattern) : ClearTold s (s.adoptClear i d) i d := by
  let v := s.clearQual i d
  have sv := s.clearQual_effect i d
  have vt : Effect [.ram, .trail, .attn, .logQueue, .erase] [] v (s.adoptClear i d) := v.tellClear_effect i s.quals[i].m
  obtain ⟨count, -, queue⟩ := v.tellClear_told i s.quals[i].m
  obtain ⟨records, before⟩ := s.clearQual_table i d
  exact ⟨vt.quals.trans (s.clearQual_quals i d), vt.records.trans records,
    queue.trans (congrArg (· ++ [LogItem.clear i i]) before), count.trans (congrArg (· + 1) sv.trail.1),
    (s.clearQual_demand i d).of_counts (fun _ => ⟨rfl, rfl, rfl⟩) fun q => vt.sameCounts (by decide) q⟩

/-- What ADOPT's work on slot `i` leaves (R144): `old` is the state under which the lamp counts stand. -/
structure SlotAdopted (old s t : State) (i : Slot) : Prop where
  reach : Effect adoptSlotFields [] s t
  quals : ∀ j : Slot, t.quals[j] = if i = j ∧ s.adoptClears i = true then clearedQualifier else s.quals[j]
  slots : ∀ j : Slot, t.slots[j] = if i = j then s.rebased j else s.slots[j]
  queue : t.store.logQueue = s.store.logQueue ++ if s.adoptClears i then [.clear i i] else []
  count : t.pub.writeCount = s.pub.writeCount + if s.adoptClears i then 1 else 0
  lamps : DemandsEnd s t (s.owner i)
    (fun x => if s.adoptClears i = true ∧ old.demandIn i s.quals[i].state = x then 1 else 0)
  empty : ∀ e : Fin 48, s.records[e] = none → t.records[e] = none
  gone : s.adoptClears i = true → ∀ e r, s.recordOf i = some (e, r) → t.records[e] = none
  kept : s.adoptClears i = false → ∀ e r, s.recordOf i = some (e, r) →
    t.recordOf i = some (e, classed s.store.rideEnding s.profiles[i].cls r)
  others : ∀ j, j ≠ i → t.recordOf j = s.recordOf j

/-- The class of a slot's record: no entry is filled that was empty, and no other slot's record moves. -/
theorem State.updateClass_others {cls : Fin 4} :
    (∀ e : Fin 48, s.records[e] = none → (s.updateClass i cls).records[e] = none) ∧
    ∀ j, j ≠ i → (s.updateClass i cls).recordOf j = s.recordOf j := by
  cases h : s.recordOf i with
  | none =>
    rw [State.updateClass_none h]
    exact ⟨fun _ x => x, fun _ _ => rfl⟩
  | some x =>
    obtain ⟨e, r⟩ := x
    have set := State.updateClass_records (cls := cls) h
    obtain ⟨held, slot, -⟩ := (s.recordOf_eq_some i e r).mp h
    refine ⟨fun e' he => ?_, fun j hj => State.recordOf_of_set_ne h set (fun r' hr => ?_) hj⟩
    · have ne : e.val ≠ e'.val := fun c => by
        rw [← Fin.ext c] at he
        exact Option.some_ne_none r (held.symm.trans he)
      rw [set]
      simp only [Fin.getElem_fin] at he ⊢
      rw [Vector.getElem_set_ne _ _ ne]
      exact he
    · rw [← Option.some.inj hr]
      exact slot

theorem slotAdopted_adoptSlot (old : State) (i : Slot) (s : State) (n : Nat) :
    SlotAdopted old s (old.adoptSlot i (s, n)).1 i := by
  rw [State.adoptSlot_eq]
  let v := s.rebase i
  let w := old.adoptClearing i s
  let t := w.updateClass i s.profiles[i].cls
  have sv : Effect [.slots, .dirty] [] s v := s.rebase_effect i
  have wt : Effect [.records, .erase, .dirty] [] w t := w.updateClass_effect i _
  obtain ⟨empty, others⟩ := w.updateClass_others (i := i) (cls := s.profiles[i].cls)
  have slots (j : Slot) : v.slots[j] = if i = j then s.rebased j else s.slots[j] := by
    rw [State.rebase_slots, Slot.get_set]
    split
    · next e => rw [e]
    · rfl
  cases hg : s.adoptClears i with
  | false =>
    have hw : w = v := if_neg (by rw [hg]; exact Bool.false_ne_true)
    have vt : Effect [.records, .erase, .dirty] [] v t := hw ▸ wt
    constructor
    case reach => exact sv.step vt
    case quals =>
      intro j
      rw [vt.quals, sv.quals, if_neg (by simp [hg])]
    case slots =>
      intro j
      rw [vt.slots, slots]
    case queue => rw [vt.logQueue, sv.logQueue, hg, if_neg Bool.false_ne_true, List.append_nil]
    case count =>
      rw [vt.trail.1, sv.trail.1, hg, if_neg Bool.false_ne_true]
      exact (BitVec.add_zero _).symm
    case lamps =>
      simp only [hg, Bool.false_eq_true, false_and, if_false]
      exact DemandsEnd.none (fun q => (sv.seq vt (l := [.slots, .dirty, .records, .erase]) (b := [])).sameCounts (by decide) q) _
    case empty => exact fun e he => empty e (by rw [hw, sv.records]; exact he)
    case gone => exact fun x => absurd (hg.symm.trans x) Bool.false_ne_true
    case kept =>
      intro _ e r hr
      have h : w.recordOf i = some (e, r) := by rw [hw, sv.recordOf, hr]
      have set := State.updateClass_records (cls := s.profiles[i].cls) h
      have same : w.store.rideEnding = s.store.rideEnding ∧ w.records = s.records := by rw [hw]; exact ⟨sv.rideEnding, sv.records⟩
      simp only [same.1, same.2] at set
      exact State.recordOf_of_set hr set rfl
    case others =>
      intro j hj
      rw [others j hj, hw, sv.recordOf]
  | true =>
    have hw : w = v.adoptClear i (old.demandIn i s.quals[i].state) := if_pos hg
    have told : ClearTold v w i (old.demandIn i s.quals[i].state) := hw ▸ clearTold_adoptClear i _
    have vw : Effect [.quals, .program, .records, .dirty, .logQueue, .erase, .counts, .lamp, .ram, .trail, .attn] [] v w :=
      hw ▸ v.adoptClear_effect i _
    have vt : Effect [.quals, .program, .records, .dirty, .logQueue, .erase, .counts, .lamp, .ram, .trail, .attn] [] v t :=
      vw.step wt
    constructor
    case reach => exact sv.step vt
    case quals =>
      intro j
      rw [wt.quals, told.quals, sv.quals, Slot.get_set]
      simp only [hg, and_true]
    case slots =>
      intro j
      rw [vt.slots, slots]
    case queue => rw [wt.logQueue, told.queue, sv.logQueue, hg, if_pos rfl]
    case count => rw [wt.trail.1, told.count, sv.trail.1, hg, if_pos rfl]
    case lamps =>
      have ends := told.lamps
      rw [sv.owner] at ends
      simp only [hg, true_and]
      exact ends.of_counts (fun q => sv.sameCounts (by decide) q) fun q => wt.sameCounts (by decide) q
    case empty =>
      intro e he
      refine empty e ?_
      rw [told.records, sv.recordOf, sv.records]
      split
      · next e' _ _ =>
        simp only [Fin.getElem_fin, Vector.getElem_set] at he ⊢
        split
        · rfl
        · exact he
      · exact he
    case gone =>
      intro _ e r hr
      refine empty e ?_
      rw [told.records, sv.recordOf, hr, sv.records]
      simp
    case kept => exact fun x => absurd (hg.symm.trans x) (by decide)
    case others =>
      intro j hj
      rw [others j hj]
      have cleared := told.records
      rw [sv.recordOf] at cleared
      cases hr : s.recordOf i with
      | none =>
        rw [hr] at cleared
        rw [State.recordOf_congr (v := s)]
        intro e r _
        rw [State.Holds, cleared, sv.records, State.Holds]
      | some x =>
        rw [hr, sv.records] at cleared
        exact State.recordOf_of_set_ne (e := x.1) (r := x.2) hr cleared nofun hj

/-! ### The slots of the port (R144) -/

/-- What ADOPT's pass over the slots `l` leaves; `n` slots are cleared. -/
structure SlotsAdopted (old s t : State) (l : List Slot) (n : Nat) : Prop where
  reach : Effect adoptSlotFields [] s t
  number : n = (l.filter s.adoptClears).length
  quals : ∀ j : Slot, t.quals[j] = if j ∈ l.filter s.adoptClears then clearedQualifier else s.quals[j]
  slots : s.MemoriesCanonical → ∀ j : Slot, t.slots[j] = if j ∈ l then s.rebased j else s.slots[j]
  queue : t.store.logQueue = s.store.logQueue ++ (l.filter s.adoptClears).map (fun i => .clear i i)
  count : t.pub.writeCount = s.pub.writeCount + BitVec.ofNat 16 n
  lamps : ∀ p, (∀ j ∈ l, s.owner j = p) → DemandsEnd s t p
    (fun x => (l.filter s.adoptClears).countP (fun j => decide (old.demandIn j s.quals[j].state = x)))
  empty : ∀ e : Fin 48, s.records[e] = none → t.records[e] = none
  gone : ∀ i ∈ l.filter s.adoptClears, ∀ e r, s.recordOf i = some (e, r) → t.records[e] = none
  kept : ∀ i ∈ l, s.adoptClears i = false → ∀ e r, s.recordOf i = some (e, r) →
    t.recordOf i = some (e, classed s.store.rideEnding s.profiles[i].cls r)
  others : ∀ j, j ∉ l → t.recordOf j = s.recordOf j

theorem State.rebased_of_effect {l : List Field} {b : List Law} (h : Effect l b s t) (hc : s.MemoriesCanonical)
    (hf : Field.board ∉ l) (j : Slot) : t.rebased j = s.rebased j := by
  have above := (h.board hc hf).2
  simp only [State.rebased]
  rw [above _ (by omega), above _ (by omega)]

theorem ofNat_count (n : Nat) (b : Bool) :
    (BitVec.ofNat 16 (n + if b then 1 else 0)) = BitVec.ofNat 16 n + if b then 1 else 0 := by
  rw [BitVec.ofNat_add]
  cases b <;> rfl

theorem slotsAdopted_nil (old s : State) : SlotsAdopted old s s [] 0 where
  reach := Effect.refl s
  number := rfl
  quals j := by simp
  slots _ j := by simp
  queue := (List.append_nil _).symm
  count := (BitVec.add_zero _).symm
  lamps p _ := DemandsEnd.none (fun _ => ⟨rfl, rfl, rfl⟩) p
  empty _ x := x
  gone i hi := absurd hi List.not_mem_nil
  kept i hi := absurd hi List.not_mem_nil
  others _ _ := rfl

theorem SlotsAdopted.cons {l : List Slot} {n : Nat} (hi : i ∉ l) (h : SlotAdopted old s u i) (rest : SlotsAdopted old u t l n) :
    SlotsAdopted old s t (i :: l) (n + if s.adoptClears i then 1 else 0) := by
  have ne (j : Slot) (hj : j ∈ l) : i ≠ j := fun e => hi (e ▸ hj)
  have clears (j : Slot) (hj : j ∈ l) : u.adoptClears j = s.adoptClears j := by
    rw [State.adoptClears, h.quals, if_neg fun x => ne j hj x.1, h.reach.profiles, State.adoptClears]
  have tail : l.filter u.adoptClears = l.filter s.adoptClears := List.filter_congr clears
  have members (j : Slot) : j ∈ l.filter s.adoptClears → i ≠ j := fun hj => ne j (List.mem_filter.mp hj).1
  have whole : (i :: l).filter s.adoptClears = (if s.adoptClears i then [i] else []) ++ l.filter s.adoptClears := by
    rw [List.filter_cons]
    split <;> rfl
  constructor
  case reach => exact h.reach.trans rest.reach
  case number =>
    rw [rest.number, tail, whole, List.length_append, Nat.add_comm]
    split <;> rfl
  case quals =>
    intro j
    rw [rest.quals, tail, h.quals, whole]
    by_cases e : i = j
    · subst e
      have out : i ∉ l.filter s.adoptClears := fun x => members i x rfl
      cases s.adoptClears i <;> simp [out]
    · have out : j ∉ (if s.adoptClears i = true then [i] else []) := by
        cases s.adoptClears i <;> simp [Ne.symm e]
      simp only [e, false_and, if_false, List.mem_append, out, false_or]
  case slots =>
    intro hc j
    rw [rest.slots (h.reach.keeps .memories (by decide) hc), h.slots, State.rebased_of_effect h.reach hc (by decide)]
    by_cases e : i = j
    · subst e
      rw [if_neg hi, if_pos rfl, if_pos List.mem_cons_self]
    · simp only [e, if_false, List.mem_cons, Ne.symm e, false_or]
  case queue =>
    rw [rest.queue, tail, h.queue, whole, List.map_append, List.append_assoc]
    split <;> rfl
  case count =>
    rw [rest.count, h.count, ofNat_count, BitVec.add_assoc, BitVec.add_comm (BitVec.ofNat 16 n)]
  case lamps =>
    intro p hp
    have first := h.lamps
    rw [hp i List.mem_cons_self] at first
    have owner : ∀ j ∈ l, u.owner j = p := fun j hj => by
      rw [h.reach.owner]
      exact hp j (List.mem_cons_of_mem i hj)
    have all := first.trans (rest.lamps p owner)
    have count (x : Pattern) :
        ((i :: l).filter s.adoptClears).countP (fun j => decide (old.demandIn j s.quals[j].state = x)) =
        (if s.adoptClears i = true ∧ old.demandIn i s.quals[i].state = x then 1 else 0) +
          (l.filter u.adoptClears).countP (fun j => decide (old.demandIn j u.quals[j].state = x)) := by
      have same : (l.filter u.adoptClears).countP (fun j => decide (old.demandIn j u.quals[j].state = x)) =
          (l.filter s.adoptClears).countP (fun j => decide (old.demandIn j s.quals[j].state = x)) := by
        rw [tail]
        refine List.countP_congr fun j hj => ?_
        rw [h.quals, if_neg fun y => members j hj y.1]
      rw [same, whole, List.countP_append]
      congr 1
      cases s.adoptClears i <;> simp [List.countP_singleton]
    simp only [count]
    exact all
  case empty => exact fun e x => rest.empty e (h.empty e x)
  case gone =>
    intro j hj e r hr
    obtain ⟨hm, hg⟩ := List.mem_filter.mp hj
    rcases List.mem_cons.mp hm with rfl | hm
    · exact rest.empty e (h.gone hg e r hr)
    · refine rest.gone j (List.mem_filter.mpr ⟨hm, (clears j hm).trans hg⟩) e r ?_
      rw [h.others j (ne j hm).symm, hr]
  case kept =>
    intro j hm hg e r hr
    rcases List.mem_cons.mp hm with rfl | hm
    · rw [rest.others j hi]
      exact h.kept hg e r hr
    · have classes := rest.kept j hm ((clears j hm).trans hg) e r (by rw [h.others j (ne j hm).symm, hr])
      rw [h.reach.rideEnding, h.reach.profiles] at classes
      exact classes
  case others =>
    intro j hj
    obtain ⟨e, hl⟩ := not_or.mp fun x => hj (List.mem_cons.mpr x)
    rw [rest.others j hl, h.others j e]

theorem slotsAdopted_foldl (old : State) (l : List Slot) (hl : l.Nodup) (s : State) (n : Nat) :
    ∃ m, (l.foldl (fun acc i => old.adoptSlot i acc) (s, n)).2 = n + m ∧
      SlotsAdopted old s (l.foldl (fun acc i => old.adoptSlot i acc) (s, n)).1 l m := by
  induction l generalizing s n with
  | nil => exact ⟨0, rfl, slotsAdopted_nil old s⟩
  | cons i l ih =>
    obtain ⟨hi, hl⟩ := List.nodup_cons.mp hl
    have one := slotAdopted_adoptSlot old i s n
    have number : (old.adoptSlot i (s, n)).2 = n + if s.adoptClears i then 1 else 0 := by rw [State.adoptSlot_eq]
    obtain ⟨m, hm, rest⟩ := ih hl (old.adoptSlot i (s, n)).1 (old.adoptSlot i (s, n)).2
    refine ⟨m + if s.adoptClears i then 1 else 0, ?_, rest.cons hi one⟩
    rw [List.foldl_cons]
    refine hm.trans ?_
    rw [number]
    omega

end Sys2Proof.Machine
end

