-- ==== Sys2Proof/Proofs/AdoptTaken.lean ====
section
/-!
PROOFS. ADOPT at its take and completion (R143 to R145): the clamped copy (11.3), and the request as a whole (O33).
-/

-- Proofs in the order of the text: those that elaborate default tactic arguments at once wait for each other.
set_option Elab.async false

namespace Sys2Proof.Machine

variable {s t u v : State} {p : Port} {i j : Slot}

/-! ### The copy (R143, 11.3) -/

theorem clampLow_eq (lo n : Nat) : clampLow lo n = max lo n := by
  unfold clampLow
  split <;> omega

/-- A field that must not be 0 counts as clamped where it is (R143). -/
theorem changed_clampLow (n : Nat) : changed n (clampLow 1 n) = if n = 0 then 1 else 0 := by
  unfold changed clampLow
  split_ifs <;> omega

theorem toNat_low (b m : Byte) (k : Nat) (h : m.toNat = 2 ^ k - 1) : (b &&& m).toNat = b.toNat % 2 ^ k := by
  rw [BitVec.toNat_and, h, Nat.and_two_pow_sub_one_eq_mod]

theorem toNat_high (b : Byte) (k : Nat) : (b >>> k).toNat = b.toNat / 2 ^ k := by
  rw [BitVec.toNat_ushiftRight, Nat.shiftRight_eq_div_pow]

theorem getLsbD_zero (b : Byte) : b.getLsbD 0 = decide (b.toNat % 2 = 1) := Nat.testBit_zero b.toNat

/-- A profile entry's fields by its bits (11.3). -/
theorem profileOf_bits (b0 b1 b2 b3 : Byte) : let x := profileOf b0 b1 b2 b3
    x.stepUp = (b0 &&& 0x7F).toNat ∧ x.jump = b0.getLsbD 7 ∧ x.stepDown = (b1 &&& 0x7F).toNat ∧ x.enable = b1.getLsbD 7 ∧
    x.fadeRides = (b2 &&& 0x0F).toNat ∧ x.cls.val = ((b2 >>> 4) &&& 3).toNat ∧ x.list.val = (b2 >>> 6).toNat ∧
    x.forgetRides = b3.toNat := by
  have byte := b2.isLt
  refine ⟨(toNat_low b0 _ 7 rfl).symm, rfl, (toNat_low b1 _ 7 rfl).symm, rfl, (toNat_low b2 _ 4 rfl).symm, ?_, ?_, rfl⟩
  · rw [toNat_low _ _ 2 rfl, toNat_high]
    rfl
  · rw [toNat_high]
    exact Nat.mod_eq_of_lt (by omega)

/-- The setup fields that are clamped (R143). -/
theorem State.clampedCount_eq (p : Port) :
    let one (x : Prop) [Decidable x] : Nat := if x then 1 else 0
    s.clampedCount p = min 255 (((s.portSlots p).map (fun i => one ((s.liveProfile i).stepUp = 0) +
      one ((s.liveProfile i).stepDown = 0) + one ((s.liveProfile i).fadeRides = 0) + one ((s.liveProfile i).forgetRides = 0))).sum +
      one (3 < s.setupByte p 0) + one (p = .fp ∧ (s.setupByte p 5 = 0 ∨ 64 < s.setupByte p 5))) := by
  simp only
  have entry (x : Profile) : profileClamps x = (if x.stepUp = 0 then 1 else 0) + (if x.stepDown = 0 then 1 else 0) +
      (if x.fadeRides = 0 then 1 else 0) + (if x.forgetRides = 0 then 1 else 0) := by
    simp only [profileClamps, clampProfile, changed_clampLow]
  have pass (n : Nat) : changed n (min 3 n) = if 3 < n then 1 else 0 := by
    unfold changed
    split <;> split <;> omega
  have threshold : changed (s.setupByte .fp 5) s.liveThreshold =
      if s.setupByte .fp 5 = 0 ∨ 64 < s.setupByte .fp 5 then 1 else 0 := by
    unfold changed State.liveThreshold clampLow
    split_ifs <;> omega
  have setup : s.setupClamps p = (if 3 < s.setupByte p 0 then 1 else 0) +
      (if p = .fp ∧ (s.setupByte p 5 = 0 ∨ 64 < s.setupByte p 5) then 1 else 0) := by
    cases p
    · simp only [State.setupClamps, pass, threshold, true_and]
    · simp only [State.setupClamps, pass, reduceCtorEq, false_and, if_false]
  simp only [State.clampedCount, setup, entry]
  congr 1
  omega

theorem State.liveReader_eq : s.liveReader = if (s.rd (Config.setupBase .fp + 4)).getLsbD 0 then .bp else .fp := by
  rw [getLsbD_zero, State.liveReader, State.setupByte]
  by_cases h : (s.rd (Config.setupBase .fp + 4)).toNat % 2 = 0
  · rw [if_pos h, if_neg (by simp [h])]
  · rw [if_neg h, if_pos (by simp; omega)]

theorem State.liveThreshold_eq : s.liveThreshold = max 1 (min 64 (s.rd (Config.setupBase .fp + 5)).toNat) := by
  rw [State.liveThreshold, clampLow_eq, State.setupByte]
  omega

/-! ### The take leaves the areas that ADOPT reads -/

theorem State.take_liveProfile (hc : s.MemoriesCanonical) (p : Port) (i : Slot) : (s.take p).liveProfile i = s.liveProfile i := by
  have area (x : Nat) (hx : x < 0x0F00) : (s.take p).rd x = s.rd x := by
    rw [State.rd_take hc, if_neg (by cases p <;> exact fun e => absurd (e ▸ hx) (by decide))]
  have base : Config.profileBase = 0x0C00 := rfl
  have := i.isLt
  simp only [State.liveProfile]
  rw [area _ (by omega), area _ (by omega), area _ (by omega), area _ (by omega)]

theorem State.take_setup (hc : s.MemoriesCanonical) (p : Port) {x : Nat} (hx : 0x0F80 ≤ x) : (s.take p).rd x = s.rd x := by
  rw [State.rd_take hc, if_neg (by cases p <;> exact fun e => absurd (e ▸ hx) (by decide))]

theorem State.take_liveCopy (hc : s.MemoriesCanonical) (p q : Port) :
    (s.take p).liveCopy q = s.liveCopy q ∧ (s.take p).setupClamps q = s.setupClamps q := by
  have byte (q : Port) (k : Nat) : (s.take p).setupByte q k = s.setupByte q k := by
    rw [State.setupByte, State.take_setup hc p (by cases q <;> exact Nat.le_add_right_of_le (by decide)), State.setupByte]
  have list (j : Fin 32) : (s.take p).rd (Config.listsBase q + j.val) = s.rd (Config.listsBase q + j.val) :=
    State.take_setup hc p (by cases q <;> exact Nat.le_add_right_of_le (by decide))
  refine ⟨?_, ?_⟩
  · simp only [State.liveCopy, State.liveReader, State.liveThreshold, byte, list]
  · simp only [State.setupClamps, State.liveThreshold, byte]

/-! ### What the work leaves (R143, R144, R55) -/

/-- The slots that ADOPT clears: outside IDLE, and disabled by the new copy (R144). -/
def State.adoptGone (s : State) (p : Port) : List Slot :=
  (s.portSlots p).filter (fun i => !(s.liveProfile i).enable && decide (s.quals[i].state ≠ .idle))

/-- What ADOPT's take leaves beside its wait (R143, R144, R55). -/
structure AdoptTaken (s t : State) (p : Port) : Prop where
  own : ∀ i : Slot, s.owner i = p → t.profiles[i] = clampProfile (s.liveProfile i) ∧ t.slots[i] = s.rebased i ∧
    t.quals[i] = (if i ∈ s.adoptGone p then clearedQualifier else s.quals[i])
  theirs : ∀ i : Slot, s.owner i ≠ p → t.profiles[i] = s.profiles[i] ∧ t.slots[i] = s.slots[i] ∧ t.quals[i] = s.quals[i]
  copy : (t.port p).copy = some (s.liveCopy p)
  pref : t.exec.pref = p.other
  queue : t.store.logQueue = s.store.logQueue ++ (s.adoptGone p).map (fun i => .clear i i)
  count : t.pub.writeCount = s.pub.writeCount + BitVec.ofNat 16 (s.adoptGone p).length
  gone : ∀ i ∈ s.adoptGone p, ∀ e r, s.recordOf i = some (e, r) → t.records[e] = none
  kept : ∀ i : Slot, s.owner i = p → i ∉ s.adoptGone p → ∀ e r, s.recordOf i = some (e, r) →
    t.Holds e (classed s.store.rideEnding (clampProfile (s.liveProfile i)).cls r)
  frames : t.frames = s.frames
  flash : t.flash = s.flash
  ride : t.ride = s.ride
  now : t.now = s.now

theorem State.replaceCopy_profiles (p : Port) (i : Slot) : (s.replaceCopy p).profiles[i] =
    if s.owner i = p then clampProfile (s.liveProfile i) else s.profiles[i] := by
  have same : (s.replaceCopy p).profiles =
      Vector.ofFn (fun i => if s.owner i = p then clampProfile (s.liveProfile i) else s.profiles[i]) := by
    unfold State.replaceCopy
    simp only
    rw [(State.markViewIf_effect _ _).profiles]
    cases p <;> rfl
  rw [same]
  simp

theorem State.replaceCopy_port (p : Port) : (s.replaceCopy p).port p = { s.port p with copy := some (s.liveCopy p) } := by
  unfold State.replaceCopy
  simp only [State.markViewIf_port, State.setPort_port]

theorem adoptTaken_work (hc : s.MemoriesCanonical) (ht : s.canTake p = true) :
    AdoptTaken s ((s.take p).adoptSlots p).1 p ∧ ((s.take p).adoptSlots p).2 = (s.adoptGone p).length ∧
    DemandsEnd s ((s.take p).adoptSlots p).1 p
      (fun x => (s.adoptGone p).countP (fun i => decide (s.demandIn i s.quals[i].state = x))) ∧
    (((s.take p).adoptSlots p).1.port p).adopted = (s.port p).adopted ∧
    Effect (.profiles :: .adoption :: .passes :: adoptSlotFields) [] (s.take p) ((s.take p).adoptSlots p).1 := by
  have kept := State.take_kept ht
  let s0 := s.take p
  let v := s0.replaceCopy p
  have hv : Effect [.profiles, .adoption, .dirty] [] s0 v := s0.replaceCopy_effect p
  obtain ⟨m, number, fold⟩ := slotsAdopted_foldl s0 (s0.portSlots p) (s0.portSlots_nodup p) v 0
  let w := ((s0.portSlots p).foldl (fun acc i => s0.adoptSlot i acc) (v, 0)).1
  let u := (s0.adoptSlots p).1
  have wu : Effect [.passes] [] w u := w.settlePass_effect p
  have canonical : v.MemoriesCanonical := hv.keeps .memories (by decide) (hc.take p)
  have profile (i : Slot) : v.profiles[i] = if s.owner i = p then clampProfile (s.liveProfile i) else s.profiles[i] := by
    rw [State.replaceCopy_profiles, kept.owner, State.take_liveProfile hc, kept.profiles]
  have rebased (i : Slot) : v.rebased i = s.rebased i := by rw [State.rebased_of_ram hv.ram, State.take_rebased hc]
  have quals : v.quals = s.quals := by rw [hv.quals, kept.quals]
  have records (i : Slot) : v.recordOf i = s.recordOf i := by rw [hv.recordOf, kept.recordOf]
  have mem (i : Slot) : i ∈ s0.portSlots p ↔ s.owner i = p := by rw [State.mem_portSlots, kept.owner]
  have slots : s0.portSlots p = s.portSlots p := by simp only [State.portSlots, s0, kept.owner]
  have gone : (s0.portSlots p).filter v.adoptClears = s.adoptGone p := by
    rw [slots, State.adoptGone]
    refine List.filter_congr fun i hi => ?_
    rw [State.adoptClears, profile, if_pos ((State.mem_portSlots _ _).mp hi), quals]
    rfl
  have count : m = (s.adoptGone p).length := by rw [fold.number, gone]
  have ending : v.store.rideEnding = s.store.rideEnding := by rw [hv.rideEnding, kept.rideEnding]
  refine ⟨?_, ?_, ?_, ?_, (hv.seq fold.reach (l := .profiles :: .adoption :: .passes :: adoptSlotFields)).trans wu.mono⟩
  · constructor
    case own =>
      intro i hi
      refine ⟨?_, ?_, ?_⟩
      · rw [wu.profiles, fold.reach.profiles, profile, if_pos hi]
      · rw [wu.slots, fold.slots canonical, if_pos ((mem i).mpr hi), rebased]
      · rw [wu.quals, fold.quals, gone, quals]
    case theirs =>
      intro i hi
      have out : i ∉ s.adoptGone p := fun x => hi ((State.mem_portSlots _ _).mp (List.mem_filter.mp x).1)
      refine ⟨?_, ?_, ?_⟩
      · rw [wu.profiles, fold.reach.profiles, profile, if_neg hi]
      · rw [wu.slots, fold.slots canonical, if_neg (fun x => hi ((mem i).mp x)), hv.slots, kept.slots]
      · rw [wu.quals, fold.quals, gone, if_neg out, quals]
    case copy =>
      rw [(wu.adoption p).2, (fold.reach.adoption p).2, State.replaceCopy_port, (State.take_liveCopy hc p p).1]
    case pref => rw [wu.exec, fold.reach.exec, hv.exec, State.take_exec]
    case queue => rw [wu.logQueue, fold.queue, gone, hv.logQueue, kept.logQueue]
    case count => rw [wu.trail.1, fold.count, count, hv.trail.1, kept.pub_eq]
    case gone =>
      intro i hi e r hr
      rw [wu.records]
      exact fold.gone i (by rw [gone]; exact hi) e r ((records i).trans hr)
    case kept =>
      intro i hi out e r hr
      have stays : v.adoptClears i = false := by
        rw [← Bool.not_eq_true]
        exact fun x => out (gone ▸ List.mem_filter.mpr ⟨(mem i).mpr hi, x⟩)
      have class' := fold.kept i ((mem i).mpr hi) stays e r ((records i).trans hr)
      rw [ending, profile, if_pos hi] at class'
      rw [State.Holds, wu.records]
      exact ((State.recordOf_eq_some _ _ _).mp class').1
    case frames => rw [wu.frames, fold.reach.frames, hv.frames, kept.frames]
    case flash => rw [wu.flash, fold.reach.flash, hv.flash, kept.flash]
    case ride => rw [wu.ride, fold.reach.ride, hv.ride, kept.ride]
    case now => rw [wu.now, fold.reach.now, hv.now, kept.now]
  · rw [← count]
    exact number.trans (Nat.zero_add m)
  · have ends := fold.lamps p fun j hj => by rw [hv.owner]; exact (State.mem_portSlots _ _).mp hj
    simp only [gone, s0, kept.demandIn, quals] at ends
    refine ends.of_counts (fun q => ?_) fun q => wu.sameCounts (by decide) q
    exact (kept.sameCounts (by decide) q).trans (hv.sameCounts (by decide) q)
  · rw [(wu.adoption p).1, (fold.reach.adoption p).1, State.replaceCopy_port]
    exact (State.take_adopted p p).1

/-- What the wait, or the completion, leaves of ADOPT's work (R145). -/
structure AdoptKept (u t : State) (p : Port) : Prop where
  quals : t.quals = u.quals
  slots : t.slots = u.slots
  profiles : t.profiles = u.profiles
  records : t.records = u.records
  frames : t.frames = u.frames
  queue : t.store.logQueue = u.store.logQueue
  count : t.pub.writeCount = u.pub.writeCount
  flash : t.flash = u.flash
  ride : t.ride = u.ride
  now : t.now = u.now
  pref : t.exec.pref = u.exec.pref
  copy : (t.port p).copy = (u.port p).copy

theorem adoptKept_await (u : State) (w : Taken) (p : Port) : AdoptKept u (u.await w) p :=
  ⟨rfl, rfl, rfl, rfl, rfl, rfl, rfl, rfl, rfl, rfl, rfl, by cases p <;> rfl⟩

theorem State.completeAdopt_copy (b : Bool) (a : List Byte) (h : s.exec.taken.map Taken.port = some p) :
    ((s.completeAdopt p b a).port p).copy = (s.port p).copy ∧ (s.completeAdopt p b a).exec.pref = s.exec.pref := by
  let u := s.adoptRecounted p
  let v := u.applyTrailSetup p
  let w := v.startTimers p (!(s.port p).adopted)
  obtain ⟨n1, n2, n3, sh, l, port⟩ := s.adoptRecounted_port p
  have exec := (s.adoptRecounted_frame p).2.2.2
  have uw : Effect [.ram, .reader, .attn, .passTimer, .silenceDue] [] u w :=
    (u.applyTrailSetup_effect p).step (v.startTimers_effect p _)
  have wt : Effect [.ram, .board, .cells, .exec, .attn] [] w (s.completeAdopt p b a) :=
    State.complete_effect w p _ a (by rw [uw.exec, exec]; exact h)
  refine ⟨?_, ?_⟩
  · rw [(wt.adoption p).2, (uw.adoption p).2, port]
  · have pref : (s.completeAdopt p b a).exec.pref = w.exec.pref := State.complete_pref p _ a
    rw [pref, uw.exec, exec]

theorem adoptKept_complete (b : Bool) (a : List Byte) (h : u.exec.taken.map Taken.port = some p) :
    AdoptKept u (u.completeAdopt p b a) p := by
  have he := u.completeAdopt_effect p b a h
  obtain ⟨copy, pref⟩ := State.completeAdopt_copy b a h
  exact ⟨he.quals, he.slots, he.profiles, he.records, he.frames, he.logQueue, he.trail.1, he.flash, he.ride, he.now, pref, copy⟩

theorem AdoptKept.trans (h : AdoptKept s u p) (h' : AdoptKept u t p) : AdoptKept s t p :=
  ⟨h'.quals.trans h.quals, h'.slots.trans h.slots, h'.profiles.trans h.profiles, h'.records.trans h.records,
    h'.frames.trans h.frames, h'.queue.trans h.queue, h'.count.trans h.count, h'.flash.trans h.flash, h'.ride.trans h.ride,
    h'.now.trans h.now, h'.pref.trans h.pref, h'.copy.trans h.copy⟩

theorem AdoptTaken.of_kept (h : AdoptTaken s u p) (k : AdoptKept u t p) : AdoptTaken s t p where
  own i hi := by rw [k.profiles, k.slots, k.quals]; exact h.own i hi
  theirs i hi := by rw [k.profiles, k.slots, k.quals]; exact h.theirs i hi
  copy := k.copy.trans h.copy
  pref := k.pref.trans h.pref
  queue := k.queue.trans h.queue
  count := k.count.trans h.count
  gone i hi e r hr := by rw [k.records]; exact h.gone i hi e r hr
  kept i hi out e r hr := by rw [State.Holds, k.records]; exact h.kept i hi out e r hr
  frames := k.frames.trans h.frames
  flash := k.flash.trans h.flash
  ride := k.ride.trans h.ride
  now := k.now.trans h.now

/-! ### The request (O33) -/

theorem State.take_counts (hc : s.MemoriesCanonical) (ht : s.canTake p = true) :
    (s.take p).enabledCount p = s.enabledCount p ∧ (s.take p).clampedCount p = s.clampedCount p := by
  have slots : (s.take p).portSlots p = s.portSlots p := by simp only [State.portSlots, (State.take_kept ht).owner]
  simp only [State.enabledCount, State.clampedCount, slots, State.take_liveProfile hc, (State.take_liveCopy hc p p).2, and_self]

theorem State.adoptOutcome_settled {n : Nat} (h : n = 0 ∨ s.store.state = .failed) (a : List Byte) :
    s.adoptOutcome p n a = s.await (.adopted p (decide (n ≠ 0)) a) := by
  unfold State.adoptOutcome
  by_cases zero : n = 0
  · simp only [zero, if_true, ne_eq, not_true_eq_false, decide_false]
  · simp only [zero, if_false, if_pos (h.resolve_left zero), ne_eq, not_false_eq_true, decide_true]

theorem State.adoptOutcome_waits {n : Nat} (h : ¬(n = 0 ∨ s.store.state = .failed)) (a : List Byte) :
    s.adoptOutcome p n a = s.await (.adopt p n a) := by
  obtain ⟨h1, h2⟩ := not_or.mp h
  rw [State.adoptOutcome, if_neg h1, if_neg h2]

/-- How a taken ADOPT stands: settled at once, and then complete or about to be, or waiting for the store's reports. -/
structure AdoptStands (s t : State) (p : Port) (n : Nat) (answer : List Byte) (part : RequestPart) : Prop where
  whole : (n = 0 ∨ s.store.state = .failed) → part = .whole →
    t.Answered p (if n = 0 then .ok else .storeFault) answer ∧ AdoptDone s t p
  take : (n = 0 ∨ s.store.state = .failed) → part = .take → t.Waits p (.adopted p (decide (n ≠ 0)) answer)
  waits : ¬(n = 0 ∨ s.store.state = .failed) → t.Waits p (.adopt p n answer)

theorem adopt_run (hc : s.MemoriesCanonical) (ht : s.takes p 1 = true)
    (hl : ¬(s.ride.state = .riding ∧ (s.port p).adopted = true)) {part : RequestPart} (hp : part ≠ .completion) :
    let n := (s.adoptGone p).length
    let answer := bytes16 (s.enabledCount p) ++ [byteOf (s.clampedCount p), byteOf n]
    ∃ t, exec (.adopt { port := p, part := part }) s = .next t ∧ AdoptTaken s t p ∧ AdoptStands s t p n answer part ∧
      (¬(n = 0 ∨ s.store.state = .failed) ∨ part = .take → (t.port p).adopted = (s.port p).adopted ∧ DemandsEnd s t p
        (fun x => (s.adoptGone p).countP (fun i => decide (s.demandIn i s.quals[i].state = x)))) := by
  intro n answer
  obtain ⟨htake, hcode⟩ := (State.takes_iff p 1).mp ht
  have kept := State.take_kept htake
  obtain ⟨taken, number, lamps, adopted, reach⟩ := adoptTaken_work hc htake
  let u := ((s.take p).adoptSlots p).1
  have work : (s.take p).adopt p = u.adoptOutcome p n answer := by
    have open' : ¬((s.take p).ride.state = .riding ∧ ((s.take p).port p).adopted = true) := by
      rw [kept.ride, (State.take_adopted p p).1]
      exact hl
    obtain ⟨enabled, clamped⟩ := State.take_counts hc htake
    refine (if_neg open').trans ?_
    simp only [enabled, clamped, number]
    rfl
  have canonical : u.MemoriesCanonical := reach.keeps .memories (by decide) (hc.take p)
  have state : u.store.state = s.store.state := by rw [reach.storeState, kept.storeState]
  have waits (w : Taken) : (u.await w).Waits p w := reach.waits hc (by decide) w
  have still (w : Taken) : ((u.await w).port p).adopted = (s.port p).adopted ∧ DemandsEnd s (u.await w) p
      (fun x => (s.adoptGone p).countP (fun i => decide (s.demandIn i s.quals[i].state = x))) :=
    ⟨by rw [State.await_port]; exact adopted, lamps.concluded (concluded_await u w p)⟩
  by_cases settled : n = 0 ∨ s.store.state = .failed
  · have outcome : u.adoptOutcome p n answer = u.await (.adopted p (decide (n ≠ 0)) answer) :=
      State.adoptOutcome_settled (settled.imp id state.trans) answer
    cases part with
    | completion => exact absurd rfl hp
    | take =>
      refine ⟨u.await (.adopted p (decide (n ≠ 0)) answer), ?_, taken.of_kept (adoptKept_await u _ p),
        ⟨nofun, fun _ _ => waits _, fun x => absurd settled x⟩, fun _ => still _⟩
      rw [adoptForm.take htake hcode, work, outcome]
    | whole =>
      let v := u.await (.adopted p (decide (n ≠ 0)) answer)
      have done : exec (.adopt { port := p, part := .whole }) s = .next (v.completeAdopt p (decide (n ≠ 0)) answer) := by
        rw [adoptForm.whole htake hcode, work, outcome, State.finish_adopted p _ _ rfl]
      have base : AdoptBase s v p := {
        reader := ⟨reach.reader.1.trans kept.reader.1, reach.reader.2.trans kept.reader.2⟩
        adopted := (still _).1
        timers := by
          rw [State.await_port, reach.onPort p .passTimer (by decide), reach.onPort p .silenceDue (by decide),
            kept.onPort p .passTimer (by decide), kept.onPort p .silenceDue (by decide)]
          exact ⟨rfl, rfl⟩
        ride := congrArg RideCtl.state (reach.ride.trans kept.ride) }
      have hv : v.MemoriesCanonical := canonical.of_same rfl rfl
      have answered := State.completeAdopt_answered hv p (decide (n ≠ 0)) answer
      have status : (if decide (n ≠ 0) = true then Status.storeFault else .ok) = if n = 0 then .ok else .storeFault := by
        by_cases zero : n = 0
        · simp only [zero, ne_eq, not_true_eq_false, decide_false, Bool.false_eq_true, if_false, if_true]
        · simp only [zero, ne_eq, not_false_eq_true, decide_true, if_true, if_false]
      rw [status] at answered
      refine ⟨_, done, taken.of_kept ((adoptKept_await u _ p).trans (adoptKept_complete _ _ rfl)),
        ⟨fun _ _ => ⟨answered, (State.completeAdopt_done hv _ _ rfl).of_base base⟩, nofun, fun x => absurd settled x⟩, ?_⟩
      rintro (x | x)
      · exact absurd settled x
      · cases x
  · have outcome : u.adoptOutcome p n answer = u.await (.adopt p n answer) :=
      State.adoptOutcome_waits (fun x => settled (x.imp id fun y => state.symm.trans y)) answer
    have done : exec (.adopt { port := p, part := part }) s = .next (u.await (.adopt p n answer)) := by
      cases part with
      | completion => exact absurd rfl hp
      | take => rw [adoptForm.take htake hcode, work, outcome]
      | whole =>
        rw [adoptForm.whole htake hcode, work, outcome,
          State.finish_else (s := u.await (.adopt p n answer)) p (fun _ _ h => nomatch h) (fun _ _ h => nomatch h)]
    exact ⟨_, done, taken.of_kept (adoptKept_await u _ p),
      ⟨fun x => absurd x settled, fun x => absurd x settled, fun _ => waits _⟩, fun _ => still _⟩

/-- Settles O33: the clamped copy by the layouts of 11.3, and ADOPT as a whole. -/
theorem adoptReplacesTheCopy : Obligations.AdoptReplacesTheCopy := by
  unfold Obligations.AdoptReplacesTheCopy
  refine ⟨fun x => ?_, fun s i => profileOf_bits _ _ _ _, fun s p => ?_, fun p s hc ht => ⟨fun locked => ?_, ?_⟩⟩
  · simp only [clampProfile, clampLow_eq]
  · refine ⟨rfl, getLsbD_zero _ |>.symm, (toNat_low _ _ 4 rfl).symm, (toNat_low _ _ 4 rfl).symm, fun hp => ?_, fun j => ?_, rfl,
      s.clampedCount_eq p⟩
    · subst hp
      exact ⟨s.liveReader_eq, s.liveThreshold_eq⟩
    · simp [State.liveCopy]
  · obtain ⟨htake, hcode⟩ := (State.takes_iff p 1).mp ht
    refine adoptForm.replies hc htake hcode (if_pos ?_) rfl
    rw [(State.take_kept htake).ride, (State.take_adopted p p).1]
    exact locked
  · intro open' part hp
    obtain ⟨t, run, taken, stands, still⟩ := adopt_run hc ht open' hp
    obtain ⟨whole, take, waits⟩ := stands
    simp only [ne_eq, List.length_eq_zero_iff] at whole take waits still
    refine ⟨t, run, taken.own, taken.theirs, taken.copy, taken.pref, taken.queue, taken.count, taken.gone, taken.kept,
      ⟨fun h hp => ?_, fun h hp => ?_, fun h => ?_, still⟩, taken.frames, taken.flash, taken.ride, taken.now⟩
    · exact whole h hp
    · exact take h hp
    · exact waits h

end Sys2Proof.Machine
end

