-- ==== Sys2Proof/Proofs/Cutting.lean ====
section
/-!
PROOFS. What a reset leaves of flash work in flight (R109, R111, R182): a cut program, a cut image, a cut erase; and entry to
reset (O4).
-/

-- Proofs in the order of the text: those that elaborate default tactic arguments at once wait for each other.
set_option Elab.async false

namespace Sys2Proof.Machine

variable {s t : State} {m : Memory} {k : Fin 16}

/-! ### A cut program -/

/-- The lines of a program, whole or cut, lie in its own bytes. -/
theorem read_cutProgram {base n : Nat} {bytes : List Byte} {order : List Nat} (cut : FlashCut) (ho : ∀ ln ∈ order, ln < n)
    (h : Memory.wf flashDefault m = true) {x : Nat} (hx : x < base ∨ base + 8 * n ≤ x) :
    Memory.read flashDefault (cutProgram m base bytes order cut) x = Memory.read flashDefault m x := by
  have lines : ∀ (l : List Nat), (∀ ln ∈ l, ln < n) → ∀ m : Memory, Memory.wf flashDefault m = true →
      let m' := l.foldl (fun m ln => Memory.writeBytes flashDefault m (base + 8 * ln) ((bytes.drop (8 * ln)).take 8)) m
      Memory.wf flashDefault m' = true ∧ Memory.read flashDefault m' x = Memory.read flashDefault m x := by
    intro l
    induction l with
    | nil => exact fun _ m hm => ⟨hm, rfl⟩
    | cons ln l ih =>
      intro hl m hm
      have here := hl ln List.mem_cons_self
      have size : ((bytes.drop (8 * ln)).take 8).length ≤ 8 := List.length_take_le _ _
      obtain ⟨wf, read⟩ := ih (fun y hy => hl y (List.mem_cons_of_mem _ hy)) _
        (Memory.wf_writeBytes flashDefault ((bytes.drop (8 * ln)).take 8) m (base + 8 * ln) hm)
      exact ⟨wf, read.trans (Memory.read_writeBytes_outside _ _ _ _ _ (by omega) hm)⟩
  obtain ⟨wf, read⟩ := lines (order.take cut.lines) (fun y hy => ho y (List.mem_of_mem_take hy)) m h
  unfold cutProgram
  simp only
  split
  · next ln rest e =>
    have here : ln < n := ho ln (List.mem_of_mem_drop (e ▸ List.mem_cons_self))
    exact (Memory.read_writeCells _ _ _ _ _ wf (by omega)).trans read
  · exact read

theorem imageLineOrder_lt {n ln : Nat} (hn : 1 < n) (h : ln ∈ imageLineOrder n) : ln < n := by
  simp only [imageLineOrder, List.mem_cons, List.mem_append, List.not_mem_nil, or_false] at h
  rcases h with rfl | h | rfl
  · omega
  · exact List.mem_range.mp (List.mem_of_mem_drop h)
  · exact hn

theorem read_cutImage {base : Nat} {bytes : List Byte} (cut : FlashCut) (hb : 16 ≤ bytes.length)
    (h : Memory.wf flashDefault m = true) {x : Nat} (hx : x < base ∨ base + bytes.length ≤ x) :
    Memory.read flashDefault (cutImage m base bytes cut) x = Memory.read flashDefault m x := by
  have part := read_cutProgram (base := base) (bytes := bytes) (n := bytes.length / 8) cut
    (fun ln hl => imageLineOrder_lt (by omega) hl) h (x := x) (by omega)
  unfold cutImage
  simp only
  split
  · exact (Memory.read_write_other _ _ _ _ _ 0 (by omega) (wf_cutProgram _ _ _ _ _ h)).trans part
  · exact part

/-! ### A cut erase -/

theorem read_cutErase (erased : Marred) (h : Memory.wf flashDefault m = true) {x : Nat}
    (hx : x < sectorAddr k 0 ∨ sectorAddr k 2040 ≤ x) :
    Memory.read flashDefault (cutErase m k erased) x = Memory.read flashDefault m x := by
  have size : sectorAddr k 2040 = sectorAddr k 0 + 8 * Config.retireLine := rfl
  have cells := Memory.read_writeCells erased m (sectorAddr k 0) (8 * Config.retireLine) x h (by omega)
  unfold cutErase
  simp only
  split
  · exact cells
  · refine (Memory.read_write_other _ _ _ _ _ 0 ?_ (wf_writeCells _ _ _ _ h)).trans cells
    have : 0 < 8 * Config.retireLine := by decide
    omega

theorem byteAt_sectorBytes {o : Nat} (h : o < 2048) : byteAt (sectorBytes m k) o = Memory.read flashDefault m (sectorAddr k o) :=
  byteAt_readBytes flashDefault m (sectorAddr k 0) 2048 o h

theorem length_sectorBytes : (sectorBytes m k).length = 2048 := length_readBytes flashDefault m (sectorAddr k 0) 2048

/-- The bytes of a log sector are what its addresses read. -/
theorem sectorBytes_congr {m' : Memory} (h : ∀ o, o < 2048 → Memory.read flashDefault m' (sectorAddr k o) =
    Memory.read flashDefault m (sectorAddr k o)) : sectorBytes m' k = sectorBytes m k := by
  refine eq_of_byteAt (by rw [length_sectorBytes, length_sectorBytes]) fun i hi => ?_
  rw [length_sectorBytes] at hi
  rw [byteAt_sectorBytes hi, byteAt_sectorBytes hi, h i hi]

theorem classifySector_congr {m' : Memory} (h : sectorBytes m' k = sectorBytes m k) :
    classifySector m' k = classifySector m k := by rw [classifySector, classifySector, h]

theorem allBlank_iff (bs : List Byte) : allBlank bs = true ↔ ∀ i, i < bs.length → byteAt bs i = 0xFF := by
  simp only [allBlank, List.all_eq_true, decide_eq_true_eq]
  constructor
  · intro h i hi
    have : byteAt bs i = bs[i] := by simp [byteAt, hi]
    rw [this]
    exact h _ (List.getElem_mem hi)
  · intro h b hb
    obtain ⟨i, hi, rfl⟩ := List.getElem_of_mem hb
    have := h i hi
    simpa [byteAt, hi] using this

/-- A sector whose first byte names no image kind holds none (R130). -/
theorem walk_of_no_kind {fuel : Nat} (hf : 0 < fuel) {bs : List Byte} (hb : byteAt bs 0 = 0x00) (hn : allBlank bs = false) :
    (walk k fuel 0 bs).1 = [] := by
  have none : parseImage k 0 bs = none := by
    unfold parseImage
    rw [hb]
    rfl
  obtain ⟨n, rfl⟩ := Nat.exists_eq_succ_of_ne_zero (Nat.ne_of_gt hf)
  rw [walk, if_neg (by decide), if_neg (by rw [hn]; exact Bool.false_ne_true), none]

/-- A cut erase leaves the sector SPOILED, or with fewer images than it held (R111). -/
theorem cutErase_class (erased : Marred) (h : Memory.wf flashDefault m = true)
    (hr : ∀ o, 2040 ≤ o → o < 2048 → Memory.read flashDefault m (sectorAddr k o) = 0xFF) :
    (classifySector (cutErase m k erased) k).1.state = .spoiled ∨
    ((classifySector (cutErase m k erased) k).1.state = .full ∧
      (classifySector (cutErase m k erased) k).2.1.length < (classifySector m k).2.1.length) := by
  have line (o : Nat) (h1 : 2040 ≤ o) (h2 : o < 2048) :
      Memory.read flashDefault (cutErase m k erased) (sectorAddr k o) = 0xFF := by
    refine (read_cutErase erased h (.inr ?_)).trans (hr o h1 h2)
    exact Nat.add_le_add_left h1 _
  by_cases part : erasedInPart m (writeCells m (sectorAddr k 0) (8 * Config.retireLine) erased) k = true
  · have kept : cutErase m k erased = writeCells m (sectorAddr k 0) (8 * Config.retireLine) erased := by
      simp only [cutErase, part, if_true]
    rw [kept]
    simpa [erasedInPart] using part
  · have spoiled : cutErase m k erased =
        Memory.write flashDefault (writeCells m (sectorAddr k 0) (8 * Config.retireLine) erased) (sectorAddr k 0) 0x00 := by
      simp only [cutErase, part, if_false, Bool.false_eq_true]
    have first : byteAt (sectorBytes (cutErase m k erased) k) 0 = 0x00 := by
      rw [byteAt_sectorBytes (by decide), spoiled]
      exact Memory.read_write_same _ _ _ _ 0 (wf_writeCells _ _ _ _ h)
    have written : allBlank (sectorBytes (cutErase m k erased) k) = false := by
      rw [← Bool.not_eq_true, allBlank_iff]
      intro all
      have := all 0 (by rw [length_sectorBytes]; decide)
      rw [first] at this
      exact absurd this (by decide)
    have blank : allBlank ((sectorBytes (cutErase m k erased) k).drop 2040) = true := by
      rw [allBlank_iff, List.length_drop, length_sectorBytes]
      intro i hi
      rw [byteAt_drop, byteAt_sectorBytes (by omega)]
      exact line _ (by omega) (by omega)
    have empty : (walkSector (cutErase m k erased) k).1 = [] := by
      rw [walkSector]
      exact walk_of_no_kind (by decide) first written
    have found := (classify_walked blank written).1 empty
    generalize (walkSector (cutErase m k erased) k).2 = e at found
    rw [found]
    exact .inl rfl

/-! ### What was in flight (R111, R182) -/

theorem sectorAddr_val (k : Fin 16) (o : Nat) : sectorAddr k o = 2048 * k.val + o := rfl

theorem retainedAddr_val (k : Fin 16) (o : Nat) : retainedAddr k o = 32768 + 64 * k.val + o := rfl

/-- Where a cut program may write. -/
theorem State.read_cutProgramFlash (h : Memory.wf flashDefault s.flash = true) (cut : FlashCut) {a : Nat}
    (hi : ∀ g, s.store.program = some (.image g) → 16 ≤ g.bytes.length ∧
      (a < sectorAddr g.sector (8 * g.line) ∨ sectorAddr g.sector (8 * g.line) + g.bytes.length ≤ a))
    (hr : ∀ x, s.store.program = some (.retained x) → a < retainedAddr x.pos 0 ∨ retainedAddr x.pos 0 + 64 ≤ a) :
    Memory.read flashDefault (s.cutProgramFlash cut) a = Memory.read flashDefault s.flash a := by
  unfold State.cutProgramFlash
  split
  · next g e => exact read_cutImage cut (hi g e).1 h (hi g e).2
  · next x e => exact read_cutProgram (n := 8) cut (fun ln hl => List.mem_range.mp hl) h (hr x e)
  · rfl

theorem State.read_cutEraseFlash (h : Memory.wf flashDefault m = true) (erased : Marred) {a : Nat}
    (he : ∀ e, s.store.erase = some e → a < sectorAddr e.sector 0 ∨ sectorAddr e.sector 2040 ≤ a) :
    Memory.read flashDefault (s.cutEraseFlash erased m) a = Memory.read flashDefault m a := by
  unfold State.cutEraseFlash
  split
  · next e h' => exact read_cutErase erased h (he e h')
  · rfl

/-- The retained erase reaches the retained sector alone. -/
theorem State.read_cutFlash_last (h : Memory.wf flashDefault s.flash = true) (cut : FlashCut) {a : Nat}
    (ha : s.store.retErase = .running → a < 32768 ∨ 34816 ≤ a) : Memory.read flashDefault (s.cutFlash cut) a =
      Memory.read flashDefault (s.cutEraseFlash cut.erased (s.cutProgramFlash cut)) a := by
  have wf := s.wf_cutEraseFlash cut.erased _ (s.wf_cutProgramFlash cut h)
  unfold State.cutFlash
  simp only
  split
  · next running => exact Memory.read_writeCells _ _ _ _ _ wf (ha running)
  · rfl
  · rfl

theorem State.cutFlash_quiet (h1 : s.store.program = none) (h2 : s.store.erase = none) (h3 : s.store.retErase ≠ .running)
    (cut : FlashCut) : s.cutFlash cut = s.flash := by
  have program : s.cutProgramFlash cut = s.flash := by rw [State.cutProgramFlash, h1]
  have erase : s.cutEraseFlash cut.erased s.flash = s.flash := by rw [State.cutEraseFlash, h2]
  unfold State.cutFlash
  simp only [program, erase]
  cases e : s.store.retErase with
  | running => exact absurd e h3
  | nothing | waiting => rfl

/-- A cut image has no valid complete mark (R111). -/
theorem State.cutFlash_mark (h : Memory.wf flashDefault s.flash = true) (cut : FlashCut) {g : ImageProgram}
    (hg : s.store.program = some (.image g)) (hl : 16 ≤ g.bytes.length) (hr : g.line + g.bytes.length / 8 ≤ 255)
    (he : ∀ e, s.store.erase = some e → e.sector ≠ g.sector) :
    Memory.read flashDefault (s.cutFlash cut) (sectorAddr g.sector (8 * g.line) + 10) ≠ 0x00 := by
  have wf := s.wf_cutProgramFlash cut h
  have sector := g.sector.isLt
  rw [State.read_cutFlash_last h cut (fun _ => .inl (by rw [sectorAddr_val]; omega)),
    State.read_cutEraseFlash wf cut.erased fun e hs => ?_]
  · rw [State.cutProgramFlash, hg]
    exact cutImage_mark _ _ _ _ h
  · have ne : e.sector.val ≠ g.sector.val := fun x => he e hs (Fin.ext x)
    simp only [sectorAddr_val]
    omega

/-- A cut erase leaves its sector SPOILED, or with fewer images (R111). -/
theorem State.cutFlash_erase (h : Memory.wf flashDefault s.flash = true) (cut : FlashCut) {e : EraseOp}
    (he : s.store.erase = some e)
    (hp : ∀ g, s.store.program = some (.image g) → g.sector ≠ e.sector ∧ 16 ≤ g.bytes.length ∧ g.line + g.bytes.length / 8 ≤ 255)
    (hr : ∀ o, 2040 ≤ o → o < 2048 → Memory.read flashDefault s.flash (sectorAddr e.sector o) = 0xFF) :
    (classifySector (s.cutFlash cut) e.sector).1.state = .spoiled ∨
    ((classifySector (s.cutFlash cut) e.sector).1.state = .full ∧
      (classifySector (s.cutFlash cut) e.sector).2.1.length < (classifySector s.flash e.sector).2.1.length) := by
  have wf := s.wf_cutProgramFlash cut h
  have sector := e.sector.isLt
  have before (o : Nat) (ho : o < 2048) : Memory.read flashDefault (s.cutProgramFlash cut) (sectorAddr e.sector o) =
      Memory.read flashDefault s.flash (sectorAddr e.sector o) := by
    refine State.read_cutProgramFlash h cut (fun g hg => ?_) fun x _ => .inl ?_
    · obtain ⟨ne, hl, hr⟩ := hp g hg
      have : g.sector.val ≠ e.sector.val := fun x => ne (Fin.ext x)
      simp only [sectorAddr_val]
      omega
    · simp only [sectorAddr_val, retainedAddr_val]
      omega
  have erased : s.cutEraseFlash cut.erased (s.cutProgramFlash cut) = cutErase (s.cutProgramFlash cut) e.sector cut.erased := by
    rw [State.cutEraseFlash, he]
  have after (o : Nat) (ho : o < 2048) : Memory.read flashDefault (s.cutFlash cut) (sectorAddr e.sector o) =
      Memory.read flashDefault (cutErase (s.cutProgramFlash cut) e.sector cut.erased) (sectorAddr e.sector o) := by
    rw [← erased]
    exact State.read_cutFlash_last h cut fun _ => .inl (by rw [sectorAddr_val]; omega)
  rw [classifySector_congr (sectorBytes_congr after), ← classifySector_congr (sectorBytes_congr before)]
  exact cutErase_class cut.erased wf fun o h1 h2 => (before o h2).trans (hr o h1 h2)

/-! ### Entry to reset (O4) -/

/-- The part held in reset by `cause`. -/
def State.enteredReset (cause : ResetCause) (cut : FlashCut) (s : State) : State := (s.held cut).dropLine cause

theorem execResetEntry_recognised {cause : ResetCause} (cut : FlashCut) (hr : s.inReset = false)
    (h : recognised cause = true) : exec (.resetEntry cause cut) s = .next (s.enteredReset cause cut) := by
  show execResetEntry cause cut s = _
  rw [execResetEntry, if_pos h, if_neg (by rw [hr]; exact Bool.false_ne_true)]
  rfl

theorem State.enteredReset_port (cause : ResetCause) (cut : FlashCut) (p : Port) :
    ∃ w b, (s.enteredReset cause cut).port p = PortState.reset w b := by
  cases cause <;> cases p <;> exact ⟨_, _, rfl⟩

/-- Settles O4: what entry to reset leaves of the part, and of the flash work it cuts. -/
theorem resetEntryAbandonsEverything : Obligations.ResetEntryAbandonsEverything := by
  unfold Obligations.ResetEntryAbandonsEverything
  refine ⟨fun n cut s h => ?_, fun cause cut s hr hcause => ?_⟩
  · show execResetEntry _ _ _ = _
    have short : recognised (.resetn n) = false := decide_eq_false (Nat.not_le.mpr h)
    rw [execResetEntry, if_neg (by rw [short]; exact Bool.false_ne_true)]
  have known : recognised cause = true := by
    rcases hcause with rfl | ⟨n, rfl, h⟩
    · rfl
    · exact decide_eq_true h
  have flash : (s.enteredReset cause cut).flash = s.cutFlash cut := by cases cause <;> rfl
  refine ⟨s.enteredReset cause cut, execResetEntry_recognised cut hr known, ?_, ?_, fun p => ?_, ?_, ?_, ?_, ?_, ?_, fun a => ?_,
    ?_, ?_, fun h1 h2 h3 => flash.trans (State.cutFlash_quiet h1 h2 h3 cut), fun hc => ⟨fun a hi hx he hret => ?_,
    fun g hg hl hr' he => ?_, fun e he hp hline => ?_⟩⟩
  · cases cause
    · rfl
    · simp [State.enteredReset, State.dropLine, State.inReset]
  · cases cause <;> rfl
  · obtain ⟨w, b, hp⟩ := State.enteredReset_port (s := s) cause cut p
    rw [hp]
    exact ⟨rfl, rfl, rfl, rfl⟩
  · cases cause <;> rfl
  · cases cause <;> rfl
  · cases cause <;> rfl
  · cases cause <;> rfl
  · cases cause <;> rfl
  · cases cause <;> rfl
  · cases cause <;> rfl
  · cases cause <;> rfl
  · show Memory.read flashDefault (s.enteredReset cause cut).flash a = _
    rw [flash, State.read_cutFlash_last hc.2 cut hret, State.read_cutEraseFlash (s.wf_cutProgramFlash cut hc.2) cut.erased he,
      State.read_cutProgramFlash hc.2 cut hi hx]
    rfl
  · show Memory.read flashDefault (s.enteredReset cause cut).flash _ ≠ _
    rw [flash]
    exact State.cutFlash_mark hc.2 cut hg hl hr' he
  · simp only [flash]
    exact State.cutFlash_erase hc.2 cut he hp hline

end Sys2Proof.Machine
end

