-- ==== Sys2Proof/Proofs/Coding.lean ====
section
/-!
PROOFS. The compact value code (R75 to R77), the code of a list entry (R63 to R65) and the bytes of a frame (11.6; O25).
-/

-- Proofs in the order of the text: those that elaborate default tactic arguments at once wait for each other.
set_option Elab.async false

namespace Sys2Proof.Machine

variable {s t : State}

/-! ### Rounding (R76) -/

/-- A value scaled and rounded lies within half a step of itself; half-way it goes to the even significand (R76). -/
theorem roundEven_spec (v : Nat) {d : Nat} (hd : 0 < d) :
    2 * v ≤ 2 * (roundEven v d * d) + d ∧ 2 * (roundEven v d * d) ≤ 2 * v + d ∧ (2 * (v % d) = d → roundEven v d % 2 = 0) := by
  have whole : v / d * d + v % d = v := Nat.div_add_mod' v d
  have less : v % d < d := Nat.mod_lt v hd
  have next : (v / d + 1) * d = v / d * d + d := Nat.succ_mul _ _
  unfold roundEven
  simp only
  split_ifs
  · omega
  · omega
  · exact ⟨by omega, by omega, fun _ => by assumption⟩
  · exact ⟨by omega, by omega, fun _ => by omega⟩

/-- The significand of a value of 16 steps to below 32 (R76). -/
theorem roundEven_range {v d : Nat} (hd : 0 < d) (h1 : 16 * d ≤ v) (h2 : v < 32 * d) :
    16 ≤ roundEven v d ∧ roundEven v d ≤ 32 := by
  obtain ⟨lo, hi, -⟩ := roundEven_spec v hd
  constructor
  · by_contra h
    have : roundEven v d * d ≤ 15 * d := Nat.mul_le_mul_right d (by omega)
    omega
  · by_contra h
    have : 33 * d ≤ roundEven v d * d := Nat.mul_le_mul_right d (by omega)
    omega

/-- A code of 16 or more decodes to its significand scaled by its exponent (R75, R76). -/
theorem decodeCode_packCode {e m : Nat} (he : 1 ≤ e) (h1 : 16 ≤ m) (h2 : m ≤ 32) (hs : e + m / 32 ≤ 12) :
    decodeCode (packCode e m) = m * 2 ^ (e - 1) := by
  have decode (e m : Nat) (he : 1 ≤ e) (h1 : 16 ≤ m) (h2 : m < 32) : decodeCode (16 * e + (m - 16)) = m * 2 ^ (e - 1) := by
    have exponent : (16 * e + (m - 16)) / 16 = e := by omega
    have significand : 16 + (16 * e + (m - 16)) % 16 = m := by omega
    rw [decodeCode, if_neg (by omega), exponent, significand]
  unfold packCode
  by_cases carry : m = 32
  · subst carry
    have power : 2 ^ e = 2 ^ (e - 1) * 2 := by rw [← Nat.pow_succ]; congr 1; omega
    simp only [if_true]
    rw [if_neg (by omega), decode (e + 1) 16 (by omega) (by decide) (by decide), Nat.add_sub_cancel, power]
    omega
  · simp only [carry, if_false]
    rw [if_neg (by omega), decode e m he h1 (by omega)]

theorem packCode_le (e m : Nat) (h : m ≤ 32) : packCode e m ≤ 0xCF := by
  unfold packCode
  simp only
  split_ifs <;> omega

theorem log2_step {v : Nat} (h : 16 ≤ v) : 4 ≤ Nat.log2 v ∧ 16 * 2 ^ (Nat.log2 v - 4) ≤ v ∧ v < 32 * 2 ^ (Nat.log2 v - 4) := by
  have nonzero : v ≠ 0 := by omega
  have four : 4 ≤ Nat.log2 v := (Nat.le_log2 nonzero).mpr h
  have low : 2 ^ Nat.log2 v ≤ v := Nat.log2_self_le nonzero
  have high : v < 2 ^ (Nat.log2 v + 1) := Nat.lt_log2_self
  have power : 2 ^ Nat.log2 v = 16 * 2 ^ (Nat.log2 v - 4) := by
    rw [show (16 : Nat) = 2 ^ 4 from rfl, ← Nat.pow_add]
    congr 1
    omega
  rw [Nat.pow_succ] at high
  omega

/-- What the compact code of a value decodes to (R75 to R77). -/
theorem compactCode_spec {v : Nat} (hv : v < 64512) (h : 16 ≤ v) :
    decodeCode (compactCode v) = roundEven v (2 ^ (Nat.log2 v - 4)) * 2 ^ (Nat.log2 v - 4) := by
  obtain ⟨four, low, high⟩ := log2_step h
  have pos : 0 < 2 ^ (Nat.log2 v - 4) := Nat.two_pow_pos _
  obtain ⟨m1, m2⟩ := roundEven_range pos low high
  have sixteen : Nat.log2 v < 16 := (Nat.log2_lt (by omega)).mpr (by omega)
  have fits : Nat.log2 v - 3 + roundEven v (2 ^ (Nat.log2 v - 4)) / 32 ≤ 12 := by
    by_contra beyond
    have top : Nat.log2 v = 15 := by omega
    have full : roundEven v (2 ^ (Nat.log2 v - 4)) = 32 := by omega
    obtain ⟨-, far, -⟩ := roundEven_spec v pos
    rw [full, top] at far
    norm_num at far
    omega
  rw [compactCode, if_neg (by omega), decodeCode_packCode (by omega) m1 m2 fits, show Nat.log2 v - 3 - 1 = Nat.log2 v - 4 by omega]

theorem compactCode_small {v : Nat} (h : v ≤ 31) : decodeCode (compactCode v) = v := by
  by_cases low : v < 16
  · rw [compactCode, if_pos low, decodeCode, if_pos low]
  · obtain ⟨four, -, -⟩ := log2_step (v := v) (by omega)
    have top : Nat.log2 v < 5 := (Nat.log2_lt (by omega)).mpr (by omega)
    have scale : Nat.log2 v - 4 = 0 := by omega
    rw [compactCode_spec (by omega) (by omega), scale, Nat.pow_zero, Nat.mul_one]
    simp [roundEven, Nat.mod_one]

theorem compactCode_saturates {v : Nat} (h : 64512 ≤ v) (hv : v ≤ 65535) : compactCode v = 0xCF := by
  have top : Nat.log2 v = 15 := by
    have low : 15 ≤ Nat.log2 v := (Nat.le_log2 (by omega)).mpr (by omega)
    have high : Nat.log2 v < 16 := (Nat.log2_lt (by omega)).mpr (by omega)
    omega
  have full : roundEven v 2048 = 32 := by
    have quotient : v / 2048 = 31 := by omega
    have rest : ¬2 * (v % 2048) < 2048 := by omega
    unfold roundEven
    simp only [quotient, rest, if_false]
    split <;> rfl
  rw [compactCode, if_neg (by omega), top]
  show packCode 12 (roundEven v 2048) = 0xCF
  rw [full]
  rfl

/-! ### A list entry (R63 to R65) -/

theorem State.captureCodes_get {i : Slot} {c : AdoptedCopy} {pr : Profile} (hc : s.adoptedCopy (s.owner i) = some c)
    (hp : s.adoptedProfile i = some pr) (j : Fin 8) (n : Fin 32) (hn : n.val = 8 * pr.list.val + j.val) :
    (s.captureCodes i)[j] = s.entryCode (s.owner i) c.lists[n] := by
  have entry : c.lists.getD (8 * pr.list.val + j.val) 0xFF = c.lists[n] := by
    rw [← hn]
    simp only [Vector.getD, Array.getD]
    rw [dif_pos (by simp)]
    rfl
  rw [← entry, State.captureCodes, hc, hp]
  simp

/-- An entry below 32 names a channel of the port's own page or of the other's (R64). -/
theorem State.entryCode_channel {p owner : Port} {entry : Byte} {c : Fin 16}
    (h : (entry.toNat = c.val ∧ owner = p) ∨ (entry.toNat = 16 + c.val ∧ owner = p.other)) :
    s.entryCode p entry = s.channelCode owner c := by
  have channel := c.isLt
  rcases h with ⟨h, rfl⟩ | ⟨h, rfl⟩
  · have same : Fin.ofNat 16 entry.toNat = c := Fin.ext ((Nat.mod_eq_of_lt (by omega)).trans h)
    rw [State.entryCode, if_pos (by omega), same]
  · have same : Fin.ofNat 16 (entry.toNat - 16) = c := Fin.ext ((Nat.mod_eq_of_lt (by omega)).trans (by omega))
    rw [State.entryCode, if_neg (by omega), if_pos (by omega), same]

theorem State.channelCode_unwritten {p : Port} {c : Fin 16} (h : (s.port p).channels[c] = none) : s.channelCode p c = 0xFF := by
  rw [State.channelCode, h]

theorem State.channelCode_written {p : Port} {c : Fin 16} {w : Nat} (h : (s.port p).channels[c] = some w) :
    s.channelCode p c = if s.staleLimit p ≠ 0 ∧ s.staleLimit p < s.now - w then 0xFE
      else byteOf (compactCode (s.channelValue p c)) := by
  rw [State.channelCode, h]

/-! ### A frame (11.6) -/

theorem natOf16_context (w : Word) : natOf16 (lowByte w) (highByte w) = w.toNat := by
  have small := w.isLt
  simp only [natOf16, lowByte, highByte, BitVec.toNat_setWidth, BitVec.toNat_ushiftRight, Nat.shiftRight_eq_div_pow]
  omega

theorem frameBytes_codes (f : FrameFields) (j : Fin 8) (k : Fin 19) (h : k.val = 11 + j.val) :
    (frameBytes f)[k] = f.codes[j] := by
  obtain ⟨k, hk⟩ := k
  have place : k = 11 + j.val := h
  subst place
  match j with
  | 0 | 1 | 2 | 3 | 4 | 5 | 6 | 7 => rfl

/-- Settles O25: the code decodes to the rounded value, the entry's code follows its channel, the frame its fields. -/
theorem compactCodeOfAChannel : Obligations.CompactCodeOfAChannel := by
  unfold Obligations.CompactCodeOfAChannel
  refine ⟨fun v hv => ⟨?_, compactCode_small, fun h => compactCode_saturates h hv, fun h1 h2 => ?_⟩,
    fun s i c pr hc hp j n hn => State.captureCodes_get hc hp j n hn, fun f => ?_, fun _ _ _ => rfl, fun s p entry =>
    ⟨fun h => ?_, fun owner c h => ⟨fun hn => (State.entryCode_channel h).trans (State.channelCode_unwritten hn), fun w hw => ?_⟩⟩⟩
  · unfold compactCode
    split
    · omega
    · obtain ⟨-, low, high⟩ := log2_step (v := v) (by omega)
      exact packCode_le _ _ (roundEven_range (Nat.two_pow_pos _) low high).2
  · have pos : 0 < 2 ^ (Nat.log2 v - 4) := Nat.two_pow_pos _
    obtain ⟨near, far, even⟩ := roundEven_spec v pos
    simp only [compactCode_spec h2 (by omega : 16 ≤ v), Nat.mul_div_cancel _ pos]
    exact ⟨near, far, even⟩
  · refine ⟨byteOf_toNat_of_lt (by have := f.slot.isLt; show f.slot.val < 256; omega), ?_, natOf16_bytes16, natOf16_bytes16,
      byteOfInt_toInt, byteOf_toNat_of_lt, rfl, natOf16_context _, frameBytes_codes f⟩
    show byteOf (frameKindCode f.kind) = _
    cases f.kind <;> rfl
  · rw [State.entryCode, if_neg (by omega), if_neg (by omega)]
  · have code := (State.entryCode_channel (s := s) h).trans (State.channelCode_written hw)
    have limit : s.staleLimit owner = (s.adoptedCopy owner).elim 0 fun copy => 50000 * copy.staleCode := by
      unfold State.staleLimit
      cases s.adoptedCopy owner <;> rfl
    rw [limit] at code
    cases hc : s.adoptedCopy owner with
    | none =>
      rw [hc] at code
      exact ⟨fun h0 => absurd rfl h0, fun _ => code⟩
    | some copy =>
      rw [hc] at code
      simp only [Option.elim] at code
      refine ⟨fun h0 h1 => code.trans (if_pos ⟨h0, h1⟩), fun h0 => code.trans (if_neg ?_)⟩
      rintro ⟨h1, h2⟩
      rcases h0 with h0 | h0
      · exact h1 h0
      · exact Nat.not_lt.mpr h0 h2

end Sys2Proof.Machine
end

