-- ==== Sys2Proof/Proofs/ReadingBack.lean ====
section
/-!
PROOFS. Images, retained entries and image bodies read back as they were written (R113, R127, R130, R131, 11.7; O50, O51).
-/

-- Proofs in the order of the text: those that elaborate default tactic arguments at once wait for each other.
set_option Elab.async false

namespace Sys2Proof.Machine

/-! ### Images (R113, R130) -/

theorem sum16_lt (bs : List Byte) : sum16 bs < 65536 := Nat.mod_lt _ (by decide)

theorem length_headerLine (kind : ImageKind) (seq ride : Nat) : (headerLine kind seq ride).length = 8 := rfl

/-- The two header lines of an image. -/
def imageHead (kind : ImageKind) (seq ride : Nat) (body : List Byte) : List Byte :=
  headerLine kind seq ride ++ bytes16 (sum16 (headerLine kind seq ride ++ body)) ++ List.replicate 6 0

theorem length_imageHead (kind : ImageKind) (seq ride : Nat) (body : List Byte) : (imageHead kind seq ride body).length = 16 := rfl

theorem imageBytes_eq (kind : ImageKind) (seq ride : Nat) (body : List Byte) :
    imageBytes kind seq ride body = imageHead kind seq ride body ++ body := rfl

theorem imageKindOf_code (kind : ImageKind) : imageKindOf (byteOf (imageKindCode kind)).toNat = some kind := by
  cases kind <;> rfl

theorem imageLines_byte (kind : ImageKind) : (byteOf (imageLines kind)).toNat = imageLines kind := by cases kind <;> rfl

/-- An image's bytes, followed by anything, parse into it (R130). -/
theorem parseImage_imageBytes (kind : ImageKind) {seq ride : Nat} (body rest : List Byte) (k : Fin 16) (line : Nat)
    (hs : seq < 4294967296) (hr : ride < 65536) (hb : body.length + 16 = 8 * imageLines kind)
    (hl : line + imageLines kind ≤ 255) : parseImage k line (imageBytes kind seq ride body ++ rest) =
      some { sector := k, line := line, kind := kind, seq := seq, ride := ride, valid := true, body := body } := by
  let bs := imageBytes kind seq ride body ++ rest
  have whole : bs.take (8 * imageLines kind) = imageBytes kind seq ride body :=
    List.take_left' (by rw [imageBytes_eq, List.length_append, length_imageHead]; omega)
  have tail : (bs.take (8 * imageLines kind)).drop 16 = body := by
    rw [whole, imageBytes_eq]
    exact List.drop_left' (length_imageHead kind seq ride body)
  have header : bs.take 8 = headerLine kind seq ride := by
    have split : bs = headerLine kind seq ride ++
        (bytes16 (sum16 (headerLine kind seq ride ++ body)) ++ List.replicate 6 0 ++ body ++ rest) := by
      simp only [bs, imageBytes, List.append_assoc]
    rw [split]
    exact List.take_left' (length_headerLine kind seq ride)
  have kindByte : byteAt bs 0 = byteOf (imageKindCode kind) := rfl
  have lengthByte : byteAt bs 1 = byteOf (imageLines kind) := rfl
  have sequence : natOf32 (byteAt bs 2) (byteAt bs 3) (byteAt bs 4) (byteAt bs 5) = seq := natOf32_bytes32 hs
  have number : natOf16 (byteAt bs 6) (byteAt bs 7) = ride := natOf16_bytes16 hr
  have check : natOf16 (byteAt bs 8) (byteAt bs 9) = sum16 (headerLine kind seq ride ++ body) := natOf16_bytes16 (sum16_lt _)
  have mark : byteAt bs 10 = 0x00 := rfl
  show parseImage k line bs = _
  rw [parseImage, kindByte, imageKindOf_code]
  simp only
  rw [if_pos ⟨by rw [lengthByte, imageLines_byte], hl⟩, sequence, number, check, mark, header, tail]
  simp

/-! ### Retained entries (R127) -/

theorem slotOfByte_byteOf (i : Slot) : slotOfByte (byteOf i.val) = some i := by
  have small := i.isLt
  have value : (byteOf i.val).toNat = i.val := byteOf_toNat_of_lt (by omega)
  rw [slotOfByte, dif_pos (by rw [value]; exact small)]
  exact congrArg some (Fin.ext value)

theorem retainedPosOf_entry (it : RetainedItem) : retainedPosOf (retainedEntryBytes it) = .valid it.slot := by
  have slot : byteAt (retainedEntryBytes it) 0 = byteOf it.slot.val := rfl
  have head : (retainedEntryBytes it).take 56 = retainedHead it := by
    rw [retainedEntryBytes_eq, List.append_assoc]
    exact List.take_left' (length_retainedHead it)
  have after (i : Nat) : byteAt (retainedEntryBytes it) (56 + i) =
      byteAt (bytes16 (sum16 (retainedHead it)) ++ List.replicate 6 0) i := by
    rw [retainedEntryBytes_eq, List.append_assoc, byteAt_append, length_retainedHead, if_neg (by omega),
      Nat.add_sub_cancel_left]
  have check : natOf16 (byteAt (retainedEntryBytes it) 56) (byteAt (retainedEntryBytes it) 57) = sum16 (retainedHead it) := by
    rw [after 0, after 1]
    exact natOf16_bytes16 (sum16_lt _)
  have mark : byteAt (retainedEntryBytes it) 58 = 0x00 := after 2
  have written : ¬allBlank (retainedEntryBytes it) = true := by
    rw [allBlank_iff]
    intro all
    have first := all 0 (by rw [length_retainedEntryBytes]; decide)
    have value : (byteOf it.slot.val).toNat = it.slot.val := byteOf_toNat_of_lt (by omega)
    rw [slot] at first
    rw [first] at value
    have small := it.slot.isLt
    have : (0xFF : Byte).toNat = 255 := rfl
    omega
  rw [retainedPosOf, if_neg written, if_pos ⟨mark, by rw [check, head]⟩, slot, slotOfByte_byteOf]

/-- Settles O50: an image parses into itself, a retained entry into its position. -/
theorem imagesAndRetainedEntriesReadBack : Obligations.ImagesAndRetainedEntriesReadBack := by
  unfold Obligations.ImagesAndRetainedEntriesReadBack
  refine ⟨fun kind seq ride body rest k line hs hr hb hl => parseImage_imageBytes kind body rest k line hs hr hb hl,
    fun it => ⟨length_retainedEntryBytes it, retainedPosOf_entry it, ?_⟩⟩
  have front : retainedEntryBytes it = ([byteOf it.slot.val] ++ bytes16 it.ride ++
      [byteOf it.occurrence, byteOf (flagBit it.frame.isSome 0)] ++ frameCopy it.frame) ++
      (List.replicate 32 0 ++ bytes16 (sum16 (retainedHead it)) ++ List.replicate 6 0) := by
    rw [retainedEntryBytes_eq, retainedHead]
    simp only [List.append_assoc]
  rw [front, List.take_left' (by rw [List.length_append, length_frameCopy]; rfl)]
  cases it.frame <;> rfl

/-! ### Record bodies (R113, R131, R132) -/

theorem qstateOf_code (st : QState) : qstateOf (byteOf (qstateCode st)).toNat = st := by cases st <;> rfl

/-- The flags of a record's third byte (11.5). -/
def recordByte (r : Record) : Nat := r.cls.val + flagBit r.first.isSome 2 + flagBit r.latest.isSome 3

theorem recordByte_flags (r : Record) : Fin.ofNat 4 (byteOf (recordByte r)).toNat = r.cls ∧
    (byteOf (recordByte r)).getLsbD 2 = r.first.isSome ∧ (byteOf (recordByte r)).getLsbD 3 = r.latest.isSome := by
  obtain ⟨cls, first, latest, -⟩ := recordFlags_bits r.cls r.first.isSome r.latest.isSome false false
  exact ⟨Fin.ext cls, first, latest⟩

theorem frameAt_eq (body : List Byte) (o : Nat) (f : Frame) (h : ∀ i : Fin 19, byteAt body (o + i.val) = f[i]) :
    frameAt body o = f := by
  refine Vector.ext fun i hi => ?_
  rw [frameAt, Vector.getElem_ofFn]
  exact h ⟨i, hi⟩

theorem byteAt_frameCopy (f : Frame) (i : Fin 19) : byteAt (frameCopy (some f)) i.val = f[i] := by
  have len : (frameCopy (some f)).length = 19 := length_frameCopy _
  rw [byteAt_of_lt (by rw [len]; exact i.isLt)]
  simp [frameCopy]

section

variable (r : Record) (frames : Vector Frame 64)

theorem length_recordBody : (recordBody r frames).length = 56 := by
  simp only [recordBody, List.length_append, length_recordBytes, length_frameCopy]
  rfl

/-- The first 16 bytes of a RECORD body are the record's. -/
theorem recordBody_head {k : Nat} (h : k < 16) : byteAt (recordBody r frames) k = byteAt (recordBytes r false false 0 0) k := by
  rw [recordBody, List.append_assoc, List.append_assoc, byteAt_append, length_recordBytes, if_pos h]

theorem recordBody_first (i : Fin 19) : byteAt (recordBody r frames) (16 + i.val) =
    byteAt (frameCopy (r.first.map (fun f => frames[f]))) i.val := by
  rw [recordBody, List.append_assoc, List.append_assoc, byteAt_append, length_recordBytes, if_neg (by omega),
    Nat.add_sub_cancel_left, byteAt_append, length_frameCopy, if_pos i.isLt]

theorem recordBody_latest (i : Fin 19) : byteAt (recordBody r frames) (35 + i.val) =
    byteAt (frameCopy (r.latest.map (fun f => frames[f]))) i.val := by
  rw [recordBody, List.append_assoc, byteAt_append, List.length_append, length_recordBytes, length_frameCopy, if_neg (by omega),
    Nat.add_sub_cancel_left, byteAt_append, length_frameCopy, if_pos i.isLt]

/-- A frame copy of a body gives the frame back, if one stands. -/
theorem frameCopy_reads {body : List Byte} {o : Nat} {x : Option Frame} {b : Bool} (hb : b = x.isSome)
    (h : ∀ i : Fin 19, byteAt body (o + i.val) = byteAt (frameCopy x) i.val) :
    (if b then some (frameAt body o) else none) = x := by
  cases x with
  | none => rw [hb]; rfl
  | some f =>
    rw [hb]
    exact congrArg some (frameAt_eq body o f fun i => (h i).trans (byteAt_frameCopy f i))

theorem rebuiltFrom_recordBody (ho : r.occurrence < 256) (h1 : r.onset < 65536) (h2 : r.firstConf < 65536)
    (h3 : r.latestConf < 65536) (h4 : r.activity < 65536) (h5 : r.fade < 16) (h6 : r.forget < 256) :
    rebuiltFrom r.slot (recordBody r frames) = {
      record := { r with first := none, latest := none, persisted := true, dirty := false, urgent := false }
      first := r.first.map (fun f => frames[f]), latest := r.latest.map (fun f => frames[f]) } := by
  have head (k : Nat) (h : k < 16) := recordBody_head r frames h
  obtain ⟨cls, first, latest⟩ := recordByte_flags r
  have flags : byteAt (recordBody r frames) 2 = byteOf (recordByte r) := head 2 (by decide)
  have state : qstateOf (byteAt (recordBody r frames) 1).toNat = r.state := by
    rw [head 1 (by decide)]
    exact qstateOf_code r.state
  have occurrence : (byteAt (recordBody r frames) 3).toNat = r.occurrence := by
    rw [head 3 (by decide)]
    exact byteOf_toNat_of_lt ho
  have onset : natOf16 (byteAt (recordBody r frames) 4) (byteAt (recordBody r frames) 5) = r.onset := by
    rw [head 4 (by decide), head 5 (by decide)]
    exact natOf16_bytes16 h1
  have firstConf : natOf16 (byteAt (recordBody r frames) 6) (byteAt (recordBody r frames) 7) = r.firstConf := by
    rw [head 6 (by decide), head 7 (by decide)]
    exact natOf16_bytes16 h2
  have latestConf : natOf16 (byteAt (recordBody r frames) 8) (byteAt (recordBody r frames) 9) = r.latestConf := by
    rw [head 8 (by decide), head 9 (by decide)]
    exact natOf16_bytes16 h3
  have activity : natOf16 (byteAt (recordBody r frames) 10) (byteAt (recordBody r frames) 11) = r.activity := by
    rw [head 10 (by decide), head 11 (by decide)]
    exact natOf16_bytes16 h4
  have fade : (byteAt (recordBody r frames) 12).toNat % 16 = r.fade := by
    have value : (byteOf r.fade).toNat = r.fade := byteOf_toNat_of_lt (by omega)
    rw [head 12 (by decide)]
    show (byteOf r.fade).toNat % 16 = r.fade
    omega
  have forget : (byteAt (recordBody r frames) 13).toNat = r.forget := by
    rw [head 13 (by decide)]
    exact byteOf_toNat_of_lt h6
  have copies := And.intro (frameCopy_reads (b := r.first.isSome) (by simp) (recordBody_first r frames))
    (frameCopy_reads (b := r.latest.isSome) (by simp) (recordBody_latest r frames))
  simp only [rebuiltFrom, flags, cls, first, latest, state, occurrence, onset, firstConf, latestConf, activity, fade, forget,
    copies.1, copies.2]

end

/-! ### Qualifier bodies (R113, R131) -/

theorem qualifierBody_eq (qs : Vector Qualifier 192) : qualifierBody qs = (List.finRange 192).flatMap (fun i =>
    [byteOfInt qs[i].m, byteOf (qstateCode qs[i].state + 16 * qs[i].fade), byteOf qs[i].forget, 0]) := by
  have list : qs.toList = (List.finRange 192).map (fun i => qs[i]) := by
    refine List.ext_getElem (by simp) fun n h1 h2 => ?_
    simp
  rw [qualifierBody, list, List.flatMap_map]

theorem length_qualifierBody (qs : Vector Qualifier 192) : (qualifierBody qs).length = 768 := by
  rw [qualifierBody_eq, List.length_flatMap]
  simp only [List.length_cons, List.length_nil, Nat.zero_add, Nat.reduceAdd, List.map_const', List.length_finRange,
    List.sum_replicate, smul_eq_mul, Nat.reduceMul]

theorem qualifierFrom_body (qs : Vector Qualifier 192) {im : Image} (i : Slot) (h : im.body = qualifierBody qs)
    (h1 : -128 ≤ qs[i].m) (h2 : qs[i].m ≤ 127) (h3 : qs[i].fade < 16) (h4 : qs[i].forget < 256) :
    qualifierFrom (some im) i.val =
      { qs[i] with unrecorded := false, tested := false, failed := false, passedMature := false } := by
  have entry (k : Nat) (hk : k < 4) : byteAt im.body (4 * i.val + k) =
      byteAt [byteOfInt qs[i].m, byteOf (qstateCode qs[i].state + 16 * qs[i].fade), byteOf qs[i].forget, 0] k := by
    rw [h, qualifierBody_eq]
    exact byteAt_flatMap_finRange (n := 4) (fun i : Slot => [byteOfInt qs[i].m, byteOf (qstateCode qs[i].state + 16 * qs[i].fade),
      byteOf qs[i].forget, 0]) (fun _ => rfl) i k hk
  have code : qstateCode qs[i].state < 8 := by cases qs[i].state <;> decide
  have value : (byteOf (qstateCode qs[i].state + 16 * qs[i].fade)).toNat = qstateCode qs[i].state + 16 * qs[i].fade :=
    byteOf_toNat_of_lt (by omega)
  have m : (byteAt im.body (4 * i.val)).toInt = qs[i].m := (congrArg BitVec.toInt (entry 0 (by decide))).trans (byteOfInt_toInt h1 h2)
  have second : (byteAt im.body (4 * i.val + 1)).toNat = qstateCode qs[i].state + 16 * qs[i].fade :=
    (congrArg BitVec.toNat (entry 1 (by decide))).trans value
  have forget : (byteAt im.body (4 * i.val + 2)).toNat = qs[i].forget :=
    (congrArg BitVec.toNat (entry 2 (by decide))).trans (byteOf_toNat_of_lt h4)
  have state : qstateOf ((qstateCode qs[i].state + 16 * qs[i].fade) % 8) = qs[i].state := by
    have low : (qstateCode qs[i].state + 16 * qs[i].fade) % 8 = qstateCode qs[i].state := by omega
    rw [low]
    cases qs[i].state <;> rfl
  have fade : (qstateCode qs[i].state + 16 * qs[i].fade) / 16 = qs[i].fade := by omega
  simp only [qualifierFrom, m, second, forget, state, fade, Qualifier.reset]

/-- Settles O51: RECORD and QUALIFIER bodies give back what they were written from. -/
theorem imageBodiesReadBack : Obligations.ImageBodiesReadBack := by
  unfold Obligations.ImageBodiesReadBack
  refine ⟨fun r frames ho h1 h2 h3 h4 h5 h6 => ?_, fun qs im i h h1 h2 h3 h4 =>
    ⟨by rw [h, length_qualifierBody], qualifierFrom_body qs i h h1 h2 h3 h4⟩⟩
  have back := rebuiltFrom_recordBody r frames ho h1 h2 h3 h4 h5 h6
  simp only [back, and_self, and_true]
  exact ⟨length_recordBody r frames, (recordBody_head r frames (by decide)).trans rfl⟩

end Sys2Proof.Machine
end

