-- ==== Sys2Proof/Proofs/Telling.lean ====
section
/-!
PROOFS. How many trail entries the engine appends at one visit, so that an entry told before them stands after them (R165, R166).
-/

-- Proofs in the order of the text: those that elaborate default tactic arguments at once wait for each other.
set_option Elab.async false

namespace Sys2Proof.Machine

variable {s t u v : State} {p : Port} {i : Slot}

/-- From `s` to `t` at most `n` entries are appended, and an entry they do not reach stands (R165, R166). -/
structure State.Tells (n : Nat) (s t : State) : Prop where
  canonical : s.MemoriesCanonical → t.MemoriesCanonical
  entries : ∃ m ≤ n, t.pub.writeCount = s.pub.writeCount + BitVec.ofNat 16 m ∧ (s.MemoriesCanonical → ∀ w bytes,
    (∀ j < m, w.toNat % 64 ≠ (s.pub.writeCount.toNat + j) % 64) → s.TrailEntry w bytes → t.TrailEntry w bytes)

theorem Effect.tells {l : List Field} (h : Effect l [] s t) (hf : ∀ f ∈ [Field.ram, .trail], f ∉ l := by decide) :
    State.Tells 0 s t where
  canonical := h.keeps .memories (by decide)
  entries := ⟨0, Nat.le_refl 0, (h.trail (hf _ (by decide))).1.trans (BitVec.add_zero _).symm,
    fun _ _ _ _ he => he.of_ram (h.ram (hf _ (by decide)))⟩

theorem State.Tells.trans {m n : Nat} (h : State.Tells m s u) (h' : State.Tells n u t) : State.Tells (m + n) s t where
  canonical := h'.canonical ∘ h.canonical
  entries := by
    obtain ⟨a, ha, count, kept⟩ := h.entries
    obtain ⟨b, hb, count', kept'⟩ := h'.entries
    refine ⟨a + b, by omega, by rw [count', count, BitVec.add_assoc, BitVec.ofNat_add], fun hc w bytes hw he =>
      kept' (h.canonical hc) w bytes (fun j hj => ?_) (kept hc w bytes (fun j hj => hw j (by omega)) he)⟩
    have far := hw (a + j) (by omega)
    rw [count, BitVec.toNat_add, BitVec.toNat_ofNat]
    omega

theorem State.Tells.le {m n : Nat} (h : State.Tells m s t) (hn : m ≤ n) : State.Tells n s t where
  canonical := h.canonical
  entries := by
    obtain ⟨a, ha, rest⟩ := h.entries
    exact ⟨a, ha.trans hn, rest⟩

theorem State.append_tells (k : TrailKind) (a b c : Byte) : State.Tells 1 s (s.append k a b c) where
  canonical := (s.append_effect k a b c).keeps .memories (by decide)
  entries := ⟨1, Nat.le_refl 1, (s.append_publisher k a b c).1, fun hc w bytes hw he =>
    State.TrailEntry.append hc he (hw 0 Nat.zero_lt_one) k a b c⟩

/-- The entry a visit tells first stands after at most 63 further ones. -/
theorem State.Tells.keeps_last {n : Nat} (h : State.Tells n s t) (hn : n < 64) (hc : s.MemoriesCanonical) {w : Word}
    {bytes : List Byte} (hw : s.pub.writeCount = w + 1) (he : s.TrailEntry w bytes) : t.TrailEntry w bytes := by
  obtain ⟨m, hm, -, kept⟩ := h.entries
  refine kept hc w bytes (fun j hj => ?_) he
  have one : (1 : Word).toNat = 1 := rfl
  rw [hw, BitVec.toNat_add, one]
  omega

/-! ### The record table and the snapshot unit -/

theorem State.evict_tells (e : Fin 48) (r : Record) : State.Tells 1 s (s.evict e r) := by
  rw [State.evict_eq]
  exact (((s.outranked_effect r).tells).trans (State.append_tells _ _ _ _)).trans
    (State.emptyEntry_effect _ e).tells

theorem State.decline_tells (i : Slot) (st : QState) : State.Tells 1 s (s.decline i st) := by
  rw [State.decline_eq]
  exact (((s.turnedAway_effect i).tells).trans (State.append_tells _ _ _ _)).trans (State.markView_effect _).tells

theorem State.requestRecord_tells (i : Slot) (st : QState) : State.Tells 1 s (s.requestRecord i st) := by
  unfold State.requestRecord
  split
  · exact ((s.allocate_effect _ i st).tells).le (Nat.zero_le 1)
  · split
    · split
      · exact (s.evict_tells _ _).trans (State.allocate_effect _ _ i st).tells
      · exact s.decline_tells i st
    · exact s.decline_tells i st

theorem State.announce_tells (i : Slot) (k : TrailKind) (d : Byte) (old new : QState) :
    State.Tells 1 s (s.announce i k d old new) := by
  have rest : Effect [.counts, .lamp, .dirty] [] (s.appendSlot k i d new) (s.announce i k d old new) :=
    (State.handDemand_effect _ _ _ _).step (State.markView_effect _)
  exact (State.append_tells k (byteOf i.val) d _).trans rest.tells

/-! ### The transitions -/

theorem State.toPending_tells (r : Report) : State.Tells 2 s (s.toPending r) :=
  (((s.enter_effect r.slot .pending).tells.trans (State.requestRecord_tells r.slot .pending)).trans
    (State.capture_effect _ r .first).tells).trans (State.announce_tells _ _ _ _ _)

theorem State.confirmRecord_tells (r : Report) (change : Record → Record) : State.Tells 1 s (s.confirmRecord r change) := by
  unfold State.confirmRecord
  split
  · exact (((s.notice_effect _ _ .byClass).tells).trans (State.capture_effect _ r .latest).tells).le (by decide)
  · exact ((s.requestRecord_tells r.slot .confirmed).trans (State.capture_effect _ r .first).tells).trans
      (State.capture_effect _ r .latest).tells

theorem State.toConfirmed_tells (r : Report) : State.Tells 2 s (s.toConfirmed r) := by
  let v := (s.enter r.slot .confirmed).confirmRecord r (confirmNotice s.ride.number)
  have sv : State.Tells 1 s v := ((s.enter_effect r.slot .confirmed).tells).trans (State.confirmRecord_tells r _)
  unfold State.toConfirmed
  simp only
  split
  · exact (sv.trans (v.requestRetained_effect r.slot 1 _).tells).trans (State.announce_tells _ _ _ _ _)
  · exact sv.trans (State.announce_tells _ _ _ _ _)

theorem State.dropPending_tells (r : Report) : State.Tells 1 s (s.dropPending r) := by
  let v := (s.enter r.slot .idle).setQual r.slot { (s.enter r.slot .idle).quals[r.slot] with unrecorded := false }
  have sv : State.Tells 0 s v := ((s.enter_effect r.slot .idle).tells).trans (State.setUnrecorded_effect _ r.slot false).tells
  unfold State.dropPending
  simp only
  refine State.Tells.trans (m := 0) ?_ (State.announce_tells _ _ _ _ _)
  split
  · exact sv.trans (State.freeRecord_effect _ _ _ false).tells
  · exact sv

theorem State.toFading_tells (r : Report) : State.Tells 1 s (s.toFading r) := by
  have sv : State.Tells 0 s (s.enter r.slot .fading) := (s.enter_effect r.slot .fading).tells
  unfold State.toFading
  simp only
  refine State.Tells.trans (m := 0) ?_ (State.announce_tells _ _ _ _ _)
  split
  · exact sv.trans (State.notice_effect _ _ _ .ordinary).tells
  · exact sv

theorem State.recur_tells (r : Report) (old : QState) : State.Tells 2 s (s.recur r old) :=
  (((s.enter_effect r.slot .confirmed).tells).trans (State.confirmRecord_tells r _)).trans (State.announce_tells _ _ _ _ _)

theorem State.judge_tells (r : Report) : State.Tells 2 s (s.judge r) := by
  have stays : State.Tells 2 s s := ((Effect.refl (l := []) (b := []) s).tells).le (Nat.zero_le 2)
  unfold State.judge
  simp only
  split
  · split
    · exact s.toPending_tells r
    · exact stays
  · split
    · exact s.toConfirmed_tells r
    · split
      · exact (s.dropPending_tells r).le (by decide)
      · exact stays
  · split
    · exact (s.toFading_tells r).le (by decide)
    · exact stays
  · split
    · exact s.recur_tells r .fading
    · exact stays
  · split
    · exact s.recur_tells r .historic
    · exact stays

theorem State.applyReport_tells (r : Report) : State.Tells 4 s (s.applyReport r) := by
  unfold State.applyReport
  split
  · exact ((Effect.refl (l := []) (b := []) s).tells).le (Nat.zero_le 4)
  · next pr _ =>
    have marked : Effect [.quals, .dirty] [] s ((s.setQual r.slot (matured pr r s.quals[r.slot])).markViewIf
        (decide ((matured pr r s.quals[r.slot]).tested ≠ s.quals[r.slot].tested) ||
          decide ((matured pr r s.quals[r.slot]).failed ≠ s.quals[r.slot].failed) ||
          (decide ((matured pr r s.quals[r.slot]).m ≠ s.quals[r.slot].m) && (s.recordOf r.slot).isSome))) :=
      (Effect.setQual s r.slot _ fun h => h.matured pr r).seq (State.markViewIf_effect _ _)
    exact (marked.tells.trans (State.judge_tells r)).trans (State.judge_tells r)

end Sys2Proof.Machine
end

