-- ==== Sys2Proof/Proofs/Accepting.lean ====
section
/-!
PROOFS. A matching sample (R12, R13, R16): the tallies come forward, the bar is lifted, the pass goes on (O19).
-/

-- Proofs in the order of the text: those that elaborate default tactic arguments at once wait for each other.
set_option Elab.async false

namespace Sys2Proof.Machine

variable {s t u v : State} {p : Port} {i : Slot}

/-- The tallies brought forward, before the bar is looked at. -/
def State.tallied (i : Slot) (x : Sample) (s : State) : State :=
  s.setSlot i { s.slots[i] with seenFail := x.fail, seenPass := x.pass, held := 0, touched := false }

theorem State.tallied_get (i : Slot) (x : Sample) : (s.tallied i x).slots[i] =
    { s.slots[i] with seenFail := x.fail, seenPass := x.pass, held := 0, touched := false } := by
  simp [State.tallied, State.setSlot]

/-- With no bar to lift, nothing is told (R13). -/
theorem State.bringForward_unbarred (x : Sample) (h : s.slots[i].barred = false) : s.bringForward i x = s.tallied i x := by
  have off : ¬(s.tallied i x).slots[i].barred = true := by
    rw [State.tallied_get]
    simpa using h
  show (s.tallied i x).liftBar i = _
  rw [State.liftBar, if_neg off]

theorem State.appendSlot_markView_told (hc : s.MemoriesCanonical) (k : TrailKind) (i : Slot) (d : Byte) (st : QState) :
    ((s.appendSlot k i d st).markView).TrailEntry s.pub.writeCount
      (trailBytes s.ride.number s.ride.time (byteOf i.val) k d (byteOf (qstateCode st))) ∧
    ((s.appendSlot k i d st).markView).pub.writeCount = s.pub.writeCount + 1 := by
  have after : Effect [.dirty] [] (s.appendSlot k i d st) (s.appendSlot k i d st).markView := State.markView_effect _
  refine ⟨(State.append_trailEntry hc k (byteOf i.val) d (byteOf (qstateCode st))).of_ram after.ram, ?_⟩
  rw [after.trail.1]
  exact (s.append_publisher k (byteOf i.val) d (byteOf (qstateCode st))).1

/-- A bar that is lifted is told (R13). -/
theorem State.bringForward_told (x : Sample) (h : s.slots[i].barred = true) (hc : s.MemoriesCanonical) :
    (s.bringForward i x).TrailEntry s.pub.writeCount (trailBytes s.ride.number s.ride.time (byteOf i.val) .barLifted
      (byteOfInt s.quals[i].m) (byteOf (qstateCode s.quals[i].state))) ∧
    (s.bringForward i x).pub.writeCount = s.pub.writeCount + 1 := by
  let v := (s.tallied i x).setSlot i { (s.tallied i x).slots[i] with barred := false }
  have on : (s.tallied i x).slots[i].barred = true := by
    rw [State.tallied_get]
    exact h
  have told : s.bringForward i x =
      (v.appendSlot .barLifted i (byteOfInt v.quals[i].m) v.quals[i].state).markView := if_pos on
  rw [told]
  exact State.appendSlot_markView_told (s := v) (hc.of_same rfl rfl) .barLifted i (byteOfInt v.quals[i].m) v.quals[i].state

theorem State.acceptSample_tells (x : Sample) : State.Tells 4 (s.bringForward i x) (s.acceptSample i x) := by
  rw [State.acceptSample_eq]
  split
  · exact ((Effect.refl (l := []) (b := []) _).tells).le (Nat.zero_le 4)
  · exact State.applyReport_tells _

/-- A visit of an enabled slot whose check matches (R6, R9, R12). -/
theorem execSlotVisit_match {pos : Nat} (hr : s.inReset = false) (hp : (s.port p).passPos = some pos)
    (hi : s.nextTouched p pos = some i) (hen : s.enabled i = true)
    (hm : expectedCheck (s.checkInverted p) (s.sample i) = (s.sample i).check) :
    exec (.slotVisit p) s = .next ((s.acceptSample i (s.sample i)).passFrom p (i.val + 1)) := by
  obtain ⟨ho, -, -, -⟩ := (State.nextTouched_eq_some p pos i).mp hi
  rw [execSlotVisit_eq hr hp hi, State.visit_match hen ho hm]

theorem State.acceptSample_slots (i : Slot) (x : Sample) : (s.acceptSample i x).slots = s.slots.set i (acceptedEngine x) := by
  rw [State.acceptSample_eq]
  split
  · exact State.bringForward_slots s i x
  · exact (State.applyReport_effect _ _).slots.trans (State.bringForward_slots s i x)

/-- Settles O19: the tallies brought forward, the bar lifted, and the pass that goes on. -/
theorem matchingSampleIsAccepted : Obligations.MatchingSampleIsAccepted := by
  unfold Obligations.MatchingSampleIsAccepted
  intro p pos i s hr hc hp hi hen hm
  let x := s.sample i
  let u := s.acceptSample i x
  have su : Effect (.slots :: engineFields) [] s u := s.acceptSample_effect i x
  have ut : Effect [.passes] [] u (u.passFrom p (i.val + 1)) := u.passFrom_effect p (i.val + 1)
  have st : Effect (.slots :: .passes :: engineFields) [] s (u.passFrom p (i.val + 1)) := su.seq ut
  refine ⟨u.passFrom p (i.val + 1), execSlotVisit_match hr hp hi hen hm, ?_, fun hb => ?_, fun band => ?_, ?_, fun q => ?_,
    st.exec, (st.board hc).2, st.ride, st.flash, st.sameWorld⟩
  · exact ut.slots.trans (State.acceptSample_slots i x)
  · obtain ⟨entry, count⟩ := State.bringForward_told x hb hc
    have canonical := (s.bringForward_effect i x).keeps .memories (by decide) hc
    exact ((State.acceptSample_tells x).keeps_last (by decide) canonical count entry).of_ram ut.ram
  · have hu : u = s.bringForward i x := by
      show s.acceptSample i x = _
      rw [State.acceptSample_eq, if_pos band]
    have sf : Effect [.slots, .ram, .trail, .attn, .dirty, .passes] [] s (u.passFrom p (i.val + 1)) := by
      rw [hu]
      exact (s.bringForward_effect i x).step (State.passFrom_effect _ p (i.val + 1))
    refine ⟨sf.sameFaults, sf.sameStore, fun hb => ?_, fun q => ?_⟩
    · have quiet : u = s.tallied i x := hu.trans (State.bringForward_unbarred x hb)
      have sq : Effect [.slots, .passes] [.bar] s (u.passFrom p (i.val + 1)) := by
        rw [quiet]
        exact (s.setSlot_any_effect i _).seq (State.passFrom_effect _ p (i.val + 1))
      exact ⟨sq.pub_eq, sq.ram, fun q => sq.onPort q .attn (by decide)⟩
    · refine sf.port_restored q _ (fun f hf => ?_) (by simp [Field.onPort])
      cases f <;> simp_all [Field.onPort]
  · refine passGoesOn (fun q => su.onPort q .passes (by decide)) (fun j => su.owner (by decide) j) fun j hj => ?_
    rw [State.acceptSample_slots, State.slots_set_get, if_neg (ne_of_lt hj)]
  · refine st.port_restored q _ (fun f hf => ?_) (by simp [Field.onPort])
    cases f <;> simp_all [Field.onPort]

end Sys2Proof.Machine
end

