-- ==== Sys2Proof/Proofs/Judging.lean ====
section
/-!
PROOFS. What a report makes of the qualifiers: the maturity, the ride flags and the state (R23 to R28; O20).
-/

-- Proofs in the order of the text: those that elaborate default tactic arguments at once wait for each other.
set_option Elab.async false

namespace Sys2Proof.Machine

variable {s t u v : State} {p : Port} {i : Slot}

/-! ### Qualifiers up to their unrecorded flag -/

/-- The qualifiers of two states are the same, but for the unrecorded flags (R43, R47, R48). -/
def State.QualsAlike (s t : State) : Prop := ∀ j : Slot, { t.quals[j] with unrecorded := s.quals[j].unrecorded } = s.quals[j]

theorem State.QualsAlike.of_eq (h : t.quals = s.quals) : s.QualsAlike t := fun j => by rw [h]

theorem Effect.qualsAlike {l : List Field} {b : List Law} (h : Effect l b s t) (hf : Field.quals ∉ l := by decide) :
    s.QualsAlike t := .of_eq (h.quals hf)

theorem State.QualsAlike.trans (h : s.QualsAlike u) (h' : u.QualsAlike t) : s.QualsAlike t := fun j => by
  have e := h j
  rw [← h' j] at e
  exact e

theorem State.QualsAlike.of_set {b : Bool} (h : t.quals = s.quals.set i { s.quals[i] with unrecorded := b }) :
    s.QualsAlike t := fun j => by
  rw [h, Slot.get_set]
  split
  · next e => rw [e]
  · rfl

theorem State.requestRecord_qualsAlike (i : Slot) (st : QState) : s.QualsAlike (s.requestRecord i st) := by
  have declined : s.QualsAlike (s.decline i st) := by
    rw [State.decline_eq]
    have told : Effect [.ram, .trail, .attn, .dirty] [] (s.turnedAway i)
        (((s.turnedAway i).appendSlot .declined i (byteOfInt (s.turnedAway i).quals[i].m) st).markView) :=
      (State.appendSlot_effect _ _ _ _ _).step (State.markView_effect _)
    exact (State.QualsAlike.of_set (State.turnedAway_quals i)).trans told.qualsAlike
  unfold State.requestRecord
  split
  · exact .of_set (State.allocate_quals _ i st)
  · split
    · split
      · exact (State.QualsAlike.of_set (State.evict_quals _ _)).trans (.of_set (State.allocate_quals _ i st))
      · exact declined
    · exact declined

theorem State.confirmRecord_qualsAlike (r : Report) (change : Record → Record) : s.QualsAlike (s.confirmRecord r change) := by
  unfold State.confirmRecord
  split
  · exact (State.notice_effect _ _ _ .byClass).qualsAlike.trans (State.capture_effect _ r .latest).qualsAlike
  · exact ((State.requestRecord_qualsAlike r.slot .confirmed).trans (State.capture_effect _ r .first).qualsAlike).trans
      (State.capture_effect _ r .latest).qualsAlike

/-! ### One reading of the table (R28) -/

/-- The state that one reading of the table gives (R28). -/
def judgedState (st : QState) (m : Int) : QState :=
  match st with
  | .idle => if 0 < m then .pending else .idle
  | .pending => if m = 127 then .confirmed else if m = -128 then .idle else .pending
  | .confirmed => if m = -128 then .fading else .confirmed
  | .fading => if m = 127 then .confirmed else .fading
  | .historic => if m = 127 then .confirmed else .historic

/-- The qualifier that one reading of the table leaves: a new state starts its counts afresh (R28, R29). -/
def judgedQual (q : Qualifier) : Qualifier :=
  if judgedState q.state q.m = q.state then q else { q with state := judgedState q.state q.m, fade := 0, forget := 0 }

/-- The table, read twice, is read to its end (R28). -/
theorem judgedState_twice (st : QState) (m : Int) : judgedState (judgedState st m) m = stateAfter st m := by
  cases st with
  | idle =>
    by_cases up : 0 < m
    · simp only [judgedState, stateAfter, if_pos up]
      rw [if_neg (show ¬m = -128 by omega)]
    · simp only [judgedState, stateAfter, if_neg up]
      rw [if_neg (show ¬m = 127 by omega)]
  | pending | confirmed | fading | historic =>
    simp only [judgedState, stateAfter]
    grind

/-- Step 1 of R29. -/
theorem State.enter_quals (i : Slot) (st : QState) :
    (s.enter i st).quals = s.quals.set i { s.quals[i] with state := st, fade := 0, forget := 0 } := rfl

theorem State.toPending_qualsAlike (r : Report) : (s.enter r.slot .pending).QualsAlike (s.toPending r) :=
  ((State.requestRecord_qualsAlike r.slot .pending).trans (State.capture_effect _ r .first).qualsAlike).trans
    (State.announce_effect _ _ _ _ _ _).qualsAlike

theorem State.toConfirmed_qualsAlike (r : Report) : (s.enter r.slot .confirmed).QualsAlike (s.toConfirmed r) := by
  have recorded := (s.enter r.slot .confirmed).confirmRecord_qualsAlike r (confirmNotice s.ride.number)
  unfold State.toConfirmed
  simp only
  split
  · exact (recorded.trans (State.requestRetained_effect _ _ _ _).qualsAlike).trans (State.announce_effect _ _ _ _ _ _).qualsAlike
  · exact recorded.trans (State.announce_effect _ _ _ _ _ _).qualsAlike

theorem State.dropPending_qualsAlike (r : Report) : (s.enter r.slot .idle).QualsAlike (s.dropPending r) := by
  let v := (s.enter r.slot .idle).setQual r.slot { (s.enter r.slot .idle).quals[r.slot] with unrecorded := false }
  have first : (s.enter r.slot .idle).QualsAlike v := .of_set rfl
  unfold State.dropPending
  simp only
  refine (first.trans ?_).trans (State.announce_effect _ _ _ _ _ _).qualsAlike
  split
  · exact (State.freeRecord_effect _ _ _ false).qualsAlike
  · exact .of_eq rfl

theorem State.toFading_qualsAlike (r : Report) : (s.enter r.slot .fading).QualsAlike (s.toFading r) := by
  unfold State.toFading
  simp only
  refine State.QualsAlike.trans ?_ (State.announce_effect _ _ _ _ _ _).qualsAlike
  split
  · exact (State.notice_effect _ _ _ .ordinary).qualsAlike
  · exact .of_eq rfl

theorem State.recur_qualsAlike (r : Report) (old : QState) : (s.enter r.slot .confirmed).QualsAlike (s.recur r old) :=
  (State.confirmRecord_qualsAlike r _).trans (State.announce_effect _ _ _ _ _ _).qualsAlike

/-- One reading of the table leaves the state, or enters the one the table gives (R28, R29). -/
theorem State.judge_qualsAlike (r : Report) :
    (judgedState s.quals[r.slot].state s.quals[r.slot].m = s.quals[r.slot].state ∧ s.judge r = s) ∨
    (judgedState s.quals[r.slot].state s.quals[r.slot].m ≠ s.quals[r.slot].state ∧
      (s.enter r.slot (judgedState s.quals[r.slot].state s.quals[r.slot].m)).QualsAlike (s.judge r)) := by
  unfold State.judge
  simp only
  generalize s.quals[r.slot].m = m
  cases s.quals[r.slot].state with
  | idle =>
    by_cases h : 0 < m
    · simp only [judgedState, h, if_true]
      exact .inr ⟨by decide, State.toPending_qualsAlike r⟩
    · simp [judgedState, h]
  | pending =>
    by_cases h : m = 127
    · simp only [judgedState, h, if_true]
      exact .inr ⟨by decide, State.toConfirmed_qualsAlike r⟩
    · by_cases h' : m = -128
      · simp only [judgedState, h', if_true, show ¬(-128 : Int) = 127 by decide, if_false]
        exact .inr ⟨by decide, State.dropPending_qualsAlike r⟩
      · simp [judgedState, h, h']
  | confirmed =>
    by_cases h : m = -128
    · simp only [judgedState, h, if_true]
      exact .inr ⟨by decide, State.toFading_qualsAlike r⟩
    · simp [judgedState, h]
  | fading =>
    by_cases h : m = 127
    · simp only [judgedState, h, if_true]
      exact .inr ⟨by decide, State.recur_qualsAlike r .fading⟩
    · simp [judgedState, h]
  | historic =>
    by_cases h : m = 127
    · simp only [judgedState, h, if_true]
      exact .inr ⟨by decide, State.recur_qualsAlike r .historic⟩
    · simp [judgedState, h]

theorem State.judge_quals (r : Report) (j : Slot) : { (s.judge r).quals[j] with unrecorded := s.quals[j].unrecorded } =
    if r.slot = j then judgedQual s.quals[j] else s.quals[j] := by
  rcases State.judge_qualsAlike (s := s) r with ⟨same, e⟩ | ⟨moved, alike⟩
  · rw [e, judgedQual]
    split
    · next e => rw [← e, if_pos same]
    · rfl
  · have h := alike j
    rw [State.enter_quals, Slot.get_set] at h
    split
    · next e =>
      subst e
      rw [if_pos rfl] at h
      rw [judgedQual, if_neg moved]
      exact h
    · next e =>
      rw [if_neg e] at h
      exact h

/-- The state and its counts after both readings of the table (R28, R29). -/
theorem judgedQual_twice (q : Qualifier) : judgedQual (judgedQual q) =
    if stateAfter q.state q.m = q.state then q else { q with state := stateAfter q.state q.m, fade := 0, forget := 0 } := by
  obtain ⟨st, m, fade, forget, tested, failed, passed, unrecorded⟩ := q
  cases st <;> simp only [judgedQual, judgedState, stateAfter] <;> split_ifs <;> simp_all

/-- The state the table gives in the end, with its counts: afresh where it changes (R28, R29). -/
theorem judgedQual_twice_state (q : Qualifier) :
    (judgedQual (judgedQual q)).state = stateAfter q.state q.m ∧
    (stateAfter q.state q.m ≠ q.state → (judgedQual (judgedQual q)).fade = 0 ∧ (judgedQual (judgedQual q)).forget = 0) ∧
    (stateAfter q.state q.m = q.state →
      (judgedQual (judgedQual q)).fade = q.fade ∧ (judgedQual (judgedQual q)).forget = q.forget) := by
  rw [judgedQual_twice]
  split
  · next e => exact ⟨e.symm, fun h => absurd e h, fun _ => ⟨rfl, rfl⟩⟩
  · next e => exact ⟨rfl, fun _ => ⟨rfl, rfl⟩, fun h => absurd h e⟩

/-- The table leaves the maturity and the ride flags. -/
theorem judgedQual_twice_flags (q : Qualifier) :
    (judgedQual (judgedQual q)).m = q.m ∧ (judgedQual (judgedQual q)).tested = q.tested ∧
    (judgedQual (judgedQual q)).failed = q.failed ∧ (judgedQual (judgedQual q)).passedMature = q.passedMature := by
  rw [judgedQual_twice]
  split <;> exact ⟨rfl, rfl, rfl, rfl⟩

/-- The table does not look at the unrecorded flag. -/
theorem judgedQual_unrecorded (q : Qualifier) (b : Bool) :
    judgedQual { q with unrecorded := b } = { judgedQual q with unrecorded := b } := by
  unfold judgedQual
  split <;> rfl

/-- The table read twice, as `applyReport` reads it. -/
theorem State.judge_twice_quals (r : Report) (j : Slot) :
    { ((s.judge r).judge r).quals[j] with unrecorded := s.quals[j].unrecorded } =
      if r.slot = j then judgedQual (judgedQual s.quals[j]) else s.quals[j] := by
  have first := State.judge_quals (s := s) r j
  have second := congrArg (fun q : Qualifier => { q with unrecorded := s.quals[j].unrecorded })
    (State.judge_quals (s := s.judge r) r j)
  simp only at second
  rw [second]
  split
  · next e => rw [← judgedQual_unrecorded, first, if_pos e]
  · next e => rw [first, if_neg e]

/-- What a report makes of each qualifier, but for its unrecorded flag (R22 to R29). -/
theorem State.applyReport_quals {r : Report} {pr : Profile} (h : s.adoptedProfile r.slot = some pr) (j : Slot) :
    { (s.applyReport r).quals[j] with unrecorded := s.quals[j].unrecorded } =
      if r.slot = j then judgedQual (judgedQual (matured pr r s.quals[j])) else s.quals[j] := by
  unfold State.applyReport
  rw [h]
  simp only
  generalize hu : (s.setQual r.slot (matured pr r s.quals[r.slot])).markViewIf _ = u
  have moved : u.quals[j] = if r.slot = j then matured pr r s.quals[r.slot] else s.quals[j] := by
    rw [← hu, (State.markViewIf_effect _ _).quals, State.setQual, Slot.get_set]
  have both := State.judge_twice_quals (s := u) r j
  rw [moved] at both
  split at both
  · next e =>
    subst e
    rw [if_pos rfl]
    exact both
  · next e =>
    rw [if_neg e]
    exact both

/-- Settles O20: the four steps of the maturity, the ride flags, and the state of the table. -/
theorem reportMovesMaturityAndState : Obligations.ReportMovesMaturityAndState := by
  unfold Obligations.ReportMovesMaturityAndState
  intro p pos i pr s hr hp hi hpr hen hm hband q band f n up delta start m
  let x := s.sample i
  let r := s.reportOf i x
  let b := s.bringForward i x
  let u := s.acceptSample i x
  have ready : s.enabled i = true := by rw [State.enabled, hpr]; exact hen
  have brought : Effect [.slots, .ram, .trail, .attn, .dirty] [] s b := s.bringForward_effect i x
  have accepted : u = b.applyReport r := by
    show s.acceptSample i x = _
    rw [State.acceptSample_eq, if_neg hband]
  have su : Effect (.slots :: engineFields) [] s u := s.acceptSample_effect i x
  have ut : Effect [.passes] [] u (u.passFrom p (i.val + 1)) := u.passFrom_effect p (i.val + 1)
  have st : Effect (.slots :: .passes :: engineFields) [] s (u.passFrom p (i.val + 1)) := su.seq ut
  have quals (j : Slot) : { (u.passFrom p (i.val + 1)).quals[j] with unrecorded := s.quals[j].unrecorded } =
      if i = j then judgedQual (judgedQual (matured pr r s.quals[j])) else s.quals[j] := by
    have h := State.applyReport_quals (s := b) (r := r) ((brought.adoptedProfile (by decide) i).trans hpr) j
    rw [← accepted, brought.quals] at h
    rw [ut.quals]
    exact h
  have weight : failWeight pr r = f * up := by
    rw [failWeight, effStepUp_eq]
    rfl
  have change : netChange pr r = delta := by
    rw [netChange, weight]
    rfl
  have maturity : newM pr r q.m = m := by
    rw [newM, clampM_eq, change]
    rfl
  have own := quals i
  rw [if_pos rfl] at own
  obtain ⟨reached, afresh, counted⟩ : (judgedQual (judgedQual (matured pr r q))).state = stateAfter q.state m ∧
      (stateAfter q.state m ≠ q.state → (judgedQual (judgedQual (matured pr r q))).fade = 0 ∧
        (judgedQual (judgedQual (matured pr r q))).forget = 0) ∧
      (stateAfter q.state m = q.state → (judgedQual (judgedQual (matured pr r q))).fade = q.fade ∧
        (judgedQual (judgedQual (matured pr r q))).forget = q.forget) := by
    rw [← maturity]
    exact judgedQual_twice_state (matured pr r q)
  obtain ⟨keptM, tested, failed, mature⟩ := judgedQual_twice_flags (matured pr r q)
  refine ⟨u.passFrom p (i.val + 1), execSlotVisit_match hr hp hi ready hm, ?_, ?_, ?_, ?_, ?_, fun moved => ?_,
    fun stays => ?_, fun j hj => (quals j).trans (if_neg (Ne.symm hj)), st.ride, st.flash, st.sameWorld⟩
  · exact ((congrArg Qualifier.m own).trans keptM).trans maturity
  · exact (congrArg Qualifier.state own).trans reached
  · rw [← weight]
    exact (congrArg Qualifier.tested own).trans tested
  · rw [← weight]
    exact (congrArg Qualifier.failed own).trans failed
  · rw [← maturity]
    exact (congrArg Qualifier.passedMature own).trans mature
  · obtain ⟨fade, forget⟩ := afresh moved
    exact ⟨(congrArg Qualifier.fade own).trans fade, (congrArg Qualifier.forget own).trans forget⟩
  · obtain ⟨fade, forget⟩ := counted stays
    exact ⟨(congrArg Qualifier.fade own).trans fade, (congrArg Qualifier.forget own).trans forget⟩

end Sys2Proof.Machine
end

