-- ==== Sys2Proof/Proofs/Recording.lean ====
section
/-!
PROOFS. The record and the frames of a confirmation (R31, R34, R49, R50, R68, R69), and the retained request (R127).
-/

-- Proofs in the order of the text: those that elaborate default tactic arguments at once wait for each other.
set_option Elab.async false

namespace Sys2Proof.Machine

variable {s t u v : State} {p : Port} {i : Slot}

/-! ### The bytes a capture writes -/

theorem Config.le_contextBase (p : Port) : 0x0600 ≤ Config.contextBase p := by
  cases p <;> decide

section
variable {l : List Field} {b : List Law}

/-- What an effect must leave for the codes of a capture to stay (R63 to R65). -/
abbrev codeFields : List Field := [.straps, .adoption, .profiles, .channels, .now, .board]

theorem Effect.channelCode (h : Effect l b s t) (hc : s.MemoriesCanonical) (p : Port) (c : Fin 16)
    (hf : ∀ f ∈ codeFields, f ∉ l := by decide) : t.channelCode p c = s.channelCode p c := by
  have base := Config.le_contextBase p
  have board := (h.board hc (hf _ (by decide))).2
  have value : t.channelValue p c = s.channelValue p c := by
    rw [State.channelValue, board _ (by omega), board _ (by omega), State.channelValue]
  have channels : (t.port p).channels = (s.port p).channels := h.onPort p .channels (hf _ (by decide))
  have limit : t.staleLimit p = s.staleLimit p := by
    simp only [State.staleLimit, h.adoptedCopy (hf _ (by decide)) p]
  simp only [State.channelCode, channels, limit, value, h.now (hf _ (by decide))]

theorem Effect.captureCodes (h : Effect l b s t) (hc : s.MemoriesCanonical) (i : Slot)
    (hf : ∀ f ∈ codeFields, f ∉ l := by decide) : t.captureCodes i = s.captureCodes i := by
  have entry (p : Port) (e : Byte) : t.entryCode p e = s.entryCode p e := by
    simp only [State.entryCode, h.channelCode hc _ _ hf]
  have profile : t.adoptedProfile i = s.adoptedProfile i := by
    rw [State.adoptedProfile, State.adoptedProfile, h.owner (hf _ (by decide)), (h.adoption _ (hf _ (by decide))).1,
      h.profiles (hf _ (by decide))]
  simp only [State.captureCodes, h.owner (hf _ (by decide)), h.adoptedCopy (hf _ (by decide)), profile, entry]

/-- The bytes a capture writes stay while the maturity does (R66, R67). -/
theorem Effect.frameNow (h : Effect l b s t) (hc : s.MemoriesCanonical) (r : Report) (k : FrameKind)
    (hm : t.quals[r.slot].m = s.quals[r.slot].m) (hf : ∀ f ∈ Field.ride :: codeFields, f ∉ l := by decide) :
    t.frameNow r k = s.frameNow r k := by
  rw [State.frameNow, h.ride (hf _ (by decide)), hm, h.captureCodes hc _ fun f hx => hf f (List.mem_cons_of_mem _ hx),
    State.frameNow]

end

/-! ### Frames in use -/

/-- The frames in use are those the entries refer to (R70). -/
theorem State.frameUsed_congr (h : ∀ e : Fin 48, (t.records[e]).map Record.refs = (s.records[e]).map Record.refs) (f : Fin 64) :
    t.frameUsed f = s.frameUsed f := by
  have forth {s t : State} (h : ∀ e : Fin 48, (t.records[e]).map Record.refs = (s.records[e]).map Record.refs) :
      t.frameUsed f = true → s.frameUsed f = true := by
    rw [State.frameUsed_iff, State.frameUsed_iff]
    rintro ⟨e, r, k, held, ref⟩
    have here := h e
    rw [held] at here
    obtain ⟨r', held', refs⟩ := Option.map_eq_some_iff.mp here.symm
    exact ⟨e, r', k, held', (Record.frameRef_of_refs refs k).trans ref⟩
  exact Bool.eq_iff_iff.mpr ⟨forth h, forth fun e => (h e).symm⟩

theorem Record.refs_set {e : Fin 48} {x y : Option Record} (hx : s.records[e] = x) (ht : t.records = s.records.set e y)
    (hr : y.map Record.refs = x.map Record.refs) (e' : Fin 48) :
    (t.records[e']).map Record.refs = (s.records[e']).map Record.refs := by
  rw [ht]
  simp only [Fin.getElem_fin, Vector.getElem_set]
  split
  · next same =>
    have here : e = e' := Fin.ext same
    subst here
    rw [hr, ← hx]
    rfl
  · rfl

/-- An entry written over with a record that keeps its frames brings that record's frames into use, and no other. -/
theorem State.frameUsed_set {e : Fin 48} {x : Record} (hk : ∀ y k g, s.Holds e y → y.frameRef k = some g → x.frameRef k = some g)
    (ht : t.records = s.records.set e (some x)) (g : Fin 64) :
    t.frameUsed g = true ↔ (∃ k, x.frameRef k = some g) ∨ s.frameUsed g = true := by
  have held (e' : Fin 48) (r : Record) : t.Holds e' r ↔ if e' = e then x = r else s.Holds e' r := by
    have := State.holds_setRecord (s := s) e e' (some x) r
    rw [Option.some_inj] at this
    rw [← this]
    exact State.holds_congr _ ht e' r
  have own : t.Holds e x := by rw [held, if_pos rfl]
  rw [State.frameUsed_iff, State.frameUsed_iff]
  constructor
  · rintro ⟨e', r, k, hr, ref⟩
    rw [held] at hr
    split at hr
    · subst hr
      exact .inl ⟨k, ref⟩
    · exact .inr ⟨e', r, k, hr, ref⟩
  · rintro (⟨k, ref⟩ | ⟨e', r, k, hr, ref⟩)
    · exact ⟨e, x, k, own, ref⟩
    · by_cases same : e' = e
      · subst same
        exact ⟨e', x, k, own, hk r k g hr ref⟩
      · exact ⟨e', r, k, (held e' r).mpr (by rw [if_neg same]; exact hr), ref⟩

/-! ### Captures of the record of a slot (R68 to R73) -/

theorem State.capture_recordOf {e : Fin 48} {x : Record} {r : Report} (h : s.recordOf r.slot = some (e, x)) (k : FrameKind) :
    s.capture r k = s.captureFor e x r k := by
  unfold State.capture
  rw [h]

/-- Wherever a LATEST capture puts its frame, the record keeps its other fields (R69 to R73). -/
theorem State.captureFor_latest {e : Fin 48} {x : Record} (h : s.Holds e x) (r : Report) :
    ∃ f, (s.captureFor e x r .latest).Holds e { x with latest := f } := by
  have bound (u : State) (f : Fin 64) (bytes : Frame) :
      ∃ g, (u.bindFrame e x .latest f bytes).Holds e { x with latest := g } := by
    refine ⟨some f, ?_⟩
    rw [State.Holds, State.bindFrame_records]
    simp [Record.withFrame]
  unfold State.captureFor
  simp only
  split
  · exact ⟨x.latest, h⟩
  · split
    · exact bound _ _ _
    · split
      · split
        · exact bound _ _ _
        · exact ⟨x.latest, h⟩
      · exact ⟨x.latest, h⟩

theorem noticed_slot (b : Bool) (mark : NoticeMark) (x : Record) : (noticed b mark x).slot = x.slot := by
  cases mark <;> rfl

theorem noticed_refs (b : Bool) (mark : NoticeMark) (x : Record) : (noticed b mark x).refs = x.refs := by
  cases mark <;> rfl

/-- The record held takes the notice, and its LATEST frame is captured over the present one or into the lowest free one
(R50, R69, R70). -/
theorem State.confirmRecord_held {e : Fin 48} {y : Record} {r : Report} {change : Record → Record}
    (h : s.recordOf r.slot = some (e, y)) (hs : (change y).slot = y.slot) (hr : (change y).refs = y.refs)
    (hc : s.MemoriesCanonical) :
    let z := noticed s.store.rideEnding .byClass (change y)
    let t := s.confirmRecord r change
    (∃ f, t.Holds e { z with latest := f }) ∧
    (∀ f, y.latest = some f → t.records = s.records.set e (some z) ∧ t.frames = s.frames.set f (s.frameNow r .latest)) ∧
    ∀ f, y.latest = none → s.frameUsed f = false → (∀ g < f, s.frameUsed g = true) →
      t.records = s.records.set e (some { z with latest := some f }) ∧ t.frames = s.frames.set f (s.frameNow r .latest) := by
  intro z t
  obtain ⟨held, -⟩ := State.holds_of_recordOf h
  let u := s.notice e (change y) .byClass
  have su : Effect [.records, .erase, .dirty] [] s u := s.notice_effect e (change y) .byClass
  have records : u.records = s.records.set e (some z) := State.notice_records e (change y) .byClass
  have refs : z.refs = y.refs := (noticed_refs _ _ _).trans hr
  have latest : z.latest = y.latest := congrArg Prod.snd refs
  have own : u.recordOf r.slot = some (e, z) := State.recordOf_of_set h records ((noticed_slot _ _ _).trans hs)
  have eq : t = u.captureFor e z r .latest := by
    show s.confirmRecord r change = _
    rw [State.confirmRecord, h]
    exact State.capture_recordOf own .latest
  have bytes : u.frameNow r .latest = s.frameNow r .latest := su.frameNow hc r .latest (by rw [su.quals])
  have used : ∀ f, u.frameUsed f = s.frameUsed f :=
    State.frameUsed_congr (Record.refs_set held records (congrArg some refs))
  rw [eq]
  refine ⟨State.captureFor_latest (State.holds_of_recordOf own).1 r, fun f hf => ?_, fun f hn free lower => ?_⟩
  · rw [State.captureFor_present r (k := .latest) (latest.trans hf), bytes, ← su.frames]
    exact ⟨records, rfl⟩
  · rw [State.captureFor_free r (k := .latest) (latest.trans hn) (by rw [used, free]) (fun g hg => by rw [used, lower g hg]),
      State.bindFrame_records, State.bindFrame_frames, records, bytes, su.frames]
    exact ⟨by simp [Record.withFrame], rfl⟩

/-! ### New records (R49) -/

theorem State.QualsAlike.maturity (h : s.QualsAlike t) (j : Slot) : t.quals[j].m = s.quals[j].m := by
  rw [← h j]

/-- A record that is placed is the record of its slot, where there was none. -/
theorem State.recordOf_placed {e : Fin 48} {x : Record} (h : s.recordOf i = none) (ht : t.records = s.records.set e (some x))
    (hx : x.slot = i) : t.recordOf i = some (e, x) := by
  have none := (State.recordOf_eq_none _ i).mp h
  refine (t.recordOf_eq_some i e x).mpr ⟨?_, hx, fun e' he r hr => none e' r ?_⟩
  · rw [State.Holds, ht]
    simp
  · have other : e.val ≠ e'.val := fun h => by omega
    rw [State.Holds, ht] at hr
    simp only [Fin.getElem_fin] at hr
    rw [Vector.getElem_set_ne _ _ other] at hr
    exact hr

/-- The lowest free entry is filled, and its FIRST frame captured into the lowest free one (R45, R49, R68, R70). -/
theorem State.requestRecord_first {e : Fin 48} {f : Fin 64} {r : Report} (st : QState) (hn : s.recordOf r.slot = none)
    (he : s.records[e] = none) (hl : ∀ e' < e, s.records[e'] ≠ none) (free : s.frameUsed f = false)
    (lower : ∀ g < f, s.frameUsed g = true) (hc : s.MemoriesCanonical) :
    let t := (s.requestRecord r.slot st).capture r .first
    t.records = s.records.set e (some { s.allocated r.slot st with first := some f }) ∧
      t.frames = s.frames.set f (s.frameNow r .first) := by
  intro t
  let x := s.allocated r.slot st
  let u := s.allocate e r.slot st
  have su : Effect [.records, .quals, .dirty, .erase] [] s u := s.allocate_effect e r.slot st
  have records : u.records = s.records.set e (some x) := State.allocate_records e r.slot st
  have own : u.recordOf r.slot = some (e, x) := State.recordOf_placed hn records rfl
  have used (g : Fin 64) : u.frameUsed g = s.frameUsed g := by
    have h := State.frameUsed_set (s := s) (t := u) (x := x) (fun y k g hy => by rw [State.Holds, he] at hy; cases hy) records g
    have fresh : ¬∃ k, x.frameRef k = some g := fun ⟨k, hk⟩ => by cases k <;> cases hk
    exact Bool.eq_iff_iff.mpr (h.trans (or_iff_right fresh))
  have maturity : u.quals[r.slot].m = s.quals[r.slot].m := by
    rw [State.allocate_quals, Slot.get_set, if_pos rfl]
  have bytes : u.frameNow r .first = s.frameNow r .first := su.frameNow hc r .first maturity
  have eq : t = u.bindFrame e x .first f (s.frameNow r .first) := by
    show (s.requestRecord r.slot st).capture r .first = _
    rw [State.requestRecord_free r.slot st he hl, State.capture_recordOf own .first,
      State.captureFor_free r (k := .first) rfl (by rw [used, free]) (fun g hg => by rw [used, lower g hg]), bytes]
  rw [eq, State.bindFrame_records, State.bindFrame_frames, records, su.frames]
  exact ⟨by simp [Record.withFrame, x], rfl⟩

/-- With its FIRST frame in the lowest free frame, the record's LATEST frame goes into the next (R68, R70). -/
theorem State.frameUsed_next {e : Fin 48} {x : Record} {f g : Fin 64} (he : s.records[e] = none) (hf : x.first = some f)
    (hl : x.latest = none) (ht : t.records = s.records.set e (some x)) (lower : ∀ h < f, s.frameUsed h = true)
    (hg : f < g) (free : s.frameUsed g = false) (between : ∀ h, f < h → h < g → s.frameUsed h = true) :
    t.frameUsed g = false ∧ ∀ h < g, t.frameUsed h = true := by
  have used (h : Fin 64) : t.frameUsed h = true ↔ h = f ∨ s.frameUsed h = true := by
    rw [State.frameUsed_set (s := s) (x := x) (fun y k g hy => by rw [State.Holds, he] at hy; cases hy) ht h]
    refine or_congr ⟨fun ⟨k, hk⟩ => ?_, fun e => ⟨.first, hf.trans (congrArg some e.symm)⟩⟩ Iff.rfl
    cases k with
    | first => exact Option.some.inj (hk.symm.trans hf)
    | latest => exact absurd (hl.symm.trans hk) nofun
  refine ⟨Bool.eq_false_iff.mpr fun h => ?_, fun h hh => (used h).mpr ?_⟩
  · rcases (used g).mp h with e | e
    · exact absurd e (ne_of_gt hg)
    · rw [free] at e
      cases e
  · rcases lt_trichotomy h f with before | same | after
    · exact .inr (lower h before)
    · exact .inl same
    · exact .inr (between h after hh)

/-- The new record of a confirmation, with both its frames (R31, R34, R49, R68). -/
theorem State.confirmRecord_new {e : Fin 48} {f g : Fin 64} {r : Report} (change : Record → Record)
    (hn : s.recordOf r.slot = none) (he : s.records[e] = none) (hl : ∀ e' < e, s.records[e'] ≠ none)
    (free : s.frameUsed f = false) (lower : ∀ h < f, s.frameUsed h = true) (hg : f < g) (free' : s.frameUsed g = false)
    (between : ∀ h, f < h → h < g → s.frameUsed h = true) (hc : s.MemoriesCanonical) :
    let t := s.confirmRecord r change
    t.records = s.records.set e (some { s.allocated r.slot .confirmed with first := some f, latest := some g }) ∧
      t.frames = (s.frames.set f (s.frameNow r .first)).set g (s.frameNow r .latest) := by
  intro t
  let x : Record := { s.allocated r.slot .confirmed with first := some f }
  let u := (s.requestRecord r.slot .confirmed).capture r .first
  have su : Effect [.logQueue, .erase, .quals, .ram, .trail, .attn, .program, .records, .dirty, .declined, .frames] [] s u :=
    (State.requestRecord_effect _ _ _).seq (State.capture_effect _ _ _)
  obtain ⟨records, frames⟩ := State.requestRecord_first .confirmed hn he hl free lower hc
  have own : u.recordOf r.slot = some (e, x) := State.recordOf_placed hn records rfl
  obtain ⟨next, below⟩ := State.frameUsed_next (x := x) he rfl rfl records lower hg free' between
  have alike : s.QualsAlike u :=
    (State.requestRecord_qualsAlike r.slot .confirmed).trans (State.capture_effect _ r .first).qualsAlike
  have bytes : u.frameNow r .latest = s.frameNow r .latest := su.frameNow hc r .latest (alike.maturity r.slot)
  have eq : t = u.bindFrame e x .latest g (s.frameNow r .latest) := by
    show s.confirmRecord r change = _
    rw [State.confirmRecord, hn]
    show u.capture r .latest = _
    rw [State.capture_recordOf own .latest, State.captureFor_free r (k := .latest) rfl next below, bytes]
  rw [eq, State.bindFrame_records, State.bindFrame_frames, records, frames]
  exact ⟨by simp [Record.withFrame, x], rfl⟩

end Sys2Proof.Machine
end

