-- ==== Sys2Proof/Proofs/Transiting.lean ====
section
/-!
PROOFS. The transitions at acceptance (R28 to R38): which one a report makes, its entry and its demand, its record and
frames, and the retained entry it asks for (O60).
-/

-- Proofs in the order of the text: those that elaborate default tactic arguments at once wait for each other.
set_option Elab.async false

namespace Sys2Proof.Machine

variable {s t u v w X : State} {p : Port} {i : Slot} {r : Report}

/-! ### Which transition a report makes (R28) -/

/-- The transition from `old` to `new` that a report makes of a state whose slot has the maturity `m` (R28, R30 to R35). -/
inductive State.Transition (r : Report) (w : State) : QState → Int → QState → State → Prop
  | pending {m : Int} (h : w.quals[r.slot].m = m) : Transition r w .idle m .pending (w.toPending r)
  | atOnce : Transition r w .idle 127 .confirmed ((w.toPending r).toConfirmed r)
  | confirmed : Transition r w .pending 127 .confirmed (w.toConfirmed r)
  | dropped : Transition r w .pending (-128) .idle (w.dropPending r)
  | fading : Transition r w .confirmed (-128) .fading (w.toFading r)
  | recurred {old : QState} (h : old = .fading ∨ old = .historic) : Transition r w old 127 .confirmed (w.recur r old)

/-- A reading of the table that finds no row (R28). -/
theorem State.judge_stays (h : judgedState s.quals[r.slot].state s.quals[r.slot].m = s.quals[r.slot].state) : s.judge r = s := by
  rcases State.judge_qualsAlike (s := s) r with ⟨-, same⟩ | ⟨moved, -⟩
  · exact same
  · exact absurd h moved

/-- What one reading of the table leaves for the next. -/
theorem State.judge_state (r : Report) :
    (s.judge r).quals[r.slot].state = judgedState s.quals[r.slot].state s.quals[r.slot].m ∧
    (s.judge r).quals[r.slot].m = s.quals[r.slot].m := by
  have h := State.judge_quals (s := s) r r.slot
  rw [if_pos rfl] at h
  have state := congrArg Qualifier.state h
  have maturity := congrArg Qualifier.m h
  refine ⟨state.trans ?_, maturity.trans ?_⟩ <;> unfold judgedQual <;> split
  · next e => exact e.symm
  · rfl
  · rfl
  · rfl

theorem State.judge_twice_stays (h : stateAfter s.quals[r.slot].state s.quals[r.slot].m =
    judgedState s.quals[r.slot].state s.quals[r.slot].m) : (s.judge r).judge r = s.judge r := by
  obtain ⟨state, maturity⟩ := State.judge_state (s := s) r
  apply State.judge_stays
  rw [state, maturity, judgedState_twice, h]

/-- A report that changes the state makes a transition of the table (R28). -/
theorem State.judge_transition (h : stateAfter w.quals[r.slot].state w.quals[r.slot].m ≠ w.quals[r.slot].state) :
    State.Transition r w w.quals[r.slot].state w.quals[r.slot].m
      (stateAfter w.quals[r.slot].state w.quals[r.slot].m) ((w.judge r).judge r) := by
  have once := State.judge_twice_stays (s := w) (r := r)
  obtain ⟨state, maturity⟩ := State.judge_state (s := w) r
  generalize hst : w.quals[r.slot].state = st at *
  generalize hm : w.quals[r.slot].m = m at *
  cases st with
  | idle =>
    by_cases top : m = 127
    · subst top
      have first : w.judge r = w.toPending r := by simp only [State.judge, hst, hm]; rfl
      have second : (w.judge r).judge r = (w.judge r).toConfirmed r := by
        rw [State.judge, state, maturity]
        rfl
      rw [second, first]
      exact .atOnce
    · by_cases up : 0 < m
      · have first : w.judge r = w.toPending r := by simp only [State.judge, hst, hm, if_pos up]
        rw [once (by simp [stateAfter, judgedState, top]), first, stateAfter, if_neg top, if_pos up]
        exact .pending hm
      · simp [stateAfter, top, up] at h
  | pending =>
    by_cases top : m = 127
    · subst top
      have first : w.judge r = w.toConfirmed r := by simp only [State.judge, hst, hm]; rfl
      rw [once (by decide), first]
      exact .confirmed
    · by_cases bottom : m = -128
      · subst bottom
        have first : w.judge r = w.dropPending r := by simp only [State.judge, hst, hm]; rfl
        rw [once (by decide), first]
        exact .dropped
      · simp [stateAfter, top, bottom] at h
  | confirmed =>
    by_cases bottom : m = -128
    · subst bottom
      have first : w.judge r = w.toFading r := by simp only [State.judge, hst, hm]; rfl
      rw [once (by decide), first]
      exact .fading
    · simp [stateAfter, bottom] at h
  | fading =>
    by_cases top : m = 127
    · subst top
      have first : w.judge r = w.recur r .fading := by simp only [State.judge, hst, hm]; rfl
      rw [once (by decide), first]
      exact .recurred (.inl rfl)
    · simp [stateAfter, top] at h
  | historic =>
    by_cases top : m = 127
    · subst top
      have first : w.judge r = w.recur r .historic := by simp only [State.judge, hst, hm]; rfl
      rw [once (by decide), first]
      exact .recurred (.inr rfl)
    · simp [stateAfter, top] at h

/-! ### What a transition does before it is announced (R29) -/

/-- IDLE → PENDING, steps 1 to 3 (R30). -/
def State.pended (r : Report) (s : State) : State := ((s.enter r.slot .pending).requestRecord r.slot .pending).capture r .first

/-- PENDING → CONFIRMED, steps 1 to 3 (R31). -/
def State.confirming (r : Report) (s : State) : State :=
  (s.enter r.slot .confirmed).confirmRecord r (confirmNotice s.ride.number)

/-- PENDING → CONFIRMED, steps 1 to 4: class 3 asks for a retained entry (R31). -/
def State.retaining (r : Report) (s : State) : State :=
  if (s.classOf r.slot).val = 3 then (s.confirming r).requestRetained r.slot 1 ((s.confirming r).firstFrameOf r.slot)
  else s.confirming r

/-- PENDING → IDLE, steps 1 and 2, before the record is freed (R32). -/
def State.dropping (r : Report) (s : State) : State :=
  (s.enter r.slot .idle).setQual r.slot { (s.enter r.slot .idle).quals[r.slot] with unrecorded := false }

/-- PENDING → IDLE, steps 1 and 2 (R32). -/
def State.dropped (r : Report) (s : State) : State :=
  match (s.dropping r).recordOf r.slot with
  | some (e, x) => (s.dropping r).freeRecord e x false
  | none => s.dropping r

/-- CONFIRMED → FADING, steps 1 and 2 (R33). -/
def State.faded (r : Report) (s : State) : State :=
  match (s.enter r.slot .fading).recordOf r.slot with
  | some (e, x) => (s.enter r.slot .fading).notice e (fadingNotice s.ride.number x) .ordinary
  | none => s.enter r.slot .fading

/-- A recurrence, steps 1 to 3 (R34, R35). -/
def State.recurring (r : Report) (s : State) : State :=
  (s.enter r.slot .confirmed).confirmRecord r (recurNotice s.ride.number)

theorem State.toPending_eq (r : Report) (s : State) : s.toPending r =
    (s.pended r).announce r.slot .pending (byteOfInt s.quals[r.slot].m) .idle .pending := rfl

theorem State.toConfirmed_eq (r : Report) (s : State) : s.toConfirmed r =
    (s.retaining r).announce r.slot .confirmed (byteOf ((s.retaining r).occurrenceOf r.slot)) .pending .confirmed := rfl

theorem State.dropPending_eq (r : Report) (s : State) : s.dropPending r =
    (s.dropped r).announce r.slot .pendingDropped (byteOfInt (-128)) .pending .idle := rfl

theorem State.toFading_eq (r : Report) (s : State) : s.toFading r =
    (s.faded r).announce r.slot .fading (byteOfInt (-128)) .confirmed .fading := rfl

theorem State.recur_eq (r : Report) (old : QState) (s : State) : s.recur r old =
    (s.recurring r).announce r.slot .recurred (byteOf ((s.recurring r).occurrenceOf r.slot)) old .confirmed := rfl

/-- What the steps before the announcement may change, but for the retained queue. -/
abbrev recordFields : List Field :=
  [.logQueue, .erase, .quals, .ram, .trail, .attn, .program, .records, .dirty, .declined, .frames]

theorem State.pended_effect (r : Report) : Effect recordFields [] s (s.pended r) :=
  ((s.enter_effect _ _).seq (State.requestRecord_effect _ _ _)).trans ((State.capture_effect _ _ _).mono)

theorem State.confirming_effect (r : Report) : Effect recordFields [] s (s.confirming r) :=
  (s.enter_effect _ _).seq (State.confirmRecord_effect _ _ _)

theorem State.recurring_effect (r : Report) : Effect recordFields [] s (s.recurring r) :=
  (s.enter_effect _ _).seq (State.confirmRecord_effect _ _ _)

theorem State.retaining_effect (r : Report) : Effect (.retQueue :: recordFields) [] s (s.retaining r) := by
  unfold State.retaining
  split
  · exact (State.confirming_effect r).seq (State.requestRetained_effect _ _ _ _)
  · exact (State.confirming_effect r).mono

theorem State.dropping_effect (r : Report) : Effect [.quals, .dirty] [] s (s.dropping r) :=
  (s.enter_effect r.slot .idle).seq (State.setUnrecorded_effect _ _ _)

theorem State.dropped_effect (r : Report) : Effect recordFields [] s (s.dropped r) := by
  unfold State.dropped
  split
  · exact (State.dropping_effect r).seq (State.freeRecord_effect _ _ _ _)
  · exact (State.dropping_effect r).mono

theorem State.faded_effect (r : Report) : Effect recordFields [] s (s.faded r) := by
  unfold State.faded
  split
  · exact (s.enter_effect _ _).seq (State.notice_effect _ _ _ _)
  · exact (s.enter_effect _ _).mono

/-! ### The announcement of a transition (R29, R37, R38, R103) -/

/-- The kind of the entry a transition appends (R38). -/
def entryKind (old new : QState) : TrailKind :=
  match new with
  | .pending => .pending
  | .idle => .pendingDropped
  | .fading => .fading
  | .confirmed => if old = .idle ∨ old = .pending then .confirmed else .recurred
  | .historic => .faded

theorem State.occurrenceOf_eq (s : State) (i : Slot) : s.occurrenceOf i = (s.recordOf i).elim 0 (·.2.occurrence) := by
  unfold State.occurrenceOf
  cases s.recordOf i <;> rfl

/-- No demand is made in IDLE or PENDING (R37). -/
theorem State.demandIn_pending (s : State) (i : Slot) : s.demandIn i .pending = s.demandIn i .idle := by
  unfold State.demandIn
  split <;> rfl

/-- `X` is `v`, announced as the transition from `old` to `new` at the maturity `m`, and `v` has the demands of `w`. -/
structure State.AnnouncedFrom (w : State) (i : Slot) (old : QState) (m : Int) (new : QState) (v X : State) : Prop where
  announced : ∃ o, v.demandIn i o = v.demandIn i old ∧ X = v.announce i (entryKind old new)
    (if new = .confirmed then byteOf (v.occurrenceOf i) else byteOfInt m) o new
  effect    : Effect engineFields [] w v
  counts    : ∀ q, SameCounts (w.port q) (v.port q)

/-- Every transition ends in its announcement (R29, R38). -/
theorem State.Transition.announcedFrom {old new : QState} {m : Int} (h : State.Transition r w old m new X) :
    ∃ v, State.AnnouncedFrom w r.slot old m new v X := by
  cases h with
  | pending hm =>
    have e := w.pended_effect r
    exact ⟨w.pended r, ⟨.idle, rfl, by rw [← hm]; exact State.toPending_eq r w⟩, e.mono, e.sameCounts⟩
  | atOnce =>
    let u := w.toPending r
    have wu : Effect engineFields [] w u := w.toPending_effect r
    have e := u.retaining_effect r
    refine ⟨u.retaining r, ⟨.pending, State.demandIn_pending _ _, State.toConfirmed_eq r u⟩, wu.seq e, fun q => ?_⟩
    have first : SameCounts ((w.pended r).port q) (u.port q) := by
      have h := State.announce_counts (s := w.pended r) r.slot .pending (byteOfInt w.quals[r.slot].m) .idle .pending q
      rw [State.demandIn_pending, demandMoved_same, ite_self] at h
      exact h
    exact (((w.pended_effect r).sameCounts (by decide) q).trans first).trans (e.sameCounts (by decide) q)
  | confirmed =>
    have e := w.retaining_effect r
    exact ⟨w.retaining r, ⟨.pending, rfl, State.toConfirmed_eq r w⟩, e.mono, e.sameCounts⟩
  | dropped =>
    have e := w.dropped_effect r
    exact ⟨w.dropped r, ⟨.pending, rfl, State.dropPending_eq r w⟩, e.mono, e.sameCounts⟩
  | fading =>
    have e := w.faded_effect r
    exact ⟨w.faded r, ⟨.confirmed, rfl, State.toFading_eq r w⟩, e.mono, e.sameCounts⟩
  | recurred ho =>
    have e := w.recurring_effect r
    refine ⟨w.recurring r, ⟨old, rfl, ?_⟩, e.mono, e.sameCounts⟩
    rcases ho with rfl | rfl <;> exact State.recur_eq r _ w

/-- The last entry, the demand and the mark that a transition leaves (R29, R38, R103). -/
theorem State.AnnouncedFrom.told {old new : QState} {m : Int} {pr : Profile} (h : State.AnnouncedFrom w i old m new v X)
    (hc : w.MemoriesCanonical) (hp : w.adoptedProfile i = some pr) :
    X.pub.dirty = true ∧
    X.TrailEntry (X.pub.writeCount - 1) (trailBytes w.ride.number w.ride.time (byteOf i.val) (entryKind old new)
      (if new = .confirmed then byteOf ((X.recordOf i).elim 0 (·.2.occurrence)) else byteOfInt m) (byteOf (qstateCode new))) ∧
    SameCounts (demandMoved (lampDemand pr.cls old) (lampDemand pr.cls new) (w.port (w.owner i))) (X.port (w.owner i)) := by
  obtain ⟨⟨o, same, eq⟩, wv, counts⟩ := h
  have profile : v.adoptedProfile i = some pr := (wv.adoptedProfile (by decide) i).trans hp
  have demand (st : QState) : v.demandIn i st = lampDemand pr.cls st := by rw [State.demandIn, profile]
  have told : Effect [.ram, .trail, .attn, .counts, .lamp, .dirty] [] v X := by
    rw [eq]
    exact State.announce_effect _ _ _ _ _ _
  refine ⟨by rw [eq]; rfl, ?_, ?_⟩
  · have count : X.pub.writeCount - 1 = v.pub.writeCount := by
      rw [eq, State.announce_writeCount, BitVec.add_sub_cancel]
    have entry := State.announce_entry (wv.keeps .memories (by decide) hc) i (entryKind old new)
      (if new = .confirmed then byteOf (v.occurrenceOf i) else byteOfInt m) o new
    rw [← eq, wv.ride, State.occurrenceOf_eq, ← told.recordOf (by decide) i] at entry
    rw [count]
    exact entry
  · have moved := State.announce_counts (s := v) i (entryKind old new)
      (if new = .confirmed then byteOf (v.occurrenceOf i) else byteOfInt m) o new (w.owner i)
    rw [← eq, if_pos (wv.owner (by decide) i).symm, same, demand, demand] at moved
    exact ((counts (w.owner i)).demandMoved _ _).trans moved

/-! ### The record a transition notices (R50) -/

/-- A record after its confirmation or recurrence (R50, first, third and fourth row). -/
def confirmedRecord (n : Nat) (rideEnding : Bool) (old : QState) (y : Record) : Record :=
  { y with
    state := .confirmed, occurrence := if old = .pending then 1 else min 255 (y.occurrence + 1),
    firstConf := if old = .pending then n else y.firstConf, latestConf := n,
    fade := 0, forget := 0, activity := n, dirty := true,
    urgent := y.urgent || decide (y.cls = 3) || rideEnding }

theorem noticed_confirmNotice (n : Nat) (b : Bool) (y : Record) :
    noticed b .byClass (confirmNotice n y) = confirmedRecord n b .pending y := by
  simp [noticed, Record.marked, confirmNotice, confirmedRecord, Bool.or_assoc, Fin.ext_iff]
  congr

theorem noticed_recurNotice (n : Nat) (b : Bool) {old : QState} (h : old ≠ .pending) (y : Record) :
    noticed b .byClass (recurNotice n y) = confirmedRecord n b old y := by
  simp [noticed, Record.marked, recurNotice, confirmedRecord, Bool.or_assoc, Fin.ext_iff, h]
  congr

/-- Where a confirmation finds its record, and the LATEST frame it captures (R50, R69, R70). -/
structure State.Reconfirmed (w : State) (r : Report) (e : Fin 48) (y z : Record) (X : State) : Prop where
  held    : ∃ f, X.Holds e { z with latest := f }
  present : ∀ f, y.latest = some f → X.records = w.records.set e (some z) ∧ X.frames = w.frames.set f (w.frameNow r .latest)
  lowest  : ∀ f, y.latest = none → w.frameUsed f = false → (∀ g < f, w.frameUsed g = true) →
    X.records = w.records.set e (some { z with latest := some f }) ∧ X.frames = w.frames.set f (w.frameNow r .latest)

theorem State.Reconfirmed.of_same {e : Fin 48} {y z : Record} (h : State.Reconfirmed w r e y z v) (hr : X.records = v.records)
    (hf : X.frames = v.frames) : State.Reconfirmed w r e y z X := by
  obtain ⟨⟨f, held⟩, present, lowest⟩ := h
  exact ⟨⟨f, (State.holds_congr _ hr e _).mpr held⟩, fun f hl => hr ▸ hf ▸ present f hl,
    fun f hl free low => hr ▸ hf ▸ lowest f hl free low⟩

theorem State.enter_frameNow (r : Report) (st : QState) (k : FrameKind) (hc : s.MemoriesCanonical) :
    (s.enter r.slot st).frameNow r k = s.frameNow r k := by
  refine (s.enter_effect r.slot st).frameNow hc r k ?_
  rw [State.enter_quals, Slot.get_set, if_pos rfl]

theorem State.enter_frameUsed (i : Slot) (st : QState) (f : Fin 64) : (s.enter i st).frameUsed f = s.frameUsed f :=
  State.frameUsed_congr (fun e => by rw [(s.enter_effect i st).records]) f

/-- A slot that enters CONFIRMED with a record held (R31, R34, R50). -/
theorem State.enter_confirmRecord {e : Fin 48} {y : Record} {change : Record → Record} (h : w.recordOf r.slot = some (e, y))
    (hs : (change y).slot = y.slot) (hr : (change y).refs = y.refs) (hc : w.MemoriesCanonical) :
    State.Reconfirmed w r e y (noticed w.store.rideEnding .byClass (change y))
      ((w.enter r.slot .confirmed).confirmRecord r change) := by
  let u := w.enter r.slot .confirmed
  have wu : Effect [.quals, .dirty] [] w u := w.enter_effect r.slot .confirmed
  have bytes : u.frameNow r .latest = w.frameNow r .latest := State.enter_frameNow r .confirmed .latest hc
  have used (f : Fin 64) : u.frameUsed f = w.frameUsed f := State.enter_frameUsed r.slot .confirmed f
  obtain ⟨held, present, lowest⟩ := State.confirmRecord_held (s := u) ((wu.recordOf (by decide) r.slot).trans h) hs hr
    (wu.keeps .memories (by decide) hc)
  refine ⟨held, fun f hl => ?_, fun f hl free low => ?_⟩
  · rw [← bytes]
    exact present f hl
  · rw [← bytes]
    exact lowest f hl ((used f).trans free) fun g hg => (used g).trans (low g hg)

/-- What the announcement leaves of records, frames and the store (R29). -/
theorem State.AnnouncedFrom.left {old new : QState} {m : Int} (h : State.AnnouncedFrom w i old m new v X) :
    Effect [.ram, .trail, .attn, .counts, .lamp, .dirty] [] v X := by
  obtain ⟨⟨o, -, eq⟩, -, -⟩ := h
  rw [eq]
  exact State.announce_effect _ _ _ _ _ _

theorem State.toPending_left (r : Report) (s : State) :
    Effect [.ram, .trail, .attn, .counts, .lamp, .dirty] [] (s.pended r) (s.toPending r) := State.announce_effect _ _ _ _ _ _

theorem State.dropPending_left (r : Report) (s : State) :
    Effect [.ram, .trail, .attn, .counts, .lamp, .dirty] [] (s.dropped r) (s.dropPending r) := State.announce_effect _ _ _ _ _ _

theorem State.toFading_left (r : Report) (s : State) :
    Effect [.ram, .trail, .attn, .counts, .lamp, .dirty] [] (s.faded r) (s.toFading r) := State.announce_effect _ _ _ _ _ _

theorem State.recur_left (r : Report) (old : QState) (s : State) :
    Effect [.ram, .trail, .attn, .counts, .lamp, .dirty] [] (s.recurring r) (s.recur r old) := State.announce_effect _ _ _ _ _ _

theorem State.toConfirmed_left (r : Report) (s : State) :
    Effect [.retQueue, .erase, .ram, .trail, .attn, .counts, .lamp, .dirty] [] (s.confirming r) (s.toConfirmed r) := by
  rw [State.toConfirmed_eq]
  refine Effect.step (l₁ := [.retQueue, .erase]) ?_ (State.announce_effect _ _ _ _ _ _)
  unfold State.retaining
  split
  · exact State.requestRetained_effect _ _ _ _
  · exact Effect.refl _

/-- A confirmation or recurrence of a record held (R31, R34, R35). -/
theorem State.Transition.reconfirmed {old : QState} {m : Int} {e : Fin 48} {y : Record}
    (h : State.Transition r w old m .confirmed X) (ho : old ≠ .idle) (hy : w.recordOf r.slot = some (e, y))
    (hc : w.MemoriesCanonical) :
    State.Reconfirmed w r e y (confirmedRecord w.ride.number w.store.rideEnding old y) X := by
  cases h with
  | atOnce => exact absurd rfl ho
  | confirmed =>
    have left := w.toConfirmed_left r
    rw [← noticed_confirmNotice]
    exact (State.enter_confirmRecord hy rfl rfl hc).of_same left.records left.frames
  | recurred ho' =>
    have left := w.recur_left r old
    rw [← noticed_recurNotice _ _ (by rcases ho' with rfl | rfl <;> decide)]
    exact (State.enter_confirmRecord hy rfl rfl hc).of_same left.records left.frames

/-- The record of a slot that drops to IDLE is freed, and nothing is released (R32, R52). -/
theorem State.Transition.freed {old : QState} {m : Int} {e : Fin 48} {y : Record}
    (h : State.Transition r w old m .idle X) (hy : w.recordOf r.slot = some (e, y)) :
    X.records = w.records.set e none ∧ X.frames = w.frames ∧ X.store.logQueue = w.store.logQueue := by
  cases h with
  | dropped =>
    let u := w.dropping r
    have wu : Effect [.quals, .dirty] [] w u := w.dropping_effect r
    have own : u.recordOf r.slot = some (e, y) := (wu.recordOf (by decide) r.slot).trans hy
    have eq : w.dropped r = u.freeRecord e y false := by
      unfold State.dropped
      rw [own]
    have left := w.dropPending_left r
    rw [left.records, left.frames, left.logQueue, eq, State.freeRecord_records, State.freeRecord_release,
      (State.freeRecord_effect u e y false).frames, wu.records, wu.frames, wu.logQueue]
    exact ⟨rfl, rfl, List.append_nil _⟩

/-- The record of a slot that enters FADING takes the notice (R33, R50). -/
theorem State.Transition.noticedFading {old : QState} {m : Int} {e : Fin 48} {y : Record}
    (h : State.Transition r w old m .fading X) (hy : w.recordOf r.slot = some (e, y)) :
    X.frames = w.frames ∧
      X.records = w.records.set e (some (noticed w.store.rideEnding .ordinary (fadingNotice w.ride.number y))) := by
  cases h with
  | fading =>
    let u := w.enter r.slot .fading
    have wu : Effect [.quals, .dirty] [] w u := w.enter_effect r.slot .fading
    have own : u.recordOf r.slot = some (e, y) := (wu.recordOf (by decide) r.slot).trans hy
    have eq : w.faded r = u.notice e (fadingNotice w.ride.number y) .ordinary := by
      unfold State.faded
      rw [own]
    have left := w.toFading_left r
    rw [left.records, left.frames, eq, State.notice_records, (State.notice_effect u _ _ _).frames, wu.frames, wu.records]
    exact ⟨rfl, rfl⟩

/-- With no record held, a drop to IDLE and an entry to FADING touch none (R32, R33). -/
theorem State.Transition.untouched {old new : QState} {m : Int} (h : State.Transition r w old m new X)
    (hn : new = .idle ∨ new = .fading) (hy : w.recordOf r.slot = none) : X.records = w.records ∧ X.frames = w.frames := by
  cases h with
  | pending | atOnce | confirmed | recurred => simp at hn
  | dropped =>
    have wu : Effect [.quals, .dirty] [] w (w.dropping r) := w.dropping_effect r
    have eq : w.dropped r = w.dropping r := by
      unfold State.dropped
      rw [(wu.recordOf (by decide) r.slot).trans hy]
    have left := w.dropPending_left r
    rw [left.records, left.frames, eq]
    exact ⟨wu.records, wu.frames⟩
  | fading =>
    have wu : Effect [.quals, .dirty] [] w (w.enter r.slot .fading) := w.enter_effect r.slot .fading
    have eq : w.faded r = w.enter r.slot .fading := by
      unfold State.faded
      rw [(wu.recordOf (by decide) r.slot).trans hy]
    have left := w.toFading_left r
    rw [left.records, left.frames, eq]
    exact ⟨wu.records, wu.frames⟩

/-! ### The record a transition allocates (R49) -/

/-- Entry `e` is the lowest free one, frames `f` and `g` the two lowest. -/
structure State.Room (w : State) (e : Fin 48) (f g : Fin 64) : Prop where
  entry   : w.records[e] = none
  lower   : ∀ e' : Fin 48, e' < e → w.records[e'] ≠ none
  first   : w.frameUsed f = false
  below   : ∀ h < f, w.frameUsed h = true
  next    : f < g
  latest  : w.frameUsed g = false
  between : ∀ h, f < h → h < g → w.frameUsed h = true

theorem State.enter_room {e : Fin 48} {f g : Fin 64} (h : w.Room e f g) (i : Slot) (st : QState) : (w.enter i st).Room e f g := by
  have used (f : Fin 64) : (w.enter i st).frameUsed f = w.frameUsed f := State.enter_frameUsed i st f
  obtain ⟨entry, lower, first, below, next, latest, between⟩ := h
  exact ⟨entry, lower, (used f).trans first, fun h hh => (used h).trans (below h hh), next, (used g).trans latest,
    fun h hf hg => (used h).trans (between h hf hg)⟩

theorem State.enter_allocated (s : State) (i : Slot) (st : QState) : (s.enter i st).allocated i st = s.allocated i st := rfl

/-- A slot that enters PENDING and finds room (R30, R49). -/
theorem State.pended_new {e : Fin 48} {f g : Fin 64} (hn : w.recordOf r.slot = none) (room : w.Room e f g)
    (hc : w.MemoriesCanonical) :
    (w.pended r).records = w.records.set e (some { w.allocated r.slot .pending with first := some f }) ∧
      (w.pended r).frames = w.frames.set f (w.frameNow r .first) := by
  let u := w.enter r.slot .pending
  have wu : Effect [.quals, .dirty] [] w u := w.enter_effect r.slot .pending
  have bytes : u.frameNow r .first = w.frameNow r .first := State.enter_frameNow r .pending .first hc
  have room' : u.Room e f g := State.enter_room room r.slot .pending
  rw [← bytes]
  exact State.requestRecord_first .pending ((wu.recordOf (by decide) r.slot).trans hn) room'.entry room'.lower room'.first
    room'.below (wu.keeps .memories (by decide) hc)

/-- A slot that enters CONFIRMED without a record and finds room (R31, R34, R49). -/
theorem State.enter_confirmRecord_new {e : Fin 48} {f g : Fin 64} (change : Record → Record) (hn : w.recordOf r.slot = none)
    (room : w.Room e f g) (hc : w.MemoriesCanonical) :
    ((w.enter r.slot .confirmed).confirmRecord r change).records =
        w.records.set e (some { w.allocated r.slot .confirmed with first := some f, latest := some g }) ∧
      ((w.enter r.slot .confirmed).confirmRecord r change).frames =
        (w.frames.set f (w.frameNow r .first)).set g (w.frameNow r .latest) := by
  let u := w.enter r.slot .confirmed
  have wu : Effect [.quals, .dirty] [] w u := w.enter_effect r.slot .confirmed
  have bytes (k : FrameKind) : u.frameNow r k = w.frameNow r k := State.enter_frameNow r .confirmed k hc
  have room' : u.Room e f g := State.enter_room room r.slot .confirmed
  rw [← bytes, ← bytes]
  exact State.confirmRecord_new change ((wu.recordOf (by decide) r.slot).trans hn) room'.entry room'.lower room'.first
    room'.below room'.next room'.latest room'.between (wu.keeps .memories (by decide) hc)

/-- The maturity stands through the transitions of one report. -/
theorem State.toPending_maturity (r : Report) (s : State) : (s.toPending r).quals[r.slot].m = s.quals[r.slot].m := by
  rw [(State.toPending_qualsAlike r).maturity, State.enter_quals, Slot.get_set, if_pos rfl]

/-- A record allocated in PENDING and confirmed by the same report is as one allocated in CONFIRMED (R49, R50). -/
theorem confirmedRecord_allocated (s : State) (i : Slot) (x : Option (Fin 64)) :
    confirmedRecord s.ride.number s.store.rideEnding .pending { s.allocated i .pending with first := x } =
      { s.allocated i .confirmed with first := x } := by
  simp [confirmedRecord, State.allocated]

/-- A slot that is confirmed at once, without a record, and finds room (R28, R30, R31, R49). -/
theorem State.toPending_toConfirmed_new {e : Fin 48} {f g : Fin 64} (hn : w.recordOf r.slot = none) (room : w.Room e f g)
    (hc : w.MemoriesCanonical) :
    ((w.toPending r).toConfirmed r).records =
        w.records.set e (some { w.allocated r.slot .confirmed with first := some f, latest := some g }) ∧
      ((w.toPending r).toConfirmed r).frames = (w.frames.set f (w.frameNow r .first)).set g (w.frameNow r .latest) := by
  let u := w.toPending r
  let x : Record := { w.allocated r.slot .pending with first := some f }
  have wu : Effect engineFields [] w u := w.toPending_effect r
  obtain ⟨records, frames⟩ := State.pended_new hn room hc
  rw [← (w.toPending_left r).records] at records
  rw [← (w.toPending_left r).frames] at frames
  have own : u.recordOf r.slot = some (e, x) := State.recordOf_placed hn records rfl
  obtain ⟨free, low⟩ := State.frameUsed_next (x := x) room.entry rfl rfl records room.below room.next room.latest room.between
  have bytes : u.frameNow r .latest = w.frameNow r .latest := wu.frameNow hc r .latest (State.toPending_maturity r w)
  have again := (State.Transition.confirmed (r := r) (w := u)).reconfirmed (by decide) own (wu.keeps .memories (by decide) hc)
  obtain ⟨records', frames'⟩ := again.lowest g rfl free low
  rw [wu.ride, wu.rideEnding, confirmedRecord_allocated] at records'
  rw [records', frames', records, frames, bytes]
  exact ⟨by simp, rfl⟩

theorem State.Transition.newPending {old : QState} {m : Int} {e : Fin 48} {f g : Fin 64}
    (h : State.Transition r w old m .pending X) (hn : w.recordOf r.slot = none) (room : w.Room e f g)
    (hc : w.MemoriesCanonical) :
    X.frames = w.frames.set f (w.frameNow r .first) ∧
      X.records = w.records.set e (some { w.allocated r.slot .pending with first := some f }) := by
  cases h with
  | pending =>
    have left := w.toPending_left r
    rw [left.records, left.frames]
    exact (State.pended_new hn room hc).symm

theorem State.Transition.newConfirmed {old : QState} {m : Int} {e : Fin 48} {f g : Fin 64}
    (h : State.Transition r w old m .confirmed X) (hn : w.recordOf r.slot = none) (room : w.Room e f g)
    (hc : w.MemoriesCanonical) :
    X.frames = (w.frames.set f (w.frameNow r .first)).set g (w.frameNow r .latest) ∧
      X.records = w.records.set e (some { w.allocated r.slot .confirmed with first := some f, latest := some g }) := by
  cases h with
  | atOnce => exact (State.toPending_toConfirmed_new hn room hc).symm
  | confirmed =>
    have left := w.toConfirmed_left r
    rw [left.records, left.frames]
    exact (State.enter_confirmRecord_new _ hn room hc).symm
  | recurred =>
    have left := w.recur_left r old
    rw [left.records, left.frames]
    exact (State.enter_confirmRecord_new _ hn room hc).symm

/-! ### The retained entry a transition asks for (R31, R127) -/

/-- The retained list of two states, with the entry being programmed, is the same. -/
structure State.SameRetained (s t : State) : Prop where
  positions : t.store.retPos = s.store.retPos
  queue     : t.store.retQueue = s.store.retQueue
  program   : ∀ x, t.store.program = some (.retained x) ↔ s.store.program = some (.retained x)

theorem State.SameRetained.trans (h : s.SameRetained u) (h' : u.SameRetained t) : s.SameRetained t :=
  ⟨h'.positions.trans h.positions, h'.queue.trans h.queue, fun x => (h'.program x).trans (h.program x)⟩

theorem Effect.sameRetained {l : List Field} {b : List Law} (h : Effect l b s t)
    (hf : ∀ f ∈ [Field.retained, .retQueue, .program], f ∉ l := by decide) : s.SameRetained t :=
  ⟨h.retained (hf _ (by decide)), h.retQueue (hf _ (by decide)), fun x => by rw [h.program (hf _ (by decide))]⟩

/-- A mark is withdrawn from an image program alone (R117, R119). -/
theorem State.withdrawRedo_sameRetained (s : State) (e : Fin 48) : s.SameRetained (s.withdrawRedo e) := by
  have h := s.withdrawRedo_effect e
  refine ⟨h.retained, h.retQueue, fun x => ?_⟩
  unfold State.withdrawRedo
  split
  · next hp =>
    split
    · split
      · rw [hp]
        exact ⟨nofun, nofun⟩
      · exact Iff.rfl
    all_goals exact Iff.rfl
  all_goals exact Iff.rfl

theorem State.evict_sameRetained (s : State) (e : Fin 48) (x : Record) : s.SameRetained (s.evict e x) := by
  rw [State.evict_eq]
  have first : Effect [.quals, .logQueue, .erase, .ram, .trail, .attn] [] s ((s.outranked x).appendSlot .evicted x.slot
      (byteOf x.occurrence) (s.outranked x).quals[x.slot].state) := (s.outranked_effect x).step (State.appendSlot_effect _ _ _ _ _)
  refine (first.sameRetained.trans (State.withdrawRedo_sameRetained _ e)).trans ?_
  exact (Effect.step (Effect.setRecord _ e none) (State.markView_effect _) : Effect [.records, .dirty] [] _ _).sameRetained

theorem State.requestRecord_sameRetained (s : State) (i : Slot) (st : QState) : s.SameRetained (s.requestRecord i st) := by
  unfold State.requestRecord
  split
  · exact (s.allocate_effect _ i st).sameRetained
  · split
    · split
      · exact (State.evict_sameRetained s _ _).trans (State.allocate_effect _ _ i st).sameRetained
      · exact (s.decline_effect i st).sameRetained
    · exact (s.decline_effect i st).sameRetained

theorem State.confirming_sameRetained (r : Report) (s : State) : s.SameRetained (s.confirming r) := by
  refine (s.enter_effect r.slot .confirmed).sameRetained.trans ?_
  show (s.enter r.slot .confirmed).SameRetained ((s.enter r.slot .confirmed).confirmRecord r (confirmNotice s.ride.number))
  unfold State.confirmRecord
  split
  · exact ((State.notice_effect _ _ _ _).step (State.capture_effect _ _ _) :
      Effect [.records, .erase, .dirty, .frames] [] _ _).sameRetained
  · exact (State.requestRecord_sameRetained _ _ _).trans (((State.capture_effect _ _ _).step (State.capture_effect _ _ _) :
      Effect [.frames, .records, .erase, .dirty] [] _ _).sameRetained)

theorem State.toPending_sameRetained (r : Report) (s : State) : s.SameRetained (s.toPending r) :=
  (((s.enter_effect r.slot .pending).sameRetained.trans (State.requestRecord_sameRetained _ _ _)).trans
    (State.capture_effect _ _ _).sameRetained).trans (s.toPending_left r).sameRetained

theorem State.SameRetained.holds (h : s.SameRetained t) (i : Slot) : t.RetainedHolds i ↔ s.RetainedHolds i := by
  simp only [State.RetainedHolds, h.positions, h.queue, h.program]

theorem State.SameRetained.spare (h : s.SameRetained t) (k : Fin 16) : t.RetainedSpare k ↔ s.RetainedSpare k := by
  simp only [State.RetainedSpare, h.positions, h.queue, h.program]

/-- A request for a retained entry that is dropped (R127). -/
theorem State.requestRetained_dropped (n : Nat) (f : Option Frame) (h : s.RetainedHolds i ∨ ∀ k, ¬s.RetainedSpare k) :
    s.requestRetained i n f = s := by
  unfold State.requestRetained
  split
  · next k listed free =>
    rcases h with held | full
    · rw [(s.retainedListed_iff i).mpr held] at listed
      cases listed
    · exact absurd ((s.retainedFree_eq_some k).mp free) (full k)
  · rfl

/-- The entry a first confirmation of class 3 asks for (R31, R127). -/
def State.askedEntry (s : State) (i : Slot) (frame : Option Frame) (k : Fin 16) : RetainedItem :=
  { slot := i, ride := s.ride.number, occurrence := 1, pos := k, frame := frame }

theorem State.firstFrameOf_congr (hr : t.recordOf i = s.recordOf i) (hf : t.frames = s.frames) :
    t.firstFrameOf i = s.firstFrameOf i := by
  simp only [State.firstFrameOf, hr, hf]

/-- The retained queue after a first confirmation (R31, R127). -/
theorem State.toConfirmed_retQueue (r : Report) (s : State) :
    ((s.classOf r.slot).val ≠ 3 ∨ s.RetainedHolds r.slot ∨ (∀ k, ¬s.RetainedSpare k) →
      (s.toConfirmed r).store.retQueue = s.store.retQueue) ∧
    ∀ k, (s.classOf r.slot).val = 3 → ¬s.RetainedHolds r.slot → s.RetainedSpare k →
      (s.toConfirmed r).store.retQueue =
        s.store.retQueue ++ [s.askedEntry r.slot ((s.toConfirmed r).firstFrameOf r.slot) k] := by
  let u := s.confirming r
  have same : s.SameRetained u := s.confirming_sameRetained r
  have left := s.toConfirmed_left r
  have first : (s.toConfirmed r).firstFrameOf r.slot = u.firstFrameOf r.slot :=
    State.firstFrameOf_congr (left.recordOf (by decide) _) left.frames
  have announced : (s.toConfirmed r).store.retQueue = (s.retaining r).store.retQueue := by
    rw [State.toConfirmed_eq]
    exact (State.announce_effect _ _ _ _ _ _).retQueue
  have asked (h : (s.classOf r.slot).val = 3) : s.retaining r = u.requestRetained r.slot 1 (u.firstFrameOf r.slot) := if_pos h
  rw [first, announced]
  refine ⟨fun h => ?_, fun k h hl hk => ?_⟩
  · by_cases cls : (s.classOf r.slot).val = 3
    · have none := h.resolve_left fun c => c cls
      rw [asked cls, State.requestRetained_dropped, same.queue]
      exact none.imp (same.holds r.slot).mpr fun full k hk => full k ((same.spare k).mp hk)
    · rw [State.retaining, if_neg cls]
      exact same.queue
  · rw [asked h, State.requestRetained_accepted _ _ (fun c => hl ((same.holds r.slot).mp c)) ((same.spare k).mpr hk),
      same.queue, (s.confirming_effect r).ride]
    rfl

/-- The same, for a state that stands as another does in what the request looks at. -/
theorem State.SameRetained.toConfirmed (h : w.SameRetained u) (hr : u.ride = w.ride) (hc : u.classOf r.slot = w.classOf r.slot) :
    ((w.classOf r.slot).val ≠ 3 ∨ w.RetainedHolds r.slot ∨ (∀ k, ¬w.RetainedSpare k) →
      (u.toConfirmed r).store.retQueue = w.store.retQueue) ∧
    ∀ k, (w.classOf r.slot).val = 3 → ¬w.RetainedHolds r.slot → w.RetainedSpare k →
      (u.toConfirmed r).store.retQueue =
        w.store.retQueue ++ [w.askedEntry r.slot ((u.toConfirmed r).firstFrameOf r.slot) k] := by
  obtain ⟨kept, asked⟩ := u.toConfirmed_retQueue r
  rw [h.queue, hc] at kept asked
  have item (x : Option Frame) (k : Fin 16) : u.askedEntry r.slot x k = w.askedEntry r.slot x k := by
    rw [State.askedEntry, hr, State.askedEntry]
  refine ⟨fun c => kept (c.imp id (Or.imp (h.holds r.slot).mpr fun full k hk => full k ((h.spare k).mp hk))),
    fun k c hl hk => ?_⟩
  rw [← item]
  exact asked k c (fun x => hl ((h.holds r.slot).mp x)) ((h.spare k).mpr hk)

/-- The retained queue after a transition: a first confirmation of class 3 alone asks (R31, R127). -/
theorem State.Transition.retained {old new : QState} {m : Int} (h : State.Transition r w old m new X) :
    let asks := new = .confirmed ∧ (old = .idle ∨ old = .pending) ∧ (w.classOf r.slot).val = 3
    (¬asks ∨ w.RetainedHolds r.slot ∨ (∀ k, ¬w.RetainedSpare k) → X.store.retQueue = w.store.retQueue) ∧
    ∀ k, asks → ¬w.RetainedHolds r.slot → w.RetainedSpare k →
      X.store.retQueue = w.store.retQueue ++ [w.askedEntry r.slot (X.firstFrameOf r.slot) k] := by
  intro asks
  cases h with
  | pending =>
    exact ⟨fun _ => (w.toPending_sameRetained r).queue, fun _ c => nomatch c.1⟩
  | atOnce =>
    have wu := w.toPending_effect r
    have cls : (w.toPending r).classOf r.slot = w.classOf r.slot := by
      simp only [State.classOf, wu.adoptedProfile (by decide) r.slot]
    obtain ⟨kept, asked⟩ := (w.toPending_sameRetained r).toConfirmed (r := r) wu.ride cls
    exact ⟨fun c => kept (c.imp_left fun no hx => no ⟨rfl, .inl rfl, hx⟩), fun k c => asked k c.2.2⟩
  | confirmed =>
    obtain ⟨kept, asked⟩ := w.toConfirmed_retQueue r
    exact ⟨fun c => kept (c.imp_left fun no hx => no ⟨rfl, .inr rfl, hx⟩), fun k c => asked k c.2.2⟩
  | dropped =>
    exact ⟨fun _ => ((w.dropPending_left r).retQueue).trans (w.dropped_effect r).retQueue, fun _ c => nomatch c.1⟩
  | fading =>
    exact ⟨fun _ => ((w.toFading_left r).retQueue).trans (w.faded_effect r).retQueue, fun _ c => nomatch c.1⟩
  | recurred ho =>
    refine ⟨fun _ => ((w.recur_left r old).retQueue).trans (w.recurring_effect r).retQueue, fun _ c => ?_⟩
    rcases ho with rfl | rfl <;> simp [asks] at c

end Sys2Proof.Machine
end

