-- ==== Sys2Proof/Proofs/Working.lean ====
section
/-!
PROOFS. The visit whose report makes a transition (O60).
-/

-- Proofs in the order of the text: those that elaborate default tactic arguments at once wait for each other.
set_option Elab.async false

namespace Sys2Proof.Machine

variable {s t u v w X : State} {p : Port} {i : Slot} {r : Report}

/-- A report that changes the state makes its transition from the state in which its qualifier has matured (R22, R28). -/
theorem State.applyReport_transition {pr : Profile} (h : s.adoptedProfile r.slot = some pr)
    (moved : stateAfter s.quals[r.slot].state (matured pr r s.quals[r.slot]).m ≠ s.quals[r.slot].state) :
    ∃ w, Effect [.quals, .dirty] [] s w ∧ w.quals[r.slot].m = (matured pr r s.quals[r.slot]).m ∧
      State.Transition r w s.quals[r.slot].state (matured pr r s.quals[r.slot]).m
        (stateAfter s.quals[r.slot].state (matured pr r s.quals[r.slot]).m) (s.applyReport r) := by
  unfold State.applyReport
  rw [h]
  simp only
  generalize hw : (s.setQual r.slot (matured pr r s.quals[r.slot])).markViewIf _ = w
  have sw : Effect [.quals, .dirty] [] s w := by
    rw [← hw]
    exact (Effect.setQual s r.slot (matured pr r s.quals[r.slot]) fun x => x.matured pr r).step (State.markViewIf_effect _ _)
  have own : w.quals[r.slot] = matured pr r s.quals[r.slot] := by
    rw [← hw, (State.markViewIf_effect _ _).quals, State.setQual, Slot.get_set, if_pos rfl]
  have state : w.quals[r.slot].state = s.quals[r.slot].state := by rw [own]; rfl
  have maturity : w.quals[r.slot].m = (matured pr r s.quals[r.slot]).m := by rw [own]
  have transition := State.judge_transition (r := r) (w := w) (by rw [state, maturity]; exact moved)
  rw [state, maturity] at transition
  exact ⟨w, sw, maturity, transition⟩

/-- The accepted sample's report makes its transition (R14, R22, R28). -/
theorem State.acceptSample_transition {pr : Profile} {x : Sample} (hp : s.adoptedProfile i = some pr)
    (band : x.band.toNat % 4 ≠ 3) (hr : s.reportOf i x = r)
    (moved : stateAfter s.quals[i].state (matured pr r s.quals[i]).m ≠ s.quals[i].state) :
    ∃ w, Effect [.slots, .ram, .trail, .attn, .dirty, .quals] [] s w ∧ w.quals[i].m = (matured pr r s.quals[i]).m ∧
      State.Transition r w s.quals[i].state (matured pr r s.quals[i]).m
        (stateAfter s.quals[i].state (matured pr r s.quals[i]).m) (s.acceptSample i x) := by
  subst hr
  have sb := s.bringForward_effect i x
  have profile : (s.bringForward i x).adoptedProfile i = some pr := (sb.adoptedProfile (by decide) i).trans hp
  have transition := State.applyReport_transition (s := s.bringForward i x) (r := s.reportOf i x) profile
  rw [sb.quals] at transition
  obtain ⟨w, bw, maturity, made⟩ := transition moved
  rw [State.acceptSample_eq, if_neg band]
  exact ⟨w, sb.step bw, maturity, made⟩

/-- The bytes a capture writes for a report that brings the maturity to `m` (R66, R67). -/
def State.reportFrame (s : State) (r : Report) (m : Int) (k : FrameKind) : Frame :=
  frameBytes {
    slot := r.slot, kind := k, ride := s.ride.number, time := s.ride.time, m := m, band := r.band, detail := r.detail,
    context := r.context, codes := s.captureCodes r.slot }

/-- From `s`, by `w` with its qualifier matured, a transition to `u`, and the pass that goes on to `t`. -/
structure State.Worked (s : State) (r : Report) (pr : Profile) (old : QState) (m : Int) (new : QState) (w u t : State) :
    Prop where
  canonical : s.MemoriesCanonical
  profile   : s.adoptedProfile r.slot = some pr
  matured   : Effect [.slots, .ram, .trail, .attn, .dirty, .quals] [] s w
  maturity  : w.quals[r.slot].m = m
  made      : State.Transition r w old m new u
  after     : Effect [.passes] [] u t

section
variable {pr : Profile} {old new : QState} {m : Int}

theorem State.Worked.canonical_matured (h : s.Worked r pr old m new w u t) : w.MemoriesCanonical :=
  h.matured.keeps .memories (by decide) h.canonical

theorem State.Worked.profile_matured (h : s.Worked r pr old m new w u t) : w.adoptedProfile r.slot = some pr :=
  (h.matured.adoptedProfile (by decide) r.slot).trans h.profile

theorem State.Worked.frameNow (h : s.Worked r pr old m new w u t) (k : FrameKind) : w.frameNow r k = s.reportFrame r m k := by
  rw [State.frameNow, h.maturity, h.matured.ride, h.matured.captureCodes h.canonical]
  rfl

theorem State.Worked.frameUsed (h : s.Worked r pr old m new w u t) (f : Fin 64) : w.frameUsed f = s.frameUsed f :=
  State.frameUsed_congr (fun e => by rw [h.matured.records]) f

theorem State.Worked.room (h : s.Worked r pr old m new w u t) {e : Fin 48} {f g : Fin 64} (room : s.Room e f g) :
    w.Room e f g := by
  obtain ⟨entry, lower, first, below, next, latest, between⟩ := room
  rw [← h.matured.records] at entry lower
  exact ⟨entry, lower, (h.frameUsed f).trans first, fun x hx => (h.frameUsed x).trans (below x hx), next,
    (h.frameUsed g).trans latest, fun x hf hg => (h.frameUsed x).trans (between x hf hg)⟩

/-- The last entry, the lamp and the mark (R29, R38, R103). -/
theorem State.Worked.told (h : s.Worked r pr old m new w u t) :
    t.pub.dirty = true ∧
    t.TrailEntry (t.pub.writeCount - 1) (trailBytes s.ride.number s.ride.time (byteOf r.slot.val) (entryKind old new)
      (if new = .confirmed then byteOf ((t.recordOf r.slot).elim 0 (·.2.occurrence)) else byteOfInt m)
      (byteOf (qstateCode new))) ∧
    SameCounts (demandMoved (lampDemand pr.cls old) (lampDemand pr.cls new) (s.port (s.owner r.slot)))
      (t.port (s.owner r.slot)) := by
  obtain ⟨v, announced⟩ := h.made.announcedFrom
  obtain ⟨dirty, entry, lamp⟩ := announced.told h.canonical_matured h.profile_matured
  rw [h.matured.ride, ← h.after.recordOf (by decide) r.slot, ← h.after.trail.1] at entry
  rw [h.matured.owner] at lamp
  exact ⟨h.after.dirty.trans dirty, entry.of_ram h.after.ram,
    (((h.matured.sameCounts (by decide) _).demandMoved _ _).trans lamp).trans (h.after.sameCounts (by decide) _)⟩

/-- A record held takes the notice of a confirmation (R31, R34, R35, R50). -/
theorem State.Worked.reconfirmed (h : s.Worked r pr old m .confirmed w u t) {e : Fin 48} {y : Record} (ho : old ≠ .idle)
    (hy : s.recordOf r.slot = some (e, y)) :
    let z := confirmedRecord s.ride.number s.store.rideEnding old y
    (∃ f, t.Holds e { z with latest := f }) ∧
    (∀ f, y.latest = some f → t.Holds e z ∧ t.frames = s.frames.set f (s.reportFrame r m .latest)) ∧
    ∀ f, y.latest = none → s.frameUsed f = false → (∀ g < f, s.frameUsed g = true) →
      t.Holds e { z with latest := some f } ∧ t.frames = s.frames.set f (s.reportFrame r m .latest) := by
  intro z
  have own : w.recordOf r.slot = some (e, y) := (h.matured.recordOf (by decide) r.slot).trans hy
  have made := h.made.reconfirmed ho own h.canonical_matured
  obtain ⟨held, present, lowest⟩ := made.of_same h.after.records h.after.frames
  rw [h.matured.ride, h.matured.rideEnding] at held present lowest
  rw [h.matured.records, h.matured.frames, h.frameNow] at present lowest
  have set (x : Record) (ht : t.records = s.records.set e (some x)) : t.Holds e x := by
    rw [State.Holds, ht]
    simp
  refine ⟨held, fun f hf => ?_, fun f hn free low => ?_⟩
  · obtain ⟨records, frames⟩ := present f hf
    exact ⟨set _ records, frames⟩
  · obtain ⟨records, frames⟩ := lowest f hn ((h.frameUsed f).trans free) fun g hg => (h.frameUsed g).trans (low g hg)
    exact ⟨set _ records, frames⟩

/-- A record held is freed by a drop to IDLE, and nothing is released (R32, R52). -/
theorem State.Worked.freed (h : s.Worked r pr old m .idle w u t) {e : Fin 48} {y : Record}
    (hy : s.recordOf r.slot = some (e, y)) :
    t.records = s.records.set e none ∧ t.frames = s.frames ∧ t.store.logQueue = s.store.logQueue := by
  have made := h.made.freed ((h.matured.recordOf (by decide) r.slot).trans hy)
  rw [h.matured.records, h.matured.frames, h.matured.logQueue] at made
  rw [h.after.records, h.after.frames, h.after.logQueue]
  exact made

/-- A record held takes the notice of a fading (R33, R50). -/
theorem State.Worked.noticedFading (h : s.Worked r pr old m .fading w u t) {e : Fin 48} {y : Record}
    (hy : s.recordOf r.slot = some (e, y)) :
    t.frames = s.frames ∧ t.records = s.records.set e (some { y with
      state := .fading, fade := 0, forget := 0, activity := s.ride.number, dirty := true,
      urgent := y.urgent || s.store.rideEnding }) := by
  have made := h.made.noticedFading ((h.matured.recordOf (by decide) r.slot).trans hy)
  rw [h.matured.records, h.matured.frames, h.matured.ride, h.matured.rideEnding] at made
  rw [h.after.records, h.after.frames]
  exact made

/-- With no record held, a drop to IDLE and a fading touch none (R32, R33). -/
theorem State.Worked.untouched (h : s.Worked r pr old m new w u t) (hn : new = .idle ∨ new = .fading)
    (hy : s.recordOf r.slot = none) : t.records = s.records ∧ t.frames = s.frames := by
  have made := h.made.untouched hn ((h.matured.recordOf (by decide) r.slot).trans hy)
  rw [h.matured.records, h.matured.frames] at made
  rw [h.after.records, h.after.frames]
  exact made

theorem State.Worked.allocated (h : s.Worked r pr old m new w u t) (st : QState) : w.allocated r.slot st = {
    slot := r.slot, state := st, cls := pr.cls, occurrence := if decide (st = .confirmed) then 1 else 0,
    onset := s.ride.number, firstConf := if decide (st = .confirmed) then s.ride.number else 0,
    latestConf := if decide (st = .confirmed) then s.ride.number else 0, activity := s.ride.number, fade := 0, forget := 0,
    first := none, latest := none, persisted := false, dirty := decide (st = .confirmed),
    urgent := decide (st = .confirmed) && (decide (pr.cls = 3) || s.store.rideEnding) } := by
  simp only [State.allocated, classOf_of_adopted h.profile_matured, h.matured.ride, h.matured.rideEnding]

/-- The record an entry to PENDING allocates, with its FIRST frame (R30, R49). -/
theorem State.Worked.newPending (h : s.Worked r pr old m .pending w u t) {e : Fin 48} {f g : Fin 64}
    (hy : s.recordOf r.slot = none) (room : s.Room e f g) :
    t.frames = s.frames.set f (s.reportFrame r m .first) ∧ t.records = s.records.set e (some {
      slot := r.slot, state := .pending, cls := pr.cls, occurrence := 0, onset := s.ride.number, firstConf := 0,
      latestConf := 0, activity := s.ride.number, fade := 0, forget := 0, first := some f, latest := none,
      persisted := false, dirty := false, urgent := false }) := by
  have made := h.made.newPending ((h.matured.recordOf (by decide) r.slot).trans hy) (h.room room) h.canonical_matured
  rw [h.matured.records, h.matured.frames, h.frameNow, h.allocated] at made
  rw [h.after.records, h.after.frames]
  exact made

/-- The record an entry to CONFIRMED allocates, with both its frames (R31, R34, R49). -/
theorem State.Worked.newConfirmed (h : s.Worked r pr old m .confirmed w u t) {e : Fin 48} {f g : Fin 64}
    (hy : s.recordOf r.slot = none) (room : s.Room e f g) :
    t.frames = (s.frames.set f (s.reportFrame r m .first)).set g (s.reportFrame r m .latest) ∧
      t.records = s.records.set e (some {
        slot := r.slot, state := .confirmed, cls := pr.cls, occurrence := 1, onset := s.ride.number,
        firstConf := s.ride.number, latestConf := s.ride.number, activity := s.ride.number, fade := 0, forget := 0,
        first := some f, latest := some g, persisted := false, dirty := true,
        urgent := decide (pr.cls = 3) || s.store.rideEnding }) := by
  have made := h.made.newConfirmed ((h.matured.recordOf (by decide) r.slot).trans hy) (h.room room) h.canonical_matured
  rw [h.matured.records, h.matured.frames, h.frameNow, h.frameNow, h.allocated] at made
  rw [h.after.records, h.after.frames]
  exact made

/-- The retained entry a first confirmation of class 3 asks for (R31, R127). -/
theorem State.Worked.retained (h : s.Worked r pr old m new w u t) :
    let asks := new = .confirmed ∧ (old = .idle ∨ old = .pending) ∧ pr.cls = 3
    (¬asks ∨ s.RetainedHolds r.slot ∨ (∀ k, ¬s.RetainedSpare k) → t.store.retQueue = s.store.retQueue) ∧
    ∀ k, asks → ¬s.RetainedHolds r.slot → s.RetainedSpare k →
      t.store.retQueue = s.store.retQueue ++ [s.askedEntry r.slot (t.firstFrameOf r.slot) k] := by
  have same : s.SameRetained w := h.matured.sameRetained
  have cls : (w.classOf r.slot).val = 3 ↔ pr.cls = 3 := by
    rw [classOf_of_adopted h.profile_matured, Fin.ext_iff]
    rfl
  have item (x : Option Frame) (k : Fin 16) : w.askedEntry r.slot x k = s.askedEntry r.slot x k := by
    rw [State.askedEntry, h.matured.ride, State.askedEntry]
  have made := h.made.retained
  simp only [cls, same.holds, same.spare, same.queue, item] at made
  rw [h.after.retQueue, State.firstFrameOf_congr (h.after.recordOf (by decide) r.slot) h.after.frames]
  exact made

end

/-- Settles O60: the transition is announced last, and its record, frames and retained entry follow its row. -/
theorem transitionsDoTheirWork : Obligations.TransitionsDoTheirWork := by
  unfold Obligations.TransitionsDoTheirWork
  intro p pos i pr s hr hc hp hi hpr hen hm hband x q r m st bytes urgent moved
  let u := s.acceptSample i x
  let t := u.passFrom p (i.val + 1)
  have ready : s.enabled i = true := by rw [State.enabled, hpr]; exact hen
  obtain ⟨ho, -, -, -⟩ := (State.nextTouched_eq_some p pos i).mp hi
  have su : Effect (.slots :: engineFields) [] s u := s.acceptSample_effect i x
  have ut : Effect [.passes] [] u t := u.passFrom_effect p (i.val + 1)
  have wide : Effect (.slots :: .passes :: engineFields) [] s t := su.seq ut
  obtain ⟨w, sw, maturity, made⟩ : ∃ w, Effect [.slots, .ram, .trail, .attn, .dirty, .quals] [] s w ∧ w.quals[i].m = m ∧
      State.Transition r w q.state m st u := State.acceptSample_transition hpr hband rfl moved
  have worked : s.Worked r pr q.state m st w u t := ⟨hc, hpr, sw, maturity, made, ut⟩
  have run : exec (.slotVisit p) s = .next t := execSlotVisit_match hr hp hi ready hm
  clear_value st t
  obtain ⟨dirty, entry, lamp⟩ := worked.told
  rw [show s.owner r.slot = p from ho] at lamp
  obtain ⟨kept, asked⟩ := worked.retained
  refine ⟨t, run, dirty, ?_, lamp, fun e y hq hy => ⟨fun hst => ?_, fun hst => ?_, fun hst => ?_⟩,
    fun hy => ⟨fun hst => worked.untouched hst hy, fun e f g he hl hf hb hg hf' hb' => ?_⟩, ⟨kept, asked⟩,
    wide.ride, wide.flash, wide.sameWorld⟩
  · exact entry
  · subst hst
    exact worked.freed hy
  · subst hst
    exact worked.noticedFading hy
  · subst hst
    exact worked.reconfirmed hq hy
  · have room : s.Room e f g := ⟨he, hl, hf, hb, hg, hf', hb'⟩
    refine ⟨fun hst => ?_, fun hst => ?_⟩
    · subst hst
      exact worked.newPending hy room
    · subst hst
      exact worked.newConfirmed hy room

end Sys2Proof.Machine
end
